-- ==== Sys2Proof/Word.lean ====
section
/-! DEFINITION. The word and byte types of the system port and the array link (spec/11, 11.1: 32-bit words). -/

namespace Sys2Proof

/-- A 32-bit word of the window or of a link message (spec/11, 11.1). -/
abbrev Word := BitVec 32

/-- A byte; byte 0 of a word is its bits 7:0 (spec/11, 11.1). -/
abbrev Byte := BitVec 8

end Sys2Proof
end

