-- ==== Sys2Proof/Machine/Bits.lean ====
section
/-! DEFINITION. Bit fields of a 32-bit word: reading a field, placing a field (spec/11, 11.1: a range is high:low). -/

namespace Sys2Proof.Machine

/-- Bit `i` of a word. -/
def bit (w : Word) (i : Nat) : Bool := w.getLsbD i

/-- The `n`-bit field whose lowest bit is bit `lo` of the word. -/
def field (w : Word) (lo n : Nat) : BitVec n := w.extractLsb' lo n

/-- A word holding `x` with its lowest bit at `lo` and zero elsewhere. -/
def place {n : Nat} (x : BitVec n) (lo : Nat) : Word := x.setWidth 32 <<< lo

/-- A word holding the mark `b` at bit `lo`. -/
def mark (b : Bool) (lo : Nat) : Word := place (BitVec.ofBool b) lo

/-- A word holding the number `x` in `n` bits from bit `lo`. -/
def number (n lo x : Nat) : Word := place (BitVec.ofNat n x) lo

end Sys2Proof.Machine
end

