-- ==== Sys2Proof/Syntax.lean ====
section
/-! DEFINITION. The commands of the block: one constructor per row of spec/opcode_table.json, with the operands the
spec's text gives each (the table gives none; log 8 and log 9 say how the operands were read). -/

namespace Sys2Proof

/-- Width of an access of the system port (R187, R188). -/
inductive Width where
  | w8 | w16 | w32
  deriving DecidableEq, Repr

/-- The six event counters (spec/11, 11.3, offsets 0x070 to 0x084). -/
inductive CounterId where
  | staleDone | staleNote | range | refused | retry | wait
  deriving DecidableEq, Repr

/-- A command: an event at one of the part's interfaces or timers. -/
inductive Instr where
  /-- FULL_RESET (R192): RESET_N falls. -/
  | fullReset
  /-- RESET_RELEASE (R124): RESET_N rises. -/
  | resetRelease
  /-- LOAD_STEP (R126). -/
  | loadStep
  /-- LOAD_END (R129). -/
  | loadEnd
  /-- LINK_UP (R67). -/
  | linkUp
  /-- LINK_DOWN (R68). -/
  | linkDown
  /-- QUERY (R26): query id, kind field of the header (1 READ, 2 WRITE, others taken as WRITE), row word. -/
  | query (id : BitVec 8) (kind : BitVec 2) (row : Word)
  /-- ERR_NOTE (R70): location mark and slot, class, bit count, row word. -/
  | errNote (atSlot : Bool) (slot : Fin 64) (uncorrectable : Bool) (bits : BitVec 4) (row : Word)
  /-- UNKNOWN_MESSAGE (R69): the header of a message whose kind is none of 1, 2 and 3. -/
  | unknownMessage (header : Word)
  /-- OP_DONE (R79): tag, attempt, result code, bit count. -/
  | opDone (tag : Fin 4) (attempt : Fin 2) (result : BitVec 4) (bits : BitVec 4)
  /-- OP_TIMEOUT (R77): the timer of the OUTSTANDING tag expires. -/
  | opTimeout (tag : Fin 4)
  /-- QUARANTINE_EXPIRY (R85): the timer of the QUARANTINED tag expires. -/
  | quarantineExpiry (tag : Fin 4)
  /-- EPOCH_EXPIRY (R100). -/
  | epochExpiry
  /-- SCRUB_INTERVAL_EXPIRY (R113). -/
  | scrubIntervalExpiry
  /-- PROGRAMMING_COMPLETION (R132): how the fuse array reads the record back; `none` is "as programmed",
  `some bytes` any other reading (log 9). -/
  | programmingCompletion (readBack : Option (BitVec 64))
  /-- FUSE_SUPPLY_FALL (R133). -/
  | fuseSupplyFall
  /-- FUSE_SUPPLY_RISE (R133). -/
  | fuseSupplyRise
  /-- ABORT (R150): 1 written to CMD. -/
  | abort
  /-- RESTART (R151): 2 written to CMD. -/
  | restart
  /-- BAD_COMMAND (R150): a value that names no command, written to CMD. -/
  | badCommand (value : Word)
  /-- ENGINE_ENABLE (R144): the word written to CTRL. -/
  | engineEnable (value : Word)
  /-- SCRUB_ENABLE (R109): the word written to CTRL. -/
  | scrubEnable (value : Word)
  /-- FUSE_ENABLE (R130): the word written to CTRL. -/
  | fuseEnable (value : Word)
  /-- SELF_REPAIR_MODE (R103): the word written to CTRL. -/
  | selfRepairMode (value : Word)
  /-- POISON_ON_BAD_COPY (R147): the word written to CTRL. -/
  | poisonOnBadCopy (value : Word)
  /-- TALLYCFG_T (R99): the word written to TALLYCFG. -/
  | tallycfgT (value : Word)
  /-- TALLYCFG_L (R100): the word written to TALLYCFG. -/
  | tallycfgL (value : Word)
  /-- SCRUBCFG_I (R113): the word written to SCRUBCFG. -/
  | scrubcfgI (value : Word)
  /-- SCRUBCFG_D (R75): the word written to SCRUBCFG. -/
  | scrubcfgD (value : Word)
  /-- SCRUBCFG_CHANNEL_MASK (R116): the word written to SCRUBCFG. -/
  | scrubcfgChannelMask (value : Word)
  /-- LINKCFG_N (R76): the word written to LINKCFG. -/
  | linkcfgN (value : Word)
  /-- LINKCFG_P (R54): the word written to LINKCFG. -/
  | linkcfgP (value : Word)
  /-- GEOM_WRITE (R189): the word written to GEOM. -/
  | geomWrite (value : Word)
  /-- IRQF_WRITE (R183): the word written to IRQF. -/
  | irqfWrite (value : Word)
  /-- IRQM_WRITE (R184): the word written to IRQM. -/
  | irqmWrite (value : Word)
  /-- COUNTER_CLEAR (R191): the counter and the word written to it. -/
  | counterClear (counter : CounterId) (value : Word)
  /-- DESCRIPTOR_WRITE (R140): window offset of a descriptor word, and the word written. -/
  | descriptorWrite (offset : BitVec 14) (value : Word)
  /-- HAND_OVER (R140): offset of a descriptor's word 0, and a word with owner DEVICE. -/
  | handOver (offset : BitVec 14) (value : Word)
  /-- REVOKE (R141): offset of a descriptor's word 0, and a word with owner SOFTWARE. -/
  | revoke (offset : BitVec 14) (value : Word)
  /-- REPORT_SLOT_WRITE (R178): window offset of a report slot word, and the word written. -/
  | reportSlotWrite (offset : BitVec 14) (value : Word)
  /-- HAND_BACK (R180): offset of a report slot's word 0, and a word with owner DEVICE. -/
  | handBack (offset : BitVec 14) (value : Word)
  /-- VIEW_READ (R21, R187): a read of the window. -/
  | viewRead (offset : BitVec 14) (width : Width)
  /-- WRITE_REFUSED (R188): a write the port refuses whatever the state of the word addressed. -/
  | writeRefused (offset : BitVec 14) (width : Width) (value : Word)
  deriving DecidableEq, Repr

end Sys2Proof
end

