-- ==== Sys2Proof/Decode.lean ====
section
/-! DEFINITION. What bits spell a command. No row of spec/opcode_table.json gives bits, so no table word spells one.
The inbound link messages have a layout of their own (spec/11, 11.4.6): `decodeMessage` reads it, and
`encodeMessage` writes it. -/

namespace Sys2Proof

/-- The command a word spells by the bits of spec/opcode_table.json: its 43 rows give none, so none. -/
def decodeTableWord (_nbits _w : Nat) : Option Instr := none

/-- The command an inbound message stands for, from its header and its following word (spec/11, 11.4.6; R69).
An OP_DONE has no following word; a header of any other kind is an unknown message. -/
def decodeMessage (header word : Word) : Instr :=
  match (Machine.field header 0 4).toNat with
  | 1 => .query (Machine.field header 8 8) (Machine.field header 16 2) word
  | 2 => .errNote (Machine.bit header 4) (Machine.field header 8 6).toFin (Machine.bit header 16)
      (Machine.field header 20 4) word
  | 3 => .opDone (Machine.field header 8 2).toFin (Machine.field header 10 1).toFin (Machine.field header 12 4)
      (Machine.field header 16 4)
  | _ => .unknownMessage header

/-- The header and the further words of a message command (spec/11, 11.4.6); none for a command that is no message. -/
def encodeMessage : Instr → Option (Word × List Word)
  | .query id kind row =>
      some (Machine.number 4 0 1 ||| Machine.place id 8 ||| Machine.place kind 16, [row])
  | .errNote atSlot slot uncorrectable bits row =>
      some (Machine.number 4 0 2 ||| Machine.mark atSlot 4 ||| Machine.number 6 8 slot.val |||
        Machine.mark uncorrectable 16 ||| Machine.place bits 20, [row])
  | .opDone tag attempt result bits =>
      some (Machine.number 4 0 3 ||| Machine.number 2 8 tag.val ||| Machine.number 1 10 attempt.val |||
        Machine.place result 12 ||| Machine.place bits 16, [])
  | .unknownMessage header => some (header, [])
  | _ => none

end Sys2Proof
end

