-- ==== Sys2Proof/Config.lean ====
section
/-! DEFINITION. What the part fixes (its constants) and the one value the spec leaves open. -/

namespace Sys2Proof.Config

/-- FREE VALUE (log 7). R176: reports of different producers that arise together "are taken in either order".
`arrivalChoice n` picks, at the `n`-th such choice, which producer's oldest report the report unit takes next.
It has no body: nothing can be proved about the order it gives. -/
opaque arrivalChoice : Nat → Nat

/-- ID register (spec/11, 11.3): vendor code 0x5A, revision 0x01, part code 0x2460. -/
def idWord : Word := 0x5A012460

/-- Poison list capacity (R36). -/
def poisonCapacity : Nat := 16

/-- Candidate queue capacity (R102). -/
def queueCapacity : Nat := 8

/-- Holding queue capacity (R179). -/
def heldCapacity : Nat := 8

/-- Maximum of the event counters and of the lost count (R191, R181). -/
def counterMax : Nat := 65535

end Sys2Proof.Config
end

