-- ==== Sys2Proof/Machine/FuseRecord.lean ====
section
/-! DEFINITION. The layout of a fuse record (spec/11, 11.4.4) and its check byte (R122). A record is held as the 8 bytes
the fuse array reads, byte 0 in bits 7:0. -/

namespace Sys2Proof.Machine

/-- The 8 bytes of a fuse record as the array reads them, byte 0 in bits 7:0 (R121, R136). -/
abbrev FuseBytes := BitVec 64

/-- Byte `i` of a record. -/
def FuseBytes.byte (r : FuseBytes) (i : Nat) : Byte := r.extractLsb' (8 * i) 8

/-- Started bit: byte 0 bit 7. -/
def FuseBytes.started (r : FuseBytes) : Bool := r.getLsbD 7

/-- Finished bit: byte 0 bit 6. -/
def FuseBytes.finished (r : FuseBytes) : Bool := r.getLsbD 6

/-- A record is blank when both progress bits are unprogrammed (R121). -/
def FuseBytes.blank (r : FuseBytes) : Bool := !r.started && !r.finished

/-- Kind code: byte 0 bits 1:0; 1 MAP, 2 CONDEMN. -/
def FuseBytes.kindCode (r : FuseBytes) : BitVec 2 := r.extractLsb' 0 2

/-- Sequence: byte 1 is bits 11:4, byte 2 bits 7:4 are bits 3:0. -/
def FuseBytes.sequence (r : FuseBytes) : BitVec 12 := r.extractLsb' 8 8 ++ r.extractLsb' 20 4

/-- Slot: byte 3 bits 5:0. -/
def FuseBytes.slot (r : FuseBytes) : BitVec 6 := r.extractLsb' 24 6

/-- Victim bank: byte 4 bits 1:0. -/
def FuseBytes.victimBank (r : FuseBytes) : BitVec 2 := r.extractLsb' 32 2

/-- Victim row: byte 4 bit 7 is bit 16, byte 5 bits 15:8, byte 6 bits 7:0. -/
def FuseBytes.victimRow (r : FuseBytes) : BitVec 17 := r.extractLsb' 39 1 ++ (r.byte 5 ++ r.byte 6)

/-- The stored check: byte 7. -/
def FuseBytes.check (r : FuseBytes) : Byte := r.byte 7

/-- One bit of the CRC of R122: x⁸ + x⁶ + x³ + x² + 1 is 0x4D below its top term. -/
def FuseBytes.crcBit (c : Byte) : Byte := if c.msb then (c <<< 1) ^^^ 0x4D else c <<< 1

/-- One byte of the CRC, most significant bit first (R122). -/
def FuseBytes.crcByte (c b : Byte) : Byte :=
  crcBit (crcBit (crcBit (crcBit (crcBit (crcBit (crcBit (crcBit (c ^^^ b))))))))

/-- Byte 0 with its two progress-mark bits taken as zero (R122). -/
def FuseBytes.contentByte0 (r : FuseBytes) : Byte := r.byte 0 &&& 0x3F

/-- The CRC over bytes 0 to 6, initial value all ones (R122). -/
def FuseBytes.crc (r : FuseBytes) : Byte :=
  crcByte (crcByte (crcByte (crcByte (crcByte (crcByte (crcByte 0xFF
    r.contentByte0) (r.byte 1)) (r.byte 2)) (r.byte 3)) (r.byte 4)) (r.byte 5)) (r.byte 6)

/-- The check is good when the CRC computed from the record as read equals the check as read (R122). -/
def FuseBytes.checkGood (r : FuseBytes) : Bool := r.crc == r.check

/-- A finished record with a good check, a kind of MAP or CONDEMN and a sequence of 1 or more (R122). -/
def FuseBytes.checkValid (r : FuseBytes) : Bool :=
  r.finished && r.checkGood && (r.kindCode == 1 || r.kindCode == 2) && r.sequence != 0

/-- Byte 0 with the progress marks `s`, `f` and kind code `k`. -/
def FuseBytes.byte0 (s f : Bool) (k : BitVec 2) : Byte := BitVec.ofBool s ++ (BitVec.ofBool f ++ ((0 : BitVec 4) ++ k))

/-- A record from its content fields and its check byte, bytes 7 down to 0 (spec/11, 11.4.4). -/
def FuseBytes.assemble (s f : Bool) (k : BitVec 2) (seq : BitVec 12) (slot : BitVec 6) (bank : BitVec 2) (row : BitVec 17)
    (check : Byte) : FuseBytes :=
  check ++ (row.extractLsb' 0 8 ++ (row.extractLsb' 8 8 ++
    ((row.extractLsb' 16 1 ++ ((0 : BitVec 5) ++ bank)) ++
      (((0 : BitVec 2) ++ slot) ++ ((seq.extractLsb' 0 4 ++ (0 : BitVec 4)) ++
        (seq.extractLsb' 4 8 ++ byte0 s f k))))))

/-- The record that programming writes at the acceptance: started, not finished, with the check of R122 (R131). -/
def FuseBytes.program (k : BitVec 2) (seq : BitVec 12) (slot : BitVec 6) (bank : BitVec 2) (row : BitVec 17) : FuseBytes :=
  assemble true false k seq slot bank row (assemble true false k seq slot bank row 0).crc

/-- The record with its finished bit programmed as well (R132). -/
def FuseBytes.finish (r : FuseBytes) : FuseBytes := r ||| 0x40

/-- A reading with both progress bits programmed: what a record can read as once its programming completed. -/
def FuseBytes.asFinished (r : FuseBytes) : FuseBytes := r ||| 0xC0

end Sys2Proof.Machine
end

