-- ==== Sys2Proof/Machine/State.lean ====
section
/-! DEFINITION. The state of the block, one structure per block of spec/00 section 0.3, and its value at full reset.
INVENTORY.md lists every field with its rule and reset value. -/

namespace Sys2Proof.Machine

/-- A spare slot number 0–63 (R1). -/
abbrev SlotNum := Fin 64

/-- A tag number 0–3 (spec/04, 4.3). -/
abbrev TagNum := Fin 4

/-- A row address: the quadruple of spec/00, 0.5, in the widths of the row word (spec/11, 11.4.1). -/
structure RowAddr where
  channel : BitVec 2
  group : BitVec 2
  bank : BitVec 2
  row : BitVec 17
  deriving DecidableEq, Repr

/-- Where a row's contents reside (spec/00, 0.8 Location): the row itself, or spare slot `s`. -/
inductive Location where
  | row
  | slot (s : SlotNum)
  deriving DecidableEq, Repr

/-- A timer: stopped, or running with the duration it was last started with, in microseconds (log 5). -/
inductive Timer where
  | stopped
  | running (micros : Nat)
  deriving DecidableEq, Repr

/-- A view latch that is not empty: the entry's index and its 8 bytes (R21). -/
structure LatchEntry where
  index : Nat
  entry : BitVec 64
  deriving DecidableEq, Repr

/-- The device state (spec/07, R124, R129). -/
inductive DeviceState where
  | loading | running
  deriving DecidableEq, Repr

/-! ### Spare slot table (spec/01) -/

/-- The victim a slot record stores: bank and row; channel and bank group are the pool's (R1). -/
structure Victim where
  bank : BitVec 2
  row : BitVec 17
  deriving DecidableEq, Repr

/-- A slot record: its state, with the victim, former mark, fused mark and record index that R2 gives each state. -/
inductive SlotRec where
  | free
  | reserved (victim : Victim)
  | soft (victim : Victim)
  | committing (victim : Victim)
  | hard (victim : Victim) (record : Fin 96)
  | draining (former : Victim)
  | retired (former : Option Victim) (fusedBy : Option (Fin 96))
  deriving DecidableEq, Repr

/-- The spare slot table and its view latch. -/
structure SlotTable where
  recs : Vector SlotRec 64
  latch : Option LatchEntry
  deriving DecidableEq, Repr

/-! ### Query responder (spec/02) -/

/-- Origin of a poison entry (R36). -/
inductive Origin where
  | software | copy
  deriving DecidableEq, Repr

/-- An entry of the poison list (R36). -/
structure PoisonEntry where
  row : RowAddr
  origin : Origin
  hits : Nat
  reported : Bool
  deriving DecidableEq, Repr

/-- The query responder: poison list (oldest first), view latch, the two counters of R35. -/
structure QueryUnit where
  poison : List PoisonEntry
  latch : Option LatchEntry
  outOfRange : Nat
  waits : Nat
  deriving DecidableEq, Repr

/-! ### Migration engine (spec/03) -/

/-- Direction of a migration (R43). -/
inductive Direction where
  | forward | respare | revert
  deriving DecidableEq, Repr

/-- Phase of a migration (spec/03, 3.1). -/
inductive Phase where
  | copying | fenced
  deriving DecidableEq, Repr

/-- The migration context (spec/03, 3.1). A context without a copy tag waits for one (R46). -/
structure Context where
  direction : Direction
  victim : RowAddr
  source : Location
  target : Location
  phase : Phase
  pass : Nat
  dirty : Bool
  copyTag : Option TagNum
  issued : Nat
  badCopy : Bool
  poisonOnBad : Bool
  deriving DecidableEq, Repr

/-! ### Operation tracker and array link (spec/04) -/

/-- Owner of a tag (spec/04, 4.3). -/
inductive TagOwner where
  | migration | scrub
  deriving DecidableEq, Repr

/-- Operation kind and locations of a tag (spec/04, 4.3, R72): VERIFY has location A, COPY has A and B. -/
inductive Op where
  | verify (row : RowAddr) (a : Location)
  | copy (row : RowAddr) (a b : Location)
  deriving DecidableEq, Repr

/-- What a tag that is not FREE keeps (spec/04, 4.3). -/
structure HeldOp where
  owner : TagOwner
  op : Op
  attempt : Fin 2
  timer : Timer
  deriving DecidableEq, Repr

/-- A tag record (spec/04, 4.3); a FREE tag has all its fields cleared. -/
inductive Tag where
  | free
  | outstanding (held : HeldOp)
  | quarantined (held : HeldOp)
  deriving DecidableEq, Repr

/-- The operation tracker: four tags and the two counters of R88. -/
structure Tracker where
  tags : Vector Tag 4
  staleDone : Nat
  retries : Nat
  deriving DecidableEq, Repr

/-- The verdict of an ANSWER; SPARE carries the slot (spec/02, 2.1). -/
inductive Verdict where
  | pass
  | spare (s : SlotNum)
  | wait
  | poison
  deriving DecidableEq, Repr

/-- An outbound message (spec/04, 4.2). -/
inductive OutMsg where
  | answer (id : BitVec 8) (verdict : Verdict)
  | opReq (tag : TagNum) (attempt : Fin 2) (op : Op)
  deriving DecidableEq, Repr

/-- The array link: its state, and the messages produced that have not left, oldest first (R66, R69). -/
structure ArrayLink where
  up : Bool
  outbound : List OutMsg
  deriving DecidableEq, Repr

/-! ### Error tally (spec/05) -/

/-- State of a tally entry (spec/05, R90). -/
inductive TallyState where
  | tracking | candidate
  deriving DecidableEq, Repr

/-- A tally entry (R90). -/
structure TallyEntry where
  row : RowAddr
  loc : Location
  count : Nat
  uncorrectable : Bool
  state : TallyState
  lastEpoch : BitVec 32
  attempted : Bool
  queued : Bool
  deriving DecidableEq, Repr

/-- The error tally: table, candidate queue (head first), full-reported mark, epoch, stale-note counter, latch. -/
structure Tally where
  entries : Vector (Option TallyEntry) 32
  queue : List RowAddr
  fullReported : Bool
  epoch : BitVec 32
  epochTimer : Timer
  staleNotes : Nat
  latch : Option LatchEntry
  deriving DecidableEq, Repr

/-! ### Patrol scrubber (spec/06) -/

/-- State of the scrubber with its pause reason (R109). -/
inductive ScrubState where
  | off | running | pausedLink | pausedReports
  deriving DecidableEq, Repr

/-- The patrol scrubber. -/
structure Scrubber where
  state : ScrubState
  position : RowAddr
  passCount : BitVec 16
  timer : Timer
  waiting : Bool
  deriving DecidableEq, Repr

/-! ### Fuse store (spec/07) -/

/-- The six load counts (R123). -/
structure LoadCounts where
  installed : Nat
  superseded : Nat
  condemned : Nat
  torn : Nat
  corrupt : Nat
  conflict : Nat
  deriving DecidableEq, Repr

/-- Kind of a fuse record (R121). -/
inductive RecordKind where
  | map | condemn
  deriving DecidableEq, Repr

/-- Fuse store state (R123): LOADING with the next record to read, IDLE, or PROGRAMMING with the record in
programming. -/
inductive FuseState where
  | loading (next : Nat)
  | idle
  | programming (record : Fin 96) (kind : RecordKind) (slot : SlotNum)
  deriving DecidableEq, Repr

/-- The fuse store. The records are the one part of the state a full reset leaves as it is. -/
structure FuseStore where
  records : Vector FuseBytes 96
  writePos : Nat
  nextSeq : Nat
  counts : LoadCounts
  state : FuseState
  latch : Option LatchEntry
  deriving DecidableEq, Repr

/-! ### Job engine (spec/08, spec/09) -/

/-- A job descriptor as software reads and writes it: four words (R138, spec/11 11.4.2). -/
structure Descriptor where
  w0 : Word
  w1 : Word
  w2 : Word
  w3 : Word
  deriving DecidableEq, Repr

/-- Names a descriptor: its ring and index (R139). -/
inductive DescId where
  | urgent (k : Fin 8)
  | routine (k : Fin 24)
  deriving DecidableEq, Repr

/-- The job kinds, codes 1 to 9 (R138). -/
inductive JobKind where
  | spare | respare | unspare | promote | condemn | poison | clearPoison | dismiss | marker
  deriving DecidableEq, Repr

/-- Where the job in flight came from (R153). -/
inductive JobSource where
  | urgent | routine | selfRepair
  deriving DecidableEq, Repr

/-- The job in flight: its source, its kind and its row. A descriptor job's descriptor is its ring's head (R146). -/
structure Job where
  source : JobSource
  kind : JobKind
  row : RowAddr
  deriving DecidableEq, Repr

/-- Engine state, with the job in flight where there is one (spec/08, 8.4). -/
inductive EngineState where
  | stopped
  | idle
  | busy (job : Job)
  | restartPending (job : Job)
  deriving DecidableEq, Repr

/-- The job engine: its state, the two rings and their fetch positions. -/
structure JobEngine where
  state : EngineState
  urgent : Vector Descriptor 8
  routine : Vector Descriptor 24
  urgPos : Fin 8
  routPos : Fin 24
  deriving DecidableEq, Repr

/-- The status codes 1 to 24 of R174, in order. -/
inductive Status where
  | ok | badKind | badAddress | alreadySpared | notSpared | slotUnavailable | poolExhausted | rowBusy | fused
  | alreadyFused | fuseDisabled | fuseSupply | fuseFull | fuseAborted | fuseVerify | alreadyPoisoned | poisonFull
  | notPoisoned | notTracked | copyFailed | linkTimeout | linkLost | aborted | restarted
  deriving DecidableEq, Repr

/-! ### Report unit (spec/10) -/

/-- Source of a note (R91). -/
inductive NoteSource where
  | link | scrub
  deriving DecidableEq, Repr

/-- Queue outcome of a promotion (R98). -/
inductive QueueOutcome where
  | neither | queued | autoSkipped
  deriving DecidableEq, Repr

/-- Cause of a promotion (R98). -/
inductive PromotionCause where
  | threshold | uncorrectable | rethreshold
  deriving DecidableEq, Repr

/-- A report's kind with the row, slot and detail that kind carries (R175). -/
inductive ReportBody where
  | candidate (row : RowAddr) (loc : Location) (count : Nat) (uncorrectable : Bool) (outcome : QueueOutcome)
      (cause : PromotionCause)
  | uncorrectable (row : RowAddr) (loc : Location) (source : NoteSource) (untracked : Bool)
  | tallyFull (row : RowAddr) (loc : Location) (candidates : Nat)
  | poisonHit (row : RowAddr) (origin : Origin)
  | poisonFull (row : RowAddr) (slot : Option SlotNum) (entries : Nat)
  | autoRepair (row : RowAddr) (slot : Option SlotNum) (kind : JobKind) (status : Status) (passes : Nat)
  | scrubPass (count : BitVec 16)
  | linkChange (up : Bool)
  | fuseLoad (counts : LoadCounts) (writePos : Nat)
  | overrun (lost : Nat)
  | restartDone (completed : Nat) (source : Option JobSource)
  deriving DecidableEq, Repr

/-- A report with the epoch of the event that produced it (R175). -/
structure Report where
  body : ReportBody
  epoch : BitVec 32
  deriving DecidableEq, Repr

/-- A held report keeps the serial it received at its acceptance (R177). -/
structure HeldReport where
  report : Report
  serial : BitVec 16
  deriving DecidableEq, Repr

/-- A report slot: words 0 to 5; words 6 and 7 are zero in every record (spec/11, 11.4.3; log 10). -/
structure ReportSlot where
  w0 : Word
  w1 : Word
  w2 : Word
  w3 : Word
  w4 : Word
  w5 : Word
  deriving DecidableEq, Repr

/-- The report unit: ring, write position, holding queue (oldest first), serial counter, lost count. -/
structure ReportUnit where
  ring : Vector ReportSlot 64
  writePos : Fin 64
  held : List HeldReport
  serial : BitVec 16
  lost : Nat
  deriving DecidableEq, Repr

/-- The blocks that hand reports to the report unit (R175, "Produced by"). -/
inductive Producer where
  | queryResponder | errorTally | patrolScrubber | arrayLink | fuseStore | jobEngine
  deriving DecidableEq, Repr

/-- A report handed to the report unit in the event being taken, not yet taken by it (R176). -/
structure Arrival where
  producer : Producer
  report : Report
  deriving DecidableEq, Repr

/-! ### System port (spec/11) -/

/-- One bit per interrupt flag (R183). -/
structure IrqBits where
  jobDone : Bool
  report : Bool
  overrun : Bool
  link : Bool
  portError : Bool
  deriving DecidableEq, Repr

/-- Self-repair mode (R103). -/
inductive RepairMode where
  | off | spareOnly | spareAndRespare
  deriving DecidableEq, Repr

/-- The fields of CTRL, TALLYCFG, SCRUBCFG, LINKCFG and GEOM (spec/11, 11.3). -/
structure Settings where
  engineEnable : Bool
  scrubEnable : Bool
  fuseEnable : Bool
  mode : RepairMode
  poisonOnBad : Bool
  threshold : BitVec 4
  epochLength : BitVec 16
  interval : BitVec 16
  depth : BitVec 2
  channels : BitVec 4
  timeout : BitVec 8
  recopy : BitVec 3
  rowCode : BitVec 2
  deriving DecidableEq, Repr

/-- The port's own state: flags, mask, refused-write counter, and the data of the last read (log 15). -/
structure Port where
  flags : IrqBits
  mask : IrqBits
  refused : Nat
  readData : Word
  deriving DecidableEq, Repr

/-! ### The machine -/

/-- The whole state of the block. -/
structure State where
  /-- RESET_N is held low (R192). -/
  resetLow : Bool
  /-- Level of the pin FUSE_SUPPLY_OK (R130). -/
  supplyOk : Bool
  device : DeviceState
  config : Settings
  slots : SlotTable
  query : QueryUnit
  migration : Option Context
  tracker : Tracker
  link : ArrayLink
  tally : Tally
  scrub : Scrubber
  fuse : FuseStore
  engine : JobEngine
  reports : ReportUnit
  port : Port
  /-- MODEL's own: reports of the event being taken that the report unit has not taken yet; empty between events. -/
  arrivals : List Arrival
  /-- MODEL's own: how many choices of `Config.arrivalChoice` have been used (log 7). -/
  freeCount : Nat
  /-- Commands waiting, first in, first out. -/
  pending : List Instr
  deriving DecidableEq, Repr

/-- Faults: none. The spec gives every command an effect in every state, so no meaning stops the machine; a write the
device does not accept is a refused write it counts (R188), which is a next state. Safe: nothing is stopped. -/
inductive Fault where
  deriving DecidableEq, Repr

/-- Refusals. -/
inductive Refusal where
  /-- Raised by an arm of `exec` whose command has no meaning yet; safe, since the machine stops. -/
  | notModelled (mnemonic : String)
  deriving DecidableEq, Repr

/-- Settings after full reset (spec/11, 11.3): CTRL 0, TALLYCFG 0x02580004, SCRUBCFG 0x00F201F4, LINKCFG 0x00000314,
GEOM 2. -/
def Settings.reset : Settings where
  engineEnable := false
  scrubEnable := false
  fuseEnable := false
  mode := .off
  poisonOnBad := false
  threshold := 4
  epochLength := 600
  interval := 500
  depth := 2
  channels := 15
  timeout := 20
  recopy := 3
  rowCode := 2

/-- No flag or no mask bit. -/
def IrqBits.none : IrqBits := ⟨false, false, false, false, false⟩

/-- Every flag or every mask bit. -/
def IrqBits.all : IrqBits := ⟨true, true, true, true, true⟩

/-- A cleared descriptor: SOFTWARE-owned, kind 0 (R139). -/
def Descriptor.zero : Descriptor := ⟨0, 0, 0, 0⟩

/-- A cleared report slot: SOFTWARE-owned, kind 0 (R186). -/
def ReportSlot.zero : ReportSlot := ⟨0, 0, 0, 0, 0, 0⟩

/-- Load counts of 0 (R123). -/
def LoadCounts.zero : LoadCounts := ⟨0, 0, 0, 0, 0, 0⟩

/-- Row c0 g0 b0 row 0 (R119). -/
def RowAddr.zero : RowAddr := ⟨0, 0, 0, 0⟩

/-- The state after full reset, RESET_N still low (R22, R41, R64, R66, R79's "At full reset", R88, R108, R119, R123,
R154, R186, R192). Log 1: the fuse array is blank. Log 2: FUSE_SUPPLY_OK is low. Log 3: RESET_N is low. -/
def State.reset : State where
  resetLow := true
  supplyOk := false
  device := .loading
  config := .reset
  slots := ⟨.replicate 64 .free, none⟩
  query := ⟨[], none, 0, 0⟩
  migration := none
  tracker := ⟨.replicate 4 .free, 0, 0⟩
  link := ⟨false, []⟩
  tally := ⟨.replicate 32 none, [], false, 0, .stopped, 0, none⟩
  scrub := ⟨.off, .zero, 0, .stopped, false⟩
  fuse := ⟨.replicate 96 0, 0, 1, .zero, .loading 0, none⟩
  engine := ⟨.stopped, .replicate 8 .zero, .replicate 24 .zero, 0, 0⟩
  reports := ⟨.replicate 64 .zero, 0, [], 0, 0⟩
  port := ⟨.none, .all, 0, 0⟩
  arrivals := []
  freeCount := 0
  pending := []

end Sys2Proof.Machine
end

