-- ==== Sys2Proof/Machine/Operands.lean ====
section
/-! DEFINITION. The record layouts of spec/11, section 11.4, both ways: what a word read from software or the link
says, and what the device writes or shows. -/

namespace Sys2Proof.Machine

/-! ### Row word (11.4.1) -/

/-- The row address a row word carries; bits 31:23 are ignored on receipt (R25, R155). -/
def RowAddr.ofWord (w : Word) : RowAddr where
  channel := field w 21 2
  group := field w 19 2
  bank := field w 17 2
  row := field w 0 17

/-- The row word of a row address, bits 31:23 zero. -/
def RowAddr.toWord (r : RowAddr) : Word :=
  place r.row 0 ||| place r.bank 17 ||| place r.group 19 ||| place r.channel 21

/-- The row word with the present mark of bit 31 set. -/
def RowAddr.presentWord (r : RowAddr) : Word := r.toWord ||| mark true 31

/-- The pool number of a row: 4 × channel + bank group (spec/00, 0.5). -/
def RowAddr.pool (r : RowAddr) : Nat := 4 * r.channel.toNat + r.group.toNat

/-- The slot of index `i` in the row's pool: 4 × pool + index (spec/00, 0.5). -/
def RowAddr.slotAt (r : RowAddr) (i : Fin 4) : SlotNum := Fin.ofNat 64 (4 * r.pool + i.val)

/-- The four slots of the row's pool, in ascending order of slot index. -/
def RowAddr.poolSlots (r : RowAddr) : List SlotNum := [r.slotAt 0, r.slotAt 1, r.slotAt 2, r.slotAt 3]

/-- The bank and row a slot record stores of its victim (R1). -/
def RowAddr.victim (r : RowAddr) : Victim := ⟨r.bank, r.row⟩

/-- The full row address of a victim of slot `s`: channel and bank group are those of the slot's pool (R1). -/
def Victim.rowAt (v : Victim) (s : SlotNum) : RowAddr where
  channel := BitVec.ofNat 2 (s.val / 16)
  group := BitVec.ofNat 2 (s.val / 4 % 4)
  bank := v.bank
  row := v.row

/-! ### Locations -/

/-- The slot of a location, absent for ROW. -/
def Location.slot? : Location → Option SlotNum
  | .row => none
  | .slot s => some s

/-- The location a link message carries: mark 0 ROW, 1 SLOT with its slot number (11.4.6). -/
def Location.ofMark (atSlot : Bool) (s : SlotNum) : Location := if atSlot then .slot s else .row

/-! ### Slot record (R2) and slot view entry (11.4.5) -/

/-- State code of the slot view. -/
def SlotRec.code : SlotRec → Nat
  | .free => 0
  | .reserved _ => 1
  | .soft _ => 2
  | .committing _ => 3
  | .hard _ _ => 4
  | .draining _ => 5
  | .retired _ _ => 6

/-- The victim field, current or former (R2). -/
def SlotRec.victim : SlotRec → Option Victim
  | .free => none
  | .reserved v => some v
  | .soft v => some v
  | .committing v => some v
  | .hard v _ => some v
  | .draining v => some v
  | .retired v _ => v

/-- Victim is former (R2). -/
def SlotRec.former : SlotRec → Bool
  | .draining _ => true
  | .retired (some _) _ => true
  | _ => false

/-- Fused (R2). -/
def SlotRec.fused : SlotRec → Bool
  | .hard _ _ => true
  | .retired _ (some _) => true
  | _ => false

/-- Record index (R2). -/
def SlotRec.recordIndex : SlotRec → Option (Fin 96)
  | .hard _ i => some i
  | .retired _ i => i
  | _ => none

/-- The victim that a mapping state (SOFT, COMMITTING, HARD) maps (R3). -/
def SlotRec.mapped : SlotRec → Option Victim
  | .soft v => some v
  | .committing v => some v
  | .hard v _ => some v
  | _ => none

/-- Slot view entry of slot `s`: word 1 above word 0 (R20). -/
def SlotRec.viewEntry (r : SlotRec) (s : SlotNum) : BitVec 64 :=
  let w1 := number 3 0 r.code ||| mark r.fused 4 ||| mark r.former 5 |||
    match r.recordIndex with
    | some i => number 7 8 i.val ||| mark true 15
    | none => 0
  let w0 := match r.victim with
    | some v => (v.rowAt s).presentWord
    | none => 0
  w1 ++ w0

/-! ### Poison view entry (11.4.5) -/

/-- Origin code of the poison view and of POISON_HIT. -/
def Origin.toBool : Origin → Bool
  | .software => false
  | .copy => true

/-- Poison view entry (R40). -/
def PoisonEntry.viewEntry (e : PoisonEntry) : BitVec 64 :=
  (number 8 0 e.hits ||| mark e.origin.toBool 8 ||| mark e.reported 9) ++ e.row.presentWord

/-! ### Tally view entry (11.4.5) -/

/-- The entry counts as CANDIDATE. -/
def TallyState.toBool : TallyState → Bool
  | .tracking => false
  | .candidate => true

/-- Tally view entry (R107). The slot of an entry located at ROW is zero, the model's choice (log 24). -/
def TallyEntry.viewEntry (e : TallyEntry) : BitVec 64 :=
  let loc := match e.loc with
    | .row => 0
    | .slot s => number 6 8 s.val ||| mark true 14
  (number 4 0 e.count ||| mark e.uncorrectable 4 ||| mark e.state.toBool 5 ||| mark e.attempted 6 |||
    mark e.queued 7 ||| loc ||| place (e.lastEpoch.extractLsb' 0 16) 16) ++ e.row.presentWord

/-! ### Job descriptor (11.4.2) -/

/-- Owner DEVICE. -/
def Descriptor.device (d : Descriptor) : Bool := bit d.w0 0

/-- Kind code. -/
def Descriptor.kindCode (d : Descriptor) : BitVec 4 := field d.w0 4 4

/-- Auto slot flag. -/
def Descriptor.autoSlot (d : Descriptor) : Bool := bit d.w0 8

/-- Poison-on-bad-copy flag. -/
def Descriptor.poisonOnBad (d : Descriptor) : Bool := bit d.w0 9

/-- Permanent flag. -/
def Descriptor.permanent (d : Descriptor) : Bool := bit d.w0 10

/-- The job's row. -/
def Descriptor.row (d : Descriptor) : RowAddr := .ofWord d.w1

/-- The explicit slot, where the present mark is set. -/
def Descriptor.slot (d : Descriptor) : Option SlotNum :=
  if bit d.w2 7 then some (field d.w2 0 6).toFin else none

/-- The bits of descriptor word `i` that the layout names; the others are ignored and read zero (11.1; log 10). -/
def Descriptor.named (i : Fin 4) : Word :=
  match i with
  | 0 => 0xFFFF07F1
  | 1 => 0x007FFFFF
  | 2 => 0x000000BF
  | 3 => 0xFFFFBFFF

/-- Word `i` of a descriptor. -/
def Descriptor.word (d : Descriptor) (i : Fin 4) : Word :=
  match i with
  | 0 => d.w0
  | 1 => d.w1
  | 2 => d.w2
  | 3 => d.w3

/-- The descriptor with word `i` replaced by what software wrote, in the bits the layout names. -/
def Descriptor.setWord (d : Descriptor) (i : Fin 4) (v : Word) : Descriptor :=
  let w := v &&& Descriptor.named i
  match i with
  | 0 => { d with w0 := w }
  | 1 => { d with w1 := w }
  | 2 => { d with w2 := w }
  | 3 => { d with w3 := w }

/-- Job kind codes (11.4.2); 0 and 10–15 are undefined. -/
def JobKind.ofCode (c : BitVec 4) : Option JobKind :=
  match c.toNat with
  | 1 => some .spare
  | 2 => some .respare
  | 3 => some .unspare
  | 4 => some .promote
  | 5 => some .condemn
  | 6 => some .poison
  | 7 => some .clearPoison
  | 8 => some .dismiss
  | 9 => some .marker
  | _ => none

/-- Code of a job kind. -/
def JobKind.code : JobKind → Nat
  | .spare => 1
  | .respare => 2
  | .unspare => 3
  | .promote => 4
  | .condemn => 5
  | .poison => 6
  | .clearPoison => 7
  | .dismiss => 8
  | .marker => 9

/-- Status codes (R174). -/
def Status.code : Status → Nat
  | .ok => 1
  | .badKind => 2
  | .badAddress => 3
  | .alreadySpared => 4
  | .notSpared => 5
  | .slotUnavailable => 6
  | .poolExhausted => 7
  | .rowBusy => 8
  | .fused => 9
  | .alreadyFused => 10
  | .fuseDisabled => 11
  | .fuseSupply => 12
  | .fuseFull => 13
  | .fuseAborted => 14
  | .fuseVerify => 15
  | .alreadyPoisoned => 16
  | .poisonFull => 17
  | .notPoisoned => 18
  | .notTracked => 19
  | .copyFailed => 20
  | .linkTimeout => 21
  | .linkLost => 22
  | .aborted => 23
  | .restarted => 24

/-- A job's result: status, slot used, detail (R158). -/
structure Result where
  status : Status
  slot : Option SlotNum
  detail : Nat
  deriving DecidableEq, Repr

/-- Word 3 of a descriptor as a completion writes it (11.4.2). A slot used that is absent is zero, the model's choice (log
24). -/
def Result.word (r : Result) : Word :=
  number 8 0 r.status.code ||| number 16 16 r.detail |||
    match r.slot with
    | some s => number 6 8 s.val ||| mark true 15
    | none => 0

/-! ### Source codes (11.3, STATE0; 11.4.3, RESTART_DONE) -/

/-- 0 NONE, 1 URGENT, 2 ROUTINE, 3 SELF_REPAIR. -/
def JobSource.code : Option JobSource → Nat
  | none => 0
  | some .urgent => 1
  | some .routine => 2
  | some .selfRepair => 3

/-! ### Report record (11.4.3) -/

/-- Kind code of a report (R175). -/
def ReportBody.kindCode : ReportBody → Nat
  | .candidate .. => 1
  | .uncorrectable .. => 2
  | .tallyFull .. => 3
  | .poisonHit .. => 4
  | .poisonFull .. => 5
  | .autoRepair .. => 6
  | .scrubPass .. => 7
  | .linkChange .. => 8
  | .fuseLoad .. => 9
  | .overrun .. => 10
  | .restartDone .. => 11

/-- The row a report carries (R175). -/
def ReportBody.row : ReportBody → Option RowAddr
  | .candidate r .. => some r
  | .uncorrectable r .. => some r
  | .tallyFull r .. => some r
  | .poisonHit r .. => some r
  | .poisonFull r .. => some r
  | .autoRepair r .. => some r
  | .scrubPass .. => none
  | .linkChange .. => none
  | .fuseLoad .. => none
  | .overrun .. => none
  | .restartDone .. => none

/-- The slot a report carries (R175). -/
def ReportBody.slot : ReportBody → Option SlotNum
  | .candidate _ l .. => l.slot?
  | .uncorrectable _ l .. => l.slot?
  | .tallyFull _ l .. => l.slot?
  | .poisonHit .. => none
  | .poisonFull _ s _ => s
  | .autoRepair _ s .. => s
  | .scrubPass .. => none
  | .linkChange .. => none
  | .fuseLoad .. => none
  | .overrun .. => none
  | .restartDone .. => none

/-- Outcome code of CANDIDATE. -/
def QueueOutcome.code : QueueOutcome → Nat
  | .neither => 0
  | .queued => 1
  | .autoSkipped => 2

/-- Cause code of CANDIDATE. -/
def PromotionCause.code : PromotionCause → Nat
  | .threshold => 1
  | .uncorrectable => 2
  | .rethreshold => 3

/-- Source code of UNCORRECTABLE: 0 LINK, 1 SCRUB. -/
def NoteSource.toBool : NoteSource → Bool
  | .link => false
  | .scrub => true

/-- The four counts in the positions of FUSEPOS1 (11.3). -/
def LoadCounts.word1 (c : LoadCounts) : Word :=
  number 7 0 c.installed ||| number 7 8 c.superseded ||| number 7 16 c.condemned ||| number 7 24 c.torn

/-- CORRUPT and CONFLICT in the positions of FUSEPOS2 (11.3). -/
def LoadCounts.word2 (c : LoadCounts) : Word := number 7 0 c.corrupt ||| number 7 8 c.conflict

/-- Detail word 4 of a report (11.4.3). -/
def ReportBody.detail4 : ReportBody → Word
  | .candidate _ _ count unc outcome cause =>
      number 4 0 count ||| mark unc 4 ||| number 2 8 outcome.code ||| number 2 12 cause.code
  | .uncorrectable _ _ source untracked => mark source.toBool 0 ||| mark untracked 1
  | .tallyFull _ _ n => number 32 0 n
  | .poisonHit _ origin => mark origin.toBool 0
  | .poisonFull _ _ n => number 32 0 n
  | .autoRepair _ _ kind status passes =>
      number 4 0 kind.code ||| number 8 8 status.code ||| number 4 16 passes
  | .scrubPass n => place n 0
  | .linkChange up => mark up 0
  | .fuseLoad counts _ => counts.word1
  | .overrun n => number 16 0 n
  | .restartDone n source => number 6 0 n ||| number 2 8 (JobSource.code source)

/-- Detail word 5 of a report (11.4.3). -/
def ReportBody.detail5 : ReportBody → Word
  | .fuseLoad counts writePos => counts.word2 ||| number 7 16 writePos
  | _ => 0

/-- The slot contents the device writes when it delivers a report: owner SOFTWARE, every field (R175, R179). -/
def HeldReport.slotWords (h : HeldReport) : ReportSlot where
  w0 := number 4 4 h.report.body.kindCode ||| mark h.report.body.row.isSome 8 |||
    mark h.report.body.slot.isSome 9 ||| place h.serial 16
  w1 := match h.report.body.row with
    | some r => r.toWord
    | none => 0
  w2 := h.report.epoch
  w3 := match h.report.body.slot with
    | some s => number 6 0 s.val
    | none => 0
  w4 := h.report.body.detail4
  w5 := h.report.body.detail5

/-- Owner DEVICE of a report slot. -/
def ReportSlot.device (r : ReportSlot) : Bool := bit r.w0 0

/-- Word `i` of a report slot; words 6 and 7 are zero. -/
def ReportSlot.word (r : ReportSlot) (i : Fin 8) : Word :=
  match i with
  | 0 => r.w0
  | 1 => r.w1
  | 2 => r.w2
  | 3 => r.w3
  | 4 => r.w4
  | 5 => r.w5
  | 6 => 0
  | 7 => 0

/-- The slot with word `i` replaced by what software wrote, in the bits the layout names (11.1; log 10). -/
def ReportSlot.setWord (r : ReportSlot) (i : Fin 8) (v : Word) : ReportSlot :=
  match i with
  | 0 => { r with w0 := v &&& 0xFFFF03F1 }
  | 1 => { r with w1 := v &&& 0x007FFFFF }
  | 2 => { r with w2 := v }
  | 3 => { r with w3 := v &&& 0x0000003F }
  | 4 => { r with w4 := v }
  | 5 => { r with w5 := v }
  | 6 => r
  | 7 => r

/-! ### Outbound messages (11.4.6) -/

/-- Location mark. -/
def Location.toBool : Location → Bool
  | .row => false
  | .slot _ => true

/-- Location slot number. For ROW the layout gives it no value, and zero is the model's choice (log 24). -/
def Location.slotNumber : Location → Nat
  | .row => 0
  | .slot s => s.val

/-- Verdict code and slot of an ANSWER. -/
def Verdict.code : Verdict → Nat
  | .pass => 0
  | .spare _ => 1
  | .wait => 2
  | .poison => 3

/-- The header of an outbound message and its further words (11.4.6). -/
def OutMsg.words : OutMsg → List Word
  | .answer id v =>
      [number 4 0 8 ||| place id 8 ||| number 2 16 v.code |||
        match v with
        | .spare s => number 6 24 s.val
        | _ => 0]
  | .opReq tag attempt (.verify row a) =>
      [number 4 0 9 ||| number 2 8 tag.val ||| number 1 10 attempt.val ||| mark a.toBool 12 |||
        number 6 16 a.slotNumber, row.toWord]
  | .opReq tag attempt (.copy row a b) =>
      [number 4 0 9 ||| number 2 8 tag.val ||| number 1 10 attempt.val ||| mark true 11 ||| mark a.toBool 12 |||
        number 6 16 a.slotNumber ||| mark b.toBool 22 ||| number 6 24 b.slotNumber, row.toWord]

/-! ### Configuration registers (11.3) -/

/-- Self-repair mode code. -/
def RepairMode.code : RepairMode → Nat
  | .off => 0
  | .spareOnly => 1
  | .spareAndRespare => 2

/-- The mode of a code; 3 is out of range (R189). -/
def RepairMode.ofCode (c : BitVec 2) : Option RepairMode :=
  match c.toNat with
  | 0 => some .off
  | 1 => some .spareOnly
  | 2 => some .spareAndRespare
  | _ => none

/-- Row count R of GEOM's row code: 16,384 doubled once for each step of the code (11.3). -/
def Settings.rows (c : Settings) : Nat := 16384 * 2 ^ c.rowCode.toNat

/-- T_op in microseconds: n × 100 µs (R76). -/
def Settings.opTimeout (c : Settings) : Nat := c.timeout.toNat * 100

/-- The epoch in microseconds: L × 100 ms (R100). -/
def Settings.epochMicros (c : Settings) : Nat := c.epochLength.toNat * 100000

/-- CTRL as read. -/
def Settings.ctrlWord (c : Settings) : Word :=
  mark c.engineEnable 0 ||| mark c.scrubEnable 1 ||| mark c.fuseEnable 2 ||| number 2 4 c.mode.code |||
    mark c.poisonOnBad 6

/-- GEOM as read. -/
def Settings.geomWord (c : Settings) : Word := place c.rowCode 0

/-- TALLYCFG as read. -/
def Settings.tallyWord (c : Settings) : Word := place c.threshold 0 ||| place c.epochLength 16

/-- SCRUBCFG as read. -/
def Settings.scrubWord (c : Settings) : Word :=
  place c.interval 0 ||| place c.depth 16 ||| place c.channels 20

/-- LINKCFG as read. -/
def Settings.linkWord (c : Settings) : Word := place c.timeout 0 ||| place c.recopy 8

/-- The settings after a write of CTRL; none when the mode code is out of range (R189). -/
def Settings.writeCtrl (c : Settings) (v : Word) : Option Settings :=
  match RepairMode.ofCode (field v 4 2) with
  | none => none
  | some m => some { c with
      engineEnable := bit v 0, scrubEnable := bit v 1, fuseEnable := bit v 2, mode := m, poisonOnBad := bit v 6 }

/-- The settings after a write of TALLYCFG; none when T or L is 0 (R189). -/
def Settings.writeTally (c : Settings) (v : Word) : Option Settings :=
  if field v 0 4 = 0 ∨ field v 16 16 = 0 then none
  else some { c with threshold := field v 0 4, epochLength := field v 16 16 }

/-- The settings after a write of SCRUBCFG; none when I, D or the channel mask is 0 (R189). -/
def Settings.writeScrub (c : Settings) (v : Word) : Option Settings :=
  if field v 0 16 = 0 ∨ field v 16 2 = 0 ∨ field v 20 4 = 0 then none
  else some { c with interval := field v 0 16, depth := field v 16 2, channels := field v 20 4 }

/-- The settings after a write of LINKCFG; none when n or P is 0 (R189). -/
def Settings.writeLink (c : Settings) (v : Word) : Option Settings :=
  if field v 0 8 = 0 ∨ field v 8 3 = 0 then none
  else some { c with timeout := field v 0 8, recopy := field v 8 3 }

/-- The settings after a write of GEOM; every row code is in range (R189). -/
def Settings.writeGeom (c : Settings) (v : Word) : Settings := { c with rowCode := field v 0 2 }

/-! ### Flag and mask words (11.3) -/

/-- IRQF or IRQM as read. -/
def IrqBits.word (b : IrqBits) : Word :=
  mark b.jobDone 0 ||| mark b.report 1 ||| mark b.overrun 2 ||| mark b.link 3 ||| mark b.portError 4

/-- The five bits of a word written to IRQF or IRQM. -/
def IrqBits.ofWord (w : Word) : IrqBits := ⟨bit w 0, bit w 1, bit w 2, bit w 3, bit w 4⟩

end Sys2Proof.Machine
end

