-- ==== Sys2Proof/Machine/Flags.lean ====
section
/-! DEFINITION. Interrupt flags, the pin IRQ_N, the saturating counters and the refused write. -/

namespace Sys2Proof.Machine

/-- One more on a count that saturates at 65,535 (spec/00, 0.7; R191). -/
def satInc (n : Nat) : Nat := if n < Config.counterMax then n + 1 else n

/-- Set JOB_DONE (R148). -/
def raiseJobDone (s : State) : State :=
  { s with port := { s.port with flags := { s.port.flags with jobDone := true } } }

/-- Set REPORT (R179). -/
def raiseReport (s : State) : State :=
  { s with port := { s.port with flags := { s.port.flags with report := true } } }

/-- Set OVERRUN (R181). -/
def raiseOverrun (s : State) : State :=
  { s with port := { s.port with flags := { s.port.flags with overrun := true } } }

/-- Set LINK (R67, R68). -/
def raiseLink (s : State) : State :=
  { s with port := { s.port with flags := { s.port.flags with link := true } } }

/-- A refused write: the refused-write counter goes up by one and PORT_ERROR is set, nothing else changes (R188). -/
def refuseWrite (s : State) : State :=
  { s with port := { s.port with
      refused := satInc s.port.refused, flags := { s.port.flags with portError := true } } }

/-- Flags written with 1 are cleared, the others kept (R183). -/
def IrqBits.clear (b w : IrqBits) : IrqBits where
  jobDone := b.jobDone && !w.jobDone
  report := b.report && !w.report
  overrun := b.overrun && !w.overrun
  link := b.link && !w.link
  portError := b.portError && !w.portError

/-- At least one flag is set with its mask bit 0 (R184). -/
def irqAsserted (s : State) : Bool :=
  (s.port.flags.jobDone && !s.port.mask.jobDone) || (s.port.flags.report && !s.port.mask.report) ||
  (s.port.flags.overrun && !s.port.mask.overrun) || (s.port.flags.link && !s.port.mask.link) ||
  (s.port.flags.portError && !s.port.mask.portError)

/-- Level of the pin IRQ_N: low while asserted, released (high) otherwise (R184). -/
def State.irqN (s : State) : Bool := !irqAsserted s

/-- The value of an event counter (spec/11, 11.3). -/
def State.counter (s : State) : CounterId → Nat
  | .staleDone => s.tracker.staleDone
  | .staleNote => s.tally.staleNotes
  | .range => s.query.outOfRange
  | .refused => s.port.refused
  | .retry => s.tracker.retries
  | .wait => s.query.waits

/-- An event counter set to 0 (R191). -/
def clearCounter (c : CounterId) (s : State) : State :=
  match c with
  | .staleDone => { s with tracker := { s.tracker with staleDone := 0 } }
  | .staleNote => { s with tally := { s.tally with staleNotes := 0 } }
  | .range => { s with query := { s.query with outOfRange := 0 } }
  | .refused => { s with port := { s.port with refused := 0 } }
  | .retry => { s with tracker := { s.tracker with retries := 0 } }
  | .wait => { s with query := { s.query with waits := 0 } }

/-- The stale-completion counter goes up by one (R88). -/
def countStaleDone (s : State) : State :=
  { s with tracker := { s.tracker with staleDone := satInc s.tracker.staleDone } }

/-- The op-retry counter goes up by one (R88). -/
def countRetry (s : State) : State :=
  { s with tracker := { s.tracker with retries := satInc s.tracker.retries } }

/-- The stale-note counter goes up by one (R106). -/
def countStaleNote (s : State) : State :=
  { s with tally := { s.tally with staleNotes := satInc s.tally.staleNotes } }

/-- The out-of-range counter goes up by one (R28). -/
def countOutOfRange (s : State) : State :=
  { s with query := { s.query with outOfRange := satInc s.query.outOfRange } }

/-- The WAIT counter goes up by one (R35). -/
def countWait (s : State) : State :=
  { s with query := { s.query with waits := satInc s.query.waits } }

end Sys2Proof.Machine
end

