-- ==== Sys2Proof/Machine/Ops.lean ====
section
/-! DEFINITION. The named operations over the state's tables: reading and writing one record, the claims on the spare
slot table (spec/01) and on the poison list (spec/02), producing a report, sending a message. A claim that finds its
slot in a state it does not apply to leaves the slot unchanged (R12, R19). -/

namespace Sys2Proof.Machine

/-! ### Records of the tables -/

/-- The record of slot `k`. -/
def State.slot (s : State) (k : SlotNum) : SlotRec := s.slots.recs.get k

/-- Slot `k` set to record `r`. -/
def State.putSlot (s : State) (k : SlotNum) (r : SlotRec) : State :=
  { s with slots := { s.slots with recs := s.slots.recs.set k r } }

/-- The record of tag `t`. -/
def State.tag (s : State) (t : TagNum) : Tag := s.tracker.tags.get t

/-- Tag `t` set to record `r`. -/
def State.putTag (s : State) (t : TagNum) (r : Tag) : State :=
  { s with tracker := { s.tracker with tags := s.tracker.tags.set t r } }

/-- The four tags in ascending order. -/
def tagNumbers : List TagNum := [0, 1, 2, 3]

/-- Tally position `p`. -/
def State.entry (s : State) (p : Fin 32) : Option TallyEntry := s.tally.entries.get p

/-- Tally position `p` set to `e`. -/
def State.putEntry (s : State) (p : Fin 32) (e : Option TallyEntry) : State :=
  { s with tally := { s.tally with entries := s.tally.entries.set p e } }

/-- The 32 tally positions in ascending order. -/
def positions : List (Fin 32) := List.finRange 32

/-- A descriptor of either ring. -/
def State.desc (s : State) : DescId → Descriptor
  | .urgent k => s.engine.urgent.get k
  | .routine k => s.engine.routine.get k

/-- A descriptor of either ring set to `d`. -/
def State.putDesc (s : State) (i : DescId) (d : Descriptor) : State :=
  match i with
  | .urgent k => { s with engine := { s.engine with urgent := s.engine.urgent.set k d } }
  | .routine k => { s with engine := { s.engine with routine := s.engine.routine.set k d } }

/-- All 32 descriptors, urgent ring first, in order of index. -/
def descIds : List DescId := (List.finRange 8).map .urgent ++ (List.finRange 24).map .routine

/-- The fuse record at index `i`. -/
def State.record (s : State) (i : Fin 96) : FuseBytes := s.fuse.records.get i

/-- The fuse record at index `i` set to what the array reads now. -/
def State.putRecord (s : State) (i : Fin 96) (r : FuseBytes) : State :=
  { s with fuse := { s.fuse with records := s.fuse.records.set i r } }

/-- Report slot `k`. -/
def State.reportSlot (s : State) (k : Fin 64) : ReportSlot := s.reports.ring.get k

/-- Report slot `k` set to `r`. -/
def State.putReportSlot (s : State) (k : Fin 64) (r : ReportSlot) : State :=
  { s with reports := { s.reports with ring := s.reports.ring.set k r } }

/-- R, the row count set in GEOM. -/
def State.rows (s : State) : Nat := s.config.rows

/-- The row lies at or above R. -/
def State.outOfRange (s : State) (r : RowAddr) : Bool := s.rows ≤ r.row.toNat

/-! ### Reports and messages -/

/-- A producer hands a report to the report unit (R176); it carries the epoch of the event (R175). -/
def produce (p : Producer) (b : ReportBody) (s : State) : State :=
  { s with arrivals := s.arrivals ++ [⟨p, ⟨b, s.tally.epoch⟩⟩] }

/-- A message is produced; it leaves after those produced before it (R66, R69). -/
def send (m : OutMsg) (s : State) : State :=
  { s with link := { s.link with outbound := s.link.outbound ++ [m] } }

/-! ### The mapping (R3) -/

/-- Slot `k` maps the row: SOFT, COMMITTING or HARD with the row as its victim (R3). -/
def State.mapsAt (s : State) (r : RowAddr) (k : SlotNum) : Bool :=
  match (s.slot k).mapped with
  | some v => v.rowAt k = r
  | none => false

/-- The slot a row is mapped to (R3); it lies in the row's pool (R1). -/
def State.mappedSlot (s : State) (r : RowAddr) : Option SlotNum := r.poolSlots.find? (s.mapsAt r)

/-- The row is the victim of the migration context. -/
def State.isVictim (s : State) (r : RowAddr) : Bool :=
  match s.migration with
  | some c => c.victim = r
  | none => false

/-- The row's current location (R92). -/
def State.location (s : State) (r : RowAddr) : Location :=
  match s.migration with
  | some c => if c.victim = r then c.source else
      match s.mappedSlot r with
      | some k => .slot k
      | none => .row
  | none =>
      match s.mappedSlot r with
      | some k => .slot k
      | none => .row

/-! ### Claims on the spare slot table (spec/01) -/

/-- The FREE slot of lowest index in the row's pool (R6). -/
def State.freeSlot (s : State) (r : RowAddr) : Option SlotNum := r.poolSlots.find? (fun k => s.slot k = .free)

/-- The explicit slot lies in the row's pool and is FREE (R7). -/
def State.explicitOk (s : State) (r : RowAddr) (k : SlotNum) : Bool := k.val / 4 = r.pool && s.slot k = .free

/-- Reserve (R5): FREE to RESERVED with the victim recorded. -/
def reserve (k : SlotNum) (r : RowAddr) (s : State) : State :=
  match s.slot k with
  | .free => s.putSlot k (.reserved r.victim)
  | _ => s

/-- Switch of a target (R8, R9): RESERVED to SOFT, the victim kept. -/
def switchTarget (k : SlotNum) (s : State) : State :=
  match s.slot k with
  | .reserved v => s.putSlot k (.soft v)
  | _ => s

/-- Switch of a RESPARE source (R9): SOFT or HARD to RETIRED with the victim as former; a HARD slot keeps its fused
mark and record index. -/
def retireSource (k : SlotNum) (s : State) : State :=
  match s.slot k with
  | .soft v => s.putSlot k (.retired (some v) none)
  | .hard v i => s.putSlot k (.retired (some v) (some i))
  | _ => s

/-- Switch of a REVERT source (R10): SOFT to FREE. -/
def freeSource (k : SlotNum) (s : State) : State :=
  match s.slot k with
  | .soft _ => s.putSlot k .free
  | _ => s

/-- A COPY targeting slot `k` is held by the tracker, OUTSTANDING or QUARANTINED (R11). -/
def State.copyHeld (s : State) (k : SlotNum) : Bool :=
  tagNumbers.any fun t =>
    match s.tag t with
    | .free => false
    | .outstanding h => match h.op with
      | .copy _ _ b => b = .slot k
      | .verify _ _ => false
    | .quarantined h => match h.op with
      | .copy _ _ b => b = .slot k
      | .verify _ _ => false

/-- Abort release (R11): RESERVED to DRAINING when a COPY into the slot is held, to FREE otherwise. -/
def abortRelease (k : SlotNum) (s : State) : State :=
  match s.slot k with
  | .reserved v => s.putSlot k (if s.copyHeld k then .draining v else .free)
  | _ => s

/-- Drain release (R12): DRAINING to FREE. -/
def drainRelease (k : SlotNum) (s : State) : State :=
  match s.slot k with
  | .draining _ => s.putSlot k .free
  | _ => s

/-- Begin commit (R14): SOFT to COMMITTING. -/
def beginCommit (k : SlotNum) (s : State) : State :=
  match s.slot k with
  | .soft v => s.putSlot k (.committing v)
  | _ => s

/-- Commit outcome, verified (R15): COMMITTING to HARD by record `i`. -/
def commitGood (k : SlotNum) (i : Fin 96) (s : State) : State :=
  match s.slot k with
  | .committing v => s.putSlot k (.hard v i)
  | _ => s

/-- Commit outcome, failed (R16): COMMITTING to SOFT. -/
def commitBad (k : SlotNum) (s : State) : State :=
  match s.slot k with
  | .committing v => s.putSlot k (.soft v)
  | _ => s

/-- Condemn (R17): FREE to RETIRED with no former victim, not fused. -/
def condemn (k : SlotNum) (s : State) : State :=
  match s.slot k with
  | .free => s.putSlot k (.retired none none)
  | _ => s

/-- Condemn outcome (R17): RETIRED gets its fused mark and record index. -/
def condemnFused (k : SlotNum) (i : Fin 96) (s : State) : State :=
  match s.slot k with
  | .retired v _ => s.putSlot k (.retired v (some i))
  | _ => s

/-- Install, map (R19): FREE to HARD by record `i`. -/
def installMap (k : SlotNum) (v : Victim) (i : Fin 96) (s : State) : State :=
  match s.slot k with
  | .free => s.putSlot k (.hard v i)
  | _ => s

/-- Install, supersede (R19): HARD to RETIRED, victim former, record index of the later record `i`. -/
def installSupersede (k : SlotNum) (i : Fin 96) (s : State) : State :=
  match s.slot k with
  | .hard v _ => s.putSlot k (.retired (some v) (some i))
  | _ => s

/-- Install, condemn (R19): FREE to RETIRED, no former victim, fused by record `i`. -/
def installCondemn (k : SlotNum) (i : Fin 96) (s : State) : State :=
  match s.slot k with
  | .free => s.putSlot k (.retired none (some i))
  | _ => s

/-! ### Claims on the poison list (spec/02) -/

/-- The row is in the poison list. -/
def State.poisoned (s : State) (r : RowAddr) : Bool := s.query.poison.any (fun e => e.row = r)

/-- The row's place in the poison list, counted from 0 (R169). -/
def poisonPlace (r : RowAddr) : List PoisonEntry → Nat
  | [] => 0
  | e :: es => if e.row = r then 0 else poisonPlace r es + 1

/-- The row's poison entry. -/
def State.poisonEntry (s : State) (r : RowAddr) : Option PoisonEntry := s.query.poison.find? (fun e => e.row = r)

/-- Add claim (R37, R38): an entry at the end of the list, hit count 0, reported no. -/
def addPoison (r : RowAddr) (o : Origin) (s : State) : State :=
  { s with query := { s.query with poison := s.query.poison ++ [⟨r, o, 0, false⟩] } }

/-- Remove claim (R39): the entry goes, later entries move up in order. -/
def removePoison (r : RowAddr) (s : State) : State :=
  { s with query := { s.query with poison := s.query.poison.filter (fun e => e.row ≠ r) } }

/-- A hit on a poison entry (R29): hit count +1 saturating at 255, reported yes. -/
def PoisonEntry.hit (e : PoisonEntry) : PoisonEntry :=
  { e with hits := if e.hits < 255 then e.hits + 1 else e.hits, reported := true }

/-- The hit of R29 on the row's entry of the list. -/
def hitPoison (r : RowAddr) (s : State) : State :=
  { s with query := { s.query with
      poison := s.query.poison.map (fun e => if e.row = r then e.hit else e) } }

end Sys2Proof.Machine
end

