-- ==== Sys2Proof/Machine/FuseStore.lean ====
section
/-! DEFINITION. The fuse store (spec/07): the write position, the load step, the programming request and its ends. -/

namespace Sys2Proof.Machine

/-- The index of the first blank record from a list of records, or the list's length if none is blank (R123). -/
def firstBlankIn : List FuseBytes → Nat
  | [] => 0
  | r :: rs => if r.blank then 0 else firstBlankIn rs + 1

/-- The write position a full reset finds: the first blank index, or 96 (R123). -/
def State.firstBlank (s : State) : Nat := firstBlankIn s.fuse.records.toList

/-- The slot a record names. -/
def FuseBytes.slotNum (r : FuseBytes) : SlotNum := r.slot.toFin

/-- The victim a MAP record names (R128). -/
def FuseBytes.victim (r : FuseBytes) : Victim := ⟨r.victimBank, r.victimRow⟩

/-- The load counts set. -/
def putCounts (c : LoadCounts) (s : State) : State := { s with fuse := { s.fuse with counts := c } }

/-- TORN +1. -/
def countTorn (s : State) : State := putCounts { s.fuse.counts with torn := s.fuse.counts.torn + 1 } s

/-- CORRUPT +1. -/
def countCorrupt (s : State) : State := putCounts { s.fuse.counts with corrupt := s.fuse.counts.corrupt + 1 } s

/-- CONFLICT +1. -/
def countConflict (s : State) : State := putCounts { s.fuse.counts with conflict := s.fuse.counts.conflict + 1 } s

/-- condemned +1. -/
def countCondemned (s : State) : State :=
  putCounts { s.fuse.counts with condemned := s.fuse.counts.condemned + 1 } s

/-- superseded +1. -/
def countSuperseded (s : State) : State :=
  putCounts { s.fuse.counts with superseded := s.fuse.counts.superseded + 1 } s

/-- installed +1. -/
def countInstalled (s : State) : State :=
  putCounts { s.fuse.counts with installed := s.fuse.counts.installed + 1 } s

/-- Next sequence raised to a check-valid record's sequence plus one if that is greater (R126). -/
def raiseSequence (r : FuseBytes) (s : State) : State :=
  { s with fuse := { s.fuse with nextSeq := max s.fuse.nextSeq (r.sequence.toNat + 1) } }

/-- The slot is HARD with this victim. -/
def State.hardAt (s : State) (row : RowAddr) (k : SlotNum) : Bool :=
  match s.slot k with
  | .hard v _ => v.rowAt k = row
  | _ => false

/-- The slot in which the row is HARD; it lies in the row's pool (R128). -/
def State.hardSlot (s : State) (row : RowAddr) : Option SlotNum := row.poolSlots.find? (s.hardAt row)

/-- A check-valid CONDEMN record for its slot (R127). -/
def loadCondemn (r : FuseBytes) (i : Fin 96) (s : State) : State :=
  match s.slot r.slotNum with
  | .free => countCondemned (installCondemn r.slotNum i s)
  | _ => countConflict s

/-- A check-valid MAP record for its slot (R128). -/
def loadMap (r : FuseBytes) (i : Fin 96) (s : State) : State :=
  match s.slot r.slotNum with
  | .free =>
    match s.hardSlot (r.victim.rowAt r.slotNum) with
    | some k => countSuperseded (installMap r.slotNum r.victim i (installSupersede k i s))
    | none => countInstalled (installMap r.slotNum r.victim i s)
  | _ => countConflict s

/-- One load step: the record is classified by the first line of R126 that holds. -/
def loadRecord (i : Fin 96) (s : State) : State :=
  let r := s.record i
  if !r.finished then countTorn s
  else if !r.checkValid then countCorrupt s
  else if r.kindCode = 2 then loadCondemn r i (raiseSequence r s)
  else loadMap r i (raiseSequence r s)

/-- The next record to read moves on. -/
def putLoading (k : Nat) (s : State) : State := { s with fuse := { s.fuse with state := .loading k } }

/-! ### Programming (7.4) -/

/-- A programming request: kind, slot, and the victim for MAP (R130). -/
structure FuseRequest where
  kind : RecordKind
  slot : SlotNum
  victim : Victim
  deriving DecidableEq, Repr

/-- Kind code of a fuse record (11.4.4). -/
def RecordKind.code : RecordKind → BitVec 2
  | .map => 1
  | .condemn => 2

/-- The refusals of R130, in their order; none when the request is accepted. -/
def State.fuseRefusal (s : State) : Option Status :=
  if !s.config.fuseEnable then some .fuseDisabled
  else if !s.supplyOk then some .fuseSupply
  else if 96 ≤ s.fuse.writePos ∨ 4095 < s.fuse.nextSeq then some .fuseFull
  else none

/-- The record an accepted request programs: started, with its content fields and check (R131). -/
def FuseRequest.bytes (q : FuseRequest) (seq : Nat) : FuseBytes :=
  match q.kind with
  | .map => .program 1 (BitVec.ofNat 12 seq) (BitVec.ofNat 6 q.slot.val) q.victim.bank q.victim.row
  | .condemn => .program 2 (BitVec.ofNat 12 seq) (BitVec.ofNat 6 q.slot.val) 0 0

/-- The slot claim of an acceptance: begin commit for MAP (R14); none for CONDEMN (R131). -/
def FuseRequest.claim (q : FuseRequest) (s : State) : State :=
  match q.kind with
  | .map => beginCommit q.slot s
  | .condemn => s

/-- The acceptance of a request (R131). The record is the one at the write position; `fuseRefusal` has found that
below 96, so `Fin.ofNat` is exact. -/
def acceptRequest (q : FuseRequest) (s : State) : State :=
  let i : Fin 96 := Fin.ofNat 96 s.fuse.writePos
  let t := s.putRecord i (q.bytes s.fuse.nextSeq)
  q.claim { t with fuse := { t.fuse with
    writePos := s.fuse.writePos + 1, nextSeq := s.fuse.nextSeq + 1, state := .programming i q.kind q.slot } }

/-- The fuse store is IDLE, the record in programming absent. -/
def fuseIdle (s : State) : State := { s with fuse := { s.fuse with state := .idle } }

/-- What the record reads as once its programming completes: as programmed with the finished bit, or as the array
reads it, both progress bits programmed (R132; log 9). -/
def State.readBack (s : State) (i : Fin 96) : Option (BitVec 64) → FuseBytes
  | none => (s.record i).finish
  | some r => FuseBytes.asFinished r

/-- The slot claim at the end of programming, by kind and read-back check (R132). -/
def programmingClaim (kind : RecordKind) (good : Bool) (k : SlotNum) (i : Fin 96) (s : State) : State :=
  match kind, good with
  | .map, true => commitGood k i s
  | .map, false => commitBad k s
  | .condemn, true => condemnFused k i s
  | .condemn, false => s

/-- The slot claim when FUSE_SUPPLY_OK falls during programming (R133). -/
def supplyFallClaim (kind : RecordKind) (k : SlotNum) (s : State) : State :=
  match kind with
  | .map => commitBad k s
  | .condemn => s

end Sys2Proof.Machine
end

