-- ==== Sys2Proof/Machine/Tally.lean ====
section
/-! DEFINITION. The error tally (spec/05): note intake, counting, eviction, promotion, the candidate queue, decay and
removal. -/

namespace Sys2Proof.Machine

/-- Class of a note; a CORRECTED note carries its bit count, 1 to 8 (R70). -/
inductive NoteClass where
  | corrected (bits : Nat)
  | uncorrectable
  deriving DecidableEq, Repr

/-- A note as the tally takes it (R91). -/
structure Note where
  row : RowAddr
  loc : Location
  cls : NoteClass
  source : NoteSource
  deriving DecidableEq, Repr

/-- A bit count of 0, or greater than 8, is taken as 8 (R70, R71). -/
def bitCount (b : BitVec 4) : Nat := if b.toNat = 0 ∨ 8 < b.toNat then 8 else b.toNat

/-- The note is UNCORRECTABLE. -/
def Note.bad (n : Note) : Bool :=
  match n.cls with
  | .uncorrectable => true
  | .corrected _ => false

/-- The tally entry of a row with its position; a row appears at most once (R90). -/
def State.findEntry (s : State) (r : RowAddr) : Option (Fin 32 × TallyEntry) :=
  positions.findSome? fun p =>
    match s.entry p with
    | some e => if e.row = r then some (p, e) else none
    | none => none

/-- The free position of lowest number (R90). -/
def State.freePosition (s : State) : Option (Fin 32) := positions.find? (fun p => s.entry p = none)

/-- The entry is a TRACKING entry. -/
def TallyEntry.tracking (e : TallyEntry) : Bool := e.state = .tracking

/-- Age of an entry: the epoch counter less its last-update epoch, modulo 2³² (R95). -/
def TallyEntry.age (e : TallyEntry) (epoch : BitVec 32) : Nat := (epoch - e.lastEpoch).toNat

/-- Entry `e` is evicted rather than `f`: lower count, or equal count and older (R95). -/
def TallyEntry.weaker (epoch : BitVec 32) (e f : TallyEntry) : Bool :=
  e.count < f.count || (e.count = f.count && f.age epoch < e.age epoch)

/-- The position of the entry evicted: the weakest TRACKING entry, the lowest position among equals (R95). -/
def evictFrom (s : State) : List (Fin 32) → Option (Fin 32 × TallyEntry) → Option (Fin 32)
  | [], best => best.map (·.1)
  | p :: ps, best =>
    match s.entry p with
    | none => evictFrom s ps best
    | some e =>
      if e.tracking then
        match best with
        | none => evictFrom s ps (some (p, e))
        | some (q, f) => evictFrom s ps (if e.weaker s.tally.epoch f then some (p, e) else some (q, f))
      else evictFrom s ps best

/-- The position whose entry a new entry replaces, when a TRACKING entry exists (R95). -/
def State.evictee (s : State) : Option (Fin 32) := evictFrom s positions none

/-- The self-repair mode permits a candidate at this location (R103). -/
def RepairMode.permits (m : RepairMode) (l : Location) : Bool :=
  match m, l with
  | .off, _ => false
  | .spareOnly, .row => true
  | .spareOnly, .slot _ => false
  | .spareAndRespare, _ => true

/-- Queue outcome of a promotion (R98). -/
def State.queueOutcome (s : State) (l : Location) : QueueOutcome :=
  if s.config.mode.permits l then
    if s.tally.queue.length < Config.queueCapacity then .queued else .autoSkipped
  else .neither

/-- A row joins the tail of the candidate queue (R102). -/
def enqueue (r : RowAddr) (s : State) : State :=
  { s with tally := { s.tally with queue := s.tally.queue ++ [r] } }

/-- A row leaves the candidate queue, the rows behind it move up (R102). -/
def dequeue (r : RowAddr) (s : State) : State :=
  { s with tally := { s.tally with queue := s.tally.queue.filter (· ≠ r) } }

/-- Promotion of the entry at a position (R98): CANDIDATE, its report, and its queue decision. -/
def promote (p : Fin 32) (e : TallyEntry) (cause : PromotionCause) (s : State) : State :=
  let outcome := s.queueOutcome e.loc
  let t := produce .errorTally (.candidate e.row e.loc e.count e.uncorrectable outcome cause) s
  match outcome with
  | .queued => enqueue e.row (t.putEntry p (some { e with state := .candidate, queued := true }))
  | _ => t.putEntry p (some { e with state := .candidate })

/-- The promotion test on a TRACKING entry (R98): count at T, or seen uncorrectable. -/
def promotionTest (p : Fin 32) (e : TallyEntry) (s : State) : State :=
  if e.uncorrectable then promote p e .uncorrectable s
  else if s.config.threshold.toNat ≤ e.count then promote p e .threshold s
  else s

/-- The UNCORRECTABLE report of R97. -/
def reportUncorrectable (n : Note) (untracked : Bool) (s : State) : State :=
  produce .errorTally (.uncorrectable n.row n.loc n.source untracked) s

/-- A note counted against the entry at `p` (R93). -/
def countNote (p : Fin 32) (e : TallyEntry) (n : Note) (s : State) : State :=
  let e' : TallyEntry := { e with
    count := if e.count < 15 then e.count + 1 else e.count
    lastEpoch := s.tally.epoch
    uncorrectable := e.uncorrectable || n.bad }
  let t := s.putEntry p (some e')
  let u := if n.bad && !e.uncorrectable then reportUncorrectable n false t else t
  if e.tracking then promotionTest p e' u else u

/-- A new entry at `p` (R94). -/
def createEntry (p : Fin 32) (n : Note) (s : State) : State :=
  let e : TallyEntry := {
    row := n.row, loc := n.loc, count := 1, uncorrectable := n.bad, state := .tracking
    lastEpoch := s.tally.epoch, attempted := false, queued := false }
  let t := s.putEntry p (some e)
  promotionTest p e (if n.bad then reportUncorrectable n false t else t)

/-- A note that cannot be recorded: 32 CANDIDATE entries (R96). -/
def unrecorded (n : Note) (s : State) : State :=
  let t := if s.tally.fullReported then s
    else
      let u := produce .errorTally (.tallyFull n.row n.loc 32) s
      { u with tally := { u.tally with fullReported := true } }
  if n.bad then reportUncorrectable n true t else t

/-- An agreeing note (R93 to R96). -/
def recordNote (n : Note) (s : State) : State :=
  match s.findEntry n.row with
  | some (p, e) => countNote p e n s
  | none =>
    match s.freePosition with
    | some p => createEntry p n s
    | none =>
      match s.evictee with
      | some p => createEntry p n s
      | none => unrecorded n s

/-- The note agrees with the row's current location (R92). -/
def State.agrees (s : State) (n : Note) : Bool := n.loc = s.location n.row

/-- A note taken by the tally: the location-agreement check, then the record (R92). -/
def takeNote (n : Note) (s : State) : State :=
  if s.agrees n then recordNote n s else countStaleNote s

/-- The entry at `p` is removed: its position is free, its row leaves the queue, full-reported becomes no (R105). -/
def removeAt (p : Fin 32) (r : RowAddr) (s : State) : State :=
  let t := dequeue r (s.putEntry p none)
  { t with tally := { t.tally with fullReported := false } }

/-- The removal claim for a row (R56, R105); a row with no entry still leaves the queue (R56). -/
def forgetRow (r : RowAddr) (s : State) : State :=
  match s.findEntry r with
  | some (p, _) => removeAt p r s
  | none => dequeue r s

/-- The mark claim of a self-repair job's completion (R104). -/
def markAttempted (r : RowAddr) (s : State) : State :=
  match s.findEntry r with
  | some (p, e) => s.putEntry p (some { e with attempted := true })
  | none => s

/-- Decay of the entry at `p` (R101): a TRACKING entry loses one and is freed at 0. -/
def decayAt (p : Fin 32) (s : State) : State :=
  match s.entry p with
  | none => s
  | some e =>
    if e.tracking then
      if e.count ≤ 1 then removeAt p e.row s else s.putEntry p (some { e with count := e.count - 1 })
    else s

/-- Decay of every position (R101). -/
def decay (s : State) : State := positions.foldl (fun t p => decayAt p t) s

/-- The promotion of a threshold write at one position (R99). -/
def rethresholdAt (p : Fin 32) (s : State) : State :=
  match s.entry p with
  | none => s
  | some e =>
    if e.tracking && s.config.threshold.toNat ≤ e.count then promote p e .rethreshold s else s

/-- Every TRACKING entry at or above the new T is promoted, in ascending order of position (R99). -/
def rethreshold (s : State) : State := positions.foldl (fun t p => rethresholdAt p t) s

/-! ### Writes of the self-repair mode (R103) -/

/-- The entry at `p` leaves the candidate queue if it stands there and `keep` does not hold of its location. -/
def trimAt (keep : Location → Bool) (p : Fin 32) (s : State) : State :=
  match s.entry p with
  | none => s
  | some e =>
    if e.queued && !keep e.loc then dequeue e.row (s.putEntry p (some { e with queued := false })) else s

/-- Rows whose location `keep` rejects leave the queue. -/
def trimQueue (keep : Location → Bool) (s : State) : State := positions.foldl (fun t p => trimAt keep p t) s

/-- The entry at `p` joins the queue: CANDIDATE, not queued, permitted, not attempted, and room (R103). -/
def appendAt (p : Fin 32) (s : State) : State :=
  match s.entry p with
  | none => s
  | some e =>
    if e.state = .candidate && !e.queued && !e.attempted && s.config.mode.permits e.loc &&
        s.tally.queue.length < Config.queueCapacity then
      enqueue e.row (s.putEntry p (some { e with queued := true }))
    else s

/-- Appending in ascending order of position (R103). -/
def fillQueue (s : State) : State := positions.foldl (fun t p => appendAt p t) s

/-- Every row leaves the queue (R103, mode OFF). -/
def emptyQueue (s : State) : State :=
  let t := trimQueue (fun _ => false) s
  { t with tally := { t.tally with queue := [] } }

/-- The effect on the queue of a write that changes the mode from `old` to the mode now held (R103). -/
def applyMode (old : RepairMode) (s : State) : State :=
  match old, s.config.mode with
  | _, .off => emptyQueue s
  | .spareAndRespare, .spareOnly => trimQueue (RepairMode.permits .spareOnly) s
  | _, .spareOnly => fillQueue s
  | _, .spareAndRespare => fillQueue s

end Sys2Proof.Machine
end

