-- ==== Sys2Proof/Machine/JobCompletion.lean ====
section
/-! DEFINITION. Completing a job (spec/08, 8.7): the result written back, the fetch position, JOB_DONE, AUTO_REPAIR. -/

namespace Sys2Proof.Machine

/-- The head of the urgent ring: the descriptor at its fetch position (R143). -/
def State.urgentHead (s : State) : DescId := .urgent s.engine.urgPos

/-- The head of the routine ring (R143). -/
def State.routineHead (s : State) : DescId := .routine s.engine.routPos

/-- The job in flight, if there is one. -/
def State.jobInFlight (s : State) : Option Job :=
  match s.engine.state with
  | .stopped => none
  | .idle => none
  | .busy j => some j
  | .restartPending j => some j

/-- The descriptor in flight: its ring's head while its job is in flight (R146). -/
def State.inFlight (s : State) (i : DescId) : Bool :=
  match s.jobInFlight with
  | none => false
  | some j =>
    match j.source with
    | .urgent => i = s.urgentHead
    | .routine => i = s.routineHead
    | .selfRepair => false

/-- A descriptor with the result written and owner SOFTWARE (R148, points 1 and 2). -/
def Descriptor.complete (d : Descriptor) (r : Result) : Descriptor :=
  { d with w0 := d.w0 &&& 0xFFFFFFFE, w3 := r.word }

/-- The result fields and the owner of a descriptor are written (R148). -/
def writeResult (i : DescId) (r : Result) (s : State) : State := s.putDesc i ((s.desc i).complete r)

/-- The fetch position of the urgent ring moves forward by one, wrapping from 7 to 0 (R148). -/
def stepUrgent (s : State) : State := { s with engine := { s.engine with urgPos := s.engine.urgPos + 1 } }

/-- The fetch position of the routine ring moves forward by one, wrapping from 23 to 0 (R148). -/
def stepRoutine (s : State) : State := { s with engine := { s.engine with routPos := s.engine.routPos + 1 } }

/-- A job of the urgent ring completes (R148, points 1 to 4). -/
def completeUrgent (r : Result) (s : State) : State := raiseJobDone (stepUrgent (writeResult s.urgentHead r s))

/-- A job of the routine ring completes (R148, points 1 to 4). -/
def completeRoutine (r : Result) (s : State) : State := raiseJobDone (stepRoutine (writeResult s.routineHead r s))

/-- A self-repair job completes (R149): its AUTO_REPAIR report, then the mark claim for its row (R104). -/
def completeSelfRepair (row : RowAddr) (kind : JobKind) (r : Result) (s : State) : State :=
  markAttempted row (produce .jobEngine (.autoRepair row r.slot kind r.status r.detail) s)

/-- The result of a job goes where its source says (R148, R149). -/
def deliverResult (j : Job) (r : Result) (s : State) : State :=
  match j.source with
  | .urgent => completeUrgent r s
  | .routine => completeRoutine r s
  | .selfRepair => completeSelfRepair j.row j.kind r s

/-- The engine leaves BUSY, to IDLE or STOPPED by its enable (R144, R148 point 5). -/
def leaveBusy (s : State) : State :=
  { s with engine := { s.engine with state := if s.config.engineEnable then .idle else .stopped } }

/-- The job in flight completes with a result, and the engine leaves BUSY (R148, R149). -/
def completeInFlight (r : Result) (s : State) : State :=
  match s.jobInFlight with
  | some j => leaveBusy (deliverResult j r s)
  | none => s

end Sys2Proof.Machine
end

