-- ==== Sys2Proof/Machine/Tracker.lean ====
section
/-! DEFINITION. The operation tracker (spec/04): grant, re-issue, abandonment, release, and the checks it answers. -/

namespace Sys2Proof.Machine

/-- The tag is FREE. -/
def Tag.isFree (t : Tag) : Bool := t = .free

/-- The tag is OUTSTANDING with owner SCRUB (R74). -/
def Tag.isScrubOut : Tag → Bool
  | .outstanding h => h.owner = .scrub
  | .free => false
  | .quarantined _ => false

/-- The FREE tag with the lowest number (R73). -/
def State.freeTag (s : State) : Option TagNum := tagNumbers.find? (fun t => (s.tag t).isFree)

/-- The number of tags OUTSTANDING with owner SCRUB (R74, R75). -/
def State.scrubOutstanding (s : State) : Nat := (tagNumbers.filter (fun t => (s.tag t).isScrubOut)).length

/-- A timer started with the T_op held in LINKCFG (R76). -/
def State.opTimer (s : State) : Timer := .running s.config.opTimeout

/-- A grant (R73): the tag becomes OUTSTANDING at attempt 0 with its timer started, and the OP_REQ is produced (R72). -/
def grant (t : TagNum) (owner : TagOwner) (op : Op) (s : State) : State :=
  send (.opReq t 0 op) (s.putTag t (.outstanding ⟨owner, op, 0, s.opTimer⟩))

/-- Re-issue under attempt 1 (R77). -/
def reissue (t : TagNum) (h : HeldOp) (s : State) : State :=
  countRetry (send (.opReq t 1 h.op)
    (s.putTag t (.outstanding { h with attempt := 1, timer := s.opTimer })))

/-- The tag moves to QUARANTINED with its timer restarted, keeping the rest (R78, R83). -/
def quarantine (t : TagNum) (h : HeldOp) (s : State) : State :=
  s.putTag t (.quarantined { h with timer := s.opTimer })

/-- Abandonment (R83): an OUTSTANDING tag is quarantined; any other keeps its state and timer. -/
def abandon (t : TagNum) (s : State) : State :=
  match s.tag t with
  | .outstanding h => quarantine t h s
  | .free => s
  | .quarantined _ => s

/-- The drain release that a released operation calls for (R85): of slot `k` for a COPY with location B SLOT k. -/
def drainFor (op : Op) (s : State) : State :=
  match op with
  | .copy _ _ (.slot k) => drainRelease k s
  | .copy _ _ .row => s
  | .verify _ _ => s

/-- Release of a QUARANTINED tag (R85). -/
def release (t : TagNum) (h : HeldOp) (s : State) : State := drainFor h.op (s.putTag t .free)

/-- Link-down at one tag (R86): OUTSTANDING to FREE without a drain release, QUARANTINED released. -/
def linkDownTag (t : TagNum) (s : State) : State :=
  match s.tag t with
  | .free => s
  | .outstanding _ => s.putTag t .free
  | .quarantined h => release t h s

/-- Link-down at every tag (R86). -/
def linkDownTags (s : State) : State := tagNumbers.foldl (fun u t => linkDownTag t u) s

/-- Every OUTSTANDING tag is abandoned (R87). -/
def abandonAll (s : State) : State := tagNumbers.foldl (fun u t => abandon t u) s

/-- A QUARANTINED tag holds a COPY whose location B is ROW for this row (R44, R84). -/
def State.rowCopyHeld (s : State) (r : RowAddr) : Bool :=
  tagNumbers.any fun t =>
    match s.tag t with
    | .free => false
    | .outstanding _ => false
    | .quarantined h => match h.op with
      | .copy q _ .row => q = r
      | .copy _ _ (.slot _) => false
      | .verify _ _ => false

end Sys2Proof.Machine
end

