-- ==== Sys2Proof/Machine/Migration.lean ====
section
/-! DEFINITION. The migration engine (spec/03): the context, the completion of a pass, the switch and the abort. -/

namespace Sys2Proof.Machine

/-- Results of a COPY (11.4.6; R71: any other value is taken as FAILED). -/
inductive CopyResult where
  | done | sourceUncorrectable | failed
  deriving DecidableEq, Repr

/-- The COPY result a code carries. -/
def CopyResult.ofCode (c : BitVec 4) : CopyResult :=
  match c.toNat with
  | 1 => .done
  | 2 => .sourceUncorrectable
  | _ => .failed

/-- Slot used by the migration: the target for FORWARD and RESPARE, the source for REVERT (R57). -/
def Context.slotUsed (c : Context) : Option SlotNum :=
  match c.direction with
  | .forward => c.target.slot?
  | .respare => c.target.slot?
  | .revert => c.source.slot?

/-- A new context (R42): COPYING, pass 1, not dirty, no copy tag, none issued. -/
def Context.new (d : Direction) (victim : RowAddr) (source target : Location) (poisonOnBad : Bool) : Context where
  direction := d
  victim := victim
  source := source
  target := target
  phase := .copying
  pass := 1
  dirty := false
  copyTag := none
  issued := 0
  badCopy := false
  poisonOnBad := poisonOnBad

/-- The COPY a pass requests: location A the source, location B the target (R43, R45). -/
def Context.op (c : Context) : Op := .copy c.victim c.source c.target

/-- The context waits for a tag: it has asked for a pass and holds no copy tag (R46). -/
def State.waitsForTag (s : State) : Bool :=
  match s.migration with
  | some c => c.copyTag = none
  | none => false

/-- The context is set or deleted. -/
def State.putContext (s : State) (c : Option Context) : State := { s with migration := c }

/-- The migration engine's grant (R45): the context records the tag and counts the pass as issued. -/
def grantMigration (t : TagNum) (c : Context) (s : State) : State :=
  (grant t .migration c.op s).putContext (some { c with copyTag := some t, issued := c.issued + 1 })

/-! ### The switch (3.5) -/

/-- The switch claim on the slot table, by direction (R43, R8, R9, R10). -/
def switchSlots (c : Context) (s : State) : State :=
  match c.direction, c.source, c.target with
  | .forward, _, .slot t => switchTarget t s
  | .respare, .slot k, .slot t => retireSource k (switchTarget t s)
  | .revert, .slot k, _ => freeSource k s
  | _, _, _ => s

/-- The slot at which the victim is mapped after the switch: absent for REVERT (R38). -/
def Context.mappedAfter (c : Context) : Option SlotNum :=
  match c.direction with
  | .revert => none
  | .forward => c.target.slot?
  | .respare => c.target.slot?

/-- The add claim of a switch whose context shows bad copy and poison on bad copy (R38). -/
def switchPoison (c : Context) (s : State) : State :=
  if c.badCopy && c.poisonOnBad then
    if s.poisoned c.victim then s
    else if s.query.poison.length < Config.poisonCapacity then addPoison c.victim .copy s
    else produce .queryResponder (.poisonFull c.victim c.mappedAfter 16) s
  else s

/-- The switch (R55): slots, poison list, tally and context change together, and the job completes OK (R57). -/
def switch (c : Context) (s : State) : State :=
  completeInFlight ⟨.ok, c.slotUsed, c.issued⟩
    ((forgetRow c.victim (switchPoison c (switchSlots c s))).putContext none)

/-! ### The abort (3.6) -/

/-- The context's copy is abandoned if its tag is OUTSTANDING (R58). -/
def abandonCopy (c : Context) (s : State) : State :=
  match c.copyTag with
  | some t => abandon t s
  | none => s

/-- The abort release of the target slot, for FORWARD and RESPARE (R11, R58). -/
def releaseTarget (c : Context) (s : State) : State :=
  match c.direction, c.target with
  | .forward, .slot t => abortRelease t s
  | .respare, .slot t => abortRelease t s
  | _, _ => s

/-- The abort of a migration with the status of its cause (R58, R57). -/
def abortContext (status : Status) (c : Context) (s : State) : State :=
  completeInFlight ⟨status, c.slotUsed, c.issued⟩ ((releaseTarget c (abandonCopy c s)).putContext none)

/-- The migration, if one is active, is aborted with a status. -/
def abortMigration (status : Status) (s : State) : State :=
  match s.migration with
  | some c => abortContext status c s
  | none => s

/-! ### Completion of a pass (3.4) -/

/-- A completion that R49 sends forward, with the bad copy mark it sets: switch (R50, R53), further pass (R51), or
fence and final pass (R52, R54). -/
def passCarried (bad : Bool) (c : Context) (s : State) : State :=
  let c' := { c with copyTag := none, badCopy := bad }
  match c.phase with
  | .fenced => switch c' s
  | .copying =>
    if c.dirty then
      if c.pass < s.config.recopy.toNat then
        s.putContext (some { c' with pass := c.pass + 1, dirty := false })
      else
        s.putContext (some { c' with phase := .fenced, pass := c.pass + 1, dirty := false })
    else switch c' s

/-- The engine takes a valid completion of its COPY (R49). -/
def passCompleted (result : BitVec 4) (c : Context) (s : State) : State :=
  match CopyResult.ofCode result with
  | .done => passCarried false c s
  | .sourceUncorrectable => passCarried true c s
  | .failed => abortContext .copyFailed { c with copyTag := none } s

/-- The dirty claim of a WRITE query answered under line 5 of R26 (R47). -/
def dirtyClaim (s : State) : State :=
  match s.migration with
  | some c => s.putContext (some { c with dirty := true })
  | none => s

end Sys2Proof.Machine
end

