-- ==== Sys2Proof/Machine/Jobs.lean ====
section
/-! DEFINITION. Taking a job (spec/08, 8.5 and 8.6; spec/09): the checks of each kind in their order, the effect, and
the job arbiter. -/

namespace Sys2Proof.Machine

/-- A job as taken: the fields of its descriptor, or those of R147 for a self-repair job. -/
structure JobFields where
  kind : JobKind
  row : RowAddr
  slot : Option SlotNum
  autoSlot : Bool
  poisonOnBad : Bool
  permanent : Bool
  deriving DecidableEq, Repr

/-- What a take leads to: the job completes in the taking event, or its work has started and the engine is BUSY. -/
inductive TakeOutcome where
  | done (r : Result) (s : State)
  | started (s : State)

/-- The explicit slot: the descriptor's slot when it is present and auto slot is clear (R5). -/
def JobFields.explicit (j : JobFields) : Option SlotNum := if j.autoSlot then none else j.slot

/-- A refusal at the take of a migration job: the explicit slot if the job used explicit choice, detail 0 (R158). -/
def refuseMigration (status : Status) (explicit : Option SlotNum) (s : State) : TakeOutcome :=
  .done ⟨status, explicit, 0⟩ s

/-- The slot a reserve claim gets, or its refusal (R5, R6, R7). -/
def State.chooseSlot (s : State) (j : JobFields) : Except Status SlotNum :=
  match j.explicit with
  | some k => if s.explicitOk j.row k then .ok k else .error .slotUnavailable
  | none =>
    match s.freeSlot j.row with
    | some k => .ok k
    | none => .error .poolExhausted

/-- The reservation and the context of a SPARE or RESPARE (R5, R42, R43). -/
def startMigration (d : Direction) (j : JobFields) (source : Location) (s : State) : TakeOutcome :=
  match s.chooseSlot j with
  | .error e => refuseMigration e j.explicit s
  | .ok k => .started ((reserve k j.row s).putContext (some (.new d j.row source (.slot k) j.poisonOnBad)))

/-- SPARE (R159). -/
def takeSpare (j : JobFields) (s : State) : TakeOutcome :=
  if s.outOfRange j.row then .done ⟨.badAddress, none, 0⟩ s
  else match s.mappedSlot j.row with
    | some _ => refuseMigration .alreadySpared j.explicit s
    | none => startMigration .forward j .row s

/-- RESPARE (R161). -/
def takeRespare (j : JobFields) (s : State) : TakeOutcome :=
  if s.outOfRange j.row then .done ⟨.badAddress, none, 0⟩ s
  else match s.mappedSlot j.row with
    | none => refuseMigration .notSpared j.explicit s
    | some k =>
      match s.slot k with
      | .committing _ => refuseMigration .rowBusy j.explicit s
      | _ => startMigration .respare j (.slot k) s

/-- UNSPARE (R163): it uses no slot field. -/
def takeUnspare (j : JobFields) (s : State) : TakeOutcome :=
  if s.outOfRange j.row then .done ⟨.badAddress, none, 0⟩ s
  else match s.mappedSlot j.row with
    | none => refuseMigration .notSpared none s
    | some k =>
      match s.slot k with
      | .hard _ _ => refuseMigration .fused none s
      | .committing _ => refuseMigration .rowBusy none s
      | _ =>
        if s.rowCopyHeld j.row then refuseMigration .rowBusy none s
        else .started (s.putContext (some (.new .revert j.row (.slot k) .row j.poisonOnBad)))

/-- A programming request passed to the fuse store in the taking event (R130, R131). -/
def requestProgramming (q : FuseRequest) (s : State) : TakeOutcome :=
  match s.fuseRefusal with
  | some status => .done ⟨status, some q.slot, 0⟩ s
  | none => .started (acceptRequest q s)

/-- PROMOTE (R165). -/
def takePromote (j : JobFields) (s : State) : TakeOutcome :=
  match s.mappedSlot j.row with
  | none => .done ⟨.notSpared, none, 0⟩ s
  | some k =>
    match s.slot k with
    | .soft v => requestProgramming ⟨.map, k, v⟩ s
    | _ => .done ⟨.alreadyFused, some k, 0⟩ s

/-- CONDEMN (R167, R168). -/
def takeCondemn (j : JobFields) (s : State) : TakeOutcome :=
  match j.slot with
  | none => .done ⟨.slotUnavailable, none, 0⟩ s
  | some k =>
    match s.slot k with
    | .free =>
      if j.permanent then requestProgramming ⟨.condemn, k, ⟨0, 0⟩⟩ (condemn k s)
      else .done ⟨.ok, some k, 0⟩ (condemn k s)
    | _ => .done ⟨.slotUnavailable, some k, 0⟩ s

/-- POISON (R169). -/
def takePoison (j : JobFields) (s : State) : TakeOutcome :=
  if s.outOfRange j.row then .done ⟨.badAddress, none, 0⟩ s
  else if s.poisoned j.row then .done ⟨.alreadyPoisoned, none, poisonPlace j.row s.query.poison⟩ s
  else if s.query.poison.length < Config.poisonCapacity then
    .done ⟨.ok, none, s.query.poison.length⟩ (addPoison j.row .software s)
  else .done ⟨.poisonFull, none, 16⟩ s

/-- CLEAR_POISON (R170). -/
def takeClearPoison (j : JobFields) (s : State) : TakeOutcome :=
  match s.poisonEntry j.row with
  | some e => .done ⟨.ok, none, e.hits⟩ (removePoison j.row s)
  | none => .done ⟨.notPoisoned, none, 0⟩ s

/-- DISMISS (R171). -/
def takeDismiss (j : JobFields) (s : State) : TakeOutcome :=
  match s.findEntry j.row with
  | some (p, e) => .done ⟨.ok, none, e.count⟩ (removeAt p j.row s)
  | none => .done ⟨.notTracked, none, 0⟩ s

/-- MARKER (R172). -/
def takeMarker (s : State) : TakeOutcome := .done ⟨.ok, none, 0⟩ s

/-- The checks and the start of a job of its kind (R155). -/
def takeKind (j : JobFields) (s : State) : TakeOutcome :=
  match j.kind with
  | .spare => takeSpare j s
  | .respare => takeRespare j s
  | .unspare => takeUnspare j s
  | .promote => takePromote j s
  | .condemn => takeCondemn j s
  | .poison => takePoison j s
  | .clearPoison => takeClearPoison j s
  | .dismiss => takeDismiss j s
  | .marker => takeMarker s

/-- A job from `src` is taken: it completes at its take, or the engine becomes BUSY with it (R146, R147). -/
def runJob (source : JobSource) (j : JobFields) (s : State) : State :=
  match takeKind j s with
  | .done r t => deliverResult ⟨source, j.kind, j.row⟩ r t
  | .started t => { t with engine := { t.engine with state := .busy ⟨source, j.kind, j.row⟩ } }

/-- The job fields of a descriptor, for a kind it defines (R138, R155). -/
def Descriptor.job (d : Descriptor) (k : JobKind) : JobFields :=
  ⟨k, d.row, d.slot, d.autoSlot, d.poisonOnBad, d.permanent⟩

/-- Result BAD_KIND: slot used absent, detail 0 (R156). -/
def Result.badKind : Result := ⟨.badKind, none, 0⟩

/-- The urgent ring's head is taken (R146); an undefined kind completes BAD_KIND (R156). -/
def takeUrgent (s : State) : State :=
  let d := s.desc s.urgentHead
  match JobKind.ofCode d.kindCode with
  | some k => runJob .urgent (d.job k) s
  | none => completeUrgent .badKind s

/-- The routine ring's head is taken (R146); an undefined kind completes BAD_KIND (R156). -/
def takeRoutine (s : State) : State :=
  let d := s.desc s.routineHead
  match JobKind.ofCode d.kindCode with
  | some k => runJob .routine (d.job k) s
  | none => completeRoutine .badKind s

/-- The kind of a self-repair job for a candidate's location (R147). -/
def repairKind : Location → JobKind
  | .row => .spare
  | .slot _ => .respare

/-- The take claim on the head row `r` of the candidate queue (R104). -/
def takeClaim (r : RowAddr) (s : State) : State :=
  let t := { s with tally := { s.tally with queue := s.tally.queue.drop 1 } }
  match s.findEntry r with
  | some (p, e) => t.putEntry p (some { e with queued := false })
  | none => t

/-- The location of a candidate's tally entry (R147). -/
def State.candidateLocation (s : State) (r : RowAddr) : Location :=
  match s.findEntry r with
  | some (_, e) => e.loc
  | none => .row

/-- A self-repair job is taken for the head row of the candidate queue (R147). -/
def takeSelfRepair (r : RowAddr) (s : State) : State :=
  runJob .selfRepair ⟨repairKind (s.candidateLocation r), r, none, true, s.config.poisonOnBad, false⟩ (takeClaim r s)

/-- The urgent ring's head is ready (R143). -/
def State.urgentReady (s : State) : Bool := (s.desc s.urgentHead).device && !s.inFlight s.urgentHead

/-- The routine ring's head is ready (R143). -/
def State.routineReady (s : State) : Bool := (s.desc s.routineHead).device && !s.inFlight s.routineHead

/-- The candidate queue is served: the mode is not OFF and the queue holds a row (R145). -/
def State.candidateHead (s : State) : Option RowAddr :=
  match s.config.mode with
  | .off => none
  | .spareOnly => s.tally.queue.head?
  | .spareAndRespare => s.tally.queue.head?

/-- One decision of the job arbiter with the engine IDLE (R145); none when no source is ready. -/
def arbiterTake (s : State) : Option State :=
  if s.urgentReady then some (takeUrgent s)
  else match s.candidateHead with
    | some r => some (takeSelfRepair r s)
    | none =>
      if s.routineReady then some (takeRoutine s)
      else none

/-- The job arbiter acts until the engine is not IDLE or no source is ready: jobs that complete at their take are
taken one after another in one event (R148). -/
def runArbiter : Nat → State → State
  | 0, s => s
  | fuel + 1, s =>
    match s.engine.state with
    | .idle =>
      match arbiterTake s with
      | some t => runArbiter fuel t
      | none => s
    | .stopped => s
    | .busy _ => s
    | .restartPending _ => s

/-- Every take uses up a DEVICE-owned descriptor or a queued row, so 32 descriptors and the queue bound the takes. -/
def arbiterFuel (s : State) : Nat := 33 + s.tally.queue.length

/-- The job arbiter in an event (R145). -/
def settleJobs (s : State) : State := runArbiter (arbiterFuel s) s

end Sys2Proof.Machine
end

