-- ==== Sys2Proof/Machine/Reports.lean ====
section
/-! DEFINITION. The report unit (spec/10): acceptance, the ring, the holding queue, loss and OVERRUN, the drain of a
hand-back, and the order in which it takes the reports of one event. -/

namespace Sys2Proof.Machine

/-- The slot at the write position is DEVICE-owned. -/
def State.slotReady (s : State) : Bool := (s.reportSlot s.reports.writePos).device

/-- A report is written into the ring at the write position, which moves on, and REPORT is set (R179). -/
def writeRing (h : HeldReport) (s : State) : State :=
  let t := s.putReportSlot s.reports.writePos h.slotWords
  raiseReport { t with reports := { t.reports with writePos := t.reports.writePos + 1 } }

/-- The serial counter goes up by one and wraps (R177). -/
def nextSerial (s : State) : State := { s with reports := { s.reports with serial := s.reports.serial + 1 } }

/-- A report is appended at the tail of the holding queue with the next serial (R177, R179). -/
def hold (r : Report) (s : State) : State :=
  nextSerial { s with reports := { s.reports with held := s.reports.held ++ [⟨r, s.reports.serial⟩] } }

/-- A report is lost: the lost count goes up, and its first loss sets OVERRUN (R181). -/
def loseReport (s : State) : State :=
  let t := { s with reports := { s.reports with lost := satInc s.reports.lost } }
  if s.reports.lost = 0 then raiseOverrun t else t

/-- The arrival of one report: straight to the ring, held, or lost (R179). -/
def arrive (r : Report) (s : State) : State :=
  if s.reports.held = [] ∧ s.slotReady = true then nextSerial (writeRing ⟨r, s.reports.serial⟩ s)
  else if s.reports.held.length < Config.heldCapacity then hold r s
  else loseReport s

/-- The OVERRUN report of R181: appended when reports were lost and the queue has room; the lost count returns to 0. -/
def appendOverrun (s : State) : State :=
  if 0 < s.reports.lost ∧ s.reports.held.length < Config.heldCapacity then
    let t := hold ⟨.overrun s.reports.lost, s.tally.epoch⟩ s
    { t with reports := { t.reports with lost := 0 } }
  else s

/-- The drain of a hand-back (R180): while the slot at the write position is DEVICE-owned and a report is held, the
oldest moves into it, and a pending OVERRUN is appended directly after the move that makes room (R181). -/
def drain : Nat → State → State
  | 0, s => s
  | fuel + 1, s =>
    match s.reports.held with
    | [] => s
    | h :: rest =>
      if s.slotReady then
        drain fuel (appendOverrun (writeRing h { s with reports := { s.reports with held := rest } }))
      else s

/-- Enough fuel to empty the holding queue, an OVERRUN report included. -/
def drainFuel (s : State) : Nat := s.reports.held.length + 1

/-! ### The order of the arrivals of one event (R176) -/

/-- The producers that have a report waiting, each once, in the order their first reports were produced. -/
def producersOf : List Arrival → List Producer
  | [] => []
  | a :: as => a.producer :: (producersOf as).filter (· ≠ a.producer)

/-- The oldest report of producer `p`, and the reports without it. -/
def takeFrom (p : Producer) : List Arrival → Option (Arrival × List Arrival)
  | [] => none
  | a :: as =>
    if a.producer = p then some (a, as)
    else match takeFrom p as with
      | some (b, bs) => some (b, a :: bs)
      | none => none

/-- The order in which the report unit takes the reports of one event (R176): reports of one producer in the order it
produced them; which producer comes next is the free value of log 7, used from choice `n` on. The second component
is the next unused choice. -/
def orderArrivals : Nat → Nat → List Arrival → List Arrival × Nat
  | 0, n, l => (l, n)
  | fuel + 1, n, l =>
    match producersOf l with
    | [] => (l, n)
    | [_] => (l, n)
    | p :: q :: ps =>
      let all := p :: q :: ps
      let pick := (all[Config.arrivalChoice n % all.length]?).getD p
      match takeFrom pick l with
      | none => (l, n)
      | some (a, rest) =>
        let next := orderArrivals fuel (n + 1) rest
        (a :: next.1, next.2)

/-- Each report of the list arrives, in order. -/
def arriveAll : List Arrival → State → State
  | [], s => s
  | a :: as, s => arriveAll as (arrive a.report s)

/-- The report unit takes the reports handed to it in this event (R176, R179). -/
def takeArrivals (s : State) : State :=
  let o := orderArrivals s.arrivals.length s.freeCount s.arrivals
  arriveAll o.1 { s with arrivals := [], freeCount := o.2 }

end Sys2Proof.Machine
end

