-- ==== Sys2Proof/Machine/Scrub.lean ====
section
/-! DEFINITION. The patrol scrubber (spec/06), the tag arbiter (R74), and what ends an event: the job arbiter, the tag
arbiter, the arrivals at the report unit and the scrubber's state (log 12). -/

namespace Sys2Proof.Machine

/-! ### State and timer -/

/-- The interval timer started with the I held in SCRUBCFG (R110, R113). -/
def State.intervalTimer (s : State) : Timer := .running s.config.interval.toNat

/-- The state that R109 gives the scrubber. -/
def State.scrubTarget (s : State) : ScrubState :=
  if s.device = .loading ∨ s.config.scrubEnable = false then .off
  else if s.link.up = false then .pausedLink
  else if Config.heldCapacity ≤ s.reports.held.length then .pausedReports
  else .running

/-- The scrubber's state is decided again (R109); entering RUNNING starts the timer, leaving it stops the timer and
withdraws the request (R110). A state that stays changes nothing. -/
def decideScrub (s : State) : State :=
  if s.scrub.state = s.scrubTarget then s
  else if s.scrubTarget = .running then
    { s with scrub := { s.scrub with state := .running, timer := s.intervalTimer } }
  else { s with scrub := { s.scrub with state := s.scrubTarget, timer := .stopped, waiting := false } }

/-! ### The walk (6.2) -/

/-- The channel is set in the mask. -/
def channelSet (mask : BitVec 4) (c : Nat) : Bool := mask.getLsbD c

/-- The lowest channel set in the mask (R111). -/
def lowestChannel (mask : BitVec 4) : BitVec 2 :=
  if channelSet mask 0 then 0 else if channelSet mask 1 then 1 else if channelSet mask 2 then 2 else 3

/-- The next channel above `c` that is set in the mask, if there is one (R111). -/
def nextChannel (mask : BitVec 4) (c : BitVec 2) : Option (BitVec 2) :=
  ([1, 2, 3] : List (BitVec 2)).find? (fun d => c.toNat < d.toNat && channelSet mask d.toNat)

/-- Row 0, bank 0, bank group 0 of a channel. -/
def RowAddr.channelStart (c : BitVec 2) : RowAddr := ⟨c, 0, 0, 0⟩

/-- The start of the walk (R111). -/
def State.walkStart (s : State) : RowAddr := .channelStart (lowestChannel s.config.channels)

/-- The advance of a position, with whether it wraps and ends a pass (R111, R112). -/
def advanceFrom (rows : Nat) (mask : BitVec 4) (p : RowAddr) : RowAddr × Bool :=
  if p.row.toNat + 1 < rows then ({ p with row := p.row + 1 }, false)
  else if p.bank.toNat < 3 then ({ p with row := 0, bank := p.bank + 1 }, false)
  else if p.group.toNat < 3 then ({ p with row := 0, bank := 0, group := p.group + 1 }, false)
  else match nextChannel mask p.channel with
    | some c => (.channelStart c, false)
    | none => (.channelStart (lowestChannel mask), true)

/-- The scrub position set. -/
def putPosition (p : RowAddr) (s : State) : State := { s with scrub := { s.scrub with position := p } }

/-- The position advances; a wrap ends the pass, counts it and produces SCRUB_PASS (R111, R112). -/
def advance (s : State) : State :=
  let a := advanceFrom s.rows s.config.channels s.scrub.position
  let t := putPosition a.1 s
  if a.2 then
    produce .patrolScrubber (.scrubPass (s.scrub.passCount + 1))
      { t with scrub := { t.scrub with passCount := s.scrub.passCount + 1 } }
  else t

/-- The location a VERIFY of the row names (R114). -/
def State.verifyLocation (s : State) (r : RowAddr) : Location :=
  match s.mappedSlot r with
  | some k => .slot k
  | none => .row

/-- The row is skipped: poisoned, or the victim of the migration context (R114). -/
def State.skips (s : State) (r : RowAddr) : Bool := s.poisoned r || s.isVictim r

/-- The issue opportunity with tag `t` granted (R113, R114): VERIFY or skip, advance, timer restarted. -/
def opportunity (t : TagNum) (s : State) : State :=
  let r := s.scrub.position
  let u := if s.skips r then s else grant t .scrub (.verify r (s.verifyLocation r)) s
  let v := advance u
  { v with scrub := { v.scrub with waiting := false, timer := v.intervalTimer } }

/-! ### The tag arbiter (R74) -/

/-- Line 1 of R74: the waiting migration engine is granted the lowest FREE tag. -/
def serveMigration (s : State) : State :=
  match s.migration with
  | none => s
  | some c =>
    if c.copyTag = none then
      match s.freeTag with
      | some t => grantMigration t c s
      | none => s
    else s

/-- Line 2 of R74: the waiting scrubber, when the engine is not waiting, a tag is FREE and the depth allows it. -/
def serveScrub (s : State) : State :=
  if s.scrub.waiting = true ∧ s.waitsForTag = false ∧ s.scrubOutstanding < s.config.depth.toNat then
    match s.freeTag with
    | some t => opportunity t s
    | none => s
  else s

/-- The tag arbiter's decisions in one event: the engine first, then the scrubber, and no grant while the link is DOWN
(R74). A granted scrubber stops waiting, so one decision for each party is all the event can hold. -/
def settleTags (s : State) : State :=
  if s.link.up then serveScrub (serveMigration s) else s

/-! ### The end of an event (log 12) -/

/-- The report unit takes the event's reports, and the scrubber judges the holding queue as it then stands (R182).
An event without a report leaves the queue and the scrubber as they are. -/
def settleReports (s : State) : State := if s.arrivals = [] then s else decideScrub (takeArrivals s)

/-- The tag arbiter, then the reports. -/
def settleOps (s : State) : State := settleReports (settleTags s)

/-- The job arbiter, the tag arbiter, the reports. A job taken may have made the migration engine wait, and a migration
ended may have ceased to: R74's first event for a waiting party may be this one (log 14). -/
def settle (s : State) : State := settleOps (settleJobs s)

end Sys2Proof.Machine
end

