-- ==== Sys2Proof/Machine/Restart.lean ====
section
/-! DEFINITION. The engine restart (R152) and the end of a programming operation. -/

namespace Sys2Proof.Machine

/-- Result RESTARTED of a descriptor that was not in flight: slot absent, detail 0 (R158). -/
def Result.restarted : Result := ⟨.restarted, none, 0⟩

/-- A DEVICE-owned descriptor is completed RESTARTED (R152 step 2). -/
def restartDesc (i : DescId) (s : State) : State :=
  if (s.desc i).device then writeResult i .restarted s else s

/-- Step 2 of R152 over both rings. -/
def restartDescs (s : State) : State := descIds.foldl (fun t i => restartDesc i t) s

/-- How many descriptors are DEVICE-owned. -/
def State.deviceOwned (s : State) : Nat := (descIds.filter (fun i => (s.desc i).device)).length

/-- Both fetch positions become 0 (R152 step 3). -/
def zeroPositions (s : State) : State := { s with engine := { s.engine with urgPos := 0, routPos := 0 } }

/-- The engine's state after a restart (R152 step 7). -/
def restartEngine (s : State) : State :=
  { s with engine := { s.engine with
      state := if s.config.engineEnable = true ∧ s.device = .running then .idle else .stopped } }

/-- The scrubber at a restart (R119): the position moves to the start; a RUNNING scrubber withdraws its request and
restarts its timer. -/
def restartScrub (s : State) : State :=
  let t := putPosition s.walkStart s
  if s.scrub.state = .running then
    { t with scrub := { t.scrub with waiting := false, timer := t.intervalTimer } }
  else t

/-- JOB_DONE is set if at least one descriptor completed (R152 step 4). -/
def raiseIfAny (n : Nat) (s : State) : State := if 0 < n then raiseJobDone s else s

/-- The descriptors that a restart completes with RESTARTED: every DEVICE-owned one, the one in flight included
(R152 step 6). -/
def restartBody (source : Option JobSource) (n : Nat) (s : State) : State :=
  let t := restartScrub (abandonAll (raiseIfAny n (zeroPositions (restartDescs s))))
  restartEngine (produce .jobEngine (.restartDone n source) t)

/-- The engine restart (R152), without the arbitrations that follow it. Step 1 aborts the migration, whose job
completes RESTARTED (R60). -/
def runRestart (s : State) : State :=
  restartBody (s.jobInFlight.map (·.source)) s.deviceOwned (abortMigration .restarted s)

/-- The engine holds a restart as RESTART_PENDING. -/
def State.restartHeld (s : State) : Bool :=
  match s.engine.state with
  | .restartPending _ => true
  | .stopped => false
  | .idle => false
  | .busy _ => false

/-- The programming job completes with its outcome; a pending restart runs after the completion (R151). -/
def endProgramming (r : Result) (s : State) : State :=
  let t := completeInFlight r s
  if s.restartHeld then runRestart t else t

end Sys2Proof.Machine
end

