-- ==== Sys2Proof/Machine/Port.lean ====
section
/-! DEFINITION. The system port (spec/11): what a window offset addresses, reads with the view latches (R187), and
accepted and refused writes (R188). -/

namespace Sys2Proof.Machine

/-- The registers of spec/11, 11.3. -/
inductive Reg where
  | id | ctrl | cmd | irqf | irqm | geom | tallycfg | scrubcfg | linkcfg | state0 | state1 | state2 | urgpos | routpos
  | rptpos | fusepos0 | fusepos1 | fusepos2 | epoch | scrubpos0 | scrubpos1
  | counter (c : CounterId)
  deriving DecidableEq, Repr

/-- What the word at an offset is (spec/11, 11.1). A view word is word 0 (`false`) or word 1 (`true`) of an entry. -/
inductive Region where
  | reg (r : Reg)
  | desc (d : DescId) (w : Fin 4)
  | report (k : Fin 64) (w : Fin 8)
  | slotView (i : Fin 64) (w1 : Bool)
  | tallyView (i : Fin 32) (w1 : Bool)
  | queueView (j : Fin 8)
  | poisonView (i : Fin 16) (w1 : Bool)
  | fuseView (i : Fin 96) (w1 : Bool)
  | unmapped
  deriving DecidableEq, Repr

/-- The register at an offset of the register region (11.3). -/
def regAt (a : Nat) : Option Reg :=
  match a with
  | 0x000 => some .id
  | 0x004 => some .ctrl
  | 0x008 => some .cmd
  | 0x00C => some .irqf
  | 0x010 => some .irqm
  | 0x014 => some .geom
  | 0x018 => some .tallycfg
  | 0x01C => some .scrubcfg
  | 0x020 => some .linkcfg
  | 0x030 => some .state0
  | 0x034 => some .state1
  | 0x038 => some .state2
  | 0x040 => some .urgpos
  | 0x044 => some .routpos
  | 0x048 => some .rptpos
  | 0x050 => some .fusepos0
  | 0x054 => some .fusepos1
  | 0x058 => some .fusepos2
  | 0x060 => some .epoch
  | 0x064 => some .scrubpos0
  | 0x068 => some .scrubpos1
  | 0x070 => some (.counter .staleDone)
  | 0x074 => some (.counter .staleNote)
  | 0x078 => some (.counter .range)
  | 0x07C => some (.counter .refused)
  | 0x080 => some (.counter .retry)
  | 0x084 => some (.counter .wait)
  | _ => none

/-- The offset of a counter (11.3). -/
def counterOffset : CounterId → BitVec 14
  | .staleDone => 0x070
  | .staleNote => 0x074
  | .range => 0x078
  | .refused => 0x07C
  | .retry => 0x080
  | .wait => 0x084

/-- What the word containing offset `a` is (11.1). -/
def regionOf (a : Nat) : Region :=
  if a < 0x100 then
    match regAt (a / 4 * 4) with
    | some r => .reg r
    | none => .unmapped
  else if 0x400 ≤ a ∧ a < 0x480 then .desc (.urgent (Fin.ofNat 8 ((a - 0x400) / 16))) (Fin.ofNat 4 (a / 4))
  else if 0x500 ≤ a ∧ a < 0x680 then .desc (.routine (Fin.ofNat 24 ((a - 0x500) / 16))) (Fin.ofNat 4 (a / 4))
  else if 0x800 ≤ a ∧ a < 0x1000 then .report (Fin.ofNat 64 ((a - 0x800) / 32)) (Fin.ofNat 8 (a / 4))
  else if 0x1000 ≤ a ∧ a < 0x1200 then .slotView (Fin.ofNat 64 ((a - 0x1000) / 8)) (a / 4 % 2 == 1)
  else if 0x1400 ≤ a ∧ a < 0x1500 then .tallyView (Fin.ofNat 32 ((a - 0x1400) / 8)) (a / 4 % 2 == 1)
  else if 0x1600 ≤ a ∧ a < 0x1620 then .queueView (Fin.ofNat 8 ((a - 0x1600) / 4))
  else if 0x1700 ≤ a ∧ a < 0x1780 then .poisonView (Fin.ofNat 16 ((a - 0x1700) / 8)) (a / 4 % 2 == 1)
  else if 0x2000 ≤ a ∧ a < 0x2300 then .fuseView (Fin.ofNat 96 ((a - 0x2000) / 8)) (a / 4 % 2 == 1)
  else .unmapped

/-! ### Register values -/

/-- Code of the engine state (STATE0). -/
def EngineState.code : EngineState → Nat
  | .stopped => 0
  | .idle => 1
  | .busy _ => 2
  | .restartPending _ => 3

/-- Code of the fuse store state (STATE0). -/
def FuseState.code : FuseState → Nat
  | .loading _ => 0
  | .idle => 1
  | .programming _ _ _ => 2

/-- STATE0: device, engine, fuse store (11.3). Without a record in programming its index reads zero, the model's choice
(log 24). -/
def State.state0 (s : State) : Word :=
  mark (s.device = .running) 0 ||| number 2 2 s.engine.state.code |||
  (match s.jobInFlight with
    | some j => number 2 4 (JobSource.code (some j.source)) ||| number 4 8 j.kind.code
    | none => 0) |||
  number 2 12 s.fuse.state.code |||
  match s.fuse.state with
    | .programming i _ _ => number 7 16 i.val ||| mark true 23
    | .loading _ => 0
    | .idle => 0

/-- Code of a direction (STATE1). -/
def Direction.code : Direction → Nat
  | .forward => 1
  | .respare => 2
  | .revert => 3

/-- Code of the scrubber state (STATE1). -/
def ScrubState.code : ScrubState → Nat
  | .off => 0
  | .running => 1
  | .pausedLink => 2
  | .pausedReports => 3

/-- STATE1: migration context and scrubber; context fields read 0 when no context exists (11.3). The copy tag of a context
that holds none reads zero, the model's choice (log 24). -/
def State.state1 (s : State) : Word :=
  (match s.migration with
    | none => 0
    | some c =>
      mark true 0 ||| number 2 1 c.direction.code ||| mark (c.phase = .fenced) 3 ||| number 4 4 c.pass |||
      match c.copyTag with
      | some t => mark true 8 ||| number 2 9 t.val
      | none => 0) |||
  number 3 16 s.scrub.state.code

/-- The four bits of a tag in STATE2: state, owner, attempt; owner and attempt 0 when FREE (11.3). -/
def Tag.nibble : Tag → Nat
  | .free => 0
  | .outstanding h => 1 + (if h.owner = .scrub then 4 else 0) + 8 * h.attempt.val
  | .quarantined h => 2 + (if h.owner = .scrub then 4 else 0) + 8 * h.attempt.val

/-- STATE2: link and tags (11.3). -/
def State.state2 (s : State) : Word :=
  mark s.link.up 0 ||| number 4 8 (s.tag 0).nibble ||| number 4 12 (s.tag 1).nibble |||
    number 4 16 (s.tag 2).nibble ||| number 4 20 (s.tag 3).nibble

/-- The value a read of a register returns (11.3). -/
def State.regValue (s : State) : Reg → Word
  | .id => Config.idWord
  | .ctrl => s.config.ctrlWord
  | .cmd => 0
  | .irqf => s.port.flags.word
  | .irqm => s.port.mask.word
  | .geom => s.config.geomWord
  | .tallycfg => s.config.tallyWord
  | .scrubcfg => s.config.scrubWord
  | .linkcfg => s.config.linkWord
  | .state0 => s.state0
  | .state1 => s.state1
  | .state2 => s.state2
  | .urgpos => number 3 0 s.engine.urgPos.val
  | .routpos => number 5 0 s.engine.routPos.val
  | .rptpos => number 6 0 s.reports.writePos.val ||| number 4 8 s.reports.held.length ||| number 16 16 s.reports.lost
  | .fusepos0 => number 7 0 s.fuse.writePos ||| number 13 16 s.fuse.nextSeq
  | .fusepos1 => s.fuse.counts.word1
  | .fusepos2 => s.fuse.counts.word2
  | .epoch => s.tally.epoch
  | .scrubpos0 => s.scrub.position.toWord
  | .scrubpos1 => place s.scrub.passCount 0
  | .counter c => number 16 0 (s.counter c)

/-! ### View entries -/

/-- Entry `i` of the slot view (R20). -/
def State.slotEntry (s : State) (i : Fin 64) : BitVec 64 := (s.slot i).viewEntry i

/-- Entry `i` of the tally view (R107); a free position reads zero. -/
def State.tallyEntry (s : State) (i : Fin 32) : BitVec 64 :=
  match s.entry i with
  | some e => e.viewEntry
  | none => 0

/-- Entry `i` of the poison view (R40); beyond the list's length it reads zero. -/
def State.poisonViewEntry (s : State) (i : Fin 16) : BitVec 64 :=
  match s.query.poison[i.val]? with
  | some e => e.viewEntry
  | none => 0

/-- Entry `j` of the candidate queue view (R107). -/
def State.queueEntry (s : State) (j : Fin 8) : Word :=
  match s.tally.queue[j.val]? with
  | some r => r.presentWord
  | none => 0

/-- Word 0 or word 1 of an 8-byte entry. -/
def entryWord (e : BitVec 64) (w1 : Bool) : Word := if w1 then e.extractLsb' 32 32 else e.extractLsb' 0 32

/-! ### Reads -/

/-- The number of bytes of an access. -/
def accessBytes : Width → Nat
  | .w8 => 1
  | .w16 => 2
  | .w32 => 4

/-- The latch rule of a view (R21, R187): the word returned, and the latch after the read. `entry` is the entry as it
stands at the read; `top` says that the read includes the highest byte of the word. -/
def latchRead (latch : Option LatchEntry) (i : Nat) (entry : BitVec 64) (w1 top : Bool) :
    Word × Option LatchEntry :=
  if w1 then
    match latch with
    | some l =>
      if l.index = i then (entryWord l.entry true, if top then none else latch)
      else (entryWord entry true, latch)
    | none => (entryWord entry true, none)
  else (entryWord entry false, some ⟨i, entry⟩)

/-- The word a read of a region returns, and the state with the view's latch after it (R187). -/
def readRegion (g : Region) (top : Bool) (s : State) : Word × State :=
  match g with
  | .reg r => (s.regValue r, s)
  | .desc d w => ((s.desc d).word w, s)
  | .report k w => ((s.reportSlot k).word w, s)
  | .slotView i w1 =>
      let x := latchRead s.slots.latch i.val (s.slotEntry i) w1 top
      (x.1, { s with slots := { s.slots with latch := x.2 } })
  | .tallyView i w1 =>
      let x := latchRead s.tally.latch i.val (s.tallyEntry i) w1 top
      (x.1, { s with tally := { s.tally with latch := x.2 } })
  | .queueView j => (s.queueEntry j, s)
  | .poisonView i w1 =>
      let x := latchRead s.query.latch i.val (s.poisonViewEntry i) w1 top
      (x.1, { s with query := { s.query with latch := x.2 } })
  | .fuseView i w1 =>
      let x := latchRead s.fuse.latch i.val (s.record i) w1 top
      (x.1, { s with fuse := { s.fuse with latch := x.2 } })
  | .unmapped => (0, s)

/-- The addressed bytes of a word: `n` bytes from byte lane `lane`, in the low bits (log 15). -/
def lanes (w : Word) (lane n : Nat) : Word := (w >>> (8 * lane)) &&& (BitVec.allOnes 32 >>> (32 - 8 * n))

/-- The data of the read stands on the bus. -/
def putReadData (v : Word) (s : State) : State := { s with port := { s.port with readData := v } }

/-- The offset is aligned to the access's own size (R187). -/
def alignedTo (a : BitVec 14) (w : Width) : Bool := a.toNat % accessBytes w = 0

/-- A read of the window (R187): aligned reads return the addressed bytes; a misaligned read returns 0. DESIGN CHOICE
(log 23): a misaligned read leaves every view latch as it is, whatever bytes of a view entry it touches. -/
def portRead (a : BitVec 14) (w : Width) (s : State) : State :=
  if alignedTo a w then
    let lane := a.toNat % 4
    let x := readRegion (regionOf a.toNat) (lane + accessBytes w = 4) s
    putReadData (lanes x.1 lane (accessBytes w)) x.2
  else putReadData 0 s

/-! ### Writes of the configuration registers (R189, R190) -/

/-- The engine follows its enable (R144): STOPPED to IDLE while RUNNING, IDLE to STOPPED, a job in flight untouched. -/
def applyEngineEnable (s : State) : State :=
  match s.engine.state with
  | .stopped =>
    if s.config.engineEnable = true ∧ s.device = .running then { s with engine := { s.engine with state := .idle } }
    else s
  | .idle => if s.config.engineEnable then s else { s with engine := { s.engine with state := .stopped } }
  | .busy _ => s
  | .restartPending _ => s

/-- The settings take new values. -/
def putSettings (c : Settings) (s : State) : State := { s with config := c }

/-- An accepted write of CTRL (R190): the mode acts on the queue, then the enables on the engine and the scrubber;
the job arbiter's decision finds both as they then are. A field that keeps its value has no effect. -/
def acceptCtrl (c : Settings) (s : State) : State :=
  let t := putSettings c s
  let u := if c.mode = s.config.mode then t else applyMode s.config.mode t
  let v := if c.engineEnable = s.config.engineEnable then u else applyEngineEnable u
  let w := if c.scrubEnable = s.config.scrubEnable then v else decideScrub v
  if c.mode = s.config.mode ∧ c.engineEnable = s.config.engineEnable then w else settle w

/-- A write of CTRL (R188, R190). -/
def writeCtrl (v : Word) (s : State) : State :=
  match s.config.writeCtrl v with
  | none => refuseWrite s
  | some c => acceptCtrl c s

/-- The epoch timer starts with the L held (R100). -/
def startEpoch (s : State) : State :=
  { s with tally := { s.tally with epochTimer := .running s.config.epochMicros } }

/-- An accepted write of TALLYCFG (R99, R100). -/
def acceptTally (c : Settings) (s : State) : State :=
  let t := putSettings c s
  let u := if c.epochLength = s.config.epochLength then t else startEpoch t
  if c.threshold = s.config.threshold then u else settle (rethreshold u)

/-- A write of TALLYCFG. -/
def writeTally (v : Word) (s : State) : State :=
  match s.config.writeTally v with
  | none => refuseWrite s
  | some c => acceptTally c s

/-- The next channel in ascending order that is set in the mask, wrapping to the lowest (R116). -/
def channelAfter (mask : BitVec 4) (c : BitVec 2) : BitVec 2 := (nextChannel mask c).getD (lowestChannel mask)

/-- The position moves off a channel that the mask clears (R116). -/
def applyMask (s : State) : State :=
  if channelSet s.config.channels s.scrub.position.channel.toNat then s
  else putPosition (.channelStart (channelAfter s.config.channels s.scrub.position.channel)) s

/-- An accepted write of SCRUBCFG (R75, R113, R116): the tag arbiter acts where D is raised. -/
def acceptScrub (c : Settings) (s : State) : State :=
  let t := putSettings c s
  let u := if c.channels = s.config.channels then t else applyMask t
  if s.config.depth < c.depth then settleOps u else u

/-- A write of SCRUBCFG. -/
def writeScrub (v : Word) (s : State) : State :=
  match s.config.writeScrub v with
  | none => refuseWrite s
  | some c => acceptScrub c s

/-- A write of LINKCFG: n applies from the next timer start, P at the next pass completion (R76, R54). -/
def writeLink (v : Word) (s : State) : State :=
  match s.config.writeLink v with
  | none => refuseWrite s
  | some c => putSettings c s

/-- GEOM is accepted: the engine is STOPPED and the scrubber is OFF (R189). -/
def State.geomOpen (s : State) : Bool := s.engine.state = .stopped && s.scrub.state = .off

/-- A write of GEOM: R is set and the scrub position moves to the start (R189, R116). DESIGN CHOICE (log 22): it moves
there also where the row code written is the one held, of which R190 says that it changes nothing. -/
def writeGeom (v : Word) (s : State) : State :=
  if s.geomOpen then
    let t := putSettings (s.config.writeGeom v) s
    putPosition t.walkStart t
  else refuseWrite s

/-! ### Commands (spec/08, 8.8) -/

/-- The kinds whose job runs a migration. -/
def JobKind.migrates : JobKind → Bool
  | .spare => true
  | .respare => true
  | .unspare => true
  | .promote => false
  | .condemn => false
  | .poison => false
  | .clearPoison => false
  | .dismiss => false
  | .marker => false

/-- ABORT of a migration (R150): a context that was waiting for a tag ceases to wait, which the tag arbiter serves
(R46, R113). -/
def abortInFlight (s : State) : State := settle (abortMigration .aborted s)

/-- ABORT (R150). -/
def commandAbort (s : State) : State :=
  match s.engine.state with
  | .stopped => s
  | .idle => s
  | .busy j => if j.kind.migrates then abortInFlight s else refuseWrite s
  | .restartPending _ => refuseWrite s

/-- The fuse store is PROGRAMMING. -/
def State.programming (s : State) : Bool :=
  match s.fuse.state with
  | .programming _ _ _ => true
  | .loading _ => false
  | .idle => false

/-- RESTART (R151). -/
def commandRestart (s : State) : State :=
  match s.engine.state with
  | .busy j =>
    if s.programming then { s with engine := { s.engine with state := .restartPending j } }
    else settle (runRestart s)
  | .restartPending _ => s
  | .stopped => settle (runRestart s)
  | .idle => settle (runRestart s)

/-- A write of CMD: 1 ABORT, 2 RESTART, any other value refused (R150; log 11). -/
def writeCmd (v : Word) (s : State) : State :=
  if v = 1 then commandAbort s else if v = 2 then commandRestart s else refuseWrite s

/-! ### Writes of the rings (R140, R178) -/

/-- The descriptor stands at its ring's fetch position. -/
def State.atFetch (s : State) (d : DescId) : Bool := d = s.urgentHead || d = s.routineHead

/-- A write of a descriptor word, by the table of R140. A hand-over at a fetch position lets the arbiter act (R145). -/
def writeDescriptor (d : DescId) (w : Fin 4) (v : Word) (s : State) : State :=
  if (s.desc d).device then
    if s.inFlight d = false ∧ w = 0 ∧ bit v 0 = false then s.putDesc d ((s.desc d).setWord w v)
    else refuseWrite s
  else
    let t := s.putDesc d ((s.desc d).setWord w v)
    if w = 0 ∧ bit v 0 = true ∧ s.atFetch d = true then settle t else t

/-- A hand-back (R180): the slot becomes DEVICE-owned; the drain moves held reports only from the write position; the
scrubber judges the queue at the end of the event (R182). -/
def handBackSlot (k : Fin 64) (v : Word) (s : State) : State :=
  let t := s.putReportSlot k ((s.reportSlot k).setWord 0 v)
  if k = s.reports.writePos ∧ s.reports.held ≠ [] then decideScrub (drain (drainFuel t) t) else t

/-- A write of a report slot word, by the table of R178. -/
def writeReport (k : Fin 64) (w : Fin 8) (v : Word) (s : State) : State :=
  if (s.reportSlot k).device then refuseWrite s
  else if w = 0 ∧ bit v 0 = true then handBackSlot k v s
  else s.putReportSlot k ((s.reportSlot k).setWord w v)

/-! ### Interrupt and counter registers -/

/-- A write of IRQF clears each flag written with 1 (R183). -/
def writeIrqf (v : Word) (s : State) : State :=
  { s with port := { s.port with flags := s.port.flags.clear (.ofWord v) } }

/-- A write of IRQM sets the mask bits (R184). -/
def writeIrqm (v : Word) (s : State) : State := { s with port := { s.port with mask := .ofWord v } }

/-- A write of a counter: 0 in its bits 15:0 clears it, any other value is refused (R191); the bits above are ignored
when software writes them (11.1). -/
def writeCounter (c : CounterId) (v : Word) (s : State) : State :=
  if field v 0 16 = 0 then clearCounter c s else refuseWrite s

/-! ### Writes of the window (R188) -/

/-- An aligned 32-bit write of a register. -/
def writeReg (r : Reg) (v : Word) (s : State) : State :=
  match r with
  | .ctrl => writeCtrl v s
  | .cmd => writeCmd v s
  | .irqf => writeIrqf v s
  | .irqm => writeIrqm v s
  | .geom => writeGeom v s
  | .tallycfg => writeTally v s
  | .scrubcfg => writeScrub v s
  | .linkcfg => writeLink v s
  | .counter c => writeCounter c v s
  | .id => refuseWrite s
  | .state0 => refuseWrite s
  | .state1 => refuseWrite s
  | .state2 => refuseWrite s
  | .urgpos => refuseWrite s
  | .routpos => refuseWrite s
  | .rptpos => refuseWrite s
  | .fusepos0 => refuseWrite s
  | .fusepos1 => refuseWrite s
  | .fusepos2 => refuseWrite s
  | .epoch => refuseWrite s
  | .scrubpos0 => refuseWrite s
  | .scrubpos1 => refuseWrite s

/-- An aligned 32-bit write of the word at a region. -/
def writeRegion (g : Region) (v : Word) (s : State) : State :=
  match g with
  | .reg r => writeReg r v s
  | .desc d w => writeDescriptor d w v s
  | .report k w => writeReport k w v s
  | .slotView _ _ => refuseWrite s
  | .tallyView _ _ => refuseWrite s
  | .queueView _ => refuseWrite s
  | .poisonView _ _ => refuseWrite s
  | .fuseView _ _ => refuseWrite s
  | .unmapped => refuseWrite s

/-- A write of the window (R188): narrow and misaligned writes are refused before any other check. -/
def portWrite (a : BitVec 14) (w : Width) (v : Word) (s : State) : State :=
  if w = .w32 ∧ a.toNat % 4 = 0 then writeRegion (regionOf a.toNat) v s else refuseWrite s

end Sys2Proof.Machine
end

