-- ==== Sys2Proof/Machine/Event.lean ====
section
/-! DEFINITION. What is common to the meanings: nothing happens while RESET_N is low, and what an empty queue does. -/

namespace Sys2Proof.Machine

/-- The outcome of an event: its effect, except that while RESET_N is held low the device holds the full-reset state
of every block and the port takes no access (R192). -/
def live (f : State → State) (s : State) : Host.Outcome State Fault Refusal :=
  .next (if s.resetLow then s else f s)

/-- The rest of an event that may have appended a row to the candidate queue since `before` (R145): only then does
the job arbiter act. -/
def settleFrom (before s : State) : State :=
  if s.tally.queue = before.tally.queue then settleReports s else settle s

/-- The same in an event that frees a tag, in which the tag arbiter acts in either case (R74). -/
def settleFreedFrom (before s : State) : State :=
  if s.tally.queue = before.tally.queue then settleOps s else settle s

/-- The oldest outbound message leaves the link while it is UP (R66, R69); with none waiting the block idles (log 4). -/
def idle (s : State) : State :=
  if s.link.up then { s with link := { s.link with outbound := s.link.outbound.drop 1 } } else s

end Sys2Proof.Machine
end

