-- ==== Sys2Proof/Machine/FusePins.lean ====
section
/-! DEFINITION. PROGRAMMING_COMPLETION, FUSE_SUPPLY_FALL, FUSE_SUPPLY_RISE. -/

namespace Sys2Proof.Machine

/-- Status at the completion of programming (R132). -/
def completionStatus (good : Bool) : Status := if good then .ok else .fuseVerify

/-- The completion event of programming (R132): the finished bit, the read-back, the slot claim, the outcome. -/
def takeCompletion (reading : Option (BitVec 64)) (s : State) : State :=
  match s.fuse.state with
  | .programming i kind k =>
    let r := s.readBack i reading
    let t := fuseIdle (programmingClaim kind r.checkGood k i (s.putRecord i r))
    settle (endProgramming ⟨completionStatus r.checkGood, some k, i.val⟩ t)
  | .loading _ => s
  | .idle => s

/-- The level of the pin FUSE_SUPPLY_OK. -/
def putSupply (level : Bool) (s : State) : State := { s with supplyOk := level }

/-- A fall of FUSE_SUPPLY_OK (R133): it ends programming in progress with FUSE_ABORTED and the record left started;
otherwise only the level changes. -/
def takeSupplyFall (s : State) : State :=
  match s.fuse.state with
  | .programming i kind k =>
    settle (endProgramming ⟨.fuseAborted, some k, i.val⟩
      (fuseIdle (supplyFallClaim kind k (putSupply false s))))
  | .loading _ => putSupply false s
  | .idle => putSupply false s

/-- PROGRAMMING_COMPLETION (R132). -/
def execProgrammingCompletion (reading : Option (BitVec 64)) (s : State) : Host.Outcome State Fault Refusal :=
  live (takeCompletion reading) s

/-- FUSE_SUPPLY_FALL (R133); under RESET_N only the pin's level changes. -/
def execFuseSupplyFall (s : State) : Host.Outcome State Fault Refusal :=
  .next (if s.resetLow then putSupply false s else takeSupplyFall s)

/-- FUSE_SUPPLY_RISE (R133): the pin's level is high for later requests (R130); nothing else changes. -/
def execFuseSupplyRise (s : State) : Host.Outcome State Fault Refusal := .next (putSupply true s)

end Sys2Proof.Machine
end

