-- ==== Sys2Proof/Machine/Link.lean ====
section
/-! DEFINITION. LINK_UP, LINK_DOWN, QUERY, ERR_NOTE, UNKNOWN_MESSAGE, OP_DONE. -/

namespace Sys2Proof.Machine

/-! ### Link events -/

/-- The link changes state: LINK_CHANGE and the LINK flag (R67, R68). -/
def linkChange (up : Bool) (s : State) : State :=
  raiseLink (produce .arrayLink (.linkChange up) s)

/-- Link-up (R67). -/
def takeLinkUp (s : State) : State :=
  if s.link.up then s
  else settleOps (decideScrub (linkChange true { s with link := { s.link with up := true } }))

/-- What a link-down does to the link, the tracker and the migration (R68, R86, R61): messages that have not left are
discarded, every tag is released, the migration is aborted. R13: the target ends FREE in either order of the two. -/
def linkLost (s : State) : State :=
  abortMigration .linkLost (linkDownTags (linkChange false { s with link := ⟨false, []⟩ }))

/-- Link-down (R68); when it ended a job, the engine may take the next one (R154). -/
def takeLinkDown (s : State) : State :=
  if s.link.up then
    let t := decideScrub (linkLost s)
    if s.migration.isSome then settle t else settleReports t
  else s

/-! ### Queries (spec/02) -/

/-- The line of the table of R26 that decides a QUERY. -/
inductive QueryLine where
  | loading
  | outOfRange
  | poisoned (e : PoisonEntry)
  | fenced
  | copying (source : Location)
  | mapped (k : SlotNum)
  | unmapped
  deriving DecidableEq, Repr

/-- Lines 6 and 7 of R26. -/
def State.mappingLine (s : State) (r : RowAddr) : QueryLine :=
  match s.mappedSlot r with
  | some k => .mapped k
  | none => .unmapped

/-- Lines 4 to 7 of R26. -/
def State.contextLine (s : State) (r : RowAddr) : QueryLine :=
  match s.migration with
  | some c =>
    if c.victim = r then
      match c.phase with
      | .fenced => .fenced
      | .copying => .copying c.source
    else s.mappingLine r
  | none => s.mappingLine r

/-- The first line of R26 whose condition holds. -/
def State.queryLine (s : State) (r : RowAddr) : QueryLine :=
  if s.device = .loading then .loading
  else if s.outOfRange r then .outOfRange
  else match s.poisonEntry r with
    | some e => .poisoned e
    | none => s.contextLine r

/-- The verdict of a location (R31). -/
def Location.verdict : Location → Verdict
  | .row => .pass
  | .slot k => .spare k

/-- The verdict of a line (R26). -/
def QueryLine.verdict : QueryLine → Verdict
  | .loading => .wait
  | .outOfRange => .pass
  | .poisoned _ => .poison
  | .fenced => .wait
  | .copying l => l.verdict
  | .mapped k => .spare k
  | .unmapped => .pass

/-- A kind that is not READ is taken as WRITE (R25). -/
def isWrite (kind : BitVec 2) : Bool := kind != 1

/-- The further effect of a line (R26). -/
def QueryLine.effect (l : QueryLine) (r : RowAddr) (write : Bool) (s : State) : State :=
  match l with
  | .loading => countWait s
  | .outOfRange => countOutOfRange s
  | .poisoned e =>
    let t := hitPoison r s
    if e.reported then t else produce .queryResponder (.poisonHit r e.origin) t
  | .fenced => countWait s
  | .copying _ => if write then dirtyClaim s else s
  | .mapped _ => s
  | .unmapped => s

/-- A QUERY taken (R25, R26): its effect, and one ANSWER with its id. -/
def takeQuery (id : BitVec 8) (kind : BitVec 2) (w : Word) (s : State) : State :=
  if s.link.up then
    let r := RowAddr.ofWord w
    let l := s.queryLine r
    settleReports (send (.answer id l.verdict) (l.effect r (isWrite kind) s))
  else s

/-! ### Notes and completions -/

/-- A note handed to the tally, and what follows a promotion into the queue (R91, R145). -/
def noteEvent (n : Note) (s : State) : State := settleFrom s (takeNote n s)

/-- Class of a link message (R70). -/
def classOf (uncorrectable : Bool) (bits : BitVec 4) : NoteClass :=
  if uncorrectable then .uncorrectable else .corrected (bitCount bits)

/-- An ERR_NOTE taken (R70): stale while LOADING or at a row at or above R, else a note. -/
def takeErrNote (atSlot : Bool) (k : SlotNum) (uncorrectable : Bool) (bits : BitVec 4) (w : Word) (s : State) :
    State :=
  if s.link.up then
    let r := RowAddr.ofWord w
    if s.device = .loading ∨ s.outOfRange r = true then countStaleNote s
    else
      let n : Note := ⟨r, .ofMark atSlot k, classOf uncorrectable bits, .link⟩
      if s.agrees n then noteEvent n s else countStaleNote s
  else s

/-- The class of a VERIFY result, if it makes a note (R71, R91): 2 CORRECTED, 3 UNCORRECTABLE, any other as CLEAN. -/
def verifyClass (result bits : BitVec 4) : Option NoteClass :=
  match result.toNat with
  | 2 => some (.corrected (bitCount bits))
  | 3 => some .uncorrectable
  | _ => none

/-- The scrubber hands a result to the tally as a note (R115); at a row at or above R it is discarded and counted
stale (R91). -/
def scrubNote (r : RowAddr) (l : Location) (c : Option NoteClass) (s : State) : State :=
  match c with
  | none => s
  | some cls => if s.outOfRange r then countStaleNote s else takeNote ⟨r, l, cls, .scrub⟩ s

/-- The context, if it holds tag `t` as its copy tag. -/
def State.contextOf (s : State) (t : TagNum) : Option Context :=
  match s.migration with
  | some c => if c.copyTag = some t then some c else none
  | none => none

/-- A valid completion goes to the tag's owner, which takes it before the arbiter offers the tag (R79, R74). -/
def validDone (t : TagNum) (h : HeldOp) (result bits : BitVec 4) (s : State) : State :=
  let u := s.putTag t .free
  match h.owner with
  | .migration =>
    match u.contextOf t with
    | some c => settle (passCompleted result c u)
    | none => settleOps u
  | .scrub =>
    match h.op with
    | .verify r l => settleFreedFrom u (scrubNote r l (verifyClass result bits) u)
    | .copy _ _ _ => settleOps u

/-- An OP_DONE taken, by the state of its tag (R79, R80, R81). -/
def takeOpDone (t : TagNum) (attempt : Fin 2) (result bits : BitVec 4) (s : State) : State :=
  if s.link.up then
    match s.tag t with
    | .free => countStaleDone s
    | .outstanding h => if h.attempt = attempt then validDone t h result bits s else countStaleDone s
    | .quarantined h => settleOps (countStaleDone (release t h s))
  else s

/-! ### Meanings -/

/-- LINK_UP (R67). -/
def execLinkUp (s : State) : Host.Outcome State Fault Refusal := live takeLinkUp s

/-- LINK_DOWN (R68). -/
def execLinkDown (s : State) : Host.Outcome State Fault Refusal := live takeLinkDown s

/-- QUERY (R26). -/
def execQuery (id : BitVec 8) (kind : BitVec 2) (row : Word) (s : State) : Host.Outcome State Fault Refusal :=
  live (takeQuery id kind row) s

/-- ERR_NOTE (R70). -/
def execErrNote (atSlot : Bool) (slot : Fin 64) (uncorrectable : Bool) (bits : BitVec 4) (row : Word) (s : State) :
    Host.Outcome State Fault Refusal :=
  live (takeErrNote atSlot slot uncorrectable bits row) s

/-- UNKNOWN_MESSAGE (R69): discarded on arrival, no state changes. -/
def execUnknownMessage (_header : Word) (s : State) : Host.Outcome State Fault Refusal := .next s

/-- OP_DONE (R79). -/
def execOpDone (tag : Fin 4) (attempt : Fin 2) (result bits : BitVec 4) (s : State) :
    Host.Outcome State Fault Refusal :=
  live (takeOpDone tag attempt result bits) s

end Sys2Proof.Machine
end

