-- ==== Sys2Proof/Machine/PortCommands.lean ====
section
/-! DEFINITION. The commands of the system port: CMD, the configuration registers, the interrupt and counter registers,
the rings, reads, and writes that are always refused. A write of CTRL, TALLYCFG, SCRUBCFG or LINKCFG carries the whole
word, so the rows that name one of its fields are the same write (R190; log 8). -/

namespace Sys2Proof.Machine

/-- ABORT (R150). -/
def execAbort (s : State) : Host.Outcome State Fault Refusal := live commandAbort s

/-- RESTART (R151). -/
def execRestart (s : State) : Host.Outcome State Fault Refusal := live commandRestart s

/-- BAD_COMMAND (R150). -/
def execBadCommand (v : Word) (s : State) : Host.Outcome State Fault Refusal := live (writeCmd v) s

/-- ENGINE_ENABLE (R144). -/
def execEngineEnable (v : Word) (s : State) : Host.Outcome State Fault Refusal := live (writeCtrl v) s

/-- SCRUB_ENABLE (R109). -/
def execScrubEnable (v : Word) (s : State) : Host.Outcome State Fault Refusal := live (writeCtrl v) s

/-- FUSE_ENABLE (R130). -/
def execFuseEnable (v : Word) (s : State) : Host.Outcome State Fault Refusal := live (writeCtrl v) s

/-- SELF_REPAIR_MODE (R103). -/
def execSelfRepairMode (v : Word) (s : State) : Host.Outcome State Fault Refusal := live (writeCtrl v) s

/-- POISON_ON_BAD_COPY (R147). -/
def execPoisonOnBadCopy (v : Word) (s : State) : Host.Outcome State Fault Refusal := live (writeCtrl v) s

/-- TALLYCFG_T (R99). -/
def execTallycfgT (v : Word) (s : State) : Host.Outcome State Fault Refusal := live (writeTally v) s

/-- TALLYCFG_L (R100). -/
def execTallycfgL (v : Word) (s : State) : Host.Outcome State Fault Refusal := live (writeTally v) s

/-- SCRUBCFG_I (R113). -/
def execScrubcfgI (v : Word) (s : State) : Host.Outcome State Fault Refusal := live (writeScrub v) s

/-- SCRUBCFG_D (R75). -/
def execScrubcfgD (v : Word) (s : State) : Host.Outcome State Fault Refusal := live (writeScrub v) s

/-- SCRUBCFG_CHANNEL_MASK (R116). -/
def execScrubcfgChannelMask (v : Word) (s : State) : Host.Outcome State Fault Refusal := live (writeScrub v) s

/-- LINKCFG_N (R76). -/
def execLinkcfgN (v : Word) (s : State) : Host.Outcome State Fault Refusal := live (writeLink v) s

/-- LINKCFG_P (R54). -/
def execLinkcfgP (v : Word) (s : State) : Host.Outcome State Fault Refusal := live (writeLink v) s

/-- GEOM_WRITE (R189). -/
def execGeomWrite (v : Word) (s : State) : Host.Outcome State Fault Refusal := live (writeGeom v) s

/-- IRQF_WRITE (R183). -/
def execIrqfWrite (v : Word) (s : State) : Host.Outcome State Fault Refusal := live (writeIrqf v) s

/-- IRQM_WRITE (R184). -/
def execIrqmWrite (v : Word) (s : State) : Host.Outcome State Fault Refusal := live (writeIrqm v) s

/-- COUNTER_CLEAR (R191). -/
def execCounterClear (c : CounterId) (v : Word) (s : State) : Host.Outcome State Fault Refusal :=
  live (writeCounter c v) s

/-- DESCRIPTOR_WRITE (R140). -/
def execDescriptorWrite (a : BitVec 14) (v : Word) (s : State) : Host.Outcome State Fault Refusal :=
  live (portWrite a .w32 v) s

/-- HAND_OVER (R140). -/
def execHandOver (a : BitVec 14) (v : Word) (s : State) : Host.Outcome State Fault Refusal :=
  live (portWrite a .w32 v) s

/-- REVOKE (R141). -/
def execRevoke (a : BitVec 14) (v : Word) (s : State) : Host.Outcome State Fault Refusal :=
  live (portWrite a .w32 v) s

/-- REPORT_SLOT_WRITE (R178). -/
def execReportSlotWrite (a : BitVec 14) (v : Word) (s : State) : Host.Outcome State Fault Refusal :=
  live (portWrite a .w32 v) s

/-- HAND_BACK (R180). -/
def execHandBack (a : BitVec 14) (v : Word) (s : State) : Host.Outcome State Fault Refusal :=
  live (portWrite a .w32 v) s

/-- VIEW_READ (R187): while RESET_N is low a read returns 0 (R192). -/
def execViewRead (a : BitVec 14) (w : Width) (s : State) : Host.Outcome State Fault Refusal :=
  .next (if s.resetLow then putReadData 0 s else portRead a w s)

/-- WRITE_REFUSED (R188). -/
def execWriteRefused (a : BitVec 14) (w : Width) (v : Word) (s : State) : Host.Outcome State Fault Refusal :=
  live (portWrite a w v) s

end Sys2Proof.Machine
end

