-- ==== Sys2Proof/Machine/Reset.lean ====
section
/-! DEFINITION. FULL_RESET, RESET_RELEASE, LOAD_STEP, LOAD_END. -/

namespace Sys2Proof.Machine

/-- The full-reset state of every block (R192), with what a full reset does not reach: the fuse array (R121), whose
first blank index is the write position (R123; log 20), the level of FUSE_SUPPLY_OK, and the model's own fields. -/
def fullResetState (s : State) : State :=
  { State.reset with
    supplyOk := s.supplyOk
    fuse := { State.reset.fuse with records := s.fuse.records, writePos := s.firstBlank }
    freeCount := s.freeCount
    pending := s.pending }

/-- The load's end (R129): RUNNING and IDLE, the FUSE_LOAD report, the scrubber and the engine by their enables. -/
def endLoad (s : State) : State :=
  let t := fuseIdle { s with device := .running }
  settle (decideScrub (applyEngineEnable
    (produce .fuseStore (.fuseLoad s.fuse.counts s.fuse.writePos) t)))

/-- The release of RESET_N (R124): the write position is found, the load begins, the epoch timer starts (R108); with
no record to read the load ends in the same event (R129). -/
def beginLoad (s : State) : State :=
  let t := startEpoch { s with
    resetLow := false
    device := .loading
    fuse := { s.fuse with writePos := s.firstBlank, nextSeq := 1, counts := .zero, state := .loading 0 } }
  if t.fuse.writePos = 0 then endLoad t else t

/-- One load step, while records are left to read (R124, R126). -/
def loadStep (s : State) : State :=
  match s.fuse.state with
  | .loading k =>
    if k < s.fuse.writePos then putLoading (k + 1) (loadRecord (Fin.ofNat 96 k) s) else s
  | .idle => s
  | .programming _ _ _ => s

/-- The event that follows the last load step (R129). -/
def loadEnd (s : State) : State :=
  match s.fuse.state with
  | .loading k => if k < s.fuse.writePos then s else endLoad s
  | .idle => s
  | .programming _ _ _ => s

/-- FULL_RESET (R192). -/
def execFullReset (s : State) : Host.Outcome State Fault Refusal := .next (fullResetState s)

/-- RESET_RELEASE (R124): no effect unless RESET_N is low (log 6). -/
def execResetRelease (s : State) : Host.Outcome State Fault Refusal :=
  .next (if s.resetLow then beginLoad s else s)

/-- LOAD_STEP (R126). -/
def execLoadStep (s : State) : Host.Outcome State Fault Refusal := live loadStep s

/-- LOAD_END (R129). -/
def execLoadEnd (s : State) : Host.Outcome State Fault Refusal := live loadEnd s

end Sys2Proof.Machine
end

