-- ==== Sys2Proof/Machine/Timers.lean ====
section
/-! DEFINITION. OP_TIMEOUT, QUARANTINE_EXPIRY, EPOCH_EXPIRY, SCRUB_INTERVAL_EXPIRY. A timer that is stopped does not
expire (R82, R113; log 6). -/

namespace Sys2Proof.Machine

/-- The give-up of an operation after its second timeout (R78): quarantine, and the owner is told: a migration is
aborted LINK_TIMEOUT (R63), the scrubber takes the row as skipped. A VERIFY given up counts towards the depth no more (R75),
so this may be the first event in which a waiting scrubber can be granted a tag (R74; log 14). -/
def giveUp (t : TagNum) (h : HeldOp) (s : State) : State :=
  let u := quarantine t h s
  match h.owner with
  | .migration =>
    match u.contextOf t with
    | some c => settle (abortContext .linkTimeout c u)
    | none => settleOps u
  | .scrub => settleOps u

/-- The timer of an OUTSTANDING tag expires: re-issue at attempt 0 (R77), give-up at attempt 1 (R78). -/
def takeTimeout (t : TagNum) (s : State) : State :=
  match s.tag t with
  | .outstanding h => if h.attempt = 0 then reissue t h s else giveUp t h s
  | .free => s
  | .quarantined _ => s

/-- The quarantine timer of a QUARANTINED tag expires (R85). -/
def takeQuarantineExpiry (t : TagNum) (s : State) : State :=
  match s.tag t with
  | .quarantined h => settleOps (release t h s)
  | .free => s
  | .outstanding _ => s

/-- The epoch counter goes up by one and wraps (R100). -/
def nextEpoch (s : State) : State := { s with tally := { s.tally with epoch := s.tally.epoch + 1 } }

/-- The epoch timer expires (R100, R101): it restarts, the counter goes up, TRACKING entries decay. -/
def takeEpochExpiry (s : State) : State :=
  match s.tally.epochTimer with
  | .running _ => decay (nextEpoch (startEpoch s))
  | .stopped => s

/-- The scrub interval timer expires while the scrubber is RUNNING (R113). -/
def takeScrubExpiry (s : State) : State :=
  match s.scrub.state, s.scrub.timer with
  | .running, .running _ =>
    settleOps { s with scrub := { s.scrub with waiting := true, timer := .stopped } }
  | _, _ => s

/-- OP_TIMEOUT (R77). -/
def execOpTimeout (tag : Fin 4) (s : State) : Host.Outcome State Fault Refusal := live (takeTimeout tag) s

/-- QUARANTINE_EXPIRY (R85). -/
def execQuarantineExpiry (tag : Fin 4) (s : State) : Host.Outcome State Fault Refusal :=
  live (takeQuarantineExpiry tag) s

/-- EPOCH_EXPIRY (R100). -/
def execEpochExpiry (s : State) : Host.Outcome State Fault Refusal := live takeEpochExpiry s

/-- SCRUB_INTERVAL_EXPIRY (R113). -/
def execScrubIntervalExpiry (s : State) : Host.Outcome State Fault Refusal := live takeScrubExpiry s

end Sys2Proof.Machine
end

