-- ==== Sys2Proof/Machine/Dispatch.lean ====
section
/-! DEFINITION. One arm per command, each a direct call of its meaning. -/

namespace Sys2Proof.Machine

def exec (i : Instr) (s : State) : Host.Outcome State Fault Refusal :=
  match i with
  | .fullReset => Sys2Proof.Machine.execFullReset s
  | .resetRelease => Sys2Proof.Machine.execResetRelease s
  | .loadStep => Sys2Proof.Machine.execLoadStep s
  | .loadEnd => Sys2Proof.Machine.execLoadEnd s
  | .linkUp => Sys2Proof.Machine.execLinkUp s
  | .linkDown => Sys2Proof.Machine.execLinkDown s
  | .query id kind row => Sys2Proof.Machine.execQuery id kind row s
  | .errNote atSlot slot uncorrectable bits row => Sys2Proof.Machine.execErrNote atSlot slot uncorrectable bits row s
  | .unknownMessage header => Sys2Proof.Machine.execUnknownMessage header s
  | .opDone tag attempt result bits => Sys2Proof.Machine.execOpDone tag attempt result bits s
  | .opTimeout tag => Sys2Proof.Machine.execOpTimeout tag s
  | .quarantineExpiry tag => Sys2Proof.Machine.execQuarantineExpiry tag s
  | .epochExpiry => Sys2Proof.Machine.execEpochExpiry s
  | .scrubIntervalExpiry => Sys2Proof.Machine.execScrubIntervalExpiry s
  | .programmingCompletion readBack => Sys2Proof.Machine.execProgrammingCompletion readBack s
  | .fuseSupplyFall => Sys2Proof.Machine.execFuseSupplyFall s
  | .fuseSupplyRise => Sys2Proof.Machine.execFuseSupplyRise s
  | .abort => Sys2Proof.Machine.execAbort s
  | .restart => Sys2Proof.Machine.execRestart s
  | .badCommand value => Sys2Proof.Machine.execBadCommand value s
  | .engineEnable value => Sys2Proof.Machine.execEngineEnable value s
  | .scrubEnable value => Sys2Proof.Machine.execScrubEnable value s
  | .fuseEnable value => Sys2Proof.Machine.execFuseEnable value s
  | .selfRepairMode value => Sys2Proof.Machine.execSelfRepairMode value s
  | .poisonOnBadCopy value => Sys2Proof.Machine.execPoisonOnBadCopy value s
  | .tallycfgT value => Sys2Proof.Machine.execTallycfgT value s
  | .tallycfgL value => Sys2Proof.Machine.execTallycfgL value s
  | .scrubcfgI value => Sys2Proof.Machine.execScrubcfgI value s
  | .scrubcfgD value => Sys2Proof.Machine.execScrubcfgD value s
  | .scrubcfgChannelMask value => Sys2Proof.Machine.execScrubcfgChannelMask value s
  | .linkcfgN value => Sys2Proof.Machine.execLinkcfgN value s
  | .linkcfgP value => Sys2Proof.Machine.execLinkcfgP value s
  | .geomWrite value => Sys2Proof.Machine.execGeomWrite value s
  | .irqfWrite value => Sys2Proof.Machine.execIrqfWrite value s
  | .irqmWrite value => Sys2Proof.Machine.execIrqmWrite value s
  | .counterClear counter value => Sys2Proof.Machine.execCounterClear counter value s
  | .descriptorWrite offset value => Sys2Proof.Machine.execDescriptorWrite offset value s
  | .handOver offset value => Sys2Proof.Machine.execHandOver offset value s
  | .revoke offset value => Sys2Proof.Machine.execRevoke offset value s
  | .reportSlotWrite offset value => Sys2Proof.Machine.execReportSlotWrite offset value s
  | .handBack offset value => Sys2Proof.Machine.execHandBack offset value s
  | .viewRead offset width => Sys2Proof.Machine.execViewRead offset width s
  | .writeRefused offset width value => Sys2Proof.Machine.execWriteRefused offset width value s

end Sys2Proof.Machine
end

