-- ==== Sys2Proof/Safety.lean ====
section
/-! DEFINITION. What claims about the block are stated with: a command that completes, the parts of the state a command
leaves as they were, and the laws that every event keeps. -/

namespace Sys2Proof.Machine

/-- The command completes: it answers a next state, not a fault and not a refusal. -/
def Completes (c : Instr) (s : State) : Prop := ∃ t, exec c s = .next t

/-- The commands that act while RESET_N is held low: the pins' own edges, and a read, which returns 0 (R192). -/
def takenInReset : Instr → Bool
  | .fullReset => true
  | .resetRelease => true
  | .fuseSupplyFall => true
  | .fuseSupplyRise => true
  | .viewRead _ _ => true
  | _ => false

/-- The commands that are a write of CTRL (log 8). -/
def ctrlWrites (v : Word) : List Instr :=
  [.engineEnable v, .scrubEnable v, .fuseEnable v, .selfRepairMode v, .poisonOnBadCopy v]

/-- The commands that are a write of TALLYCFG. -/
def tallyWrites (v : Word) : List Instr := [.tallycfgT v, .tallycfgL v]

/-- The commands that are a write of SCRUBCFG. -/
def scrubWrites (v : Word) : List Instr := [.scrubcfgI v, .scrubcfgD v, .scrubcfgChannelMask v]

/-- The commands that are a write of LINKCFG. -/
def linkWrites (v : Word) : List Instr := [.linkcfgN v, .linkcfgP v]

/-- The commands that are a write of a descriptor word. -/
def descriptorWrites (a : BitVec 14) (v : Word) : List Instr := [.descriptorWrite a v, .handOver a v, .revoke a v]

/-- Window offset of word `w` of a descriptor (R139). -/
def descOffset (i : DescId) (w : Fin 4) : BitVec 14 :=
  match i with
  | .urgent k => BitVec.ofNat 14 (0x400 + 16 * k.val + 4 * w.val)
  | .routine k => BitVec.ofNat 14 (0x500 + 16 * k.val + 4 * w.val)

/-- Window offset of word `w` of report slot `k` (spec/11, 11.1). -/
def reportOffset (k : Fin 64) (w : Fin 8) : BitVec 14 := BitVec.ofNat 14 (0x800 + 32 * k.val + 4 * w.val)

/-- The state after a refused write: the refused-write counter up by one and PORT_ERROR set, nothing else (R188). -/
def State.afterRefusal (s : State) : State :=
  { s with port := { s.port with refused := satInc s.port.refused, flags := { s.port.flags with portError := true } } }

/-- Slot `k` is the one a reserve claim of the job finds: its explicit slot, in the row's pool and FREE (R7), or the FREE
slot of lowest index in the pool (R6). -/
def State.choiceIs (s : State) (j : JobFields) (k : SlotNum) : Prop :=
  match j.explicit with
  | some x => x = k ∧ k.val / 4 = j.row.pool ∧ s.slot k = .free
  | none => ∃ i : Fin 4, k = j.row.slotAt i ∧ s.slot k = .free ∧ ∀ n, n < i → s.slot (j.row.slotAt n) ≠ .free

/-- A reserve claim of the job finds no slot, and `status` is its refusal (R6, R7). -/
def State.choiceFails (s : State) (j : JobFields) (status : Status) : Prop :=
  match j.explicit with
  | some x => (x.val / 4 ≠ j.row.pool ∨ s.slot x ≠ .free) ∧ status = .slotUnavailable
  | none => (∀ i, s.slot (j.row.slotAt i) ≠ .free) ∧ status = .poolExhausted

/-! ### Frames -/

/-- The parts of the state, one for each field of `State`. -/
inductive Block where
  | resetLow | supplyOk | device | config | slots | query | migration | tracker | link | tally | scrub | fuse | engine
  | reports | port | arrivals | freeCount | pending
  deriving DecidableEq, Repr

/-- The part is the same in both states. -/
def Block.same (s t : State) : Block → Prop
  | .resetLow => t.resetLow = s.resetLow
  | .supplyOk => t.supplyOk = s.supplyOk
  | .device => t.device = s.device
  | .config => t.config = s.config
  | .slots => t.slots = s.slots
  | .query => t.query = s.query
  | .migration => t.migration = s.migration
  | .tracker => t.tracker = s.tracker
  | .link => t.link = s.link
  | .tally => t.tally = s.tally
  | .scrub => t.scrub = s.scrub
  | .fuse => t.fuse = s.fuse
  | .engine => t.engine = s.engine
  | .reports => t.reports = s.reports
  | .port => t.port = s.port
  | .arrivals => t.arrivals = s.arrivals
  | .freeCount => t.freeCount = s.freeCount
  | .pending => t.pending = s.pending

/-- Every part outside `l` is the same in `t` as in `s`. -/
def SameBut (l : List Block) (s t : State) : Prop := ∀ b, b ∉ l → b.same s t

/-! ### Layouts (spec/11, 11.1, 11.3, 11.4)

Each word is written out from its high bits to its low ones, as the tables of the spec have it. -/

/-- A row word with its present mark (11.4.1). -/
def rowLayout (present : Bool) (r : RowAddr) : Word :=
  BitVec.ofBool present ++ 0#8 ++ r.channel ++ r.group ++ r.bank ++ r.row

/-- The slot of a location as a 6-bit field, zero for ROW (log 24). -/
def slotLayout : Location → BitVec 6
  | .row => 0#6
  | .slot k => BitVec.ofNat 6 k.val

/-- The offsets of the registers (11.3). -/
def registerMap : List (Nat × Reg) :=
  [(0x000, .id), (0x004, .ctrl), (0x008, .cmd), (0x00C, .irqf), (0x010, .irqm), (0x014, .geom), (0x018, .tallycfg),
    (0x01C, .scrubcfg), (0x020, .linkcfg), (0x030, .state0), (0x034, .state1), (0x038, .state2), (0x040, .urgpos),
    (0x044, .routpos), (0x048, .rptpos)] ++
  [(0x050, .fusepos0), (0x054, .fusepos1), (0x058, .fusepos2), (0x060, .epoch), (0x064, .scrubpos0),
    (0x068, .scrubpos1), (0x070, .counter .staleDone), (0x074, .counter .staleNote), (0x078, .counter .range),
    (0x07C, .counter .refused), (0x080, .counter .retry), (0x084, .counter .wait)]

/-- The offsets, from the first to before the second, that the summary of the window and of the registers leaves
unmapped (11.1, 11.3). -/
def unmappedRanges : List (Nat × Nat) :=
  [(0x024, 0x030), (0x03C, 0x040), (0x04C, 0x050), (0x05C, 0x060), (0x06C, 0x070), (0x088, 0x400), (0x480, 0x500),
    (0x680, 0x800), (0x1200, 0x1400), (0x1500, 0x1600), (0x1620, 0x1700), (0x1780, 0x2000), (0x2300, 0x4000)]

/-- What each offset of the window reads (11.1): every byte of a word addresses that word. -/
structure WindowMap : Prop where
  word : ∀ a, regionOf a = regionOf (a / 4 * 4)
  registers : ∀ x ∈ registerMap, regionOf x.1 = .reg x.2
  descriptors : ∀ i w, regionOf (descOffset i w).toNat = .desc i w
  reports : ∀ k w, regionOf (reportOffset k w).toNat = .report k w
  slots : ∀ i x, regionOf (0x1000 + 8 * i.val + 4 * Bool.toNat x) = .slotView i x
  tally : ∀ i x, regionOf (0x1400 + 8 * i.val + 4 * Bool.toNat x) = .tallyView i x
  queue : ∀ j, regionOf (0x1600 + 4 * j.val) = .queueView j
  poison : ∀ i x, regionOf (0x1700 + 8 * i.val + 4 * Bool.toNat x) = .poisonView i x
  fuse : ∀ i x, regionOf (0x2000 + 8 * i.val + 4 * Bool.toNat x) = .fuseView i x
  unmapped : ∀ x ∈ unmappedRanges, ∀ a, x.1 ≤ a → a < x.2 → regionOf a = .unmapped

/-- What STATE2 shows of a tag: attempt, owner, state (11.3). -/
def Tag.layout : Tag → BitVec 4
  | .free => 0#4
  | .outstanding h => BitVec.ofNat 1 h.attempt.val ++ BitVec.ofBool (h.owner = .scrub) ++ 1#2
  | .quarantined h => BitVec.ofNat 1 h.attempt.val ++ BitVec.ofBool (h.owner = .scrub) ++ 2#2

/-- The five flags or mask bits, PORT_ERROR highest (11.3). -/
def IrqBits.layout (b : IrqBits) : Word :=
  0#27 ++ BitVec.ofBool b.portError ++ BitVec.ofBool b.link ++ BitVec.ofBool b.overrun ++ BitVec.ofBool b.report ++
    BitVec.ofBool b.jobDone

/-- FUSEPOS1 (11.3): TORN, condemned, superseded, installed. -/
def LoadCounts.layout (c : LoadCounts) : Word :=
  0#1 ++ BitVec.ofNat 7 c.torn ++ 0#1 ++ BitVec.ofNat 7 c.condemned ++ 0#1 ++ BitVec.ofNat 7 c.superseded ++ 0#1 ++
    BitVec.ofNat 7 c.installed

/-- STATE0 (11.3): the record in programming reads 0 when there is none (log 24). -/
def State.state0Layout (s : State) : Word :=
  let record : BitVec 8 := match s.fuse.state with
    | .programming i _ _ => 1#1 ++ BitVec.ofNat 7 i.val
    | _ => 0
  let fuse : BitVec 2 := match s.fuse.state with
    | .loading _ => 0
    | .idle => 1
    | .programming _ _ _ => 2
  let kind : BitVec 4 := s.jobInFlight.elim 0 fun j => BitVec.ofNat 4 j.kind.code
  let source : BitVec 2 := s.jobInFlight.elim 0 fun j => match j.source with
    | .urgent => 1
    | .routine => 2
    | .selfRepair => 3
  let engine : BitVec 2 := match s.engine.state with
    | .stopped => 0
    | .idle => 1
    | .busy _ => 2
    | .restartPending _ => 3
  0#8 ++ record ++ 0#2 ++ fuse ++ kind ++ 0#2 ++ source ++ engine ++ 0#1 ++ BitVec.ofBool (s.device = .running)

/-- STATE1 (11.3): the context's fields read 0 when no context exists, and the copy tag when the context holds none (log
24). -/
def State.state1Layout (s : State) : Word :=
  let scrubber : BitVec 3 := match s.scrub.state with
    | .off => 0
    | .running => 1
    | .pausedLink => 2
    | .pausedReports => 3
  let context : BitVec 11 := s.migration.elim 0 fun c =>
    let tag : BitVec 3 := c.copyTag.elim 0 fun t => BitVec.ofNat 2 t.val ++ 1#1
    let direction : BitVec 2 := match c.direction with
      | .forward => 1
      | .respare => 2
      | .revert => 3
    tag ++ BitVec.ofNat 4 c.pass ++ BitVec.ofBool (c.phase = .fenced) ++ direction ++ 1#1
  0#13 ++ scrubber ++ 0#5 ++ context

/-- Every register reads as its layout (11.3). -/
structure State.RegistersShown (s : State) : Prop where
  id : s.regValue .id = 0x5A012460
  ctrl : s.regValue .ctrl = 0#25 ++ BitVec.ofBool s.config.poisonOnBad ++
    (match s.config.mode with
      | .off => 0#2
      | .spareOnly => 1#2
      | .spareAndRespare => 2#2) ++
    0#1 ++ BitVec.ofBool s.config.fuseEnable ++ BitVec.ofBool s.config.scrubEnable ++
    BitVec.ofBool s.config.engineEnable
  cmd : s.regValue .cmd = 0
  irqf : s.regValue .irqf = s.port.flags.layout
  irqm : s.regValue .irqm = s.port.mask.layout
  geom : s.regValue .geom = 0#30 ++ s.config.rowCode
  tallycfg : s.regValue .tallycfg = s.config.epochLength ++ 0#12 ++ s.config.threshold
  scrubcfg : s.regValue .scrubcfg = 0#8 ++ s.config.channels ++ 0#2 ++ s.config.depth ++ s.config.interval
  linkcfg : s.regValue .linkcfg = 0#21 ++ s.config.recopy ++ s.config.timeout
  state0 : s.regValue .state0 = s.state0Layout
  state1 : s.regValue .state1 = s.state1Layout
  state2 : s.regValue .state2 = 0#8 ++ (s.tag 3).layout ++ (s.tag 2).layout ++ (s.tag 1).layout ++ (s.tag 0).layout ++
    0#7 ++ BitVec.ofBool s.link.up
  urgpos : s.regValue .urgpos = 0#29 ++ BitVec.ofNat 3 s.engine.urgPos.val
  routpos : s.regValue .routpos = 0#27 ++ BitVec.ofNat 5 s.engine.routPos.val
  rptpos : s.regValue .rptpos = BitVec.ofNat 16 s.reports.lost ++ 0#4 ++ BitVec.ofNat 4 s.reports.held.length ++ 0#2 ++
    BitVec.ofNat 6 s.reports.writePos.val
  fusepos0 : s.regValue .fusepos0 = 0#3 ++ BitVec.ofNat 13 s.fuse.nextSeq ++ 0#9 ++ BitVec.ofNat 7 s.fuse.writePos
  fusepos1 : s.regValue .fusepos1 = s.fuse.counts.layout
  fusepos2 : s.regValue .fusepos2 =
    0#17 ++ BitVec.ofNat 7 s.fuse.counts.conflict ++ 0#1 ++ BitVec.ofNat 7 s.fuse.counts.corrupt
  epoch : s.regValue .epoch = s.tally.epoch
  scrubpos0 : s.regValue .scrubpos0 = rowLayout false s.scrub.position
  scrubpos1 : s.regValue .scrubpos1 = 0#16 ++ s.scrub.passCount
  staleDone : s.regValue (.counter .staleDone) = 0#16 ++ BitVec.ofNat 16 s.tracker.staleDone
  staleNote : s.regValue (.counter .staleNote) = 0#16 ++ BitVec.ofNat 16 s.tally.staleNotes
  range : s.regValue (.counter .range) = 0#16 ++ BitVec.ofNat 16 s.query.outOfRange
  refused : s.regValue (.counter .refused) = 0#16 ++ BitVec.ofNat 16 s.port.refused
  retry : s.regValue (.counter .retry) = 0#16 ++ BitVec.ofNat 16 s.tracker.retries
  wait : s.regValue (.counter .wait) = 0#16 ++ BitVec.ofNat 16 s.query.waits

/-- A slot view entry (11.4.5): word 1 with the state's code, the former mark, the record index and the fused mark, above
word 0 with the victim in the slot's pool. A slot is fused just where it has a record index (R2). -/
def slotEntryLayout (k : SlotNum) (code : BitVec 3) (victim : Option Victim) (former : Bool)
    (record : Option (Fin 96)) : BitVec 64 :=
  let index : BitVec 8 := record.elim 0 fun i => 1#1 ++ BitVec.ofNat 7 i.val
  let w1 : Word := 0#16 ++ index ++ 0#2 ++ BitVec.ofBool former ++ BitVec.ofBool record.isSome ++ 0#1 ++ code
  let w0 : Word := victim.elim 0 fun v =>
    rowLayout true ⟨BitVec.ofNat 2 (k.val / 4 / 4), BitVec.ofNat 2 (k.val / 4 % 4), v.bank, v.row⟩
  w1 ++ w0

/-- A tally view entry (11.4.5). -/
def tallyEntryLayout (e : TallyEntry) : BitVec 64 :=
  let w1 : Word := e.lastEpoch.extractLsb' 0 16 ++ 0#1 ++ BitVec.ofBool (e.loc ≠ .row) ++ slotLayout e.loc ++
    BitVec.ofBool e.queued ++ BitVec.ofBool e.attempted ++ BitVec.ofBool (e.state = .candidate) ++
    BitVec.ofBool e.uncorrectable ++ BitVec.ofNat 4 e.count
  w1 ++ rowLayout true e.row

/-- A poison view entry (11.4.5). -/
def poisonEntryLayout (e : PoisonEntry) : BitVec 64 :=
  let w1 : Word := 0#22 ++ BitVec.ofBool e.reported ++ BitVec.ofBool (e.origin = .copy) ++ BitVec.ofNat 8 e.hits
  w1 ++ rowLayout true e.row

/-- Every view entry, and every word of a descriptor and of a report slot, reads as its layout (11.4.5). -/
structure State.ViewsShown (s : State) : Prop where
  slots : ∀ k, s.slotEntry k = match s.slot k with
    | .free => slotEntryLayout k 0 none false none
    | .reserved v => slotEntryLayout k 1 (some v) false none
    | .soft v => slotEntryLayout k 2 (some v) false none
    | .committing v => slotEntryLayout k 3 (some v) false none
    | .hard v i => slotEntryLayout k 4 (some v) false (some i)
    | .draining v => slotEntryLayout k 5 (some v) true none
    | .retired v i => slotEntryLayout k 6 v v.isSome i
  tally : ∀ p, s.tallyEntry p = (s.entry p).elim 0 tallyEntryLayout
  poison : ∀ n, s.poisonViewEntry n = (s.query.poison[n.val]?).elim 0 poisonEntryLayout
  queue : ∀ n, s.queueEntry n = (s.tally.queue[n.val]?).elim 0 (rowLayout true)
  descriptor : ∀ d : Descriptor, d.word 0 = d.w0 ∧ d.word 1 = d.w1 ∧ d.word 2 = d.w2 ∧ d.word 3 = d.w3
  report : ∀ k : ReportSlot, k.word 0 = k.w0 ∧ k.word 1 = k.w1 ∧ k.word 2 = k.w2 ∧ k.word 3 = k.w3 ∧
    k.word 4 = k.w4 ∧ k.word 5 = k.w5 ∧ k.word 6 = 0 ∧ k.word 7 = 0

/-- A report record as the device writes it (11.4.3): owner SOFTWARE, absent fields zero with their marks clear. -/
def recordLayout (serial : BitVec 16) (epoch : BitVec 32) (kind : BitVec 4) (row : Option RowAddr)
    (slot : Option SlotNum) (detail4 detail5 : Word) : ReportSlot where
  w0 := serial ++ 0#6 ++ BitVec.ofBool slot.isSome ++ BitVec.ofBool row.isSome ++ kind ++ 0#4
  w1 := row.elim 0 (rowLayout false)
  w2 := epoch
  w3 := slot.elim 0 fun k => 0#26 ++ BitVec.ofNat 6 k.val
  w4 := detail4
  w5 := detail5

/-- What a delivered report of each kind writes into its slot (R175, 11.4.3). -/
def reportLayout (n : BitVec 16) (e : BitVec 32) : ReportBody → ReportSlot
  | .candidate r l count unc o x =>
    let outcome : BitVec 2 := match o with
      | .neither => 0
      | .queued => 1
      | .autoSkipped => 2
    let cause : BitVec 2 := match x with
      | .threshold => 1
      | .uncorrectable => 2
      | .rethreshold => 3
    recordLayout n e 1 (some r) l.slot?
      (0#18 ++ cause ++ 0#2 ++ outcome ++ 0#3 ++ BitVec.ofBool unc ++ BitVec.ofNat 4 count) 0
  | .uncorrectable r l src untracked =>
    recordLayout n e 2 (some r) l.slot? (0#30 ++ BitVec.ofBool untracked ++ BitVec.ofBool (src = .scrub)) 0
  | .tallyFull r l count => recordLayout n e 3 (some r) l.slot? (BitVec.ofNat 32 count) 0
  | .poisonHit r o => recordLayout n e 4 (some r) none (0#31 ++ BitVec.ofBool (o = .copy)) 0
  | .poisonFull r k count => recordLayout n e 5 (some r) k (BitVec.ofNat 32 count) 0
  | .autoRepair r k kind st passes => recordLayout n e 6 (some r) k
      (0#12 ++ BitVec.ofNat 4 passes ++ BitVec.ofNat 8 st.code ++ 0#4 ++ BitVec.ofNat 4 kind.code) 0
  | .scrubPass count => recordLayout n e 7 none none (0#16 ++ count) 0
  | .linkChange up => recordLayout n e 8 none none (0#31 ++ BitVec.ofBool up) 0
  | .fuseLoad c pos => recordLayout n e 9 none none c.layout
      (0#9 ++ BitVec.ofNat 7 pos ++ 0#1 ++ BitVec.ofNat 7 c.conflict ++ 0#1 ++ BitVec.ofNat 7 c.corrupt)
  | .overrun lost => recordLayout n e 10 none none (0#16 ++ BitVec.ofNat 16 lost) 0
  | .restartDone count src =>
    let source : BitVec 2 := src.elim 0 fun x => match x with
      | .urgent => 1
      | .routine => 2
      | .selfRepair => 3
    recordLayout n e 11 none none (0#22 ++ source ++ 0#2 ++ BitVec.ofNat 6 count) 0

/-- The fields of a fuse record (R121). -/
structure FuseFields where
  started : Bool
  finished : Bool
  kind : BitVec 2
  sequence : BitVec 12
  slot : BitVec 6
  bank : BitVec 2
  row : BitVec 17
  check : Byte
  deriving DecidableEq, Repr

/-- The bits of a fuse record that no field of its layout names: of bytes 4, 3, 2 and 0. -/
structure FuseSpare where
  byte4 : BitVec 5
  byte3 : BitVec 2
  byte2 : BitVec 4
  byte0 : BitVec 4
  deriving DecidableEq, Repr

/-- A fuse record (11.4.4), byte 7 first and byte 0 last. -/
def fuseLayout (f : FuseFields) (x : FuseSpare) : BitVec 64 :=
  f.check ++
  f.row.extractLsb' 0 8 ++
  f.row.extractLsb' 8 8 ++
  (f.row.extractLsb' 16 1 ++ x.byte4 ++ f.bank) ++
  (x.byte3 ++ f.slot) ++
  (f.sequence.extractLsb' 0 4 ++ x.byte2) ++
  f.sequence.extractLsb' 4 8 ++
  (BitVec.ofBool f.started ++ BitVec.ofBool f.finished ++ x.byte0 ++ f.kind)

/-- The bits the check covers, in their order (R122): bytes 0 to 6, each from its most significant bit, with bits 7 and 6
of byte 0 taken as zero. -/
def checkedBits (r : BitVec 64) : List Bool :=
  [0, 1, 2, 3, 4, 5, 6].flatMap fun i => [7, 6, 5, 4, 3, 2, 1, 0].map fun j =>
    (i != 0 || decide (j < 6)) && r.getLsbD (8 * i + j)

/-- One bit into the check (R122): the division by x⁸ + x⁶ + x³ + x² + 1, whose terms below x⁸ are 0x4D. -/
def checkStep (c : Byte) (b : Bool) : Byte := if c.msb = b then c <<< 1 else (c <<< 1) ^^^ 0x4D

/-- The check of R122: initial value all ones, no reflection, no final inversion. -/
def checkOf (r : BitVec 64) : Byte := (checkedBits r).foldl checkStep 0xFF

/-- A fuse record reads as its layout, and its check is that of R122. -/
structure FuseRecordsShown : Prop where
  started : ∀ f x, FuseBytes.started (fuseLayout f x) = f.started
  finished : ∀ f x, FuseBytes.finished (fuseLayout f x) = f.finished
  blank : ∀ f x, FuseBytes.blank (fuseLayout f x) = (!f.started && !f.finished)
  kind : ∀ f x, FuseBytes.kindCode (fuseLayout f x) = f.kind
  sequence : ∀ f x, FuseBytes.sequence (fuseLayout f x) = f.sequence
  slot : ∀ f x, (FuseBytes.slotNum (fuseLayout f x)).val = f.slot.toNat
  victim : ∀ f x, FuseBytes.victim (fuseLayout f x) = ⟨f.bank, f.row⟩
  good : ∀ f x, FuseBytes.checkGood (fuseLayout f x) = true ↔ checkOf (fuseLayout f x) = f.check
  valid : ∀ f x, FuseBytes.checkValid (fuseLayout f x) = true ↔
    f.finished = true ∧ checkOf (fuseLayout f x) = f.check ∧ (f.kind = 1 ∨ f.kind = 2) ∧ f.sequence ≠ 0
  programmed : ∀ f x, FuseBytes.finish (fuseLayout f x) = fuseLayout { f with finished := true } x

/-- Every report a slot is written with stands there in its kind's layout. -/
def ReportsShown : Prop :=
  ∀ (b : ReportBody) (e : BitVec 32) (n : BitVec 16), HeldReport.slotWords ⟨⟨b, e⟩, n⟩ = reportLayout n e b

/-! ### Laws -/

/-- Every configuration field holds a value in its range (R189). -/
structure SettingsLaw (c : Settings) : Prop where
  threshold : c.threshold ≠ 0
  epochLength : c.epochLength ≠ 0
  interval : c.interval ≠ 0
  depth : c.depth ≠ 0
  channels : c.channels ≠ 0
  timeout : c.timeout ≠ 0
  recopy : c.recopy ≠ 0

/-- The six counters (R191) and the lost count (R181) hold 0 to 65,535. -/
def CountersLaw (s : State) : Prop := (∀ c, s.counter c ≤ 65535) ∧ s.reports.lost ≤ 65535

/-- The report unit between events (R179, R180, R181): at most 8 reports held; the queue is empty or the slot at the
write position is SOFTWARE-owned; a lost count above 0 only with the queue full; no report left to take. -/
structure ReportsLaw (s : State) : Prop where
  room : s.reports.held.length ≤ 8
  drained : s.reports.held = [] ∨ (s.reportSlot s.reports.writePos).device = false
  lost : 0 < s.reports.lost → s.reports.held.length = 8
  taken : s.arrivals = []

/-- The poison list (R36): at most 16 entries, each row at most once, hit counts 0 to 255. -/
structure PoisonLaw (s : State) : Prop where
  room : s.query.poison.length ≤ 16
  distinct : (s.query.poison.map (·.row)).Nodup
  hits : ∀ e ∈ s.query.poison, e.hits ≤ 255

/-- The error tally between events: a row in at most one entry (R90); a TRACKING entry has a count from 1 to T-1 and is not
seen uncorrectable (R98, R99); at most 8 rows in the candidate queue, none twice, each with a CANDIDATE entry, and the
queued mark of an entry says whether its row stands there (R102). -/
structure TallyLaw (s : State) : Prop where
  single : ∀ p q e f, s.entry p = some e → s.entry q = some f → e.row = f.row → p = q
  count : ∀ p e, s.entry p = some e → e.count ≤ 15
  tracking : ∀ p e, s.entry p = some e → e.state = .tracking →
    1 ≤ e.count ∧ e.count < s.config.threshold.toNat ∧ e.uncorrectable = false
  room : s.tally.queue.length ≤ 8
  distinct : s.tally.queue.Nodup
  candidate : ∀ r ∈ s.tally.queue, ∃ p e, s.entry p = some e ∧ e.row = r ∧ e.state = .candidate
  queued : ∀ p e, s.entry p = some e → (e.queued = true ↔ e.row ∈ s.tally.queue)

/-- The fuse array and its write position (R123, R121): every record below the write position is non-blank, every one
from it on is blank, a record in programming lies below it, and next sequence is 1 to 4,096. -/
structure FuseLaw (s : State) : Prop where
  range : s.fuse.writePos ≤ 96
  below : ∀ i : Fin 96, i.val < s.fuse.writePos → (s.record i).blank = false
  above : ∀ i : Fin 96, s.fuse.writePos ≤ i.val → (s.record i).blank = true
  programming : ∀ i k n, s.fuse.state = .programming i k n → i.val < s.fuse.writePos
  sequence : 1 ≤ s.fuse.nextSeq ∧ s.fuse.nextSeq ≤ 4096

/-- The tag arbiter between events (R74): while the link is UP the migration engine waits only where no tag is FREE; the
scrubber waits only while RUNNING and with its timer stopped (R110, R113). -/
structure TagsLaw (s : State) : Prop where
  engine : s.link.up = true → s.waitsForTag = true → s.freeTag = none
  waiting : s.scrub.waiting = true → s.scrub.state = .running ∧ s.scrub.timer = .stopped

/-- The scrubber is not waiting for a tag that the arbiter could grant it: the first event in which it can, it does
(R74; log 14). -/
def ScrubServed (s : State) : Prop :=
  s.link.up = true → s.scrub.waiting = true → s.waitsForTag = false →
    s.scrubOutstanding < s.config.depth.toNat → s.freeTag = none

/-- What the slots hold for a context, by its direction (R43). -/
def ContextSlots (s : State) (c : Context) : Prop :=
  match c.direction with
  | .forward => c.source = .row ∧ (∀ k, s.mapsAt c.victim k = false) ∧
      ∃ t : SlotNum, c.target = .slot t ∧ s.slot t = .reserved c.victim.victim ∧ t.val / 4 = c.victim.pool
  | .respare => ∃ k t : SlotNum, c.source = .slot k ∧ c.target = .slot t ∧ k ≠ t ∧ s.mapsAt c.victim k = true ∧
      (∀ v, s.slot k ≠ .committing v) ∧ s.slot t = .reserved c.victim.victim ∧ t.val / 4 = c.victim.pool
  | .revert => c.target = .row ∧ ∃ k : SlotNum, ∃ v, c.source = .slot k ∧ s.mapsAt c.victim k = true ∧
      s.slot k = .soft v

/-- The laws that hold between the slot table, the migration context, the tags, the engine and the fuse store. -/
structure MappingLaw (s : State) : Prop where
  /-- R3: no two slots map the same row. -/
  unique : ∀ r k j, s.mapsAt r k = true → s.mapsAt r j = true → k = j
  /-- R5: a RESERVED slot is the target of the context. -/
  reserved : ∀ k v, s.slot k = .reserved v → ∃ c, s.migration = some c ∧ c.target = .slot k
  /-- R43: the slots a context stands on. -/
  context : ∀ c, s.migration = some c → ContextSlots s c
  /-- R42, R146: a context exists just while the job in flight is a migration job. -/
  migrating : s.migration.isSome = true ↔ ∃ j, s.engine.state = .busy j ∧ j.kind.migrates = true
  /-- R130, R144: the fuse store programs just while the job in flight is a fuse job. -/
  fusing : s.programming = true ↔ ∃ j, s.jobInFlight = some j ∧ j.kind.migrates = false
  /-- R14: a COMMITTING slot is the slot of the MAP record in programming. -/
  committing : ∀ k v, s.slot k = .committing v → ∃ i, s.fuse.state = .programming i .map k
  /-- R12: a DRAINING slot is the target of a quarantined COPY. -/
  draining : ∀ k v, s.slot k = .draining v → ∃ t h r a, s.tag t = .quarantined h ∧ h.op = .copy r a (.slot k)
  /-- R73: an OUTSTANDING tag holds the context's COPY, or a VERIFY of the scrubber. -/
  outstanding : ∀ t h, s.tag t = .outstanding h →
    (h.owner = .migration ∧ ∃ c, s.migration = some c ∧ c.copyTag = some t ∧ h.op = c.op) ∨
    (h.owner = .scrub ∧ ∃ r l, h.op = .verify r l)
  /-- R45: a context's copy tag is OUTSTANDING and its own. -/
  copyTag : ∀ c t, s.migration = some c → c.copyTag = some t → ∃ h, s.tag t = .outstanding h ∧ h.owner = .migration
  /-- R66, R86: while the link is DOWN every tag is FREE. -/
  down : s.link.up = false → ∀ t, s.tag t = .free
  /-- R124, R144: while LOADING the engine is STOPPED and no slot is in a state the load does not make. -/
  loading : s.device = .loading → s.engine.state = .stopped ∧ (∃ n, s.fuse.state = .loading n) ∧
    ∀ k, s.slot k = .free ∨ (∃ v i, s.slot k = .hard v i) ∨ ∃ v f, s.slot k = .retired v f
  /-- R123, R124: the fuse store is LOADING only while the device is. -/
  fuseLoading : ∀ n, s.fuse.state = .loading n → s.device = .loading
  /-- R192: while RESET_N is low the device is LOADING. -/
  held : s.resetLow = true → s.device = .loading

/-- The slot is RETIRED. -/
def SlotRec.isRetired : SlotRec → Bool
  | .retired _ _ => true
  | _ => false

end Sys2Proof.Machine
end

