-- ==== Sys2Proof/WellFormed.lean ====
section
/-! DEFINITION. The checks a term of Instr must pass to be the command its row names. An ill-formed term is not a row's
command; `exec` still takes it as the write or message it spells (log 18). -/

namespace Sys2Proof

/-- The offset lies in a region of `size` bytes from `base`, on a 4-byte boundary. -/
def alignedIn (offset : BitVec 14) (base size : Nat) : Bool :=
  base ≤ offset.toNat && offset.toNat < base + size && offset.toNat % 4 == 0

/-- A descriptor word (spec/11, 11.1: urgent ring 0x0400, routine ring 0x0500). -/
def isDescriptorWord (offset : BitVec 14) : Bool := alignedIn offset 0x400 128 || alignedIn offset 0x500 384

/-- Word 0 of a descriptor: descriptors stand on 16-byte boundaries (R139). -/
def isDescriptorWord0 (offset : BitVec 14) : Bool := isDescriptorWord offset && offset.toNat % 16 == 0

/-- A report slot word (spec/11, 11.1: report ring 0x0800). -/
def isReportWord (offset : BitVec 14) : Bool := alignedIn offset 0x800 2048

/-- Word 0 of a report slot: slots stand on 32-byte boundaries (spec/10, 10.3). -/
def isReportWord0 (offset : BitVec 14) : Bool := isReportWord offset && offset.toNat % 32 == 0

/-- The registers that software may write (spec/11, 11.3: RW, WO, RW1C, RW0). -/
def isWritableRegister (offset : BitVec 14) : Bool :=
  offset.toNat ∈ [0x004, 0x008, 0x00C, 0x010, 0x014, 0x018, 0x01C, 0x020,
    0x070, 0x074, 0x078, 0x07C, 0x080, 0x084]

/-- R188: the write is refused whatever the state: narrow, misaligned, or addressed to a read-only register, a view or
unmapped space. -/
def alwaysRefused (offset : BitVec 14) (width : Width) : Bool :=
  width != .w32 || offset.toNat % 4 != 0 ||
    !(isWritableRegister offset || isDescriptorWord offset || isReportWord offset)

/-- The command is one its row can name. -/
def Instr.wellFormed : Instr → Bool
  | .fullReset => true
  | .resetRelease => true
  | .loadStep => true
  | .loadEnd => true
  | .linkUp => true
  | .linkDown => true
  | .query _ _ _ => true
  | .errNote _ _ _ _ _ => true
  | .unknownMessage h => !(h.extractLsb' 0 4 ∈ [(1 : BitVec 4), 2, 3])
  | .opDone _ _ _ _ => true
  | .opTimeout _ => true
  | .quarantineExpiry _ => true
  | .epochExpiry => true
  | .scrubIntervalExpiry => true
  | .programmingCompletion none => true
  | .programmingCompletion (some r) => Machine.FuseBytes.finished r && Machine.FuseBytes.started r && !Machine.FuseBytes.checkGood r
  | .fuseSupplyFall => true
  | .fuseSupplyRise => true
  | .abort => true
  | .restart => true
  | .badCommand v => v != 1 && v != 2
  | .engineEnable _ => true
  | .scrubEnable _ => true
  | .fuseEnable _ => true
  | .selfRepairMode _ => true
  | .poisonOnBadCopy _ => true
  | .tallycfgT _ => true
  | .tallycfgL _ => true
  | .scrubcfgI _ => true
  | .scrubcfgD _ => true
  | .scrubcfgChannelMask _ => true
  | .linkcfgN _ => true
  | .linkcfgP _ => true
  | .geomWrite _ => true
  | .irqfWrite _ => true
  | .irqmWrite _ => true
  | .counterClear _ _ => true
  | .descriptorWrite a _ => isDescriptorWord a
  | .handOver a v => isDescriptorWord0 a && v.getLsbD 0
  | .revoke a v => isDescriptorWord0 a && !v.getLsbD 0
  | .reportSlotWrite a _ => isReportWord a
  | .handBack a v => isReportWord0 a && v.getLsbD 0
  | .viewRead _ _ => true
  | .writeRefused a w _ => alwaysRefused a w

end Sys2Proof
end

