-- ==== Sys2Proof/Certificates/Slice0/Obligations.lean ====
section
/-! DEFINITION. The statements for the provers, by chapter of spec/. `u` is the state a command's own effect makes; where
the conclusion says `settle u`, the job arbiter, the tag arbiter and the report unit then act in the same event (log 12,
log 14), as the statements of the last but one section say. -/

open Sys2Proof Sys2Proof.Machine

/-! ### The queue, reset and the load -/

/-- A step takes the command at the front of the queue. With none waiting, the model's choice (log 4): the oldest
outbound message leaves while the link is UP, else the block idles. -/
def Obligations.StepTakesFrontCommand : Prop :=
  (∀ (c : Instr) (rest : List Instr) (s : State), s.pending = c :: rest →
    step s = exec c { s with pending := rest }) ∧
  ∀ s : State, s.pending = [] →
    (s.link.up = true → step s = .next { s with link := ⟨true, s.link.outbound.drop 1⟩ }) ∧
    (s.link.up = false → step s = .next s)

/-- Every register but FUSEPOS0 reads its full-reset value at reset, and IRQ_N is released. Log 3: the state at reset
is the one with RESET_N still low. Log 24: without a record in programming its index in STATE0 reads zero. -/
def Obligations.ResetRegistersReadTheirValues : Prop :=
  State.reset.regValue .id = 0x5A012460 ∧ State.reset.regValue .ctrl = 0 ∧ State.reset.regValue .cmd = 0 ∧
  State.reset.regValue .irqf = 0 ∧ State.reset.regValue .irqm = 0x1F ∧ State.reset.regValue .geom = 2 ∧
  State.reset.regValue .tallycfg = 0x02580004 ∧ State.reset.regValue .scrubcfg = 0x00F201F4 ∧
  State.reset.regValue .linkcfg = 0x00000314 ∧ State.reset.regValue .state0 = 0 ∧
  State.reset.regValue .state1 = 0 ∧ State.reset.regValue .state2 = 0 ∧ State.reset.regValue .urgpos = 0 ∧
  State.reset.regValue .routpos = 0 ∧ State.reset.regValue .rptpos = 0 ∧ State.reset.regValue .fusepos1 = 0 ∧
  State.reset.regValue .fusepos2 = 0 ∧ State.reset.regValue .epoch = 0 ∧ State.reset.regValue .scrubpos0 = 0 ∧
  State.reset.regValue .scrubpos1 = 0 ∧ (∀ c, State.reset.regValue (.counter c) = 0) ∧ State.reset.irqN = true

/-- At reset every law that each event keeps holds, and every table is empty. Log 1 and log 3: the fuse array is blank
and RESET_N still low, the model's choice. -/
def Obligations.ResetHasEmptyTablesAndEveryLaw : Prop :=
  (∀ k, State.reset.slot k = .free) ∧ (∀ t, State.reset.tag t = .free) ∧ (∀ p, State.reset.entry p = none) ∧
  (∀ i, State.reset.desc i = .zero) ∧ (∀ k, State.reset.reportSlot k = .zero) ∧ State.reset.query.poison = [] ∧
  State.reset.migration = none ∧ State.reset.tally.queue = [] ∧ State.reset.reports.held = [] ∧
  State.reset.scrub.state = .off ∧ State.reset.link.up = false ∧ State.reset.pending = [] ∧
  SettingsLaw State.reset.config ∧ CountersLaw State.reset ∧ ReportsLaw State.reset ∧ TagsLaw State.reset ∧
  PoisonLaw State.reset ∧ TallyLaw State.reset ∧ FuseLaw State.reset ∧ MappingLaw State.reset

/-- FULL_RESET puts every block into its full-reset state; the fuse array, the level of FUSE_SUPPLY_OK and the model's
own fields are as they were, and the write position is the first blank record's index, or 96 where none is blank (log
20). IRQ_N is released. -/
def Obligations.FullResetKeepsOnlyTheFuseArray : Prop :=
  (∀ s : State, s.firstBlank ≤ 96 ∧ ∀ i : Fin 96,
    (i.val < s.firstBlank → (s.record i).blank = false) ∧ (i.val = s.firstBlank → (s.record i).blank = true)) ∧
  ∀ s : State, ∃ t, exec .fullReset s = .next t ∧
    t = { State.reset with
      supplyOk := s.supplyOk
      fuse := { State.reset.fuse with records := s.fuse.records, writePos := s.firstBlank }
      freeCount := s.freeCount
      pending := s.pending } ∧
    t.irqN = true

/-- While RESET_N is held low the port takes no access and nothing else is taken; a read returns 0 (log 6: so for the
events of the other interfaces). -/
def Obligations.HeldResetTakesNoCommand : Prop :=
  ∀ s : State, s.resetLow = true →
    (∀ c, takenInReset c = false → exec c s = .next s) ∧
    ∀ a w, exec (.viewRead a w) s = .next { s with port := { s.port with readData := 0 } }

/-- RESET_RELEASE finds the write position, begins the load and starts the epoch timer; when no record is to be read the
load ends in the same event, and its FUSE_LOAD report is held, since the device owns no report slot. -/
def Obligations.ResetReleaseBeginsTheLoad : Prop :=
  ∀ s : State,
    exec .fullReset s = .next (fullResetState s) ∧
    (s.resetLow = true → 0 < s.firstBlank → exec .resetRelease s = .next { s with
      resetLow := false
      device := .loading
      tally := { s.tally with epochTimer := .running (s.config.epochLength.toNat * 100000) }
      fuse := { s.fuse with writePos := s.firstBlank, nextSeq := 1, counts := .zero, state := .loading 0 } }) ∧
    (s.firstBlank = 0 → exec .resetRelease (fullResetState s) = .next { fullResetState s with
      resetLow := false
      device := .running
      tally := { State.reset.tally with epochTimer := .running 60000000 }
      fuse := { (fullResetState s).fuse with state := .idle }
      reports := { State.reset.reports with held := [⟨⟨.fuseLoad .zero 0, 0⟩, 0⟩], serial := 1 } })

/-- LOAD_STEP reads the next record, classifies it and applies it: TORN, CORRUPT, CONDEMN, MAP, superseding MAP, or
CONFLICT. The record's fields stand at the bytes of the layout, and its check is the CRC of R122. -/
def Obligations.LoadStepAppliesTheRecord : Prop :=
  FuseRecordsShown ∧
  (∀ (v : Victim) (k : SlotNum),
    v.rowAt k = ⟨BitVec.ofNat 2 (k.val / 16), BitVec.ofNat 2 (k.val / 4 % 4), v.bank, v.row⟩) ∧
  (∀ (s : State) (r : RowAddr) k, s.hardAt r k = true ↔ ∃ v i, s.slot k = .hard v i ∧ v.rowAt k = r) ∧
  ∀ (s : State) (i : Fin 96), s.resetLow = false → s.fuse.state = .loading i.val → i.val < s.fuse.writePos →
    let r := s.record i
    let k := r.slotNum
    let f := { s.fuse with state := .loading (i.val + 1) }
    let g := { f with nextSeq := max s.fuse.nextSeq (r.sequence.toNat + 1) }
    (r.finished = false →
      exec .loadStep s = .next { s with fuse := { f with counts := { f.counts with torn := f.counts.torn + 1 } } }) ∧
    (r.finished = true → r.checkValid = false →
      exec .loadStep s = .next { s with fuse := { f with
        counts := { f.counts with corrupt := f.counts.corrupt + 1 } } }) ∧
    (r.checkValid = true → s.slot k ≠ .free →
      exec .loadStep s = .next { s with fuse := { g with
        counts := { g.counts with conflict := g.counts.conflict + 1 } } }) ∧
    (r.checkValid = true → s.slot k = .free → r.kindCode = 2 →
      exec .loadStep s = .next { s.putSlot k (.retired none (some i)) with fuse := { g with
        counts := { g.counts with condemned := g.counts.condemned + 1 } } }) ∧
    (r.checkValid = true → s.slot k = .free → r.kindCode = 1 → (∀ j, s.hardAt (r.victim.rowAt k) j = false) →
      exec .loadStep s = .next { s.putSlot k (.hard r.victim i) with fuse := { g with
        counts := { g.counts with installed := g.counts.installed + 1 } } }) ∧
    ∀ j m, r.checkValid = true → s.slot k = .free → r.kindCode = 1 → s.slot j = .hard r.victim m →
      (∀ n, s.hardAt (r.victim.rowAt k) n = true → n = j) → j.val / 4 = k.val / 4 →
      exec .loadStep s = .next { (s.putSlot j (.retired (some r.victim) (some i))).putSlot k (.hard r.victim i) with
        fuse := { g with counts := { g.counts with superseded := g.counts.superseded + 1 } } }

/-- LOAD_END, once no record is left to read: the fuse store becomes IDLE, the device RUNNING, FUSE_LOAD is produced, and
the engine follows its enable, and the scrubber takes the state of the first line of R109 that holds; entering
RUNNING starts its timer, leaving it stops the timer and withdraws the request. -/
def Obligations.LoadEndStartsTheDevice : Prop :=
  ∀ (s : State) (n : Nat), s.resetLow = false → s.fuse.state = .loading n → s.fuse.writePos ≤ n →
    s.engine.state = .stopped →
    let target : ScrubState :=
      if s.config.scrubEnable = false then .off
      else if s.link.up = false then .pausedLink
      else if 8 ≤ s.reports.held.length then .pausedReports
      else .running
    ∃ u, exec .loadEnd s = .next (settle u) ∧ u.device = .running ∧ u.fuse = { s.fuse with state := .idle } ∧
      u.arrivals = s.arrivals ++ [⟨.fuseStore, ⟨.fuseLoad s.fuse.counts s.fuse.writePos, s.tally.epoch⟩⟩] ∧
      u.engine = { s.engine with state := if s.config.engineEnable then .idle else .stopped } ∧
      u.scrub = (if s.scrub.state = target then s.scrub
        else if target = .running then { s.scrub with state := .running, timer := .running s.config.interval.toNat }
        else { s.scrub with state := target, timer := .stopped, waiting := false }) ∧
      SameBut [.device, .fuse, .arrivals, .engine, .scrub] s u

/-! ### The array link and queries -/

/-- LINK_UP moves a DOWN link to UP, produces LINK_CHANGE, sets LINK and lets the scrubber leave its pause, by the
lines of R109 that then hold; the tag arbiter then serves whoever waits. On an UP link it changes nothing. Log 6: the
event cannot arise there. -/
def Obligations.LinkUpIsReportedAndServesWaiters : Prop :=
  ∀ s : State, s.resetLow = false →
    let target : ScrubState :=
      if s.device = .loading ∨ s.config.scrubEnable = false then .off
      else if 8 ≤ s.reports.held.length then .pausedReports
      else .running
    (s.link.up = true → exec .linkUp s = .next s) ∧
    (s.link.up = false → ∃ u, exec .linkUp s = .next (settleOps u) ∧ u.link = ⟨true, s.link.outbound⟩ ∧
      u.arrivals = s.arrivals ++ [⟨.arrayLink, ⟨.linkChange true, s.tally.epoch⟩⟩] ∧
      u.port = { s.port with flags := { s.port.flags with link := true } } ∧
      u.scrub = (if s.scrub.state = target then s.scrub
        else if target = .running then { s.scrub with state := .running, timer := .running s.config.interval.toNat }
        else { s.scrub with state := target, timer := .stopped, waiting := false }) ∧
      SameBut [.link, .arrivals, .port, .scrub] s u)

/-- LINK_DOWN on an UP link: messages that have not left are discarded, every tag becomes FREE, a DRAINING slot whose
COPY is held becomes FREE, LINK_CHANGE and LINK; a migration ends LINK_LOST with its target FREE, its slot
used being the target of a FORWARD or RESPARE and the source of a REVERT. On a DOWN link it changes nothing. Log 6: the
event cannot arise there. Log 13: the tags are released before the abort. -/
def Obligations.LinkDownReleasesTagsAndMigration : Prop :=
  ∀ s : State, s.resetLow = false →
    (s.link.up = false → exec .linkDown s = .next s) ∧
    (∀ (c : Context) k, c.direction ≠ .revert → c.target = .slot k → c.slotUsed = some k) ∧
    (∀ (c : Context) k, c.direction = .revert → c.source = .slot k → c.slotUsed = some k) ∧
    (s.link.up = true → ∃ w,
      (s.migration = none → exec .linkDown s = .next (settleReports (decideScrub w))) ∧
      (∀ c, s.migration = some c → exec .linkDown s =
        .next (settle (decideScrub (completeInFlight ⟨.linkLost, c.slotUsed, c.issued⟩ w)))) ∧
      w.link = ⟨false, []⟩ ∧ (∀ t, w.tag t = .free) ∧ w.tracker.staleDone = s.tracker.staleDone ∧
      w.tracker.retries = s.tracker.retries ∧ w.migration = none ∧
      w.arrivals = s.arrivals ++ [⟨.arrayLink, ⟨.linkChange false, s.tally.epoch⟩⟩] ∧
      w.port = { s.port with flags := { s.port.flags with link := true } } ∧
      (∀ k v t h r a, s.slot k = .draining v → s.tag t = .quarantined h → h.op = .copy r a (.slot k) →
        w.slot k = .free) ∧
      (∀ c k v, s.migration = some c → c.direction ≠ .revert → c.target = .slot k → s.slot k = .reserved v →
        w.slot k = .free) ∧
      (∀ k, (∀ v, s.slot k ≠ .draining v) → (∀ v, s.slot k ≠ .reserved v) → w.slot k = s.slot k) ∧
      SameBut [.link, .tracker, .slots, .arrivals, .port, .migration] s w)

/-- A message of unknown kind is discarded on arrival and changes no state. An ill-formed term, whose header names a
known kind, is discarded as well: the model's choice (log 18). -/
def Obligations.UnknownMessageChangesNothing : Prop :=
  ∀ (h : Word) (s : State), exec (.unknownMessage h) s = .next s

/-- Every QUERY taken gets exactly one ANSWER with its id, produced after every earlier message, and an answer SPARE names
a slot that maps the row at that moment. -/
def Obligations.EveryQueryGetsOneTrueAnswer : Prop :=
  ∀ (id : BitVec 8) (kind : BitVec 2) (w : Word) (s : State), s.resetLow = false → s.link.up = true → MappingLaw s →
    ∃ t v, exec (.query id kind w) s = .next t ∧ t.link = ⟨true, s.link.outbound ++ [.answer id v]⟩ ∧
      ∀ k, v = .spare k → s.mapsAt (RowAddr.ofWord w) k = true

/-- Lines 1 and 2 of the verdict table: WAIT for every QUERY while LOADING; then PASS for a row at or above R. -/
def Obligations.QueryWhileLoadingOrBeyondR : Prop :=
  ∀ (id : BitVec 8) (kind : BitVec 2) (w : Word) (s : State), s.resetLow = false → s.link.up = true →
    s.arrivals = [] →
    (s.device = .loading → exec (.query id kind w) s = .next { s with
      link := { s.link with outbound := s.link.outbound ++ [.answer id .wait] }
      query := { s.query with waits := satInc s.query.waits } }) ∧
    (s.device = .running → s.config.rows ≤ (RowAddr.ofWord w).row.toNat →
      exec (.query id kind w) s = .next { s with
        link := { s.link with outbound := s.link.outbound ++ [.answer id .pass] }
        query := { s.query with outOfRange := satInc s.query.outOfRange } })

/-- Line 3: a poisoned row is answered POISON and its hit counted, whatever its mapping or migration; the first hit
produces POISON_HIT, which arrives at the report unit. A row is poisoned where the poison list has an entry for it, and
its entry is the first of the list with that row. -/
def Obligations.QueryOfPoisonedRow : Prop :=
  (∀ (s : State) (r : RowAddr), (s.poisoned r = true ↔ ∃ e ∈ s.query.poison, e.row = r) ∧
    (s.poisonEntry r = none ↔ ∀ e ∈ s.query.poison, e.row ≠ r) ∧
    ∀ e, s.poisonEntry r = some e ↔ ∃ n, s.query.poison[n]? = some e ∧ e.row = r ∧
      ∀ (m : Nat) (f : PoisonEntry), m < n → s.query.poison[m]? = some f → f.row ≠ r) ∧
  ∀ (id : BitVec 8) (kind : BitVec 2) (w : Word) (s : State) (e : PoisonEntry), s.resetLow = false →
    s.link.up = true → s.arrivals = [] → s.device = .running → (RowAddr.ofWord w).row.toNat < s.config.rows →
    s.poisonEntry (RowAddr.ofWord w) = some e →
    let u : State := { s with
      link := { s.link with outbound := s.link.outbound ++ [.answer id .poison] }
      query := { s.query with poison := s.query.poison.map fun x =>
        if x.row = RowAddr.ofWord w then
          { x with hits := if x.hits < 255 then x.hits + 1 else x.hits, reported := true }
        else x } }
    (e.reported = true → exec (.query id kind w) s = .next u) ∧
    (e.reported = false → exec (.query id kind w) s =
      .next (decideScrub (arrive ⟨.poisonHit (RowAddr.ofWord w) e.origin, s.tally.epoch⟩ u)))

/-- Lines 4 and 5: the victim of the migration context is answered WAIT while FENCED, and with the source location while
COPYING, where every kind but READ makes the pass dirty. -/
def Obligations.QueryOfMigratingVictim : Prop :=
  ∀ (id : BitVec 8) (kind : BitVec 2) (w : Word) (s : State) (c : Context), s.resetLow = false →
    s.link.up = true → s.arrivals = [] → s.device = .running → (RowAddr.ofWord w).row.toNat < s.config.rows →
    s.poisonEntry (RowAddr.ofWord w) = none → s.migration = some c → c.victim = RowAddr.ofWord w →
    (c.phase = .fenced → exec (.query id kind w) s = .next { s with
      link := { s.link with outbound := s.link.outbound ++ [.answer id .wait] }
      query := { s.query with waits := satInc s.query.waits } }) ∧
    (c.phase = .copying → exec (.query id kind w) s = .next { s with
      link := { s.link with outbound := s.link.outbound ++
        [.answer id (match c.source with | .row => .pass | .slot k => .spare k)] }
      migration := some { c with dirty := c.dirty || kind != 1 } })

/-- Lines 6 and 7: a row mapped to a slot is answered SPARE with that slot, any other row PASS, and nothing else
changes. A SOFT, COMMITTING or HARD slot maps its victim, whose channel and bank group are those of the slot's pool, and a
FREE, RESERVED, DRAINING or RETIRED slot maps no row. -/
def Obligations.QueryOfMappedOrUnmappedRow : Prop :=
  (∀ (s : State) (r : RowAddr) (k : SlotNum) (v : Victim),
    (s.slot k = .soft v ∨ s.slot k = .committing v ∨ (∃ i, s.slot k = .hard v i) →
      (s.mapsAt r k = true ↔ r = ⟨BitVec.ofNat 2 (k.val / 16), BitVec.ofNat 2 (k.val / 4 % 4), v.bank, v.row⟩)) ∧
    (s.slot k = .free ∨ s.slot k = .reserved v ∨ s.slot k = .draining v ∨ (∃ x i, s.slot k = .retired x i) →
      s.mapsAt r k = false)) ∧
  (∀ (s : State) (r : RowAddr), (s.mappedSlot r = none ↔ ∀ k, s.mapsAt r k = false) ∧
    ∀ k, s.mappedSlot r = some k → s.mapsAt r k = true) ∧
  ∀ (id : BitVec 8) (kind : BitVec 2) (w : Word) (s : State), s.resetLow = false →
    s.link.up = true → s.arrivals = [] → s.device = .running → (RowAddr.ofWord w).row.toNat < s.config.rows →
    s.poisonEntry (RowAddr.ofWord w) = none → (∀ c, s.migration = some c → c.victim ≠ RowAddr.ofWord w) →
    (∀ k, s.mapsAt (RowAddr.ofWord w) k = true → (∀ j, s.mapsAt (RowAddr.ofWord w) j = true → j = k) →
      exec (.query id kind w) s =
        .next { s with link := { s.link with outbound := s.link.outbound ++ [.answer id (.spare k)] } }) ∧
    ((∀ k, s.mapsAt (RowAddr.ofWord w) k = false) →
      exec (.query id kind w) s =
        .next { s with link := { s.link with outbound := s.link.outbound ++ [.answer id .pass] } })

/-! ### Error notes -/

/-- An ERR_NOTE that is taken while LOADING, or for a row at or above R, or whose location is not the row's current
location, is only counted stale. The current location is the source of a migration of the row, else its slot, else the
row itself. -/
def Obligations.StaleErrNoteIsOnlyCounted : Prop :=
  ∀ (atSlot : Bool) (k : Fin 64) (unc : Bool) (bits : BitVec 4) (w : Word) (s : State), s.resetLow = false →
    s.link.up = true →
    let r := RowAddr.ofWord w
    (s.device = .loading ∨ s.config.rows ≤ r.row.toNat ∨ Location.ofMark atSlot k ≠ s.location r →
      exec (.errNote atSlot k unc bits w) s =
        .next { s with tally := { s.tally with staleNotes := satInc s.tally.staleNotes } }) ∧
    (∀ c, s.migration = some c → c.victim = r → s.location r = c.source) ∧
    ((∀ c, s.migration = some c → c.victim ≠ r) → ∀ j, s.mapsAt r j = true →
      (∀ i, s.mapsAt r i = true → i = j) → s.location r = .slot j) ∧
    ((∀ c, s.migration = some c → c.victim ≠ r) → (∀ j, s.mapsAt r j = false) → s.location r = .row)

/-- An agreeing note for a TRACKING entry counts against it; for a row without an entry it makes one, in the lowest free
position or else in the evicted entry's. The entry at or above T, or seen uncorrectable, becomes CANDIDATE in the same
event, with its report and its queue decision; the UNCORRECTABLE report comes first. The lowest free position is the
lowest one without an entry, and a row's entry is the one that holds the row. -/
def Obligations.AgreeingNoteIsRecordedAndTested : Prop :=
  (∀ s : State, (s.freePosition = none ↔ ∀ p, s.entry p ≠ none) ∧
    ∀ p, s.freePosition = some p ↔ s.entry p = none ∧ ∀ q, q < p → s.entry q ≠ none) ∧
  (∀ (s : State) (r : RowAddr), (s.findEntry r = none ↔ ∀ p e, s.entry p = some e → e.row ≠ r) ∧
    ∀ p e, s.findEntry r = some (p, e) ↔
      s.entry p = some e ∧ e.row = r ∧ ∀ q f, q < p → s.entry q = some f → f.row ≠ r) ∧
  ∀ (atSlot : Bool) (k : Fin 64) (unc : Bool) (bits : BitVec 4) (w : Word) (s : State) (p : Fin 32) (e : TallyEntry),
    s.resetLow = false → s.link.up = true → s.arrivals = [] → s.device = .running →
    let r := RowAddr.ofWord w
    let l := Location.ofMark atSlot k
    r.row.toNat < s.config.rows → l = s.location r →
    (∃ f, s.findEntry r = some (p, f) ∧ f.state = .tracking ∧ f.uncorrectable = false ∧
        e = { f with
          count := if f.count < 15 then f.count + 1 else f.count
          lastEpoch := s.tally.epoch
          uncorrectable := unc }) ∨
      (s.findEntry r = none ∧ (s.freePosition = some p ∨ (s.freePosition = none ∧ s.evictee = some p)) ∧
        e = ⟨r, l, 1, unc, .tracking, s.tally.epoch, false, false⟩) →
    let cause := if unc then PromotionCause.uncorrectable else .threshold
    let reports (o : QueueOutcome) : List Arrival :=
      (if unc then [⟨.errorTally, ⟨.uncorrectable r l .link false, s.tally.epoch⟩⟩] else []) ++
        [⟨.errorTally, ⟨.candidate e.row e.loc e.count unc o cause, s.tally.epoch⟩⟩]
    let candidate : State := s.putEntry p (some { e with state := .candidate })
    (unc = false → e.count < s.config.threshold.toNat →
      exec (.errNote atSlot k unc bits w) s = .next (s.putEntry p (some e))) ∧
    (unc = true ∨ s.config.threshold.toNat ≤ e.count → s.config.mode.permits e.loc = false →
      exec (.errNote atSlot k unc bits w) s = .next (settleReports { candidate with arrivals := reports .neither })) ∧
    (unc = true ∨ s.config.threshold.toNat ≤ e.count → s.config.mode.permits e.loc = true →
      8 ≤ s.tally.queue.length →
      exec (.errNote atSlot k unc bits w) s = .next (settleReports { candidate with arrivals := reports .autoSkipped })) ∧
    (unc = true ∨ s.config.threshold.toNat ≤ e.count → s.config.mode.permits e.loc = true →
      s.tally.queue.length < 8 →
      exec (.errNote atSlot k unc bits w) s = .next (settle { s with
        tally := { s.tally with
          entries := s.tally.entries.set p (some { e with state := .candidate, queued := true })
          queue := s.tally.queue ++ [e.row] }
        arrivals := reports .queued }))

/-- An agreeing note for a CANDIDATE entry counts without promoting it. With no entry and 32 CANDIDATE entries the note is
not recorded: TALLY_FULL is produced if the full-reported mark is no, then UNCORRECTABLE marked untracked if it is
uncorrectable. -/
def Obligations.NoteForCandidateOrFullTally : Prop :=
  ∀ (atSlot : Bool) (k : Fin 64) (unc : Bool) (bits : BitVec 4) (w : Word) (s : State),
    s.resetLow = false → s.link.up = true → s.arrivals = [] → s.device = .running →
    let r := RowAddr.ofWord w
    let l := Location.ofMark atSlot k
    r.row.toNat < s.config.rows → l = s.location r →
    (∀ p e, s.findEntry r = some (p, e) → e.state = .candidate →
      let u : State := s.putEntry p (some { e with
        count := if e.count < 15 then e.count + 1 else e.count
        lastEpoch := s.tally.epoch
        uncorrectable := e.uncorrectable || unc })
      exec (.errNote atSlot k unc bits w) s = .next
        (if unc = true ∧ e.uncorrectable = false then
          decideScrub (arrive ⟨.uncorrectable r l .link false, s.tally.epoch⟩ u) else u)) ∧
    (s.findEntry r = none → s.freePosition = none → s.evictee = none →
      exec (.errNote atSlot k unc bits w) s = .next (settleReports { s with
        tally := { s.tally with fullReported := true }
        arrivals :=
          (if s.tally.fullReported then []
            else [⟨.errorTally, ⟨.tallyFull r l 32, s.tally.epoch⟩⟩]) ++
          (if unc then [⟨.errorTally, ⟨.uncorrectable r l .link true, s.tally.epoch⟩⟩] else []) }))

/-- The entry evicted is a TRACKING entry than which no other is weaker: the lowest count, then the oldest last-update
epoch modulo 2³², then the lowest position. None is evicted only where no entry is TRACKING. -/
def Obligations.EvictionPicksTheWeakestTrackingEntry : Prop :=
  ∀ s : State,
    (∀ p, s.evictee = some p → ∃ e, s.entry p = some e ∧ e.state = .tracking ∧
      ∀ q f, s.entry q = some f → f.state = .tracking →
        e.count < f.count ∨
        (e.count = f.count ∧ (s.tally.epoch - f.lastEpoch).toNat < (s.tally.epoch - e.lastEpoch).toNat) ∨
        (e.count = f.count ∧ (s.tally.epoch - f.lastEpoch).toNat = (s.tally.epoch - e.lastEpoch).toNat ∧ p ≤ q)) ∧
    (s.evictee = none → ∀ q f, s.entry q = some f → f.state = .candidate)

/-! ### Operation completions and timers -/

/-- An OP_DONE for a FREE tag, or for an OUTSTANDING tag at another attempt, is stale: it is counted and nothing else
changes, the tag's timer included. -/
def Obligations.StaleCompletionIsOnlyCounted : Prop :=
  ∀ (t : Fin 4) (a : Fin 2) (result bits : BitVec 4) (s : State), s.resetLow = false → s.link.up = true →
    (s.tag t = .free ∨ ∃ h, s.tag t = .outstanding h ∧ h.attempt ≠ a) →
    exec (.opDone t a result bits) s =
      .next { s with tracker := { s.tracker with staleDone := satInc s.tracker.staleDone } }

/-- A QUARANTINED tag is released by a late completion, which is counted stale whatever its attempt and result, or by its
timer's expiry, which is not counted; a COPY it held into a DRAINING slot makes that slot FREE. -/
def Obligations.QuarantinedTagIsReleased : Prop :=
  ∀ (t : Fin 4) (a : Fin 2) (result bits : BitVec 4) (s : State) (h : HeldOp), s.resetLow = false →
    s.tag t = .quarantined h →
    ∃ u : State,
      exec (.quarantineExpiry t) s = .next (settleOps u) ∧
      (s.link.up = true → exec (.opDone t a result bits) s =
        .next (settleOps { u with tracker := { u.tracker with staleDone := satInc s.tracker.staleDone } })) ∧
      (∀ r x k v, h.op = .copy r x (.slot k) → s.slot k = .draining v → u = (s.putTag t .free).putSlot k .free) ∧
      ((∀ r x k v, h.op = .copy r x (.slot k) → s.slot k ≠ .draining v) → u = s.putTag t .free)

/-- The valid completion of the context's COPY: the tag becomes FREE and the copy tag is removed; DONE clears the bad
copy mark and SOURCE_UNCORRECTABLE sets it; a clean or fenced pass switches, a dirty one is repeated below P and
fenced at P or above; FAILED and every other result abort with COPY_FAILED. The pass number of the fenced pass is one
more than the completing pass's (log 16). -/
def Obligations.PassCompletionFollowsTheTable : Prop :=
  ∀ (t : Fin 4) (a : Fin 2) (result bits : BitVec 4) (s : State) (h : HeldOp) (c : Context), s.resetLow = false →
    s.link.up = true → s.tag t = .outstanding h → h.attempt = a → h.owner = .migration → s.migration = some c →
    c.copyTag = some t →
    let u := s.putTag t .free
    let d : Context := { c with copyTag := none, badCopy := result == 2 }
    (result = 1 ∨ result = 2 → c.phase = .fenced ∨ c.dirty = false →
      exec (.opDone t a result bits) s = .next (settle (switch d u))) ∧
    (result = 1 ∨ result = 2 → c.phase = .copying → c.dirty = true → c.pass < s.config.recopy.toNat →
      exec (.opDone t a result bits) s =
        .next (settle { u with migration := some { d with pass := c.pass + 1, dirty := false } })) ∧
    (result = 1 ∨ result = 2 → c.phase = .copying → c.dirty = true → s.config.recopy.toNat ≤ c.pass →
      exec (.opDone t a result bits) s =
        .next (settle { u with migration := some { d with phase := .fenced, pass := c.pass + 1, dirty := false } })) ∧
    (result ≠ 1 → result ≠ 2 →
      exec (.opDone t a result bits) s = .next (settle (abortContext .copyFailed { c with copyTag := none } u)))

/-- The valid completion of a VERIFY: CORRECTED and UNCORRECTABLE make a note with source SCRUB at the location verified,
stale at a row at or above R or at a location the row has left; any other result makes none. The tag becomes FREE
first. An agreeing note is counted, makes an entry, promotes it or finds the tally full as a note of the link does, and its
UNCORRECTABLE report has the source SCRUB. -/
def Obligations.VerifyCompletionIsNoted : Prop :=
  ∀ (t : Fin 4) (a : Fin 2) (result bits : BitVec 4) (s : State) (h : HeldOp) (r : RowAddr) (l : Location),
    s.resetLow = false → s.link.up = true → s.tag t = .outstanding h → h.attempt = a → h.owner = .scrub →
    h.op = .verify r l →
    let u := s.putTag t .free
    (result ≠ 2 → result ≠ 3 → exec (.opDone t a result bits) s = .next (settleOps u)) ∧
    (result = 2 ∨ result = 3 → s.config.rows ≤ r.row.toNat ∨ l ≠ s.location r →
      exec (.opDone t a result bits) s =
        .next (settleOps { u with tally := { u.tally with staleNotes := satInc u.tally.staleNotes } })) ∧
    (result = 2 ∨ result = 3 → r.row.toNat < s.config.rows → l = s.location r →
      exec (.opDone t a result bits) s = .next (settleFreedFrom u (recordNote
        ⟨r, l, if result = 3 then .uncorrectable else
          .corrected (if bits.toNat = 0 ∨ 8 < bits.toNat then 8 else bits.toNat), .scrub⟩ u))) ∧
    (result = 2 ∨ result = 3 → r.row.toNat < s.config.rows → l = s.location r →
      let unc : Bool := result = 3
      (∀ (p : Fin 32) (e : TallyEntry),
        (∃ f, s.findEntry r = some (p, f) ∧ f.state = .tracking ∧ f.uncorrectable = false ∧
            e = { f with
              count := if f.count < 15 then f.count + 1 else f.count
              lastEpoch := s.tally.epoch
              uncorrectable := unc }) ∨
          (s.findEntry r = none ∧ (s.freePosition = some p ∨ (s.freePosition = none ∧ s.evictee = some p)) ∧
            e = ⟨r, l, 1, unc, .tracking, s.tally.epoch, false, false⟩) →
        let cause := if unc then PromotionCause.uncorrectable else .threshold
        let reports (o : QueueOutcome) : List Arrival := s.arrivals ++
          (if unc then [⟨.errorTally, ⟨.uncorrectable r l .scrub false, s.tally.epoch⟩⟩] else []) ++
            [⟨.errorTally, ⟨.candidate e.row e.loc e.count unc o cause, s.tally.epoch⟩⟩]
        let candidate : State := u.putEntry p (some { e with state := .candidate })
        (unc = false → e.count < s.config.threshold.toNat →
          exec (.opDone t a result bits) s = .next (settleOps (u.putEntry p (some e)))) ∧
        (unc = true ∨ s.config.threshold.toNat ≤ e.count → s.config.mode.permits e.loc = false →
          exec (.opDone t a result bits) s = .next (settleOps { candidate with arrivals := reports .neither })) ∧
        (unc = true ∨ s.config.threshold.toNat ≤ e.count → s.config.mode.permits e.loc = true →
          8 ≤ s.tally.queue.length →
          exec (.opDone t a result bits) s = .next (settleOps { candidate with arrivals := reports .autoSkipped })) ∧
        (unc = true ∨ s.config.threshold.toNat ≤ e.count → s.config.mode.permits e.loc = true →
          s.tally.queue.length < 8 →
          exec (.opDone t a result bits) s = .next (settle { u with
            tally := { s.tally with
              entries := s.tally.entries.set p (some { e with state := .candidate, queued := true })
              queue := s.tally.queue ++ [e.row] }
            arrivals := reports .queued }))) ∧
      (∀ p e, s.findEntry r = some (p, e) → e.state = .candidate →
        exec (.opDone t a result bits) s = .next (settleOps {
          u.putEntry p (some { e with
            count := if e.count < 15 then e.count + 1 else e.count
            lastEpoch := s.tally.epoch
            uncorrectable := e.uncorrectable || unc }) with
          arrivals := s.arrivals ++ (if unc = true ∧ e.uncorrectable = false then
            [⟨.errorTally, ⟨.uncorrectable r l .scrub false, s.tally.epoch⟩⟩] else []) })) ∧
      (s.findEntry r = none → s.freePosition = none → s.evictee = none →
        exec (.opDone t a result bits) s = .next (settleOps { u with
          tally := { s.tally with fullReported := true }
          arrivals := s.arrivals ++
            (if s.tally.fullReported then []
              else [⟨.errorTally, ⟨.tallyFull r l 32, s.tally.epoch⟩⟩]) ++
            (if unc then [⟨.errorTally, ⟨.uncorrectable r l .scrub true, s.tally.epoch⟩⟩] else []) })))

/-- The timer of an OUTSTANDING tag at attempt 0 expires: the operation is re-issued at attempt 1 with its timer
restarted, the retry counted, and nothing else changes. -/
def Obligations.OpTimeoutReissuesOnce : Prop :=
  ∀ (t : Fin 4) (s : State) (h : HeldOp), s.resetLow = false → s.tag t = .outstanding h → h.attempt = 0 →
    exec (.opTimeout t) s = .next { s with
      tracker := { s.tracker with
        tags := s.tracker.tags.set t (.outstanding
          ⟨h.owner, h.op, 1, .running (s.config.timeout.toNat * 100)⟩)
        retries := satInc s.tracker.retries }
      link := { s.link with outbound := s.link.outbound ++ [.opReq t 1 h.op] } }

/-- The timer of an OUTSTANDING tag at attempt 1 expires: the tag is QUARANTINED with its timer restarted; a migration is
aborted LINK_TIMEOUT; of a VERIFY no note is made, and the tag arbiter acts: the count of R75 has fallen, so this may be the
first event in which a waiting scrubber can be granted a tag (log 14). Where the scrubber does not wait, and the arbiter's law
holds, nothing else changes. -/
def Obligations.OpTimeoutGivesUpAfterTheSecond : Prop :=
  ∀ (t : Fin 4) (s : State) (h : HeldOp), s.resetLow = false → s.tag t = .outstanding h → h.attempt = 1 →
    let u := s.putTag t (.quarantined ⟨h.owner, h.op, 1, .running (s.config.timeout.toNat * 100)⟩)
    (h.owner = .scrub → exec (.opTimeout t) s = .next (settleOps u)) ∧
    (h.owner = .scrub → s.scrub.waiting = false → s.arrivals = [] → TagsLaw s → exec (.opTimeout t) s = .next u) ∧
    (∀ c, h.owner = .migration → s.migration = some c → c.copyTag = some t →
      exec (.opTimeout t) s = .next (settle (abortContext .linkTimeout c u)))

/-- EPOCH_EXPIRY restarts the timer with the L held, counts the epoch, and takes one from every TRACKING count, freeing an
entry that reaches 0; no other part of the state changes and no report is produced. -/
def Obligations.EpochExpiryDecaysTrackingEntries : Prop :=
  ∀ (s : State) (n : Nat), s.resetLow = false → s.tally.epochTimer = .running n →
    ∃ t, exec .epochExpiry s = .next t ∧ t.tally.epoch = s.tally.epoch + 1 ∧
      t.tally.epochTimer = .running (s.config.epochLength.toNat * 100000) ∧
      (∀ p, s.entry p = none → t.entry p = none) ∧
      (∀ p e, s.entry p = some e → e.state = .candidate → t.entry p = some e) ∧
      (∀ p e, s.entry p = some e → e.state = .tracking → e.count ≤ 1 → t.entry p = none) ∧
      (∀ p e, s.entry p = some e → e.state = .tracking → 1 < e.count →
        t.entry p = some { e with count := e.count - 1 }) ∧
      ((∀ p e, s.entry p = some e → e.state = .tracking → e.row ∉ s.tally.queue) →
        t.tally.queue = s.tally.queue) ∧
      ((∃ p e, s.entry p = some e ∧ e.state = .tracking ∧ e.count ≤ 1) → t.tally.fullReported = false) ∧
      ((∀ p e, s.entry p = some e → e.state = .tracking → 1 < e.count) →
        t.tally.fullReported = s.tally.fullReported) ∧
      t.tally.staleNotes = s.tally.staleNotes ∧ t.tally.latch = s.tally.latch ∧ SameBut [.tally] s t

/-- SCRUB_INTERVAL_EXPIRY while RUNNING: the scrubber begins to wait for a tag with its timer stopped, and the tag arbiter
acts. A stopped timer, or a scrubber not RUNNING, has no expiry (log 6). -/
def Obligations.ScrubIntervalExpiryBeginsTheWait : Prop :=
  ∀ (s : State) (n : Nat), s.resetLow = false →
    (s.scrub.state = .running → s.scrub.timer = .running n → exec .scrubIntervalExpiry s =
      .next (settleOps { s with scrub := { s.scrub with waiting := true, timer := .stopped } })) ∧
    (s.scrub.state ≠ .running ∨ s.scrub.timer = .stopped → exec .scrubIntervalExpiry s = .next s)

/-! ### The fuse store's events -/

/-- PROGRAMMING_COMPLETION programs the finished bit and reads the record back: MAP makes its slot HARD on a good
check and SOFT on a bad one, CONDEMN marks its slot fused on a good check only; the store is IDLE and the job
completes OK or FUSE_VERIFY. A pending restart runs after that completion. That the reading is an operand of the
command is the model's choice (log 9). -/
def Obligations.ProgrammingCompletionEndsByReadBack : Prop :=
  ∀ (s : State) (i : Fin 96) (k : SlotNum) (v : Victim) (old : Option Victim) (reading : Option (BitVec 64)),
    s.resetLow = false →
    let r : FuseBytes := reading.elim (s.record i ||| 0x40) fun x => x ||| 0xC0
    let f := { s.fuse with records := s.fuse.records.set i r, state := .idle }
    (s.fuse.state = .programming i .map k → s.slot k = .committing v → r.checkGood = true →
      exec (.programmingCompletion reading) s =
        .next (settle (endProgramming ⟨.ok, some k, i.val⟩ { s.putSlot k (.hard v i) with fuse := f }))) ∧
    (s.fuse.state = .programming i .map k → s.slot k = .committing v → r.checkGood = false →
      exec (.programmingCompletion reading) s =
        .next (settle (endProgramming ⟨.fuseVerify, some k, i.val⟩ { s.putSlot k (.soft v) with fuse := f }))) ∧
    (s.fuse.state = .programming i .condemn k → s.slot k = .retired old none → r.checkGood = true →
      exec (.programmingCompletion reading) s =
        .next (settle (endProgramming ⟨.ok, some k, i.val⟩
          { s.putSlot k (.retired old (some i)) with fuse := f }))) ∧
    (s.fuse.state = .programming i .condemn k → r.checkGood = false →
      exec (.programmingCompletion reading) s =
        .next (settle (endProgramming ⟨.fuseVerify, some k, i.val⟩ { s with fuse := f }))) ∧
    (∀ x u, (∀ j, u.engine.state ≠ .restartPending j) → endProgramming x u = completeInFlight x u) ∧
    ∀ x u j, u.engine.state = .restartPending j → endProgramming x u = runRestart (completeInFlight x u)

/-- FUSE_SUPPLY_FALL ends programming in progress with FUSE_ABORTED: the record stays started, a COMMITTING slot returns
to SOFT, write position and next sequence stay. Without programming, and at FUSE_SUPPLY_RISE, only the pin's level
changes. -/
def Obligations.FuseSupplyFallEndsProgramming : Prop :=
  ∀ (s : State) (i : Fin 96) (k : SlotNum) (v : Victim),
    exec .fuseSupplyRise s = .next { s with supplyOk := true } ∧
    (s.resetLow = true ∨ s.programming = false → exec .fuseSupplyFall s = .next { s with supplyOk := false }) ∧
    (s.resetLow = false → s.fuse.state = .programming i .map k → s.slot k = .committing v →
      exec .fuseSupplyFall s = .next (settle (endProgramming ⟨.fuseAborted, some k, i.val⟩
        { s.putSlot k (.soft v) with supplyOk := false, fuse := { s.fuse with state := .idle } }))) ∧
    (s.resetLow = false → s.fuse.state = .programming i .condemn k →
      exec .fuseSupplyFall s = .next (settle (endProgramming ⟨.fuseAborted, some k, i.val⟩
        { s with supplyOk := false, fuse := { s.fuse with state := .idle } })))

/-! ### The system port -/

/-- ABORT aborts a migration with ABORTED, is refused while a fuse job is in flight, and is ignored when IDLE or STOPPED.
RESTART is held while the fuse store programs, changes nothing when already held, and runs at once otherwise. The jobs of a
migration are SPARE, RESPARE and UNSPARE. -/
def Obligations.AbortAndRestartActByEngineState : Prop :=
  (∀ k : JobKind, k.migrates = true ↔ k = .spare ∨ k = .respare ∨ k = .unspare) ∧
  (∀ s : State, s.programming = true ↔ ∃ i k n, s.fuse.state = .programming i k n) ∧
  ∀ (s : State), s.resetLow = false →
    (∀ j c, s.engine.state = .busy j → j.kind.migrates = true → s.migration = some c →
      exec .abort s = .next (settle (abortContext .aborted c s))) ∧
    (∀ j, s.engine.state = .busy j → j.kind.migrates = false → exec .abort s = .next s.afterRefusal) ∧
    (∀ j, s.engine.state = .restartPending j → exec .abort s = .next s.afterRefusal ∧ exec .restart s = .next s) ∧
    (s.engine.state = .idle ∨ s.engine.state = .stopped →
      exec .abort s = .next s ∧ exec .restart s = .next (settle (runRestart s))) ∧
    (∀ j, s.engine.state = .busy j → s.programming = true →
      exec .restart s = .next { s with engine := { s.engine with state := .restartPending j } }) ∧
    (∀ j, s.engine.state = .busy j → s.programming = false → exec .restart s = .next (settle (runRestart s)))

/-- A refused write changes no word: the refused-write counter goes up by one and PORT_ERROR is set. So for a CMD
value that names no command, a narrow or misaligned write or one to a word never writable, a counter written other
than 0 in its bits 15:0, a configuration value out of range, and GEOM while the engine is not STOPPED or the scrubber not
OFF. The words ever writable are the registers of 11.3 that are RW, WO, RW1C or RW0 and the words of both job rings and
of the report ring. The value written to CMD is the whole word (log 11), and a row that names a field of a register is a
write of that register (log 8). -/
def Obligations.RefusedWritesAreOnlyCounted : Prop :=
  (∀ (a : BitVec 14) (w : Width), alwaysRefused a w = false ↔ w = .w32 ∧
    (a ∈ ([0x004, 0x008, 0x00C, 0x010, 0x014, 0x018, 0x01C, 0x020, 0x070, 0x074, 0x078, 0x07C, 0x080, 0x084] :
        List (BitVec 14)) ∨
      (∃ i n, a = descOffset i n) ∨ ∃ k n, a = reportOffset k n)) ∧
  ∀ (s : State) (v : Word), s.resetLow = false →
    (v ≠ 1 → v ≠ 2 → exec (.badCommand v) s = .next s.afterRefusal) ∧
    (∀ a w, alwaysRefused a w = true → exec (.writeRefused a w v) s = .next s.afterRefusal) ∧
    (∀ c, field v 0 16 ≠ 0 → exec (.counterClear c v) s = .next s.afterRefusal) ∧
    (∀ c ∈ ctrlWrites v, field v 4 2 = 3 → exec c s = .next s.afterRefusal) ∧
    (∀ c ∈ tallyWrites v, field v 0 4 = 0 ∨ field v 16 16 = 0 → exec c s = .next s.afterRefusal) ∧
    (∀ c ∈ scrubWrites v, field v 0 16 = 0 ∨ field v 16 2 = 0 ∨ field v 20 4 = 0 → exec c s = .next s.afterRefusal) ∧
    (∀ c ∈ linkWrites v, field v 0 8 = 0 ∨ field v 8 3 = 0 → exec c s = .next s.afterRefusal) ∧
    (s.engine.state ≠ .stopped ∨ s.scrub.state ≠ .off → exec (.geomWrite v) s = .next s.afterRefusal)

/-- An accepted write of CTRL sets every field. A changed engine enable moves the engine between STOPPED and IDLE, a
changed scrub enable gives the scrubber the state of the first line of R109 that holds, a changed mode acts on the
candidate queue; the arbiter then finds the queue and the engine as they are. A field that keeps its value has no effect.
The five rows that name a field of CTRL are the same write (log 8). The modes have the codes 0 OFF, 1 SPARE_ONLY and 2
SPARE_AND_RESPARE, and 3 is none. -/
def Obligations.ControlWriteSetsEveryField : Prop :=
  (RepairMode.ofCode 0 = some .off ∧ RepairMode.ofCode 1 = some .spareOnly ∧
    RepairMode.ofCode 2 = some .spareAndRespare ∧ RepairMode.ofCode 3 = none) ∧
  (∀ (w : Word) (i n : Nat), bit w i = w.getLsbD i ∧ field w i n = w.extractLsb' i n) ∧
  ∀ (s : State) (v : Word) (m : RepairMode), s.resetLow = false → RepairMode.ofCode (field v 4 2) = some m →
    let target : ScrubState :=
      if s.device = .loading ∨ bit v 1 = false then .off
      else if s.link.up = false then .pausedLink
      else if 8 ≤ s.reports.held.length then .pausedReports
      else .running
    ∀ c ∈ ctrlWrites v, ∃ u,
      exec c s = .next (if m = s.config.mode ∧ bit v 0 = s.config.engineEnable then u else settle u) ∧
      u.config = { s.config with
        engineEnable := bit v 0, scrubEnable := bit v 1, fuseEnable := bit v 2, mode := m, poisonOnBad := bit v 6 } ∧
      (bit v 0 = s.config.engineEnable → u.engine = s.engine) ∧
      (bit v 0 ≠ s.config.engineEnable → u.engine = { s.engine with state :=
        match s.engine.state with
        | .stopped => if bit v 0 = true ∧ s.device = .running then .idle else .stopped
        | .idle => if bit v 0 then .idle else .stopped
        | .busy j => .busy j
        | .restartPending j => .restartPending j }) ∧
      (bit v 1 = s.config.scrubEnable → u.scrub = s.scrub) ∧
      (bit v 1 ≠ s.config.scrubEnable → u.scrub =
        if s.scrub.state = target then s.scrub
        else if target = .running then { s.scrub with state := .running, timer := .running s.config.interval.toNat }
        else { s.scrub with state := target, timer := .stopped, waiting := false }) ∧
      (m = s.config.mode → u.tally = s.tally) ∧
      (m ≠ s.config.mode → u.tally = (applyMode s.config.mode { s with config := { s.config with mode := m } }).tally) ∧
      SameBut [.config, .tally, .engine, .scrub] s u

/-- A changed mode acts on the candidate queue: OFF empties it; SPARE_ONLY from SPARE_AND_RESPARE takes out the rows
located at a slot, the others keeping their order; otherwise the CANDIDATE entries that are permitted, not queued and
not attempted are appended in ascending order of position while the queue holds fewer than 8 rows. -/
def Obligations.ModeWriteActsOnTheQueue : Prop :=
  ∀ (s : State) (old : RepairMode), old ≠ s.config.mode →
    let u := applyMode old s
    SameBut [.tally] s u ∧
    (∀ (m : RepairMode) (x : Location),
      m.permits x = true ↔ m = .spareAndRespare ∨ (m = .spareOnly ∧ x = .row)) ∧
    (s.config.mode = .off → u.tally.queue = [] ∧
      ∀ p e, s.entry p = some e → u.entry p = some { e with queued := false }) ∧
    (s.config.mode = .spareOnly → old = .spareAndRespare →
      u.tally.queue.Sublist s.tally.queue ∧
      (∀ r, r ∈ u.tally.queue ↔ r ∈ s.tally.queue ∧
        ¬∃ p e, s.entry p = some e ∧ e.row = r ∧ e.queued = true ∧ e.loc ≠ .row) ∧
      ∀ p e, s.entry p = some e →
        u.entry p = some (if e.loc = .row then e else { e with queued := false })) ∧
    (s.config.mode ≠ .off → old ≠ .spareAndRespare → ∃ l, u.tally.queue = s.tally.queue ++ l ∧
      l = ((List.finRange 32).filterMap fun p => (s.entry p).bind fun e =>
        if e.state = .candidate ∧ e.queued = false ∧ e.attempted = false ∧ s.config.mode.permits e.loc = true
        then some e.row else none).take (8 - s.tally.queue.length) ∧
      (s.tally.queue.length ≤ 8 → u.tally.queue.length ≤ 8) ∧
      (∀ r ∈ l, ∃ p e, s.entry p = some e ∧ e.row = r ∧ e.state = .candidate ∧ e.queued = false ∧
        e.attempted = false ∧ s.config.mode.permits e.loc = true ∧ u.entry p = some { e with queued := true }) ∧
      (u.tally.queue.length < 8 → ∀ p e, s.entry p = some e → e.state = .candidate → e.queued = false →
        e.attempted = false → s.config.mode.permits e.loc = true → u.entry p = some { e with queued := true }) ∧
      ∀ p e, s.entry p = some e → u.entry p = some e ∨ (u.entry p = some { e with queued := true } ∧ e.row ∈ l))

/-- An accepted write of TALLYCFG: a changed L restarts the epoch timer; a changed T promotes every TRACKING entry at
or above it, in ascending order of position, each with a CANDIDATE report of cause RETHRESHOLD and its queue decision:
neither where the mode does not permit its location, else queued while the queue holds fewer than 8 rows, else auto
skipped. No other entry is touched and no other report produced. The two rows that name a field of TALLYCFG are the same
write (log 8). -/
def Obligations.TallyConfigWriteSetsThresholdAndEpoch : Prop :=
  ∀ (s : State) (v : Word), s.resetLow = false → field v 0 4 ≠ 0 → field v 16 16 ≠ 0 →
    let n := { s.config with threshold := field v 0 4, epochLength := field v 16 16 }
    let timer := if field v 16 16 = s.config.epochLength then s.tally.epochTimer
      else .running ((field v 16 16).toNat * 100000)
    let due (p : Fin 32) : Option TallyEntry :=
      (s.entry p).filter fun e => e.state = .tracking ∧ (field v 0 4).toNat ≤ e.count
    let permitted (p : Fin 32) : Bool :=
      (due p).any fun e => s.config.mode = .spareAndRespare ∨ (s.config.mode = .spareOnly ∧ e.loc = .row)
    let ahead (p : Fin 32) : Nat := ((List.finRange 32).filter fun q => q < p ∧ permitted q).length
    let outcome (p : Fin 32) : QueueOutcome :=
      if permitted p = false then .neither
      else if s.tally.queue.length + ahead p < 8 then .queued
      else .autoSkipped
    ∀ c ∈ tallyWrites v,
      (field v 0 4 = s.config.threshold →
        exec c s = .next { s with config := n, tally := { s.tally with epochTimer := timer } }) ∧
      (field v 0 4 ≠ s.config.threshold → ∃ u, exec c s = .next (settle u) ∧ u.config = n ∧
        u.arrivals = s.arrivals ++ (List.finRange 32).filterMap (fun p => (due p).map fun e =>
          ⟨.errorTally, ⟨.candidate e.row e.loc e.count e.uncorrectable (outcome p) .rethreshold, s.tally.epoch⟩⟩) ∧
        u.tally.queue = s.tally.queue ++
          (List.finRange 32).filterMap (fun p => if outcome p = .queued then (due p).map (·.row) else none) ∧
        (∀ p e, due p = some e →
          u.entry p = some { e with state := .candidate, queued := e.queued || outcome p == .queued }) ∧
        (∀ p, due p = none → u.entry p = s.entry p) ∧
        u.tally = { s.tally with entries := u.tally.entries, queue := u.tally.queue, epochTimer := timer } ∧
        SameBut [.config, .tally, .arrivals] s u)

/-- An accepted write of SCRUBCFG moves the position off a channel the mask clears, to the next channel in ascending
order that the mask sets, wrapping to the lowest, and lets the tag arbiter act where it raises D; one of LINKCFG changes n
and P alone; one of GEOM sets the row code and moves the scrub position to the start, also where the row code is the one
held (log 22). The row codes 0 to 3 give R 16,384, 32,768, 65,536 and 131,072. Rows that name fields of one register are
the same write (log 8). -/
def Obligations.ScrubLinkAndGeomWritesSetTheirFields : Prop :=
  (∀ c : Settings, (c.rowCode = 0 → c.rows = 16384) ∧ (c.rowCode = 1 → c.rows = 32768) ∧
    (c.rowCode = 2 → c.rows = 65536) ∧ (c.rowCode = 3 → c.rows = 131072)) ∧
  ∀ (s : State) (v : Word), s.resetLow = false →
    (field v 0 16 ≠ 0 → field v 16 2 ≠ 0 → field v 20 4 ≠ 0 → ∀ c ∈ scrubWrites v,
      let keep := field v 20 4 = s.config.channels ∨ (field v 20 4).getLsbD s.scrub.position.channel.toNat = true
      let u : State := { s with
        config := { s.config with interval := field v 0 16, depth := field v 16 2, channels := field v 20 4 }
        scrub := { s.scrub with position := if keep then s.scrub.position
          else ⟨channelAfter (field v 20 4) s.scrub.position.channel, 0, 0, 0⟩ } }
      exec c s = .next (if s.config.depth.toNat < (field v 16 2).toNat then settleOps u else u)) ∧
    (∀ (mask : BitVec 4) (c : BitVec 2), mask ≠ 0 → mask.getLsbD (channelAfter mask c).toNat = true) ∧
    (∀ (mask : BitVec 4) (c d : BitVec 2), c.toNat < d.toNat → mask.getLsbD d.toNat = true →
      (∀ x : BitVec 2, c.toNat < x.toNat → x.toNat < d.toNat → mask.getLsbD x.toNat = false) →
      channelAfter mask c = d) ∧
    (∀ (mask : BitVec 4) (c : BitVec 2), (∀ x : BitVec 2, c.toNat < x.toNat → mask.getLsbD x.toNat = false) →
      channelAfter mask c = lowestChannel mask) ∧
    (∀ (mask : BitVec 4) (d : BitVec 2), mask.getLsbD d.toNat = true →
      (∀ x : BitVec 2, x.toNat < d.toNat → mask.getLsbD x.toNat = false) → lowestChannel mask = d) ∧
    (field v 0 8 ≠ 0 → field v 8 3 ≠ 0 → ∀ c ∈ linkWrites v, exec c s =
      .next { s with config := { s.config with timeout := field v 0 8, recopy := field v 8 3 } }) ∧
    (s.engine.state = .stopped → s.scrub.state = .off → exec (.geomWrite v) s = .next { s with
      config := { s.config with rowCode := field v 0 2 }
      scrub := { s.scrub with position := ⟨lowestChannel s.config.channels, 0, 0, 0⟩ } })

/-- IRQF_WRITE clears the flags written with 1, IRQM_WRITE sets the mask, COUNTER_CLEAR with 0 in bits 15:0 clears
its counter alone, the bits above being ignored; IRQ_N is low just while a flag is set with its mask bit 0. A counter goes
up by one and stays at 65,535. -/
def Obligations.InterruptAndCounterWrites : Prop :=
  (∀ n, satInc n = if n < 65535 then n + 1 else n) ∧
  ∀ (s : State) (v : Word), s.resetLow = false →
    exec (.irqfWrite v) s = .next { s with port := { s.port with flags := {
      jobDone := s.port.flags.jobDone && !bit v 0, report := s.port.flags.report && !bit v 1
      overrun := s.port.flags.overrun && !bit v 2, link := s.port.flags.link && !bit v 3
      portError := s.port.flags.portError && !bit v 4 } } } ∧
    exec (.irqmWrite v) s =
      .next { s with port := { s.port with mask := ⟨bit v 0, bit v 1, bit v 2, bit v 3, bit v 4⟩ } } ∧
    (∀ c, field v 0 16 = 0 → exec (.counterClear c v) s = .next { s with
      tracker := { s.tracker with
        staleDone := if c = .staleDone then 0 else s.tracker.staleDone
        retries := if c = .retry then 0 else s.tracker.retries }
      tally := { s.tally with staleNotes := if c = .staleNote then 0 else s.tally.staleNotes }
      query := { s.query with
        outOfRange := if c = .range then 0 else s.query.outOfRange
        waits := if c = .wait then 0 else s.query.waits }
      port := { s.port with refused := if c = .refused then 0 else s.port.refused } }) ∧
    (s.irqN = false ↔
      (s.port.flags.jobDone = true ∧ s.port.mask.jobDone = false) ∨
      (s.port.flags.report = true ∧ s.port.mask.report = false) ∨
      (s.port.flags.overrun = true ∧ s.port.mask.overrun = false) ∨
      (s.port.flags.link = true ∧ s.port.mask.link = false) ∨
      (s.port.flags.portError = true ∧ s.port.mask.portError = false))

/-- DESCRIPTOR_WRITE, HAND_OVER and REVOKE by the owner as it stands: a SOFTWARE-owned descriptor takes any word, and
a hand-over at a fetch position lets the arbiter act; a DEVICE-owned one takes only a word 0 with owner SOFTWARE, and
not while in flight; every other write is refused. The word taken is cut to the bits the layout names (log 10), the
descriptor's other words stay, and each of the three rows is taken as the write it spells (log 18). A descriptor is at its
fetch position where the ring's fetch position points, and in flight where it is there and the job in flight is its ring's.
-/
def Obligations.DescriptorWritesFollowTheOwner : Prop :=
  (∀ (d : Descriptor) (v : Word), d.device = d.w0.getLsbD 0 ∧ d.kindCode = d.w0.extractLsb' 4 4 ∧
    d.setWord 0 v = ⟨v &&& 0xFFFF07F1, d.w1, d.w2, d.w3⟩ ∧ d.setWord 1 v = ⟨d.w0, v &&& 0x007FFFFF, d.w2, d.w3⟩ ∧
    d.setWord 2 v = ⟨d.w0, d.w1, v &&& 0x000000BF, d.w3⟩ ∧ d.setWord 3 v = ⟨d.w0, d.w1, d.w2, v &&& 0xFFFFBFFF⟩) ∧
  (∀ (s : State) (i : DescId),
    (s.atFetch i = true ↔ i = .urgent s.engine.urgPos ∨ i = .routine s.engine.routPos) ∧
    (s.inFlight i = true ↔ ∃ j, (s.engine.state = .busy j ∨ s.engine.state = .restartPending j) ∧
      ((j.source = .urgent ∧ i = .urgent s.engine.urgPos) ∨ (j.source = .routine ∧ i = .routine s.engine.routPos)))) ∧
  ∀ (s : State) (i : DescId) (w : Fin 4) (v : Word), s.resetLow = false →
    ∀ c ∈ descriptorWrites (descOffset i w) v,
      let u := s.putDesc i ((s.desc i).setWord w v)
      ((s.desc i).device = false → w ≠ 0 ∨ bit v 0 = false ∨ s.atFetch i = false → exec c s = .next u) ∧
      ((s.desc i).device = false → w = 0 → bit v 0 = true → s.atFetch i = true → exec c s = .next (settle u)) ∧
      ((s.desc i).device = true → s.inFlight i = false → w = 0 → bit v 0 = false → exec c s = .next u) ∧
      ((s.desc i).device = true → s.inFlight i = true ∨ w ≠ 0 ∨ bit v 0 = true → exec c s = .next s.afterRefusal)

/-- REPORT_SLOT_WRITE and HAND_BACK by the owner as it stands: a SOFTWARE-owned slot takes any word, a DEVICE-owned
one none. A hand-back away from the write position, or with nothing held, only makes the slot DEVICE-owned. The word
taken is cut to the bits the layout names (log 10), the slot's other words stay, words 6 and 7 hold nothing, and each row
is taken as the write it spells (log 18). -/
def Obligations.ReportSlotWritesFollowTheOwner : Prop :=
  (∀ (r : ReportSlot) (v : Word), r.device = r.w0.getLsbD 0 ∧
    r.setWord 0 v = { r with w0 := v &&& 0xFFFF03F1 } ∧ r.setWord 1 v = { r with w1 := v &&& 0x007FFFFF } ∧
    r.setWord 2 v = { r with w2 := v } ∧ r.setWord 3 v = { r with w3 := v &&& 0x0000003F } ∧
    r.setWord 4 v = { r with w4 := v } ∧ r.setWord 5 v = { r with w5 := v } ∧ r.setWord 6 v = r ∧ r.setWord 7 v = r) ∧
  ∀ (s : State) (k : Fin 64) (w : Fin 8) (v : Word), s.resetLow = false →
    ∀ c ∈ [Instr.reportSlotWrite (reportOffset k w) v, .handBack (reportOffset k w) v],
      ((s.reportSlot k).device = true → exec c s = .next s.afterRefusal) ∧
      ((s.reportSlot k).device = false → w ≠ 0 ∨ bit v 0 = false ∨ k ≠ s.reports.writePos ∨ s.reports.held = [] →
        exec c s = .next (s.putReportSlot k ((s.reportSlot k).setWord w v)))

/-- HAND_BACK at the write position with reports held: the oldest is written into the slot, the write position moves on
and REPORT is set; where reports were lost, directly after this first move the OVERRUN report is appended with the next
serial and the lost count returns to 0. The drain goes on, into slots that are DEVICE-owned already, until the slot at
the write position is SOFTWARE-owned or no report is held: `n` reports of `q`, oldest first. -/
def Obligations.HandBackDeliversTheOldestHeldReport : Prop :=
  ∀ (s : State) (v : Word), s.resetLow = false → (s.reportSlot s.reports.writePos).device = false → bit v 0 = true →
    s.reports.held ≠ [] → s.reports.held.length ≤ 8 →
    let w := s.reports.writePos
    let q : List HeldReport := s.reports.held ++
      if s.reports.lost = 0 then [] else [⟨⟨.overrun s.reports.lost, s.tally.epoch⟩, s.reports.serial⟩]
    ∃ (n : Nat) (u : State), exec (.handBack (reportOffset w 0) v) s = .next (decideScrub u) ∧
      0 < n ∧ n ≤ q.length ∧
      (∀ m, 0 < m → m < n → (s.reportSlot (w + Fin.ofNat 64 m)).device = true) ∧
      (n < q.length → (s.reportSlot (w + Fin.ofNat 64 n)).device = false) ∧
      (∀ m h, m < n → q[m]? = some h → u.reportSlot (w + Fin.ofNat 64 m) = h.slotWords) ∧
      (∀ k, (∀ m, m < n → k ≠ w + Fin.ofNat 64 m) → u.reportSlot k = s.reportSlot k) ∧
      u.reports.writePos = w + Fin.ofNat 64 n ∧ u.reports.held = q.drop n ∧ u.reports.lost = 0 ∧
      u.reports.serial = (if s.reports.lost = 0 then s.reports.serial else s.reports.serial + 1) ∧
      u.port = { s.port with flags := { s.port.flags with report := true } } ∧ SameBut [.reports, .port] s u

/-- VIEW_READ: a misaligned read returns 0 and leaves the latches (log 23); an aligned one returns the addressed bytes of the word, and changes only
the latch of the view it reads: word 0 captures the entry, word 1 comes from the latch that holds the entry and
empties it when its highest byte is read. A narrow read stands in the low bits of the data (log 15). Every offset of the
window reads the word that the summary gives it, and every register and view entry shows its fields at the bits of its
layout, zero elsewhere; a field of a layout stands here from the high bits to the low. That the slot of a tally entry at
ROW, the record of STATE0 and the copy tag of STATE1 read zero where there is none is the model's choice (log 24). -/
def Obligations.ViewReadReturnsTheAddressedBytes : Prop :=
  ∀ (s : State) (a : BitVec 14) (w : Width), s.resetLow = false →
    (a.toNat % accessBytes w ≠ 0 → exec (.viewRead a w) s = .next { s with port := { s.port with readData := 0 } }) ∧
    (a.toNat % accessBytes w = 0 →
      let x := readRegion (regionOf a.toNat) (a.toNat % 4 + accessBytes w = 4) s
      exec (.viewRead a w) s = .next { x.2 with
        port := { x.2.port with readData := lanes x.1 (a.toNat % 4) (accessBytes w) } }) ∧
    (accessBytes .w8 = 1 ∧ accessBytes .w16 = 2 ∧ accessBytes .w32 = 4) ∧
    (∀ (x : Word) (l : Nat), lanes x 0 4 = x ∧ lanes x l 1 = (x.extractLsb' (8 * l) 8).setWidth 32 ∧
      lanes x l 2 = (x.extractLsb' (8 * l) 16).setWidth 32) ∧
    WindowMap ∧ s.RegistersShown ∧ s.ViewsShown ∧
    (∀ r b, readRegion (.reg r) b s = (s.regValue r, s)) ∧
    (∀ i n b, readRegion (.desc i n) b s = ((s.desc i).word n, s)) ∧
    (∀ k n b, readRegion (.report k n) b s = ((s.reportSlot k).word n, s)) ∧
    (∀ j b, readRegion (.queueView j) b s = (s.queueEntry j, s)) ∧ (∀ b, readRegion .unmapped b s = (0, s)) ∧
    (∀ i x b, readRegion (.slotView i x) b s =
      let y := latchRead s.slots.latch i.val (s.slotEntry i) x b
      (y.1, { s with slots := { s.slots with latch := y.2 } })) ∧
    (∀ i x b, readRegion (.tallyView i x) b s =
      let y := latchRead s.tally.latch i.val (s.tallyEntry i) x b
      (y.1, { s with tally := { s.tally with latch := y.2 } })) ∧
    (∀ i x b, readRegion (.poisonView i x) b s =
      let y := latchRead s.query.latch i.val (s.poisonViewEntry i) x b
      (y.1, { s with query := { s.query with latch := y.2 } })) ∧
    (∀ i x b, readRegion (.fuseView i x) b s =
      let y := latchRead s.fuse.latch i.val (s.record i) x b
      (y.1, { s with fuse := { s.fuse with latch := y.2 } })) ∧
    (∀ l i e b, latchRead l i e false b = (e.extractLsb' 0 32, some ⟨i, e⟩)) ∧
    (∀ i e x, latchRead (some ⟨i, x⟩) i e true true = (x.extractLsb' 32 32, none)) ∧
    (∀ i e x, latchRead (some ⟨i, x⟩) i e true false = (x.extractLsb' 32 32, some ⟨i, x⟩)) ∧
    ∀ l i e b, (∀ x, l ≠ some ⟨i, x⟩) → latchRead l i e true b = (e.extractLsb' 32 32, l)

/-! ### What the shared operations do in an event -/

/-- The arrival of one report: straight to the ring when nothing is held and the slot at the write position is
DEVICE-owned, which moves the write position and sets REPORT; else at the tail of the holding queue; else lost and
counted, the first loss setting OVERRUN. An accepted report takes the next serial. The slot written shows every field of
its record at the bits of the layout, zero elsewhere. -/
def Obligations.ArrivalGoesToRingQueueOrLoss : Prop :=
  ∀ (r : Report) (s : State),
    (s.reports.held = [] → (s.reportSlot s.reports.writePos).device = true → arrive r s = { s with
      reports := { s.reports with
        ring := s.reports.ring.set s.reports.writePos (HeldReport.slotWords ⟨r, s.reports.serial⟩)
        writePos := s.reports.writePos + 1
        serial := s.reports.serial + 1 }
      port := { s.port with flags := { s.port.flags with report := true } } }) ∧
    (s.reports.held ≠ [] ∨ (s.reportSlot s.reports.writePos).device = false → s.reports.held.length < 8 →
      arrive r s = { s with reports := { s.reports with
        held := s.reports.held ++ [⟨r, s.reports.serial⟩], serial := s.reports.serial + 1 } }) ∧
    (8 ≤ s.reports.held.length → arrive r s = { s with
      reports := { s.reports with lost := satInc s.reports.lost }
      port := { s.port with flags := { s.port.flags with
        overrun := s.port.flags.overrun || s.reports.lost == 0 } } }) ∧
    (∀ k, (HeldReport.slotWords k).device = false) ∧ ReportsShown

/-- A job in flight completes: a descriptor gets its result and owner SOFTWARE with its other fields kept, its ring's
fetch position moves on and JOB_DONE is set; a self-repair job produces AUTO_REPAIR and marks its row's entry attempted.
The engine leaves BUSY by its enable. The statuses have the codes 1 to 24, in the order of R174. A job is in flight where
the engine is BUSY or RESTART_PENDING with it. That a slot used is written as zero where it is absent is the model's choice
(log 24). -/
def Obligations.JobCompletionWritesTheResult : Prop :=
  (∀ (s : State) (j : Job),
    s.jobInFlight = some j ↔ s.engine.state = .busy j ∨ s.engine.state = .restartPending j) ∧
  (∀ r : Result,
    (r.slot = none → r.word = BitVec.ofNat 16 r.detail ++ 0#8 ++ BitVec.ofNat 8 r.status.code) ∧
    ∀ k, r.slot = some k →
      r.word = BitVec.ofNat 16 r.detail ++ 1#1 ++ 0#1 ++ BitVec.ofNat 6 k.val ++ BitVec.ofNat 8 r.status.code) ∧
  ∀ (r : Result) (s : State) (j : Job), s.jobInFlight = some j →
    let next := if s.config.engineEnable then EngineState.idle else .stopped
    let done : IrqBits := { s.port.flags with jobDone := true }
    let autoRepair : Arrival := ⟨.jobEngine, ⟨.autoRepair j.row r.slot j.kind r.status r.detail, s.tally.epoch⟩⟩
    (j.source = .urgent → completeInFlight r s = { s with
      engine := { s.engine with
        state := next
        urgent := s.engine.urgent.set s.engine.urgPos ((s.engine.urgent.get s.engine.urgPos).complete r)
        urgPos := s.engine.urgPos + 1 }
      port := { s.port with flags := done } }) ∧
    (j.source = .routine → completeInFlight r s = { s with
      engine := { s.engine with
        state := next
        routine := s.engine.routine.set s.engine.routPos ((s.engine.routine.get s.engine.routPos).complete r)
        routPos := s.engine.routPos + 1 }
      port := { s.port with flags := done } }) ∧
    (∀ p e, j.source = .selfRepair → s.findEntry j.row = some (p, e) → completeInFlight r s = {
      s.putEntry p (some { e with attempted := true }) with
        engine := { s.engine with state := next }, arrivals := s.arrivals ++ [autoRepair] }) ∧
    (j.source = .selfRepair → s.findEntry j.row = none → completeInFlight r s = { s with
      engine := { s.engine with state := next }, arrivals := s.arrivals ++ [autoRepair] }) ∧
    ([Status.ok, .badKind, .badAddress, .alreadySpared, .notSpared, .slotUnavailable, .poolExhausted, .rowBusy, .fused,
      .alreadyFused, .fuseDisabled, .fuseSupply, .fuseFull, .fuseAborted, .fuseVerify, .alreadyPoisoned, .poisonFull,
      .notPoisoned, .notTracked, .copyFailed, .linkTimeout, .linkLost, .aborted, .restarted].map Status.code =
      List.range' 1 24) ∧
    ∀ d : Descriptor,
      (d.complete r).device = false ∧ (d.complete r).w0 ||| 1 = d.w0 ||| 1 ∧ (d.complete r).w1 = d.w1 ∧
      (d.complete r).w2 = d.w2 ∧ field (d.complete r).w3 0 8 = BitVec.ofNat 8 r.status.code ∧
      field (d.complete r).w3 16 16 = BitVec.ofNat 16 r.detail ∧ bit (d.complete r).w3 15 = r.slot.isSome ∧
      ∀ k, r.slot = some k → field (d.complete r).w3 8 6 = BitVec.ofNat 6 k.val

/-- The switch: a FORWARD target becomes SOFT and its victim is mapped to it; a RESPARE source becomes RETIRED with its
former victim, a HARD one keeping its fused mark and record index; a REVERT source becomes FREE. The victim is poisoned if
the last pass read bad data and the job asks for it, its tally entry and queue entry go, the context is deleted and the
job completes OK with its passes; its slot used is the target of a FORWARD or RESPARE and the source of a REVERT. -/
def Obligations.SwitchMovesTheMapping : Prop :=
  ∀ (c : Context) (s : State), ∃ w, switch c s = completeInFlight ⟨.ok, c.slotUsed, c.issued⟩ w ∧
    (∀ k, c.direction ≠ .revert → c.target = .slot k → c.slotUsed = some k) ∧
    (∀ k, c.direction = .revert → c.source = .slot k → c.slotUsed = some k) ∧
    w.migration = none ∧ SameBut [.slots, .query, .tally, .arrivals, .migration] s w ∧
    (∀ t v, c.direction = .forward → c.target = .slot t → s.slot t = .reserved v →
      (∀ k, w.slot k = if k = t then .soft v else s.slot k) ∧ w.mapsAt (v.rowAt t) t = true) ∧
    (∀ k t v x, c.direction = .respare → c.source = .slot k → c.target = .slot t → k ≠ t → s.slot t = .reserved v →
      (s.slot k = .soft x → ∀ n, w.slot n =
        if n = k then .retired (some x) none else if n = t then .soft v else s.slot n) ∧
      ∀ i, s.slot k = .hard x i → ∀ n, w.slot n =
        if n = k then .retired (some x) (some i) else if n = t then .soft v else s.slot n) ∧
    (∀ k v, c.direction = .revert → c.source = .slot k → s.slot k = .soft v →
      ∀ n, w.slot n = if n = k then .free else s.slot n) ∧
    (c.badCopy = false ∨ c.poisonOnBad = false ∨ s.poisoned c.victim = true →
      w.query = s.query ∧ w.arrivals = s.arrivals) ∧
    (c.badCopy = true → c.poisonOnBad = true → s.poisoned c.victim = false → s.query.poison.length < 16 →
      w.query = { s.query with poison := s.query.poison ++ [⟨c.victim, .copy, 0, false⟩] } ∧
      w.arrivals = s.arrivals) ∧
    (c.badCopy = true → c.poisonOnBad = true → s.poisoned c.victim = false → 16 ≤ s.query.poison.length →
      w.query = s.query ∧ w.arrivals = s.arrivals ++ [⟨.queryResponder, ⟨.poisonFull c.victim
        (if c.direction = .revert then none else c.target.slot?) 16, s.tally.epoch⟩⟩]) ∧
    w.tally.queue = s.tally.queue.filter (fun r => r ≠ c.victim) ∧
    (∀ p e, s.findEntry c.victim = some (p, e) → w.tally.fullReported = false ∧
      ∀ q, w.entry q = if q = p then none else s.entry q) ∧
    (s.findEntry c.victim = none → w.tally.entries = s.tally.entries)

/-- An abort: the context's OUTSTANDING copy is quarantined with its timer restarted; the RESERVED target of a FORWARD or
RESPARE becomes DRAINING while a COPY into it is held and FREE otherwise; a REVERT leaves the slots as they are; the
context is deleted and the job completes with the cause's status and its passes; its slot used is the target of a FORWARD
or RESPARE and the source of a REVERT. -/
def Obligations.AbortReleasesTheTarget : Prop :=
  ∀ (st : Status) (c : Context) (s : State), ∃ w,
    abortContext st c s = completeInFlight ⟨st, c.slotUsed, c.issued⟩ w ∧
    (∀ k, c.direction ≠ .revert → c.target = .slot k → c.slotUsed = some k) ∧
    (∀ k, c.direction = .revert → c.source = .slot k → c.slotUsed = some k) ∧
    w.migration = none ∧
    SameBut [.tracker, .slots, .migration] s w ∧
    (∀ t h, c.copyTag = some t → s.tag t = .outstanding h →
      w.tag t = .quarantined { h with timer := .running (s.config.timeout.toNat * 100) }) ∧
    (∀ t, c.copyTag ≠ some t ∨ (∀ h, s.tag t ≠ .outstanding h) → w.tag t = s.tag t) ∧
    (∀ k v, c.direction ≠ .revert → c.target = .slot k → s.slot k = .reserved v →
      ((∃ t h r a, (s.tag t = .outstanding h ∨ s.tag t = .quarantined h) ∧ h.op = .copy r a (.slot k)) →
        w.slot k = .draining v) ∧
      ((∀ t h r a, s.tag t = .outstanding h ∨ s.tag t = .quarantined h → h.op ≠ .copy r a (.slot k)) →
        w.slot k = .free)) ∧
    (∀ k, c.direction = .revert ∨ c.target ≠ .slot k ∨ (∀ v, s.slot k ≠ .reserved v) → w.slot k = s.slot k)

/-- The engine restart: the migration in flight is aborted, its target DRAINING while a COPY into it is held and FREE
otherwise, and its job completes RESTARTED with slot used and passes, in its descriptor or in an AUTO_REPAIR report with
the mark; every other DEVICE-owned descriptor completes RESTARTED, both fetch positions return to 0, every OUTSTANDING tag
is quarantined, the scrub position moves to the start, RESTART_DONE is the last report, and the engine is IDLE or STOPPED
by its enable. RESTART_DONE counts the descriptors of both rings that are DEVICE-owned at the restart. -/
def Obligations.RestartEndsEveryHandedOverJob : Prop :=
  ∀ s : State,
    let u := runRestart s
    let copyInto (k : SlotNum) : Prop :=
      ∃ t h r a, (s.tag t = .outstanding h ∨ s.tag t = .quarantined h) ∧ h.op = .copy r a (.slot k)
    let target (k : SlotNum) : Prop := ∃ c v,
      s.migration = some c ∧ c.direction ≠ .revert ∧ c.target = .slot k ∧ s.slot k = .reserved v
    let restartDone : Arrival :=
      ⟨.jobEngine, ⟨.restartDone s.deviceOwned (s.jobInFlight.map (·.source)), s.tally.epoch⟩⟩
    s.deviceOwned = (List.finRange 8).countP (fun n => (s.engine.urgent.get n).w0.getLsbD 0) +
      (List.finRange 24).countP (fun n => (s.engine.routine.get n).w0.getLsbD 0) ∧
    SameBut [.tracker, .slots, .migration, .engine, .port, .tally, .arrivals, .scrub] s u ∧ u.migration = none ∧
    (∀ i, (u.desc i).device = false) ∧
    (∀ i, s.inFlight i = false → (s.desc i).device = true → u.desc i = (s.desc i).complete ⟨.restarted, none, 0⟩) ∧
    (∀ i, s.inFlight i = false → (s.desc i).device = false → u.desc i = s.desc i) ∧
    (∀ i c k, s.inFlight i = true → s.migration = some c →
      (c.direction ≠ .revert ∧ c.target = .slot k) ∨ (c.direction = .revert ∧ c.source = .slot k) →
      u.desc i = (s.desc i).complete ⟨.restarted, some k, c.issued⟩) ∧
    (∀ k v, target k → s.slot k = .reserved v →
      (copyInto k → u.slot k = .draining v) ∧ (¬copyInto k → u.slot k = .free)) ∧
    (∀ k, ¬target k → u.slot k = s.slot k) ∧ u.slots.latch = s.slots.latch ∧
    u.engine.urgPos = 0 ∧ u.engine.routPos = 0 ∧
    u.engine.state = (if s.config.engineEnable = true ∧ s.device = .running then .idle else .stopped) ∧
    (∀ t h, s.tag t = .outstanding h →
      u.tag t = .quarantined { h with timer := .running (s.config.timeout.toNat * 100) }) ∧
    (∀ t, (∀ h, s.tag t ≠ .outstanding h) → u.tag t = s.tag t) ∧
    u.tracker.staleDone = s.tracker.staleDone ∧ u.tracker.retries = s.tracker.retries ∧
    (s.scrub.state = .running → u.scrub = { s.scrub with
      position := ⟨lowestChannel s.config.channels, 0, 0, 0⟩
      waiting := false
      timer := .running s.config.interval.toNat }) ∧
    (s.scrub.state ≠ .running →
      u.scrub = { s.scrub with position := ⟨lowestChannel s.config.channels, 0, 0, 0⟩ }) ∧
    (0 < s.deviceOwned → u.port = { s.port with flags := { s.port.flags with jobDone := true } }) ∧
    (s.deviceOwned = 0 → (∀ i, s.inFlight i = false) → u.port = s.port) ∧
    (s.migration = none ∨ (∀ j, s.jobInFlight = some j → j.source ≠ .selfRepair) →
      u.tally = s.tally ∧ u.arrivals = s.arrivals ++ [restartDone]) ∧
    ∀ c j k, s.migration = some c → s.jobInFlight = some j → j.source = .selfRepair →
      (c.direction ≠ .revert ∧ c.target = .slot k) ∨ (c.direction = .revert ∧ c.source = .slot k) →
      u.arrivals = s.arrivals ++
        [⟨.jobEngine, ⟨.autoRepair j.row (some k) j.kind .restarted c.issued, s.tally.epoch⟩⟩, restartDone] ∧
      (s.findEntry j.row = none → u.tally = s.tally) ∧
      ∀ p e, s.findEntry j.row = some (p, e) → u.tally =
        { s.tally with entries := s.tally.entries.set p (some { e with attempted := true }) }

/-- The job arbiter: the urgent head first, then the candidate queue's head unless the mode is OFF, then the routine head.
The job read from a descriptor of a defined kind, or formed from the tally entry of the queue's head, is checked and
started by its kind: where it completes at its take, its descriptor gets the result and owner SOFTWARE, the fetch position
moves on and JOB_DONE is set, or for a self-repair job AUTO_REPAIR is produced and the entry marked attempted; where its
work starts, the engine is BUSY with its source, kind and row. A self-repair take removes the row from the queue and
clears its entry's queued mark. When the arbiter has acted, an IDLE engine has no source ready. A ring is ready where the
descriptor at its fetch position is DEVICE-owned and not in flight. -/
def Obligations.ArbiterTakesTheFirstReadySource : Prop :=
  ∀ s : State,
    let job (k : JobKind) (d : Descriptor) : JobFields :=
      ⟨k, RowAddr.ofWord d.w1, if bit d.w2 7 then some (field d.w2 0 6).toFin else none,
        bit d.w0 8, bit d.w0 9, bit d.w0 10⟩
    let busy (src : JobSource) (k : JobKind) (r : RowAddr) : JobEngine := { s.engine with state := .busy ⟨src, k, r⟩ }
    let jobDone : Port := { s.port with flags := { s.port.flags with jobDone := true } }
    let urgent := s.engine.urgent.get s.engine.urgPos
    let routine := s.engine.routine.get s.engine.routPos
    (s.urgentReady = true ↔ urgent.w0.getLsbD 0 = true ∧ s.inFlight (.urgent s.engine.urgPos) = false) ∧
    (s.routineReady = true ↔ routine.w0.getLsbD 0 = true ∧ s.inFlight (.routine s.engine.routPos) = false) ∧
    (s.urgentReady = true → arbiterTake s = some (takeUrgent s)) ∧
    (∀ r q, s.urgentReady = false → s.config.mode ≠ .off → s.tally.queue = r :: q →
      arbiterTake s = some (takeSelfRepair r s)) ∧
    (s.urgentReady = false → s.config.mode = .off ∨ s.tally.queue = [] → s.routineReady = true →
      arbiterTake s = some (takeRoutine s)) ∧
    (s.urgentReady = false → s.config.mode = .off ∨ s.tally.queue = [] → s.routineReady = false →
      arbiterTake s = none) ∧
    ([JobKind.spare, .respare, .unspare, .promote, .condemn, .poison, .clearPoison, .dismiss, .marker].map JobKind.code =
      List.range' 1 9) ∧
    (∀ k, field urgent.w0 4 4 = BitVec.ofNat 4 k.code →
      (∀ x t, takeKind (job k urgent) s = .done x t → takeUrgent s = { t with
        engine := { s.engine with
          urgent := s.engine.urgent.set s.engine.urgPos (urgent.complete x), urgPos := s.engine.urgPos + 1 }
        port := jobDone }) ∧
      ∀ t, takeKind (job k urgent) s = .started t →
        takeUrgent s = { t with engine := busy .urgent k (RowAddr.ofWord urgent.w1) }) ∧
    (∀ k, field routine.w0 4 4 = BitVec.ofNat 4 k.code →
      (∀ x t, takeKind (job k routine) s = .done x t → takeRoutine s = { t with
        engine := { s.engine with
          routine := s.engine.routine.set s.engine.routPos (routine.complete x), routPos := s.engine.routPos + 1 }
        port := jobDone }) ∧
      ∀ t, takeKind (job k routine) s = .started t →
        takeRoutine s = { t with engine := busy .routine k (RowAddr.ofWord routine.w1) }) ∧
    (∀ r q p e, s.tally.queue = r :: q → s.findEntry r = some (p, e) →
      let k : JobKind := match e.loc with
        | .row => .spare
        | .slot _ => .respare
      let j : JobFields := ⟨k, r, none, true, s.config.poisonOnBad, false⟩
      let claimed (attempted : Bool) : State := { s with tally := { s.tally with
        entries := s.tally.entries.set p (some { e with queued := false, attempted := attempted }), queue := q } }
      takeClaim r s = claimed e.attempted ∧
      (∀ x t, takeKind j (claimed e.attempted) = .done x t → takeSelfRepair r s = { claimed true with
        arrivals := s.arrivals ++ [⟨.jobEngine, ⟨.autoRepair r x.slot k x.status x.detail, s.tally.epoch⟩⟩] }) ∧
      ∀ t, takeKind j (claimed e.attempted) = .started t →
        takeSelfRepair r s = { t with engine := busy .selfRepair k r }) ∧
    (s.engine.state ≠ .idle → settleJobs s = s) ∧
    ((settleJobs s).engine.state = .idle → arbiterTake (settleJobs s) = none)

/-- The end of an event leaves the pins, the device state, the settings and the queue of commands as they are: the job
arbiter, the tag arbiter, the reports (log 12, log 14). Where no source is ready and nobody waits that could be granted a
tag, it takes the event's reports and does nothing else. Each report arrives once, and the reports of one producer in the
order it produced them; which producer comes next is open (log 7). The scrubber then takes the state of the first line of
R109 that holds: entering RUNNING starts its timer, leaving it stops the timer and withdraws the request, and position and
pass count stay. -/
def Obligations.EventEndDoesNothingWhereNoneWaits : Prop :=
  ∀ s : State,
    let target : ScrubState :=
      if s.device = .loading ∨ s.config.scrubEnable = false then .off
      else if s.link.up = false then .pausedLink
      else if 8 ≤ s.reports.held.length then .pausedReports
      else .running
    (settle s).resetLow = s.resetLow ∧ (settle s).supplyOk = s.supplyOk ∧ (settle s).device = s.device ∧
    (settle s).config = s.config ∧ (settle s).pending = s.pending ∧ (settle s).arrivals = [] ∧
    settle s = settleOps (settleJobs s) ∧ settleOps s = settleReports (settleTags s) ∧
    (s.engine.state ≠ .idle ∨ arbiterTake s = none → settle s = settleOps s) ∧
    (s.engine.state ≠ .idle ∨ arbiterTake s = none → TagsLaw s → ScrubServed s → settle s = settleReports s) ∧
    (TagsLaw s → ScrubServed s → settleOps s = settleReports s) ∧
    (∀ r : State, (s.tally.queue = r.tally.queue → settleFreedFrom r s = settleOps s) ∧
      (s.tally.queue ≠ r.tally.queue → settleFreedFrom r s = settle s)) ∧
    (s.arrivals = [] → settleReports s = s) ∧
    (∀ p, s.arrivals ≠ [] → (∀ a ∈ s.arrivals, a.producer = p) → settleReports s =
      decideScrub ((s.arrivals.map (·.report)).foldl (fun t r => arrive r t) { s with arrivals := [] })) ∧
    (s.arrivals ≠ [] → ∃ (l : List Arrival) (n : Nat), l.Perm s.arrivals ∧
      (∀ p, l.filter (fun a => a.producer = p) = s.arrivals.filter (fun a => a.producer = p)) ∧
      settleReports s = decideScrub ((l.map (·.report)).foldl (fun t r => arrive r t)
        { s with arrivals := [], freeCount := n })) ∧
    (s.scrub.state = target → decideScrub s = s) ∧
    (s.scrub.state ≠ target → target = .running → decideScrub s =
      { s with scrub := { s.scrub with state := .running, timer := .running s.config.interval.toNat } }) ∧
    (s.scrub.state ≠ target → target ≠ .running → decideScrub s =
      { s with scrub := { s.scrub with state := target, timer := .stopped, waiting := false } })

/-- The tag arbiter, while the link is UP and a tag is FREE: a waiting migration is granted the FREE tag of lowest
number and its COPY is requested; the scrubber, when the migration does not wait and the depth allows, has its issue
opportunity: it skips a poisoned or migrating row, or verifies the row at its location, and in both cases moves on and
restarts its timer. While the link is DOWN no grant is made. The depth bounds the tags OUTSTANDING with owner SCRUB. After
its decisions neither party waits for a tag that it could be granted. Log 12 and log 14 say in which events, and when in an
event, the arbiter acts. -/
def Obligations.TagArbiterServesMigrationThenScrubber : Prop :=
  ∀ (s : State) (t : TagNum),
    (s.link.up = false → settleTags s = s) ∧
    (s.freeTag = some t ↔ s.tag t = .free ∧ ∀ x, x < t → s.tag x ≠ .free) ∧
    (s.freeTag = none ↔ ∀ x, s.tag x ≠ .free) ∧
    (s.scrubOutstanding = (List.finRange 4).countP fun x => match s.tag x with
      | .outstanding h => h.owner = .scrub
      | _ => false) ∧
    (s.waitsForTag = true ↔ ∃ c, s.migration = some c ∧ c.copyTag = none) ∧
    (∀ r, s.isVictim r = true ↔ ∃ c, s.migration = some c ∧ c.victim = r) ∧
    (∀ c, s.link.up = true → s.freeTag = some t → s.migration = some c → c.copyTag = none →
      serveMigration s = { s with
        tracker := { s.tracker with tags := s.tracker.tags.set t (.outstanding
          ⟨.migration, .copy c.victim c.source c.target, 0, .running (s.config.timeout.toNat * 100)⟩) }
        link := { s.link with outbound := s.link.outbound ++ [.opReq t 0 (.copy c.victim c.source c.target)] }
        migration := some { c with copyTag := some t, issued := c.issued + 1 } }) ∧
    (s.link.up = true → settleTags s = serveScrub (serveMigration s)) ∧
    ScrubServed (settleTags s) ∧
    (s.link.up = true → (settleTags s).waitsForTag = true → (settleTags s).freeTag = none) ∧
    (s.waitsForTag = false → serveMigration s = s) ∧
    (s.scrub.waiting = false ∨ s.waitsForTag = true ∨ s.config.depth.toNat ≤ s.scrubOutstanding ∨ s.freeTag = none →
      serveScrub s = s) ∧
    (s.freeTag = some t → s.scrub.waiting = true → s.waitsForTag = false →
      s.scrubOutstanding < s.config.depth.toNat →
      let p := s.scrub.position
      let a := advanceFrom s.config.rows s.config.channels p
      let u := serveScrub s
      SameBut [.scrub, .arrivals, .tracker, .link] s u ∧
      u.scrub = { s.scrub with
        position := a.1
        passCount := if a.2 then s.scrub.passCount + 1 else s.scrub.passCount
        timer := .running s.config.interval.toNat
        waiting := false } ∧
      u.arrivals = s.arrivals ++
        (if a.2 then [⟨.patrolScrubber, ⟨.scrubPass (s.scrub.passCount + 1), s.tally.epoch⟩⟩] else []) ∧
      (s.poisoned p = true ∨ s.isVictim p = true → u.tracker = s.tracker ∧ u.link = s.link) ∧
      (∀ l, s.poisoned p = false → s.isVictim p = false → (match s.mappedSlot p with
          | some k => l = .slot k
          | none => l = .row) →
        u.tracker = { s.tracker with tags := s.tracker.tags.set t (.outstanding
          ⟨.scrub, .verify p l, 0, .running (s.config.timeout.toNat * 100)⟩) } ∧
        u.link = { s.link with outbound := s.link.outbound ++ [.opReq t 0 (.verify p l)] }))

/-- The advance of the scrub position: row, then bank, then bank group, then the next channel set in the mask; the step
from the highest set channel to the lowest ends the pass. -/
def Obligations.ScrubPositionFollowsTheWalk : Prop :=
  ∀ (rows : Nat) (mask : BitVec 4) (p : RowAddr),
    (p.row.toNat + 1 < rows → advanceFrom rows mask p = ({ p with row := p.row + 1 }, false)) ∧
    (rows ≤ p.row.toNat + 1 → p.bank ≠ 3 →
      advanceFrom rows mask p = ({ p with row := 0, bank := p.bank + 1 }, false)) ∧
    (rows ≤ p.row.toNat + 1 → p.bank = 3 → p.group ≠ 3 →
      advanceFrom rows mask p = (⟨p.channel, p.group + 1, 0, 0⟩, false)) ∧
    (∀ c : BitVec 2, rows ≤ p.row.toNat + 1 → p.bank = 3 → p.group = 3 → p.channel.toNat < c.toNat →
      mask.getLsbD c.toNat = true → (∀ d : BitVec 2, p.channel.toNat < d.toNat → d.toNat < c.toNat →
        mask.getLsbD d.toNat = false) → advanceFrom rows mask p = (⟨c, 0, 0, 0⟩, false)) ∧
    (∀ c : BitVec 2, rows ≤ p.row.toNat + 1 → p.bank = 3 → p.group = 3 →
      (∀ d : BitVec 2, p.channel.toNat < d.toNat → mask.getLsbD d.toNat = false) →
      mask.getLsbD c.toNat = true → (∀ d : BitVec 2, d.toNat < c.toNat → mask.getLsbD d.toNat = false) →
      advanceFrom rows mask p = (⟨c, 0, 0, 0⟩, true))

/-! ### Jobs at their take -/

/-- A descriptor of kind 0 or 10 to 15 is taken like any other and completes in its taking event with BAD_KIND, slot used
absent and detail 0; its fetch position advances and JOB_DONE is set, and nothing outside the descriptor and its ring
changes. Self-repair jobs are SPARE or RESPARE. A descriptor never filled has kind 0 and owner SOFTWARE. That the absent
slot used is written as zero is the model's choice (log 24). -/
def Obligations.UndefinedKindCompletesBadKind : Prop :=
  (∀ s : State, s.engine.state = .idle → s.urgentReady = true →
    (s.desc s.urgentHead).kindCode = 0 ∨ 10 ≤ (s.desc s.urgentHead).kindCode.toNat →
    arbiterTake s = some { s with
      engine := { s.engine with
        urgent := s.engine.urgent.set s.engine.urgPos { s.engine.urgent.get s.engine.urgPos with
          w0 := (s.engine.urgent.get s.engine.urgPos).w0 &&& 0xFFFFFFFE, w3 := 2 }
        urgPos := s.engine.urgPos + 1 }
      port := { s.port with flags := { s.port.flags with jobDone := true } } }) ∧
  (∀ s : State, s.engine.state = .idle → s.urgentReady = false → s.config.mode = .off ∨ s.tally.queue = [] →
    s.routineReady = true → (s.desc s.routineHead).kindCode = 0 ∨ 10 ≤ (s.desc s.routineHead).kindCode.toNat →
    arbiterTake s = some { s with
      engine := { s.engine with
        routine := s.engine.routine.set s.engine.routPos { s.engine.routine.get s.engine.routPos with
          w0 := (s.engine.routine.get s.engine.routPos).w0 &&& 0xFFFFFFFE, w3 := 2 }
        routPos := s.engine.routPos + 1 }
      port := { s.port with flags := { s.port.flags with jobDone := true } } }) ∧
  (∀ l, repairKind l = .spare ∨ repairKind l = .respare) ∧
  (∀ i, (State.reset.desc i).device = false ∧ (State.reset.desc i).kindCode = 0) ∧
  ∀ r : Result, r = ⟨.badKind, none, 0⟩ → r.word = 2

/-- The tracker's answer to the check before a REVERT: whether a QUARANTINED tag, as the tags stand, holds a COPY whose
location B is ROW for the same row. OUTSTANDING tags, VERIFYs and COPYs into a slot are not counted. -/
def Obligations.RowCopyCheckReadsTheQuarantinedTags : Prop :=
  ∀ (s : State) (r : RowAddr),
    s.rowCopyHeld r = true ↔ ∃ t h a, s.tag t = .quarantined h ∧ h.op = .copy r a .row

/-- SPARE, RESPARE and UNSPARE are checked in their order and the first check that fails decides; a job that passes
has its slot RESERVED (SPARE, RESPARE) and its context created in the same event. That BAD_ADDRESS and the refusals of
UNSPARE name no slot is the model's reading (log 17). The slots of a row's pool are the four from 4 × (4 × channel + bank
group) on, and a job has an explicit slot where its slot is present and auto slot clear. -/
def Obligations.MigrationJobsAreCheckedInOrder : Prop :=
  (∀ (r : RowAddr) (i : Fin 4), r.pool = 4 * r.channel.toNat + r.group.toNat ∧
    (r.slotAt i).val = 4 * (4 * r.channel.toNat + r.group.toNat) + i.val) ∧
  (∀ j : JobFields, j.explicit = if j.autoSlot then none else j.slot) ∧
  ∀ (j : JobFields) (s : State),
    let migrates := j.kind = .spare ∨ j.kind = .respare ∨ j.kind = .unspare
    let unmapped := ∀ k, s.mapsAt j.row k = false
    let mappedAt (k : SlotNum) := s.mapsAt j.row k = true ∧ ∀ n, s.mapsAt j.row n = true → n = k
    let context (d : Direction) (a b : Location) : Context :=
      ⟨d, j.row, a, b, .copying, 1, false, none, 0, false, j.poisonOnBad⟩
    (migrates → s.config.rows ≤ j.row.row.toNat → takeKind j s = .done ⟨.badAddress, none, 0⟩ s) ∧
    (j.row.row.toNat < s.config.rows →
      (∀ k, j.kind = .spare → mappedAt k → takeKind j s = .done ⟨.alreadySpared, j.explicit, 0⟩ s) ∧
      (∀ st, j.kind = .spare → unmapped → s.choiceFails j st → takeKind j s = .done ⟨st, j.explicit, 0⟩ s) ∧
      (∀ k, j.kind = .spare → unmapped → s.choiceIs j k → takeKind j s = .started
        { s.putSlot k (.reserved ⟨j.row.bank, j.row.row⟩) with
          migration := some (context .forward .row (.slot k)) }) ∧
      (j.kind = .respare → unmapped → takeKind j s = .done ⟨.notSpared, j.explicit, 0⟩ s) ∧
      (∀ k v, j.kind = .respare → mappedAt k → s.slot k = .committing v →
        takeKind j s = .done ⟨.rowBusy, j.explicit, 0⟩ s) ∧
      (∀ k st, j.kind = .respare → mappedAt k → (∀ v, s.slot k ≠ .committing v) → s.choiceFails j st →
        takeKind j s = .done ⟨st, j.explicit, 0⟩ s) ∧
      (∀ k n, j.kind = .respare → mappedAt k → (∀ v, s.slot k ≠ .committing v) → s.choiceIs j n →
        takeKind j s = .started { s.putSlot n (.reserved ⟨j.row.bank, j.row.row⟩) with
          migration := some (context .respare (.slot k) (.slot n)) }) ∧
      (j.kind = .unspare → unmapped → takeKind j s = .done ⟨.notSpared, none, 0⟩ s) ∧
      (∀ k v i, j.kind = .unspare → mappedAt k → s.slot k = .hard v i →
        takeKind j s = .done ⟨.fused, none, 0⟩ s) ∧
      (∀ k v, j.kind = .unspare → mappedAt k → s.slot k = .committing v →
        takeKind j s = .done ⟨.rowBusy, none, 0⟩ s) ∧
      (∀ k v, j.kind = .unspare → mappedAt k → s.slot k = .soft v → s.rowCopyHeld j.row = true →
        takeKind j s = .done ⟨.rowBusy, none, 0⟩ s) ∧
      (∀ k v, j.kind = .unspare → mappedAt k → s.slot k = .soft v → s.rowCopyHeld j.row = false →
        takeKind j s = .started { s with migration := some (context .revert (.slot k) .row) }))

/-- PROMOTE and permanent CONDEMN: the checks in their order, then the record at the write position is programmed started
with the request's kind, slot, victim and next sequence and the check of R122, each at the bytes of the layout and zero
elsewhere, and a PROMOTE's slot becomes COMMITTING. CONDEMN without the permanent flag completes at its take. -/
def Obligations.FuseJobsProgramTheNextRecord : Prop :=
  FuseRecordsShown ∧
  ∀ (j : JobFields) (s : State),
    let open? := s.config.fuseEnable = true ∧ s.supplyOk = true ∧ s.fuse.writePos < 96 ∧ s.fuse.nextSeq ≤ 4095
    let refusal (st : Status) := (s.config.fuseEnable = false ∧ st = .fuseDisabled) ∨
      (s.config.fuseEnable = true ∧ s.supplyOk = false ∧ st = .fuseSupply) ∨
      (s.config.fuseEnable = true ∧ s.supplyOk = true ∧ (96 ≤ s.fuse.writePos ∨ 4095 < s.fuse.nextSeq) ∧
        st = .fuseFull)
    let programmed (q : FuseRequest) (i : Fin 96) : FuseStore := { s.fuse with
      records := s.fuse.records.set i (q.bytes s.fuse.nextSeq)
      writePos := s.fuse.writePos + 1
      nextSeq := s.fuse.nextSeq + 1
      state := .programming i q.kind q.slot }
    (j.kind = .promote → (∀ k, s.mapsAt j.row k = false) → takeKind j s = .done ⟨.notSpared, none, 0⟩ s) ∧
    (∀ k, j.kind = .promote → s.mapsAt j.row k = true → (∀ n, s.mapsAt j.row n = true → n = k) →
      ((∀ v, s.slot k ≠ .soft v) → takeKind j s = .done ⟨.alreadyFused, some k, 0⟩ s) ∧
      (∀ v st, s.slot k = .soft v → refusal st → takeKind j s = .done ⟨st, some k, 0⟩ s) ∧
      ∀ (v : Victim) (i : Fin 96), s.slot k = .soft v → open? → i.val = s.fuse.writePos →
        takeKind j s = .started { s.putSlot k (.committing v) with fuse := programmed ⟨.map, k, v⟩ i }) ∧
    (j.kind = .condemn → j.slot = none → takeKind j s = .done ⟨.slotUnavailable, none, 0⟩ s) ∧
    (∀ k, j.kind = .condemn → j.slot = some k →
      (s.slot k ≠ .free → takeKind j s = .done ⟨.slotUnavailable, some k, 0⟩ s) ∧
      (s.slot k = .free → j.permanent = false →
        takeKind j s = .done ⟨.ok, some k, 0⟩ (s.putSlot k (.retired none none))) ∧
      (∀ st, s.slot k = .free → j.permanent = true → refusal st →
        takeKind j s = .done ⟨st, some k, 0⟩ (s.putSlot k (.retired none none))) ∧
      ∀ i : Fin 96, s.slot k = .free → j.permanent = true → open? → i.val = s.fuse.writePos →
        takeKind j s = .started
          { s.putSlot k (.retired none none) with fuse := programmed ⟨.condemn, k, ⟨0, 0⟩⟩ i }) ∧
    ∀ (q : FuseRequest) (n : Nat), 1 ≤ n → n ≤ 4095 →
      let f : FuseFields := {
        started := true
        finished := false
        kind := if q.kind = .map then 1 else 2
        sequence := BitVec.ofNat 12 n
        slot := BitVec.ofNat 6 q.slot.val
        bank := if q.kind = .map then q.victim.bank else 0
        row := if q.kind = .map then q.victim.row else 0
        check := 0 }
      q.bytes n = fuseLayout { f with check := checkOf (fuseLayout f ⟨0, 0, 0, 0⟩) } ⟨0, 0, 0, 0⟩ ∧
      (q.bytes n).started = true ∧ (q.bytes n).finished = false ∧ (q.bytes n).kindCode = q.kind.code ∧
      (q.bytes n).sequence.toNat = n ∧ (q.bytes n).slotNum = q.slot ∧
      (q.bytes n).victim = (if q.kind = .map then q.victim else ⟨0, 0⟩) ∧
      (q.bytes n).checkGood = true ∧ (q.bytes n).finish.checkValid = true

/-- POISON, CLEAR_POISON, DISMISS and MARKER complete at their take, with the checks, the effect and the detail the
reference gives each. -/
def Obligations.ListJobsCompleteAtTheirTake : Prop :=
  ∀ (j : JobFields) (s : State),
    (j.kind = .poison → s.config.rows ≤ j.row.row.toNat → takeKind j s = .done ⟨.badAddress, none, 0⟩ s) ∧
    (j.kind = .poison → j.row.row.toNat < s.config.rows → ∀ (n : Nat) (e : PoisonEntry),
      s.query.poison[n]? = some e → e.row = j.row → (∀ (m : Nat) (f : PoisonEntry), m < n →
        s.query.poison[m]? = some f → f.row ≠ j.row) → takeKind j s = .done ⟨.alreadyPoisoned, none, n⟩ s) ∧
    (j.kind = .poison → j.row.row.toNat < s.config.rows → s.poisoned j.row = false →
      s.query.poison.length < 16 → takeKind j s = .done ⟨.ok, none, s.query.poison.length⟩
        { s with query := { s.query with poison := s.query.poison ++ [⟨j.row, .software, 0, false⟩] } }) ∧
    (j.kind = .poison → j.row.row.toNat < s.config.rows → s.poisoned j.row = false →
      16 ≤ s.query.poison.length → takeKind j s = .done ⟨.poisonFull, none, 16⟩ s) ∧
    (j.kind = .clearPoison → s.poisonEntry j.row = none → takeKind j s = .done ⟨.notPoisoned, none, 0⟩ s) ∧
    (∀ e, j.kind = .clearPoison → s.poisonEntry j.row = some e → takeKind j s = .done ⟨.ok, none, e.hits⟩
      { s with query := { s.query with poison := s.query.poison.filter fun x => x.row ≠ j.row } }) ∧
    (j.kind = .dismiss → s.findEntry j.row = none → takeKind j s = .done ⟨.notTracked, none, 0⟩ s) ∧
    (∀ p e, j.kind = .dismiss → s.findEntry j.row = some (p, e) → takeKind j s = .done ⟨.ok, none, e.count⟩
      { s with tally := { s.tally with
        entries := s.tally.entries.set p none
        queue := s.tally.queue.filter fun x => x ≠ j.row
        fullReported := false } }) ∧
    (j.kind = .marker → takeKind j s = .done ⟨.ok, none, 0⟩ s)

/-! ### What holds for every message and after every event -/

/-- An inbound header decodes by the bits of its layout, those no field names being ignored, and one of another kind is an
unknown message; each header stands here from the high bits to the low. A row word gives its fields with bits 31:23 ignored,
and a location mark says whether the slot counts. Decoding the words of an inbound message gives the command back, with
every operand at every value. An outbound ANSWER or OP_REQ has its fields at the bits of its layout, zero elsewhere, and the
location B fields of a VERIFY are zero. That the slot of a location marked ROW is sent as zero is the model's choice
(log 24). -/
def Obligations.LinkMessagesDecodeAsEncoded : Prop :=
  (∀ (w : Word) (x : BitVec 14) (kind : BitVec 2) (id : BitVec 8) (y : BitVec 4),
    decodeMessage (x ++ kind ++ id ++ y ++ 1#4) w = .query id kind w) ∧
  (∀ (w : Word) (x : BitVec 8) (bits : BitVec 4) (y : BitVec 3) (unc : Bool) (z : BitVec 2) (slot : Fin 64)
      (a : BitVec 3) (atSlot : Bool),
    decodeMessage (x ++ bits ++ y ++ BitVec.ofBool unc ++ z ++ BitVec.ofNat 6 slot.val ++ a ++ BitVec.ofBool atSlot ++
      2#4) w = .errNote atSlot slot unc bits w) ∧
  (∀ (w : Word) (x : BitVec 12) (bits result : BitVec 4) (y : BitVec 1) (attempt : Fin 2) (tag : Fin 4) (z : BitVec 4),
    decodeMessage (x ++ bits ++ result ++ y ++ BitVec.ofNat 1 attempt.val ++ BitVec.ofNat 2 tag.val ++ z ++ 3#4) w =
      .opDone tag attempt result bits) ∧
  (∀ h w : Word, h.extractLsb' 0 4 ≠ 1 → h.extractLsb' 0 4 ≠ 2 → h.extractLsb' 0 4 ≠ 3 →
    decodeMessage h w = .unknownMessage h) ∧
  (∀ (x : BitVec 9) (channel group bank : BitVec 2) (row : BitVec 17),
    RowAddr.ofWord (x ++ channel ++ group ++ bank ++ row) = ⟨channel, group, bank, row⟩) ∧
  (∀ k : SlotNum, Location.ofMark false k = .row ∧ Location.ofMark true k = .slot k) ∧
  (∀ (c : Instr) (h : Word) (ws : List Word) (w : Word), c.wellFormed = true → encodeMessage c = some (h, ws) →
    decodeMessage h (ws.headD w) = c) ∧
  (∀ id : BitVec 8,
    OutMsg.words (.answer id .pass) = [0#14 ++ 0#2 ++ id ++ 0#4 ++ 8#4] ∧
    (∀ k : SlotNum, OutMsg.words (.answer id (.spare k)) =
      [0#2 ++ BitVec.ofNat 6 k.val ++ 0#6 ++ 1#2 ++ id ++ 0#4 ++ 8#4]) ∧
    OutMsg.words (.answer id .wait) = [0#14 ++ 2#2 ++ id ++ 0#4 ++ 8#4] ∧
    OutMsg.words (.answer id .poison) = [0#14 ++ 3#2 ++ id ++ 0#4 ++ 8#4]) ∧
  ∀ (t : TagNum) (n : Fin 2) (r : RowAddr) (a b : Location),
    let at? (l : Location) : BitVec 1 := match l with
      | .row => 0
      | .slot _ => 1
    let slot (l : Location) : BitVec 6 := match l with
      | .row => 0
      | .slot k => BitVec.ofNat 6 k.val
    let row : Word := 0#9 ++ r.channel ++ r.group ++ r.bank ++ r.row
    OutMsg.words (.opReq t n (.verify r a)) =
      [0#10 ++ slot a ++ 0#3 ++ at? a ++ 0#1 ++ BitVec.ofNat 1 n.val ++ BitVec.ofNat 2 t.val ++ 0#4 ++ 9#4, row] ∧
    OutMsg.words (.opReq t n (.copy r a b)) =
      [0#2 ++ slot b ++ 0#1 ++ at? b ++ slot a ++ 0#3 ++ at? a ++ 1#1 ++ BitVec.ofNat 1 n.val ++ BitVec.ofNat 2 t.val ++
        0#4 ++ 9#4, row]

/-- Every event keeps each configuration field in its range, each counter and the lost count at most 65,535, the
poison list at most 16 entries with no row twice and hit counts at most 255, and the tally's law: a row in at most one
entry, TRACKING entries with a count from 1 to T-1 and not seen uncorrectable, the candidate queue at most 8 rows, none
twice, each with a CANDIDATE entry, in agreement with the queued marks. -/
def Obligations.SettingsCountersAndPoisonStayInRange : Prop :=
  ∀ s t : State, step s = .next t →
    (SettingsLaw s.config → SettingsLaw t.config) ∧ (CountersLaw s → CountersLaw t) ∧ (PoisonLaw s → PoisonLaw t) ∧
      (TallyLaw s → TallyLaw t)

/-- Every event keeps the report unit's laws and the tag arbiter's; and no event leaves a scrubber waiting that could be
granted a tag, where none was: its grant comes at the first event in which it can be made (R74; log 14). -/
def Obligations.ReportUnitAndTagArbiterStaySettled : Prop :=
  ∀ s t : State, step s = .next t → (ReportsLaw s → ReportsLaw t) ∧ (TagsLaw s → TagsLaw t) ∧
    (MappingLaw s → TagsLaw s → ScrubServed s → ScrubServed t)

/-- Every event keeps the fuse array blank from the write position on and programmed below it, and never lowers the write
position; and but for FULL_RESET a RETIRED slot stays RETIRED. -/
def Obligations.FuseArrayAndRetiredSlotsOnlyGrow : Prop :=
  (∀ s t : State, FuseLaw s → step s = .next t → FuseLaw t ∧ s.fuse.writePos ≤ t.fuse.writePos) ∧
  ∀ (c : Instr) (s t : State) (k : SlotNum), c ≠ .fullReset → exec c s = .next t →
    (s.slot k).isRetired = true → (t.slot k).isRetired = true

/-- Every event keeps the mapping one-to-one, and the slot table, the migration context, the tags, the engine and the fuse
store in agreement. -/
def Obligations.EveryStepKeepsTheMappingLaw : Prop :=
  ∀ s t : State, MappingLaw s → step s = .next t → MappingLaw t
end

