-- ==== Sys2Proof/Laws/Tables.lean ====
section
/-! SUPPORT. Reading a record of a table after one was written: the record written at its own place, the old one at every
other. -/

namespace Sys2Proof.Machine

/-- Reading a table after writing one place of it. -/
theorem get_set {α : Type} {n : Nat} (v : Vector α n) (k j : Fin n) (x : α) :
    (v.set k x).get j = if k = j then x else v.get j := by
  show (v.set k.val x k.isLt)[j.val] = if k = j then x else v[j.val]
  rw [Vector.getElem_set]
  simp only [Fin.ext_iff]

/-- Writing back what stands at a place changes nothing. -/
theorem set_get {α : Type} {n : Nat} (v : Vector α n) (k : Fin n) : v.set k (v.get k) = v := by
  show v.set k.val v[k.val] k.isLt = v
  exact Vector.set_getElem_self k.isLt

theorem slot_putSlot (s : State) (k j : SlotNum) (r : SlotRec) :
    (s.putSlot k r).slot j = if k = j then r else s.slot j :=
  get_set _ _ _ _

theorem tag_putTag (s : State) (k j : TagNum) (r : Tag) :
    (s.putTag k r).tag j = if k = j then r else s.tag j :=
  get_set _ _ _ _

theorem entry_putEntry (s : State) (k j : Fin 32) (e : Option TallyEntry) :
    (s.putEntry k e).entry j = if k = j then e else s.entry j :=
  get_set _ _ _ _

theorem record_putRecord (s : State) (k j : Fin 96) (r : FuseBytes) :
    (s.putRecord k r).record j = if k = j then r else s.record j :=
  get_set _ _ _ _

theorem reportSlot_putReportSlot (s : State) (k j : Fin 64) (r : ReportSlot) :
    (s.putReportSlot k r).reportSlot j = if k = j then r else s.reportSlot j :=
  get_set _ _ _ _

theorem desc_putDesc (s : State) (i j : DescId) (d : Descriptor) :
    (s.putDesc i d).desc j = if i = j then d else s.desc j := by
  cases i <;> cases j <;> simp [State.putDesc, State.desc, get_set]

/-- Putting back the record that stands there changes nothing. -/
theorem putSlot_slot (s : State) (k : SlotNum) : s.putSlot k (s.slot k) = s := by
  have h : s.slots.recs.set k (s.slots.recs.get k) = s.slots.recs := set_get _ _
  simp only [State.putSlot, State.slot, h]

end Sys2Proof.Machine
end

