-- ==== Sys2Proof/Laws/Drain.lean ====
section
/-! SUPPORT. The drain of a hand-back: which reports move, into which slots, and what stands held after it. -/

namespace Sys2Proof.Machine

/-- The place `m` slots after `w` in the report ring. -/
theorem ring_place_ne {w : Fin 64} {m : Nat} (h : 0 < m) (h2 : m < 64) : w ≠ w + Fin.ofNat 64 m := by
  intro e
  have := congrArg Fin.val e
  simp only [Fin.val_add, Fin.ofNat] at this
  omega

theorem ring_place_succ (w : Fin 64) (m : Nat) : w + 1 + Fin.ofNat 64 m = w + Fin.ofNat 64 (m + 1) := by
  apply Fin.ext
  simp only [Fin.val_add, Fin.ofNat]
  omega

theorem ring_place_zero (w : Fin 64) : w + Fin.ofNat 64 0 = w := by
  apply Fin.ext
  simp only [Fin.val_add, Fin.ofNat]
  omega

/-- What `n` moves of the reports `q`, oldest first, into the ring from the write position of `s` leave in `u`. -/
structure Moved (q : List HeldReport) (n : Nat) (s u : State) : Prop where
  bound : n ≤ q.length
  ready : ∀ m, m < n → (s.reportSlot (s.reports.writePos + Fin.ofNat 64 m)).device = true
  stop : n < q.length → (s.reportSlot (s.reports.writePos + Fin.ofNat 64 n)).device = false
  written : ∀ m h, m < n → q[m]? = some h → u.reportSlot (s.reports.writePos + Fin.ofNat 64 m) = h.slotWords
  kept : ∀ k, (∀ m, m < n → k ≠ s.reports.writePos + Fin.ofNat 64 m) → u.reportSlot k = s.reportSlot k
  writePos : u.reports.writePos = s.reports.writePos + Fin.ofNat 64 n
  held : u.reports.held = q.drop n
  lost : u.reports.lost = 0
  serial : u.reports.serial = s.reports.serial
  port : u.port = if n = 0 then s.port else { s.port with flags := { s.port.flags with report := true } }

/-- The drain with no loss pending moves the held reports until the slot at the write position is SOFTWARE-owned. -/
theorem drain_moved : ∀ (f : Nat) (s : State), s.reports.lost = 0 → s.reports.held.length ≤ f →
    s.reports.held.length ≤ 63 → ∃ n, Moved s.reports.held n s (drain f s) := by
  intro f
  induction f with
  | zero =>
    intro s h0 h1 h2
    have e : s.reports.held = [] := List.length_eq_zero_iff.1 (Nat.le_zero.1 h1)
    refine ⟨0, ⟨Nat.zero_le _, fun m h => absurd h (Nat.not_lt_zero m), ?_, fun m _ h => absurd h (Nat.not_lt_zero m),
      fun k _ => rfl, (ring_place_zero _).symm, rfl, h0, rfl, rfl⟩⟩
    rw [e]; intro h; exact absurd h (Nat.lt_irrefl 0)
  | succ f ih =>
    intro s h0 h1 h2
    cases hh : s.reports.held with
    | nil =>
      have e : drain (f + 1) s = s := by simp only [drain, hh]
      rw [e]
      exact ⟨0, ⟨Nat.zero_le _, fun m h => absurd h (Nat.not_lt_zero m), fun h => absurd h (Nat.lt_irrefl 0),
        fun m _ h => absurd h (Nat.not_lt_zero m), fun k _ => rfl, (ring_place_zero _).symm, hh, h0, rfl, rfl⟩⟩
    | cons h rest =>
      rw [hh, List.length_cons] at h1 h2
      cases hr : s.slotReady with
      | false =>
        have e : drain (f + 1) s = s := by simp only [drain, hh, hr]; rfl
        rw [e]
        refine ⟨0, ⟨Nat.zero_le _, fun m h => absurd h (Nat.not_lt_zero m), fun _ => ?_,
          fun m _ h => absurd h (Nat.not_lt_zero m), fun k _ => rfl, (ring_place_zero _).symm, hh, h0, rfl, rfl⟩⟩
        rw [ring_place_zero]; exact hr
      | true =>
        let t := writeRing h { s with reports := { s.reports with held := rest } }
        have ht : appendOverrun t = t := by
          unfold appendOverrun
          exact if_neg fun x => absurd (show t.reports.lost = 0 from h0) (Nat.ne_of_gt x.1)
        have e : drain (f + 1) s = drain f t := by simp only [drain, hh, hr, if_true]; rw [ht]
        have slot (k) : t.reportSlot k = if s.reports.writePos = k then h.slotWords else s.reportSlot k :=
          get_set _ _ _ _
        have far (m) (x : m < 63) : t.reportSlot (s.reports.writePos + 1 + Fin.ofNat 64 m) =
            s.reportSlot (s.reports.writePos + Fin.ofNat 64 (m + 1)) := by
          rw [slot, ring_place_succ, if_neg (ring_place_ne (Nat.succ_pos m) (by omega))]
        obtain ⟨n, hn⟩ := ih t h0 (by show rest.length ≤ f; omega) (by show rest.length ≤ 63; omega)
        have hb : n ≤ rest.length := hn.bound
        have first : (drain f t).reportSlot s.reports.writePos = h.slotWords := by
          refine (hn.kept _ fun m x => ?_).trans ((slot _).trans (if_pos rfl))
          show s.reports.writePos ≠ s.reports.writePos + 1 + Fin.ofNat 64 m
          rw [ring_place_succ]
          exact ring_place_ne (Nat.succ_pos m) (by omega)
        rw [e]
        refine ⟨n + 1, ⟨by rw [List.length_cons]; omega, ?_, ?_, ?_, ?_, ?_, ?_, hn.lost, hn.serial, ?_⟩⟩
        · intro m x
          cases m with
          | zero => rw [ring_place_zero]; exact hr
          | succ m => rw [← far m (by omega)]; exact hn.ready m (by omega)
        · intro x
          rw [List.length_cons] at x
          rw [← far n (by omega)]
          exact hn.stop (by show n < rest.length; omega)
        · intro m g x y
          cases m with
          | zero =>
            rw [ring_place_zero]
            have : h = g := by simpa using y
            rw [← this]; exact first
          | succ m =>
            rw [← ring_place_succ]
            exact hn.written m g (by omega) (by show rest[m]? = some g; simpa using y)
        · intro k hk
          have k0 : k ≠ s.reports.writePos := by
            have := hk 0 (Nat.succ_pos n); rwa [ring_place_zero] at this
          refine (hn.kept k fun m x => ?_).trans ((slot k).trans (if_neg fun e => k0 e.symm))
          show k ≠ s.reports.writePos + 1 + Fin.ofNat 64 m
          rw [ring_place_succ]
          exact hk (m + 1) (by omega)
        · refine hn.writePos.trans ?_
          exact ring_place_succ _ _
        · exact hn.held
        · rw [hn.port, if_neg (Nat.succ_ne_zero n)]
          split <;> rfl

/-- The drain of a hand-back at the write position, with at most 8 reports held: the first move, the OVERRUN report
where reports were lost, and the moves that follow. -/
theorem drain_handed (s : State) (hr : s.slotReady = true) (hne : s.reports.held ≠ []) (h8 : s.reports.held.length ≤ 8) :
    ∃ n, 0 < n ∧ Moved (s.reports.held ++ if s.reports.lost = 0 then []
      else [⟨⟨.overrun s.reports.lost, s.tally.epoch⟩, s.reports.serial⟩]) n
      { s with reports := { s.reports with
        serial := if s.reports.lost = 0 then s.reports.serial else s.reports.serial + 1 } } (drain (drainFuel s) s) := by
  cases hh : s.reports.held with
  | nil => exact absurd hh hne
  | cons h rest =>
    rw [hh, List.length_cons] at h8
    let v := writeRing h { s with reports := { s.reports with held := rest } }
    let o : List HeldReport := if s.reports.lost = 0 then [] else
      [⟨⟨.overrun s.reports.lost, s.tally.epoch⟩, s.reports.serial⟩]
    have ho : o.length ≤ 1 := by show List.length (if _ then _ else _) ≤ 1; split <;> simp
    let t := appendOverrun v
    have fuel : drainFuel s = (rest.length + 1) + 1 := by unfold drainFuel; rw [hh]; rfl
    have e : drain (drainFuel s) s = drain (rest.length + 1) t := by
      rw [fuel]; simp only [drain, hh, hr, if_true]; rfl
    let After (t : State) : Prop := t.reports.held = rest ++ o ∧ t.reports.lost = 0 ∧
      t.reports.writePos = s.reports.writePos + 1 ∧ t.reports.ring = v.reports.ring ∧ t.port = v.port ∧
      t.reports.serial = if s.reports.lost = 0 then s.reports.serial else s.reports.serial + 1
    have ht : After t := by
      show After (appendOverrun v)
      unfold appendOverrun
      by_cases hl : s.reports.lost = 0
      · rw [if_neg fun x => absurd (show v.reports.lost = 0 from hl) (Nat.ne_of_gt x.1)]
        refine ⟨?_, hl, rfl, rfl, rfl, ?_⟩
        · show rest = rest ++ o
          simp only [o, if_pos hl, List.append_nil]
        · rw [if_pos hl]; rfl
      · rw [if_pos ⟨Nat.pos_of_ne_zero hl, show rest.length < 8 by omega⟩]
        refine ⟨?_, rfl, rfl, rfl, rfl, ?_⟩
        · show rest ++ [_] = rest ++ o
          simp only [o, if_neg hl]; rfl
        · rw [if_neg hl]; rfl
    obtain ⟨t1, t2, t3, t4, t5, t6⟩ := ht
    have slot (k) : t.reportSlot k = if s.reports.writePos = k then h.slotWords else s.reportSlot k := by
      show t.reports.ring.get k = _
      rw [t4]; exact get_set _ _ _ _
    have far (m) (x : m < 63) : t.reportSlot (t.reports.writePos + Fin.ofNat 64 m) =
        s.reportSlot (s.reports.writePos + Fin.ofNat 64 (m + 1)) := by
      rw [t3, slot, ring_place_succ, if_neg (ring_place_ne (Nat.succ_pos m) (by omega))]
    have len : t.reports.held.length ≤ rest.length + 1 := by rw [t1, List.length_append]; omega
    obtain ⟨n, hn⟩ := drain_moved (rest.length + 1) t t2 len (by omega)
    have hb := hn.bound
    rw [e]
    refine ⟨n + 1, Nat.succ_pos n, ⟨?_, ?_, ?_, ?_, ?_, ?_, ?_, hn.lost, hn.serial.trans t6, ?_⟩⟩
    · show n + 1 ≤ (h :: (rest ++ o)).length
      rw [List.length_cons, ← t1]; omega
    · intro m x
      show (s.reportSlot (s.reports.writePos + Fin.ofNat 64 m)).device = true
      cases m with
      | zero => rw [ring_place_zero]; exact hr
      | succ m => rw [← far m (by omega)]; exact hn.ready m (by omega)
    · intro x
      show (s.reportSlot (s.reports.writePos + Fin.ofNat 64 (n + 1))).device = false
      have : n < t.reports.held.length := by
        rw [t1]; exact Nat.lt_of_succ_lt_succ (show n + 1 < (rest ++ o).length + 1 from x)
      rw [← far n (by omega)]
      exact hn.stop this
    · intro m g x y
      show (drain (rest.length + 1) t).reportSlot (s.reports.writePos + Fin.ofNat 64 m) = g.slotWords
      cases m with
      | zero =>
        rw [ring_place_zero]
        have : h = g := by simpa using y
        rw [← this]
        refine (hn.kept _ fun m x => ?_).trans ((slot _).trans (if_pos rfl))
        rw [t3, ring_place_succ]
        exact ring_place_ne (Nat.succ_pos m) (by omega)
      | succ m =>
        rw [← ring_place_succ, ← t3]
        exact hn.written m g (by omega) (by rw [t1]; simpa using y)
    · intro k hk
      show (drain (rest.length + 1) t).reportSlot k = s.reportSlot k
      have k0 : k ≠ s.reports.writePos := by
        have := hk 0 (Nat.succ_pos n); rwa [ring_place_zero] at this
      refine (hn.kept k fun m x => ?_).trans ((slot k).trans (if_neg fun e => k0 e.symm))
      rw [t3, ring_place_succ]
      exact hk (m + 1) (by omega)
    · refine hn.writePos.trans ?_
      rw [t3]; exact ring_place_succ _ _
    · refine hn.held.trans ?_
      rw [t1]; rfl
    · rw [hn.port, t5, if_neg (Nat.succ_ne_zero n)]
      split <;> rfl
end Sys2Proof.Machine
end

