-- ==== Sys2Proof/Laws/Frames.lean ====
section
/-! SUPPORT. What each shared operation leaves as it was: `<op>_same` names the parts it can change. Read one part off with
`(op_same …) .slots (by decide)`. -/

namespace Sys2Proof.Machine

/-! ### The relation -/

theorem SameBut.refl (l : List Block) (s : State) : SameBut l s s := by
  intro b _
  cases b <;> rfl

theorem Block.same_trans {s t u : State} {b : Block} (h : b.same s t) (k : b.same t u) : b.same s u := by
  cases b <;> exact Eq.trans k h

theorem SameBut.trans {l : List Block} {s t u : State} (h : SameBut l s t) (k : SameBut l t u) : SameBut l s u :=
  fun b hb => Block.same_trans (h b hb) (k b hb)

theorem SameBut.mono {l m : List Block} {s t : State} (h : SameBut l s t) (hs : ∀ b ∈ l, b ∈ m) : SameBut m s t :=
  fun b hb => h b fun hl => hb (hs b hl)

/-- The same with more parts allowed to change. -/
theorem SameBut.up {l m : List Block} {s t : State} (h : SameBut l s t) (hs : ∀ b ∈ l, b ∈ m := by decide) :
    SameBut m s t := h.mono hs

theorem ite_same {l : List Block} {s a b : State} {c : Prop} [Decidable c] (ha : SameBut l s a) (hb : SameBut l s b) :
    SameBut l s (if c then a else b) := by
  split
  · exact ha
  · exact hb

/-- One part after another: `f` may change `l`, `g` may change `m`, and both lie in `n`. -/
theorem SameBut.comp {l m n : List Block} {s t u : State} (h : SameBut l s t) (k : SameBut m t u)
    (hl : ∀ b ∈ l, b ∈ n := by decide) (hm : ∀ b ∈ m, b ∈ n := by decide) : SameBut n s u :=
  (h.mono hl).trans (k.mono hm)

/-- A frame is checked part by part. -/
theorem SameBut.of {l : List Block} {s t : State} (h : ∀ b, b ∈ l ∨ b.same s t) : SameBut l s t :=
  fun b hb => (h b).resolve_left hb

theorem foldl_same {α : Type} {l : List Block} (f : α → State → State) (h : ∀ a s, SameBut l s (f a s)) :
    ∀ (as : List α) (s : State), SameBut l s (as.foldl (fun t a => f a t) s)
  | [], s => SameBut.refl l s
  | a :: as, s => (h a s).trans (foldl_same f h as (f a s))

/-! ### Updates of one part -/

theorem putSlot_same (s : State) (k : SlotNum) (r : SlotRec) : SameBut [.slots] s (s.putSlot k r) :=
  .of fun b => by cases b <;> first | exact .inr rfl | exact .inl (by decide)

theorem putTag_same (s : State) (t : TagNum) (r : Tag) : SameBut [.tracker] s (s.putTag t r) :=
  .of fun b => by cases b <;> first | exact .inr rfl | exact .inl (by decide)

theorem putEntry_same (s : State) (p : Fin 32) (e : Option TallyEntry) : SameBut [.tally] s (s.putEntry p e) :=
  .of fun b => by cases b <;> first | exact .inr rfl | exact .inl (by decide)

theorem putDesc_same (s : State) (i : DescId) (d : Descriptor) : SameBut [.engine] s (s.putDesc i d) :=
  .of fun b => by cases i <;> cases b <;> first | exact .inr rfl | exact .inl (by decide)

theorem putRecord_same (s : State) (i : Fin 96) (r : FuseBytes) : SameBut [.fuse] s (s.putRecord i r) :=
  .of fun b => by cases b <;> first | exact .inr rfl | exact .inl (by decide)

theorem putReportSlot_same (s : State) (k : Fin 64) (r : ReportSlot) : SameBut [.reports] s (s.putReportSlot k r) :=
  .of fun b => by cases b <;> first | exact .inr rfl | exact .inl (by decide)

theorem produce_same (p : Producer) (x : ReportBody) (s : State) : SameBut [.arrivals] s (produce p x s) :=
  .of fun b => by cases b <;> first | exact .inr rfl | exact .inl (by decide)

theorem send_same (m : OutMsg) (s : State) : SameBut [.link] s (send m s) :=
  .of fun b => by cases b <;> first | exact .inr rfl | exact .inl (by decide)

theorem raiseJobDone_same (s : State) : SameBut [.port] s (raiseJobDone s) :=
  .of fun b => by cases b <;> first | exact .inr rfl | exact .inl (by decide)

theorem raiseReport_same (s : State) : SameBut [.port] s (raiseReport s) :=
  .of fun b => by cases b <;> first | exact .inr rfl | exact .inl (by decide)

theorem raiseOverrun_same (s : State) : SameBut [.port] s (raiseOverrun s) :=
  .of fun b => by cases b <;> first | exact .inr rfl | exact .inl (by decide)

theorem raiseLink_same (s : State) : SameBut [.port] s (raiseLink s) :=
  .of fun b => by cases b <;> first | exact .inr rfl | exact .inl (by decide)

theorem refuseWrite_same (s : State) : SameBut [.port] s (refuseWrite s) :=
  .of fun b => by cases b <;> first | exact .inr rfl | exact .inl (by decide)

theorem countStaleDone_same (s : State) : SameBut [.tracker] s (countStaleDone s) :=
  .of fun b => by cases b <;> first | exact .inr rfl | exact .inl (by decide)

theorem countRetry_same (s : State) : SameBut [.tracker] s (countRetry s) :=
  .of fun b => by cases b <;> first | exact .inr rfl | exact .inl (by decide)

theorem countStaleNote_same (s : State) : SameBut [.tally] s (countStaleNote s) :=
  .of fun b => by cases b <;> first | exact .inr rfl | exact .inl (by decide)

theorem countOutOfRange_same (s : State) : SameBut [.query] s (countOutOfRange s) :=
  .of fun b => by cases b <;> first | exact .inr rfl | exact .inl (by decide)

theorem countWait_same (s : State) : SameBut [.query] s (countWait s) :=
  .of fun b => by cases b <;> first | exact .inr rfl | exact .inl (by decide)

theorem putContext_same (s : State) (c : Option Context) : SameBut [.migration] s (s.putContext c) :=
  .of fun b => by cases b <;> first | exact .inr rfl | exact .inl (by decide)

theorem putSettings_same (c : Settings) (s : State) : SameBut [.config] s (putSettings c s) :=
  .of fun b => by cases b <;> first | exact .inr rfl | exact .inl (by decide)

theorem putPosition_same (p : RowAddr) (s : State) : SameBut [.scrub] s (putPosition p s) :=
  .of fun b => by cases b <;> first | exact .inr rfl | exact .inl (by decide)

theorem putReadData_same (v : Word) (s : State) : SameBut [.port] s (putReadData v s) :=
  .of fun b => by cases b <;> first | exact .inr rfl | exact .inl (by decide)

theorem putCounts_same (c : LoadCounts) (s : State) : SameBut [.fuse] s (putCounts c s) :=
  .of fun b => by cases b <;> first | exact .inr rfl | exact .inl (by decide)

theorem raiseSequence_same (r : FuseBytes) (s : State) : SameBut [.fuse] s (raiseSequence r s) :=
  .of fun b => by cases b <;> first | exact .inr rfl | exact .inl (by decide)

theorem putLoading_same (k : Nat) (s : State) : SameBut [.fuse] s (putLoading k s) :=
  .of fun b => by cases b <;> first | exact .inr rfl | exact .inl (by decide)

theorem fuseIdle_same (s : State) : SameBut [.fuse] s (fuseIdle s) :=
  .of fun b => by cases b <;> first | exact .inr rfl | exact .inl (by decide)

theorem putSupply_same (x : Bool) (s : State) : SameBut [.supplyOk] s (putSupply x s) :=
  .of fun b => by cases b <;> first | exact .inr rfl | exact .inl (by decide)

theorem enqueue_same (r : RowAddr) (s : State) : SameBut [.tally] s (enqueue r s) :=
  .of fun b => by cases b <;> first | exact .inr rfl | exact .inl (by decide)

theorem dequeue_same (r : RowAddr) (s : State) : SameBut [.tally] s (dequeue r s) :=
  .of fun b => by cases b <;> first | exact .inr rfl | exact .inl (by decide)

theorem addPoison_same (r : RowAddr) (o : Origin) (s : State) : SameBut [.query] s (addPoison r o s) :=
  .of fun b => by cases b <;> first | exact .inr rfl | exact .inl (by decide)

theorem removePoison_same (r : RowAddr) (s : State) : SameBut [.query] s (removePoison r s) :=
  .of fun b => by cases b <;> first | exact .inr rfl | exact .inl (by decide)

theorem hitPoison_same (r : RowAddr) (s : State) : SameBut [.query] s (hitPoison r s) :=
  .of fun b => by cases b <;> first | exact .inr rfl | exact .inl (by decide)

theorem startEpoch_same (s : State) : SameBut [.tally] s (startEpoch s) :=
  .of fun b => by cases b <;> first | exact .inr rfl | exact .inl (by decide)

theorem nextEpoch_same (s : State) : SameBut [.tally] s (nextEpoch s) :=
  .of fun b => by cases b <;> first | exact .inr rfl | exact .inl (by decide)

theorem stepUrgent_same (s : State) : SameBut [.engine] s (stepUrgent s) :=
  .of fun b => by cases b <;> first | exact .inr rfl | exact .inl (by decide)

theorem stepRoutine_same (s : State) : SameBut [.engine] s (stepRoutine s) :=
  .of fun b => by cases b <;> first | exact .inr rfl | exact .inl (by decide)

theorem zeroPositions_same (s : State) : SameBut [.engine] s (zeroPositions s) :=
  .of fun b => by cases b <;> first | exact .inr rfl | exact .inl (by decide)

theorem leaveBusy_same (s : State) : SameBut [.engine] s (leaveBusy s) :=
  .of fun b => by cases b <;> first | exact .inr rfl | exact .inl (by decide)

theorem restartEngine_same (s : State) : SameBut [.engine] s (restartEngine s) :=
  .of fun b => by cases b <;> first | exact .inr rfl | exact .inl (by decide)

theorem clearCounter_same (c : CounterId) (s : State) :
    SameBut [.tracker, .tally, .query, .port] s (clearCounter c s) :=
  .of fun b => by cases c <;> cases b <;> first | exact .inr rfl | exact .inl (by decide)

/-! ### Claims on the slot table -/

theorem reserve_same (k : SlotNum) (r : RowAddr) (s : State) : SameBut [.slots] s (reserve k r s) := by
  unfold reserve; split <;> first | exact putSlot_same _ _ _ | exact .refl _ _

theorem switchTarget_same (k : SlotNum) (s : State) : SameBut [.slots] s (switchTarget k s) := by
  unfold switchTarget; split <;> first | exact putSlot_same _ _ _ | exact .refl _ _

theorem retireSource_same (k : SlotNum) (s : State) : SameBut [.slots] s (retireSource k s) := by
  unfold retireSource; split <;> first | exact putSlot_same _ _ _ | exact .refl _ _

theorem freeSource_same (k : SlotNum) (s : State) : SameBut [.slots] s (freeSource k s) := by
  unfold freeSource; split <;> first | exact putSlot_same _ _ _ | exact .refl _ _

theorem abortRelease_same (k : SlotNum) (s : State) : SameBut [.slots] s (abortRelease k s) := by
  unfold abortRelease; split <;> first | exact putSlot_same _ _ _ | exact .refl _ _

theorem drainRelease_same (k : SlotNum) (s : State) : SameBut [.slots] s (drainRelease k s) := by
  unfold drainRelease; split <;> first | exact putSlot_same _ _ _ | exact .refl _ _

theorem beginCommit_same (k : SlotNum) (s : State) : SameBut [.slots] s (beginCommit k s) := by
  unfold beginCommit; split <;> first | exact putSlot_same _ _ _ | exact .refl _ _

theorem commitGood_same (k : SlotNum) (i : Fin 96) (s : State) : SameBut [.slots] s (commitGood k i s) := by
  unfold commitGood; split <;> first | exact putSlot_same _ _ _ | exact .refl _ _

theorem commitBad_same (k : SlotNum) (s : State) : SameBut [.slots] s (commitBad k s) := by
  unfold commitBad; split <;> first | exact putSlot_same _ _ _ | exact .refl _ _

theorem condemn_same (k : SlotNum) (s : State) : SameBut [.slots] s (condemn k s) := by
  unfold condemn; split <;> first | exact putSlot_same _ _ _ | exact .refl _ _

theorem condemnFused_same (k : SlotNum) (i : Fin 96) (s : State) : SameBut [.slots] s (condemnFused k i s) := by
  unfold condemnFused; split <;> first | exact putSlot_same _ _ _ | exact .refl _ _

theorem installMap_same (k : SlotNum) (v : Victim) (i : Fin 96) (s : State) :
    SameBut [.slots] s (installMap k v i s) := by
  unfold installMap; split <;> first | exact putSlot_same _ _ _ | exact .refl _ _

theorem installSupersede_same (k : SlotNum) (i : Fin 96) (s : State) :
    SameBut [.slots] s (installSupersede k i s) := by
  unfold installSupersede; split <;> first | exact putSlot_same _ _ _ | exact .refl _ _

theorem installCondemn_same (k : SlotNum) (i : Fin 96) (s : State) : SameBut [.slots] s (installCondemn k i s) := by
  unfold installCondemn; split <;> first | exact putSlot_same _ _ _ | exact .refl _ _

theorem switchSlots_same (c : Context) (s : State) : SameBut [.slots] s (switchSlots c s) := by
  unfold switchSlots
  split
  · exact switchTarget_same _ _
  · exact (switchTarget_same _ _).trans (retireSource_same _ _)
  · exact freeSource_same _ _
  · exact .refl _ _

theorem releaseTarget_same (c : Context) (s : State) : SameBut [.slots] s (releaseTarget c s) := by
  unfold releaseTarget; split <;> first | exact abortRelease_same _ _ | exact .refl _ _

theorem programmingClaim_same (kind : RecordKind) (good : Bool) (k : SlotNum) (i : Fin 96) (s : State) :
    SameBut [.slots] s (programmingClaim kind good k i s) := by
  unfold programmingClaim
  split
  · exact commitGood_same _ _ _
  · exact commitBad_same _ _
  · exact condemnFused_same _ _ _
  · exact .refl _ _

theorem supplyFallClaim_same (kind : RecordKind) (k : SlotNum) (s : State) :
    SameBut [.slots] s (supplyFallClaim kind k s) := by
  unfold supplyFallClaim; split <;> first | exact commitBad_same _ _ | exact .refl _ _

/-! ### The report unit -/

theorem writeRing_same (h : HeldReport) (s : State) : SameBut [.reports, .port] s (writeRing h s) :=
  .of fun b => by cases b <;> first | exact .inr rfl | exact .inl (by decide)

theorem nextSerial_same (s : State) : SameBut [.reports] s (nextSerial s) :=
  .of fun b => by cases b <;> first | exact .inr rfl | exact .inl (by decide)

theorem hold_same (r : Report) (s : State) : SameBut [.reports] s (hold r s) :=
  .of fun b => by cases b <;> first | exact .inr rfl | exact .inl (by decide)

theorem loseReport_same (s : State) : SameBut [.reports, .port] s (loseReport s) :=
  .of fun b => by unfold loseReport; split <;> cases b <;> first | exact .inr rfl | exact .inl (by decide)

theorem arrive_same (r : Report) (s : State) : SameBut [.reports, .port] s (arrive r s) := by
  unfold arrive
  split
  · exact (writeRing_same _ _).comp (nextSerial_same _)
  · split
    · exact (hold_same _ _).mono (by decide)
    · exact loseReport_same _

theorem appendOverrun_same (s : State) : SameBut [.reports] s (appendOverrun s) :=
  .of fun b => by unfold appendOverrun; split <;> cases b <;> first | exact .inr rfl | exact .inl (by decide)

theorem putHeld_same (held : List HeldReport) (s : State) :
    SameBut [.reports] s { s with reports := { s.reports with held := held } } :=
  .of fun b => by cases b <;> first | exact .inr rfl | exact .inl (by decide)

theorem drain_same : ∀ (n : Nat) (s : State), SameBut [.reports, .port] s (drain n s)
  | 0, _ => .refl _ _
  | n + 1, s => by
      unfold drain
      split
      · exact .refl _ _
      · split
        · exact .trans (putHeld_same _ s).up (.trans (writeRing_same _ _)
            (.trans (appendOverrun_same _).up (drain_same n _)))
        · exact .refl _ _

theorem arriveAll_same : ∀ (l : List Arrival) (s : State), SameBut [.reports, .port] s (arriveAll l s)
  | [], _ => .refl _ _
  | a :: as, s => (arrive_same a.report s).trans (arriveAll_same as _)

theorem clearArrivals_same (n : Nat) (s : State) :
    SameBut [.arrivals, .freeCount] s { s with arrivals := [], freeCount := n } :=
  .of fun b => by cases b <;> first | exact .inr rfl | exact .inl (by decide)

theorem takeArrivals_same (s : State) : SameBut [.reports, .port, .arrivals, .freeCount] s (takeArrivals s) :=
  (clearArrivals_same _ s).comp (arriveAll_same _ _)

/-! ### The error tally -/

theorem promote_same (p : Fin 32) (e : TallyEntry) (c : PromotionCause) (s : State) :
    SameBut [.tally, .arrivals] s (promote p e c s) := by
  unfold promote
  dsimp only
  split
  · exact .trans (produce_same _ _ s).up (.trans (putEntry_same _ _ _).up (enqueue_same _ _).up)
  · exact (produce_same _ _ s).comp (putEntry_same _ _ _)

theorem promotionTest_same (p : Fin 32) (e : TallyEntry) (s : State) :
    SameBut [.tally, .arrivals] s (promotionTest p e s) := by
  unfold promotionTest
  split
  · exact promote_same _ _ _ _
  · split
    · exact promote_same _ _ _ _
    · exact .refl _ _

theorem reportUncorrectable_same (n : Note) (u : Bool) (s : State) :
    SameBut [.arrivals] s (reportUncorrectable n u s) := produce_same _ _ _

theorem countNote_same (p : Fin 32) (e : TallyEntry) (n : Note) (s : State) :
    SameBut [.tally, .arrivals] s (countNote p e n s) := by
  have h : ∀ x : State, SameBut [.tally, .arrivals] s x → ∀ c : Bool,
      SameBut [.tally, .arrivals] s (if c = true then reportUncorrectable n false x else x) := by
    intro x hx c
    exact ite_same (hx.trans (reportUncorrectable_same _ _ _).up) hx
  unfold countNote
  dsimp only
  exact ite_same ((h _ (putEntry_same s _ _).up _).trans (promotionTest_same _ _ _)) (h _ (putEntry_same s _ _).up _)

theorem createEntry_same (p : Fin 32) (n : Note) (s : State) :
    SameBut [.tally, .arrivals] s (createEntry p n s) := by
  unfold createEntry
  dsimp only
  refine .trans ?_ (promotionTest_same _ _ _)
  exact ite_same ((putEntry_same s _ _).comp (reportUncorrectable_same _ _ _)) (putEntry_same s _ _).up

theorem unrecorded_same (n : Note) (s : State) : SameBut [.tally, .arrivals] s (unrecorded n s) :=
  .of fun b => by
    unfold unrecorded; dsimp only
    split <;> split <;> cases b <;> first | exact .inr rfl | exact .inl (by decide)

theorem recordNote_same (n : Note) (s : State) : SameBut [.tally, .arrivals] s (recordNote n s) := by
  unfold recordNote
  split
  · exact countNote_same _ _ _ _
  · split
    · exact createEntry_same _ _ _
    · split
      · exact createEntry_same _ _ _
      · exact unrecorded_same _ _

theorem takeNote_same (n : Note) (s : State) : SameBut [.tally, .arrivals] s (takeNote n s) := by
  unfold takeNote
  split
  · exact recordNote_same _ _
  · exact (countStaleNote_same _).mono (by decide)

theorem removeAt_same (p : Fin 32) (r : RowAddr) (s : State) : SameBut [.tally] s (removeAt p r s) :=
  .of fun b => by cases b <;> first | exact .inr rfl | exact .inl (by decide)

theorem forgetRow_same (r : RowAddr) (s : State) : SameBut [.tally] s (forgetRow r s) := by
  unfold forgetRow; split <;> first | exact removeAt_same _ _ _ | exact dequeue_same _ _

theorem markAttempted_same (r : RowAddr) (s : State) : SameBut [.tally] s (markAttempted r s) := by
  unfold markAttempted; split <;> first | exact putEntry_same _ _ _ | exact .refl _ _

theorem decayAt_same (p : Fin 32) (s : State) : SameBut [.tally] s (decayAt p s) := by
  unfold decayAt
  split
  · exact .refl _ _
  · split
    · split <;> first | exact removeAt_same _ _ _ | exact putEntry_same _ _ _
    · exact .refl _ _

theorem decay_same (s : State) : SameBut [.tally] s (decay s) := foldl_same decayAt decayAt_same positions s

theorem rethresholdAt_same (p : Fin 32) (s : State) : SameBut [.tally, .arrivals] s (rethresholdAt p s) := by
  unfold rethresholdAt
  split
  · exact .refl _ _
  · split <;> first | exact promote_same _ _ _ _ | exact .refl _ _

theorem rethreshold_same (s : State) : SameBut [.tally, .arrivals] s (rethreshold s) :=
  foldl_same rethresholdAt rethresholdAt_same positions s

theorem trimAt_same (keep : Location → Bool) (p : Fin 32) (s : State) : SameBut [.tally] s (trimAt keep p s) := by
  unfold trimAt
  split
  · exact .refl _ _
  · split
    · exact (putEntry_same s _ _).trans (dequeue_same _ _)
    · exact .refl _ _

theorem trimQueue_same (keep : Location → Bool) (s : State) : SameBut [.tally] s (trimQueue keep s) :=
  foldl_same (trimAt keep) (trimAt_same keep) positions s

theorem appendAt_same (p : Fin 32) (s : State) : SameBut [.tally] s (appendAt p s) := by
  unfold appendAt
  split
  · exact .refl _ _
  · split
    · exact (putEntry_same s _ _).trans (enqueue_same _ _)
    · exact .refl _ _

theorem fillQueue_same (s : State) : SameBut [.tally] s (fillQueue s) := foldl_same appendAt appendAt_same positions s

theorem putQueue_same (q : List RowAddr) (s : State) :
    SameBut [.tally] s { s with tally := { s.tally with queue := q } } :=
  .of fun b => by cases b <;> first | exact .inr rfl | exact .inl (by decide)

theorem emptyQueue_same (s : State) : SameBut [.tally] s (emptyQueue s) := by
  unfold emptyQueue
  dsimp only
  exact .trans (trimQueue_same (fun _ => false) s) (putQueue_same [] (trimQueue (fun _ => false) s))

theorem applyMode_same (old : RepairMode) (s : State) : SameBut [.tally] s (applyMode old s) := by
  unfold applyMode
  split
  · exact emptyQueue_same s
  · exact trimQueue_same _ s
  · exact fillQueue_same s
  · exact fillQueue_same s

/-! ### The operation tracker -/

theorem grant_same (t : TagNum) (o : TagOwner) (op : Op) (s : State) :
    SameBut [.tracker, .link] s (grant t o op s) := (putTag_same s _ _).comp (send_same _ _)

theorem reissue_same (t : TagNum) (h : HeldOp) (s : State) : SameBut [.tracker, .link] s (reissue t h s) :=
  .trans (putTag_same s _ _).up (.trans (send_same _ _).up (countRetry_same _).up)

theorem quarantine_same (t : TagNum) (h : HeldOp) (s : State) : SameBut [.tracker] s (quarantine t h s) :=
  putTag_same _ _ _

theorem abandon_same (t : TagNum) (s : State) : SameBut [.tracker] s (abandon t s) := by
  unfold abandon; split <;> first | exact quarantine_same _ _ _ | exact .refl _ _

theorem drainFor_same (op : Op) (s : State) : SameBut [.slots] s (drainFor op s) := by
  unfold drainFor; split <;> first | exact drainRelease_same _ _ | exact .refl _ _

theorem release_same (t : TagNum) (h : HeldOp) (s : State) : SameBut [.tracker, .slots] s (release t h s) :=
  (putTag_same s _ _).comp (drainFor_same _ _)

theorem linkDownTag_same (t : TagNum) (s : State) : SameBut [.tracker, .slots] s (linkDownTag t s) := by
  unfold linkDownTag
  split
  · exact .refl _ _
  · exact (putTag_same s _ _).mono (by decide)
  · exact release_same _ _ _

theorem linkDownTags_same (s : State) : SameBut [.tracker, .slots] s (linkDownTags s) :=
  foldl_same linkDownTag linkDownTag_same tagNumbers s

theorem abandonAll_same (s : State) : SameBut [.tracker] s (abandonAll s) := foldl_same abandon abandon_same tagNumbers s

/-! ### Completing a job -/

theorem writeResult_same (i : DescId) (r : Result) (s : State) : SameBut [.engine] s (writeResult i r s) :=
  putDesc_same _ _ _

theorem completeUrgent_same (r : Result) (s : State) : SameBut [.engine, .port] s (completeUrgent r s) :=
  ((writeResult_same _ r s).trans (stepUrgent_same _)).comp (raiseJobDone_same _)

theorem completeRoutine_same (r : Result) (s : State) : SameBut [.engine, .port] s (completeRoutine r s) :=
  ((writeResult_same _ r s).trans (stepRoutine_same _)).comp (raiseJobDone_same _)

theorem completeSelfRepair_same (row : RowAddr) (k : JobKind) (r : Result) (s : State) :
    SameBut [.tally, .arrivals] s (completeSelfRepair row k r s) :=
  (produce_same _ _ s).comp (markAttempted_same _ _)

theorem deliverResult_same (j : Job) (r : Result) (s : State) :
    SameBut [.engine, .port, .tally, .arrivals] s (deliverResult j r s) := by
  unfold deliverResult
  split
  · exact (completeUrgent_same _ _).mono (by decide)
  · exact (completeRoutine_same _ _).mono (by decide)
  · exact (completeSelfRepair_same _ _ _ _).mono (by decide)

theorem completeInFlight_same (r : Result) (s : State) :
    SameBut [.engine, .port, .tally, .arrivals] s (completeInFlight r s) := by
  unfold completeInFlight
  split
  · exact (deliverResult_same _ _ _).comp (leaveBusy_same _)
  · exact .refl _ _

/-! ### The migration engine -/

theorem grantMigration_same (t : TagNum) (c : Context) (s : State) :
    SameBut [.tracker, .link, .migration] s (grantMigration t c s) :=
  (grant_same _ _ _ s).comp (putContext_same _ _)

theorem switchPoison_same (c : Context) (s : State) : SameBut [.query, .arrivals] s (switchPoison c s) := by
  unfold switchPoison
  split
  · split
    · exact .refl _ _
    · split
      · exact (addPoison_same _ _ _).mono (by decide)
      · exact (produce_same _ _ _).mono (by decide)
  · exact .refl _ _

theorem switch_same (c : Context) (s : State) :
    SameBut [.slots, .query, .tally, .arrivals, .migration, .engine, .port] s (switch c s) :=
  ((((switchSlots_same c s).comp (switchPoison_same _ _) (n := [.slots, .query, .arrivals])).comp
    (forgetRow_same _ _) (n := [.slots, .query, .arrivals, .tally])).comp (putContext_same _ _)
    (n := [.slots, .query, .arrivals, .tally, .migration])).comp (completeInFlight_same _ _)

theorem abandonCopy_same (c : Context) (s : State) : SameBut [.tracker] s (abandonCopy c s) := by
  unfold abandonCopy; split <;> first | exact abandon_same _ _ | exact .refl _ _

theorem abortContext_same (st : Status) (c : Context) (s : State) :
    SameBut [.tracker, .slots, .migration, .engine, .port, .tally, .arrivals] s (abortContext st c s) :=
  (((abandonCopy_same c s).comp (releaseTarget_same _ _) (n := [.tracker, .slots])).comp (putContext_same _ _)
    (n := [.tracker, .slots, .migration])).comp (completeInFlight_same _ _)

theorem abortMigration_same (st : Status) (s : State) :
    SameBut [.tracker, .slots, .migration, .engine, .port, .tally, .arrivals] s (abortMigration st s) := by
  unfold abortMigration; split <;> first | exact abortContext_same _ _ _ | exact .refl _ _

theorem passCarried_same (b : Bool) (c : Context) (s : State) :
    SameBut [.slots, .query, .tally, .arrivals, .migration, .engine, .port] s (passCarried b c s) := by
  unfold passCarried
  dsimp only
  split
  · exact switch_same _ _
  · split
    · split <;> exact (putContext_same _ _).mono (by decide)
    · exact switch_same _ _

theorem passCompleted_same (r : BitVec 4) (c : Context) (s : State) :
    SameBut [.tracker, .slots, .query, .tally, .arrivals, .migration, .engine, .port] s (passCompleted r c s) := by
  unfold passCompleted
  split
  · exact (passCarried_same _ _ _).mono (by decide)
  · exact (passCarried_same _ _ _).mono (by decide)
  · exact (abortContext_same _ _ _).mono (by decide)

theorem dirtyClaim_same (s : State) : SameBut [.migration] s (dirtyClaim s) := by
  unfold dirtyClaim; split <;> exact putContext_same _ _

/-! ### The fuse store -/

theorem loadCondemn_same (r : FuseBytes) (i : Fin 96) (s : State) :
    SameBut [.slots, .fuse] s (loadCondemn r i s) := by
  unfold loadCondemn
  split
  · exact (installCondemn_same _ _ _).comp (putCounts_same _ _)
  · exact (putCounts_same _ _).mono (by decide)

theorem loadMap_same (r : FuseBytes) (i : Fin 96) (s : State) : SameBut [.slots, .fuse] s (loadMap r i s) := by
  unfold loadMap
  split
  · split
    · exact ((installSupersede_same _ _ _).trans (installMap_same _ _ _ _)).comp (putCounts_same _ _)
    · exact (installMap_same _ _ _ _).comp (putCounts_same _ _)
  · exact (putCounts_same _ _).mono (by decide)

theorem loadRecord_same (i : Fin 96) (s : State) : SameBut [.slots, .fuse] s (loadRecord i s) := by
  unfold loadRecord
  dsimp only
  split
  · exact (putCounts_same _ _).mono (by decide)
  · split
    · exact (putCounts_same _ _).mono (by decide)
    · split
      · exact (raiseSequence_same _ s).comp (loadCondemn_same _ _ _)
      · exact (raiseSequence_same _ s).comp (loadMap_same _ _ _)

theorem claim_same (q : FuseRequest) (s : State) : SameBut [.slots] s (q.claim s) := by
  unfold FuseRequest.claim; split <;> first | exact beginCommit_same _ _ | exact .refl _ _

theorem putFuse_same (f : FuseStore) (s : State) : SameBut [.fuse] s { s with fuse := f } :=
  .of fun b => by cases b <;> first | exact .inr rfl | exact .inl (by decide)

theorem acceptRequest_same (q : FuseRequest) (s : State) : SameBut [.slots, .fuse] s (acceptRequest q s) :=
  ((putRecord_same s _ _).trans (putFuse_same _ _)).comp (claim_same _ _)

/-! ### Taking a job -/

/-- The state a take leaves. -/
def TakeOutcome.state : TakeOutcome → State
  | .done _ t => t
  | .started t => t

theorem requestProgramming_same (q : FuseRequest) (s : State) :
    SameBut [.slots, .fuse] s (requestProgramming q s).state := by
  unfold requestProgramming; split <;> first | exact .refl _ _ | exact acceptRequest_same _ _

theorem startMigration_same (d : Direction) (j : JobFields) (l : Location) (s : State) :
    SameBut [.slots, .migration] s (startMigration d j l s).state := by
  unfold startMigration
  split
  · exact .refl _ _
  · exact (reserve_same _ _ _).comp (putContext_same _ _)

theorem takeSpare_same (j : JobFields) (s : State) : SameBut [.slots, .migration] s (takeSpare j s).state := by
  unfold takeSpare
  split
  · exact .refl _ _
  · split
    · exact .refl _ _
    · exact startMigration_same _ _ _ _

theorem takeRespare_same (j : JobFields) (s : State) : SameBut [.slots, .migration] s (takeRespare j s).state := by
  unfold takeRespare
  split
  · exact .refl _ _
  · split
    · exact .refl _ _
    · split
      · exact .refl _ _
      · exact startMigration_same _ _ _ _

theorem takeUnspare_same (j : JobFields) (s : State) : SameBut [.migration] s (takeUnspare j s).state := by
  unfold takeUnspare
  split
  · exact .refl _ _
  · split
    · exact .refl _ _
    · split
      · exact .refl _ _
      · exact .refl _ _
      · split
        · exact .refl _ _
        · exact putContext_same _ _

theorem takePromote_same (j : JobFields) (s : State) : SameBut [.slots, .fuse] s (takePromote j s).state := by
  unfold takePromote
  split
  · exact .refl _ _
  · split <;> first | exact requestProgramming_same _ _ | exact .refl _ _

theorem takeCondemn_same (j : JobFields) (s : State) : SameBut [.slots, .fuse] s (takeCondemn j s).state := by
  unfold takeCondemn
  split
  · exact .refl _ _
  · split
    · split
      · exact (condemn_same _ s).comp (requestProgramming_same _ _)
      · exact (condemn_same _ s).mono (by decide)
    · exact .refl _ _

theorem takePoison_same (j : JobFields) (s : State) : SameBut [.query] s (takePoison j s).state := by
  unfold takePoison
  split
  · exact .refl _ _
  · split
    · exact .refl _ _
    · split <;> first | exact addPoison_same _ _ _ | exact .refl _ _

theorem takeClearPoison_same (j : JobFields) (s : State) : SameBut [.query] s (takeClearPoison j s).state := by
  unfold takeClearPoison; split <;> first | exact removePoison_same _ _ | exact .refl _ _

theorem takeDismiss_same (j : JobFields) (s : State) : SameBut [.tally] s (takeDismiss j s).state := by
  unfold takeDismiss; split <;> first | exact removeAt_same _ _ _ | exact .refl _ _

theorem takeKind_same (j : JobFields) (s : State) :
    SameBut [.slots, .migration, .fuse, .query, .tally] s (takeKind j s).state := by
  unfold takeKind
  split
  · exact (takeSpare_same _ _).mono (by decide)
  · exact (takeRespare_same _ _).mono (by decide)
  · exact (takeUnspare_same _ _).mono (by decide)
  · exact (takePromote_same _ _).mono (by decide)
  · exact (takeCondemn_same _ _).mono (by decide)
  · exact (takePoison_same _ _).mono (by decide)
  · exact (takeClearPoison_same _ _).mono (by decide)
  · exact (takeDismiss_same _ _).mono (by decide)
  · exact .refl _ _

theorem putEngine_same (e : JobEngine) (s : State) : SameBut [.engine] s { s with engine := e } :=
  .of fun b => by cases b <;> first | exact .inr rfl | exact .inl (by decide)

/-- The parts that taking jobs can change. -/
def jobBlocks : List Block := [.slots, .migration, .fuse, .query, .tally, .engine, .port, .arrivals]

theorem runJob_same (src : JobSource) (j : JobFields) (s : State) : SameBut jobBlocks s (runJob src j s) := by
  have h := takeKind_same j s
  unfold runJob
  split
  · rename_i e; rw [e] at h
    exact SameBut.comp (n := jobBlocks) h (deliverResult_same _ _ _)
  · rename_i e; rw [e] at h
    exact SameBut.comp (n := jobBlocks) h (putEngine_same _ _)

theorem takeUrgent_same (s : State) : SameBut jobBlocks s (takeUrgent s) := by
  unfold takeUrgent
  dsimp only
  split
  · exact runJob_same _ _ _
  · exact (completeUrgent_same _ _).mono (by decide)

theorem takeRoutine_same (s : State) : SameBut jobBlocks s (takeRoutine s) := by
  unfold takeRoutine
  dsimp only
  split
  · exact runJob_same _ _ _
  · exact (completeRoutine_same _ _).mono (by decide)

theorem takeClaim_same (r : RowAddr) (s : State) : SameBut [.tally] s (takeClaim r s) := by
  unfold takeClaim
  dsimp only
  split
  · exact (putQueue_same _ s).trans (putEntry_same _ _ _)
  · exact putQueue_same _ s

theorem takeSelfRepair_same (r : RowAddr) (s : State) : SameBut jobBlocks s (takeSelfRepair r s) :=
  (takeClaim_same r s).comp (runJob_same _ _ _)

theorem arbiterTake_same (s t : State) (h : arbiterTake s = some t) : SameBut jobBlocks s t := by
  unfold arbiterTake at h
  split at h
  · exact Option.some.inj h ▸ takeUrgent_same s
  · split at h
    · exact Option.some.inj h ▸ takeSelfRepair_same _ s
    · split at h
      · exact Option.some.inj h ▸ takeRoutine_same s
      · exact absurd h (by simp)

theorem runArbiter_same : ∀ (n : Nat) (s : State), SameBut jobBlocks s (runArbiter n s)
  | 0, _ => .refl _ _
  | n + 1, s => by
      unfold runArbiter
      split
      · split
        · rename_i h; exact (arbiterTake_same _ _ h).trans (runArbiter_same n _)
        · exact .refl _ _
      · exact .refl _ _
      · exact .refl _ _
      · exact .refl _ _

theorem settleJobs_same (s : State) : SameBut jobBlocks s (settleJobs s) := runArbiter_same _ _

/-! ### The patrol scrubber and the end of an event -/

theorem putScrub_same (x : Scrubber) (s : State) : SameBut [.scrub] s { s with scrub := x } :=
  .of fun b => by cases b <;> first | exact .inr rfl | exact .inl (by decide)

theorem decideScrub_same (s : State) : SameBut [.scrub] s (decideScrub s) := by
  unfold decideScrub
  split
  · exact .refl _ _
  · split <;> exact putScrub_same _ _

theorem advance_same (s : State) : SameBut [.scrub, .arrivals] s (advance s) := by
  unfold advance
  dsimp only
  split
  · exact ((putPosition_same _ s).trans (putScrub_same _ _)).comp (produce_same _ _ _)
  · exact (putPosition_same _ s).mono (by decide)

theorem opportunity_same (t : TagNum) (s : State) :
    SameBut [.scrub, .arrivals, .tracker, .link] s (opportunity t s) := by
  unfold opportunity
  dsimp only
  split
  · exact (advance_same s).comp (putScrub_same _ _)
  · exact ((grant_same _ _ _ s).comp (advance_same _) (n := [.scrub, .arrivals, .tracker, .link])).comp
      (putScrub_same _ _)

theorem serveMigration_same (s : State) : SameBut [.tracker, .link, .migration] s (serveMigration s) := by
  unfold serveMigration
  split
  · exact .refl _ _
  · split
    · split <;> first | exact grantMigration_same _ _ _ | exact .refl _ _
    · exact .refl _ _

theorem serveScrub_same (s : State) : SameBut [.scrub, .arrivals, .tracker, .link] s (serveScrub s) := by
  unfold serveScrub
  split
  · split <;> first | exact opportunity_same _ _ | exact .refl _ _
  · exact .refl _ _

theorem settleTags_same (s : State) :
    SameBut [.tracker, .link, .migration, .scrub, .arrivals] s (settleTags s) := by
  unfold settleTags
  split
  · exact (serveMigration_same s).comp (serveScrub_same _)
  · exact .refl _ _

theorem settleReports_same (s : State) :
    SameBut [.reports, .port, .arrivals, .freeCount, .scrub] s (settleReports s) := by
  unfold settleReports
  split
  · exact .refl _ _
  · exact (takeArrivals_same s).comp (decideScrub_same _)

/-- The parts that the tag arbiter and the arrivals can change. -/
def opBlocks : List Block := [.tracker, .link, .migration, .scrub, .arrivals, .reports, .port, .freeCount]

theorem settleOps_same (s : State) : SameBut opBlocks s (settleOps s) :=
  (settleTags_same s).comp (settleReports_same _)

/-- The parts that the end of an event can change: all but the pins, the device state, the settings and the queue. -/
def eventBlocks : List Block := [.slots, .migration, .fuse, .query, .tally, .engine, .port, .arrivals, .tracker, .link,
  .scrub, .reports, .freeCount]

theorem settle_same (s : State) : SameBut eventBlocks s (settle s) :=
  (settleJobs_same s).comp (settleOps_same _)

theorem settleFrom_same (b s : State) : SameBut eventBlocks s (settleFrom b s) := by
  unfold settleFrom
  split
  · exact (settleReports_same s).mono (by decide)
  · exact settle_same s

theorem settleFreedFrom_same (b s : State) : SameBut eventBlocks s (settleFreedFrom b s) := by
  unfold settleFreedFrom
  split
  · exact (settleOps_same s).mono (by decide)
  · exact settle_same s

/-! ### Restart -/

theorem restartDesc_same (i : DescId) (s : State) : SameBut [.engine] s (restartDesc i s) := by
  unfold restartDesc; split <;> first | exact writeResult_same _ _ _ | exact .refl _ _

theorem restartDescs_same (s : State) : SameBut [.engine] s (restartDescs s) := foldl_same restartDesc restartDesc_same descIds s

theorem restartScrub_same (s : State) : SameBut [.scrub] s (restartScrub s) := by
  unfold restartScrub
  dsimp only
  split
  · exact (putPosition_same _ s).trans (putScrub_same _ _)
  · exact putPosition_same _ s

theorem raiseIfAny_same (n : Nat) (s : State) : SameBut [.port] s (raiseIfAny n s) := by
  unfold raiseIfAny; split <;> first | exact raiseJobDone_same _ | exact .refl _ _

theorem restartBody_same (src : Option JobSource) (n : Nat) (s : State) :
    SameBut [.engine, .port, .tracker, .scrub, .arrivals] s (restartBody src n s) :=
  ((((((restartDescs_same s).trans (zeroPositions_same _)).comp (raiseIfAny_same n _) (n := [.engine, .port])).comp
    (abandonAll_same _) (n := [.engine, .port, .tracker])).comp (restartScrub_same _)
    (n := [.engine, .port, .tracker, .scrub])).comp (produce_same _ _ _)
    (n := [.engine, .port, .tracker, .scrub, .arrivals])).comp (restartEngine_same _)

theorem runRestart_same (s : State) :
    SameBut [.tracker, .slots, .migration, .engine, .port, .tally, .arrivals, .scrub] s (runRestart s) :=
  (abortMigration_same _ s).comp (restartBody_same _ _ _)

theorem endProgramming_same (r : Result) (s : State) :
    SameBut [.tracker, .slots, .migration, .engine, .port, .tally, .arrivals, .scrub] s (endProgramming r s) := by
  unfold endProgramming
  dsimp only
  split
  · exact (completeInFlight_same _ s).comp (runRestart_same _)
  · exact (completeInFlight_same _ s).mono (by decide)

end Sys2Proof.Machine
end

