-- ==== Sys2Proof/Laws/Events.lean ====
section
/-! SUPPORT. What the parts common to the events do: a command with RESET_N high, the scrubber's decision, the tag arbiter
where nobody waits, and the range check of a row. -/

namespace Sys2Proof.Machine

theorem live_run {f : State → State} {s : State} (h : s.resetLow = false) : live f s = .next (f s) := by
  simp only [live, h, Bool.false_eq_true, if_false]

theorem live_held {f : State → State} {s : State} (h : s.resetLow = true) : live f s = .next s := by
  simp only [live, h, if_true]

/-- An event that leaves the candidate queue as it was is none for the job arbiter (R145). -/
theorem settleFreedFrom_kept {a b : State} (h : b.tally.queue = a.tally.queue) : settleFreedFrom a b = settleOps b :=
  if_pos h

theorem settleFreedFrom_grown {a b : State} (h : b.tally.queue ≠ a.tally.queue) : settleFreedFrom a b = settle b :=
  if_neg h

theorem outOfRange_of_le {s : State} {r : RowAddr} (h : s.config.rows ≤ r.row.toNat) : s.outOfRange r = true :=
  decide_eq_true h

theorem outOfRange_of_lt {s : State} {r : RowAddr} (h : r.row.toNat < s.config.rows) : s.outOfRange r = false :=
  decide_eq_false (Nat.not_le.2 h)

/-- `Fin.ofNat` is exact on an index of the array. -/
theorem ofNat_record (i : Fin 96) : Fin.ofNat 96 i.val = i := Fin.ext (Nat.mod_eq_of_lt i.isLt)

/-- Once decided, the scrubber stands in the state R109 gives it. -/
theorem decideScrub_state (s : State) : (decideScrub s).scrub.state = (decideScrub s).scrubTarget := by
  unfold decideScrub
  split
  · assumption
  · split
    · rename_i h; exact h.symm
    · rfl

theorem decideScrub_of_eq {s : State} (h : s.scrub.state = s.scrubTarget) : decideScrub s = s := by
  unfold decideScrub; rw [if_pos h]

/-- Entering RUNNING starts the timer (R110). -/
theorem decideScrub_start {s : State} (h : s.scrub.state ≠ s.scrubTarget) (t : s.scrubTarget = .running) :
    decideScrub s =
      { s with scrub := { s.scrub with state := .running, timer := .running s.config.interval.toNat } } := by
  unfold decideScrub; rw [if_neg h, if_pos t]; rfl

/-- Any other state that is new stops the timer and withdraws the request (R110). -/
theorem decideScrub_stop {s : State} (h : s.scrub.state ≠ s.scrubTarget) (t : s.scrubTarget ≠ .running) :
    decideScrub s =
      { s with scrub := { s.scrub with state := s.scrubTarget, timer := .stopped, waiting := false } } := by
  unfold decideScrub; rw [if_neg h, if_neg t]

/-- Line 1 of R74 does nothing where the migration engine does not wait, or no tag is FREE. -/
theorem serveMigration_none {s : State} (h : s.waitsForTag = true → s.freeTag = none) : serveMigration s = s := by
  unfold serveMigration
  split
  · rfl
  · rename_i c hc
    split
    · rename_i ht
      rw [h (by simp [State.waitsForTag, hc, ht])]
    · rfl

/-- A grant to the migration engine ends its wait (R73). -/
theorem grantMigration_waits (t : TagNum) (c : Context) (s : State) : (grantMigration t c s).waitsForTag = false := rfl

/-- After line 1 of R74 the migration engine waits only where no tag is FREE. -/
theorem serveMigration_served (s : State) :
    (serveMigration s).waitsForTag = true → (serveMigration s).freeTag = none := by
  unfold serveMigration
  split
  · rename_i e; intro w; simp [State.waitsForTag, e] at w
  · rename_i c e
    split
    · split
      · intro w; rw [grantMigration_waits] at w; cases w
      · intro _; assumption
    · rename_i n; intro w; exact absurd (by simpa [State.waitsForTag, e] using w) n

/-- The scrubber is passed over while the migration engine waits (R74). -/
theorem serveScrub_of_waits {s : State} (h : s.waitsForTag = true) : serveScrub s = s :=
  if_neg fun x => Bool.noConfusion (x.2.1.symm.trans h)

/-- After line 2 of R74 the scrubber waits for no tag that it could be granted. -/
theorem serveScrub_served (s : State) : ScrubServed (serveScrub s) := by
  unfold serveScrub
  split
  · split
    · intro _ w; exact absurd w (by simp [opportunity])
    · intro _ _ _ _; assumption
  · rename_i n; intro _ w e d; exact absurd ⟨w, e, d⟩ n

/-- After the tag arbiter's decisions the scrubber waits for no tag that it could be granted (R74). -/
theorem settleTags_served (s : State) : ScrubServed (settleTags s) := by
  unfold settleTags
  split
  · exact serveScrub_served _
  · rename_i d; intro up; exact absurd up d

/-- After the tag arbiter's decisions the migration engine waits only where no tag is FREE (R74). -/
theorem settleTags_engine {s : State} (up : s.link.up = true) (w : (settleTags s).waitsForTag = true) :
    (settleTags s).freeTag = none := by
  rw [settleTags, if_pos up] at w ⊢
  have e : (serveScrub (serveMigration s)).waitsForTag = (serveMigration s).waitsForTag := by
    simp only [State.waitsForTag, show (serveScrub (serveMigration s)).migration = (serveMigration s).migration from
      serveScrub_same _ .migration (by decide)]
  have v := e.symm.trans w
  rw [serveScrub_of_waits v]
  exact serveMigration_served s v

/-- Where nobody waits that could be granted a tag, the tag arbiter does nothing (R74). -/
theorem settleTags_of_law {s : State} (l : TagsLaw s) (h : ScrubServed s) : settleTags s = s := by
  unfold settleTags
  split
  · rename_i up
    rw [serveMigration_none (l.engine up)]
    unfold serveScrub
    split
    · rename_i x
      rw [h up x.1 x.2.1 x.2.2]
    · rfl
  · rfl

/-- The tag arbiter's law depends on four parts of the state. -/
theorem tagsLaw_of_same {s t : State} (l : TagsLaw s) (h1 : t.link = s.link) (h2 : t.migration = s.migration)
    (h3 : t.tracker = s.tracker) (h4 : t.scrub = s.scrub) : TagsLaw t := by
  have e1 : t.waitsForTag = s.waitsForTag := by simp only [State.waitsForTag, h2]
  have e2 : t.freeTag = s.freeTag := by simp only [State.freeTag, State.tag, h3]
  exact ⟨by rw [h1, e1, e2]; exact l.engine, by rw [h4]; exact l.waiting⟩

theorem scrubServed_of_same {s t : State} (l : ScrubServed s) (h1 : t.link = s.link) (h2 : t.migration = s.migration)
    (h3 : t.tracker = s.tracker) (h4 : t.scrub = s.scrub) (h5 : t.config = s.config) : ScrubServed t := by
  have e1 : t.waitsForTag = s.waitsForTag := by simp only [State.waitsForTag, h2]
  have e2 : t.freeTag = s.freeTag := by simp only [State.freeTag, State.tag, h3]
  have e3 : t.scrubOutstanding = s.scrubOutstanding := by simp only [State.scrubOutstanding, State.tag, h3]
  unfold ScrubServed
  rw [h1, h4, e1, e2, e3, h5]
  exact l

/-- Deciding the scrubber's state keeps what the law says of its request: a scrubber that leaves RUNNING withdraws it, one
that enters RUNNING held none (R110). -/
theorem decideScrub_waiting {s : State} (h : s.scrub.waiting = true → s.scrub.state = .running ∧ s.scrub.timer = .stopped) :
    (decideScrub s).scrub.waiting = true → (decideScrub s).scrub.state = .running ∧ (decideScrub s).scrub.timer = .stopped := by
  unfold decideScrub
  split
  · exact h
  · rename_i e
    split
    · rename_i t
      intro w
      exact absurd ((h w).1.trans t.symm) e
    · intro w; cases w

end Sys2Proof.Machine
end

