-- ==== Sys2Proof/Laws/FuseRecord.lean ====
section
/-! SUPPORT. A fuse record reads as its layout, and the byte-wise check of the model is the bit-wise one of R122. -/

namespace Sys2Proof.Machine

/-! ### The check (R122) -/

theorem crcBit_xor (c b : Byte) : FuseBytes.crcBit (c ^^^ b) = checkStep c b.msb ^^^ (b <<< 1) := by
  unfold FuseBytes.crcBit checkStep
  rw [BitVec.msb_xor, BitVec.shiftLeft_xor_distrib]
  rcases c.msb <;> rcases b.msb <;> simp [BitVec.xor_assoc, BitVec.xor_comm (b <<< 1)]

/-- A byte enters the check as its eight bits, the most significant first. -/
theorem crcByte_steps (c b : Byte) :
    FuseBytes.crcByte c b = ([7, 6, 5, 4, 3, 2, 1, 0].map b.getLsbD).foldl checkStep c := by
  unfold FuseBytes.crcByte
  simp only [crcBit_xor, List.map, List.foldl, BitVec.msb_shiftLeft]
  simp [BitVec.msb_eq_getLsbD_last, BitVec.getMsbD]

/-- The checked bits of byte 0 leave out the progress marks. -/
theorem contentByte0_bits (r : FuseBytes) : [7, 6, 5, 4, 3, 2, 1, 0].map r.contentByte0.getLsbD =
    [7, 6, 5, 4, 3, 2, 1, 0].map fun j => ((0 : Nat) != 0 || decide (j < 6)) && r.getLsbD (8 * 0 + j) := by
  simp [FuseBytes.contentByte0, FuseBytes.byte]

theorem byte_bits (r : FuseBytes) (i : Nat) (h : i ≠ 0) : [7, 6, 5, 4, 3, 2, 1, 0].map (r.byte i).getLsbD =
    [7, 6, 5, 4, 3, 2, 1, 0].map fun j => (i != 0 || decide (j < 6)) && r.getLsbD (8 * i + j) := by
  simp [FuseBytes.byte, h]

theorem crc_checkOf (r : FuseBytes) : r.crc = checkOf r := by
  simp only [FuseBytes.crc, checkOf, checkedBits, crcByte_steps, contentByte0_bits, byte_bits r 1 (by decide),
    byte_bits r 2 (by decide), byte_bits r 3 (by decide), byte_bits r 4 (by decide), byte_bits r 5 (by decide),
    byte_bits r 6 (by decide), List.flatMap_cons, List.flatMap_nil, List.foldl_append, List.foldl_nil]

/-! ### The layout (11.4.4) -/

theorem fuseLayout_started (f : FuseFields) (x : FuseSpare) : FuseBytes.started (fuseLayout f x) = f.started := by
  simp only [FuseBytes.started, fuseLayout, BitVec.getLsbD_append]
  simp

theorem fuseLayout_finished (f : FuseFields) (x : FuseSpare) : FuseBytes.finished (fuseLayout f x) = f.finished := by
  simp only [FuseBytes.finished, fuseLayout, BitVec.getLsbD_append]
  simp

theorem fuseLayout_kind (f : FuseFields) (x : FuseSpare) : FuseBytes.kindCode (fuseLayout f x) = f.kind := by
  apply BitVec.eq_of_getLsbD_eq
  intro i hi
  simp only [FuseBytes.kindCode, fuseLayout, BitVec.getLsbD_extractLsb', BitVec.getLsbD_append]
  interval_cases i <;> simp

theorem fuseLayout_sequence (f : FuseFields) (x : FuseSpare) : FuseBytes.sequence (fuseLayout f x) = f.sequence := by
  apply BitVec.eq_of_getLsbD_eq
  intro i hi
  simp only [FuseBytes.sequence, fuseLayout, BitVec.getLsbD_extractLsb', BitVec.getLsbD_append]
  interval_cases i <;> simp

theorem fuseLayout_slot (f : FuseFields) (x : FuseSpare) : FuseBytes.slot (fuseLayout f x) = f.slot := by
  apply BitVec.eq_of_getLsbD_eq
  intro i hi
  simp only [FuseBytes.slot, fuseLayout, BitVec.getLsbD_extractLsb', BitVec.getLsbD_append]
  interval_cases i <;> simp

theorem fuseLayout_victimBank (f : FuseFields) (x : FuseSpare) : FuseBytes.victimBank (fuseLayout f x) = f.bank := by
  apply BitVec.eq_of_getLsbD_eq
  intro i hi
  simp only [FuseBytes.victimBank, fuseLayout, BitVec.getLsbD_extractLsb', BitVec.getLsbD_append]
  interval_cases i <;> simp

theorem fuseLayout_victimRow (f : FuseFields) (x : FuseSpare) : FuseBytes.victimRow (fuseLayout f x) = f.row := by
  apply BitVec.eq_of_getLsbD_eq
  intro i hi
  simp only [FuseBytes.victimRow, FuseBytes.byte, fuseLayout, BitVec.getLsbD_extractLsb', BitVec.getLsbD_append]
  interval_cases i <;> simp

theorem fuseLayout_check (f : FuseFields) (x : FuseSpare) : FuseBytes.check (fuseLayout f x) = f.check := by
  apply BitVec.eq_of_getLsbD_eq
  intro i hi
  simp only [FuseBytes.check, FuseBytes.byte, fuseLayout, BitVec.getLsbD_extractLsb', BitVec.getLsbD_append]
  interval_cases i <;> simp

theorem fuseLayout_finish (f : FuseFields) (x : FuseSpare) :
    FuseBytes.finish (fuseLayout f x) = fuseLayout { f with finished := true } x := by
  apply BitVec.eq_of_getLsbD_eq
  intro i hi
  simp only [FuseBytes.finish, fuseLayout, BitVec.getLsbD_or, BitVec.getLsbD_append]
  interval_cases i <;> simp

theorem fuseLayout_good (f : FuseFields) (x : FuseSpare) :
    FuseBytes.checkGood (fuseLayout f x) = true ↔ checkOf (fuseLayout f x) = f.check := by
  rw [FuseBytes.checkGood, crc_checkOf, fuseLayout_check, beq_iff_eq]

theorem fuseRecordsShown : FuseRecordsShown where
  started := fuseLayout_started
  finished := fuseLayout_finished
  blank f x := by rw [FuseBytes.blank, fuseLayout_started, fuseLayout_finished]
  kind := fuseLayout_kind
  sequence := fuseLayout_sequence
  slot f x := by rw [FuseBytes.slotNum, fuseLayout_slot]; rfl
  victim f x := by rw [FuseBytes.victim, fuseLayout_victimBank, fuseLayout_victimRow]
  good := fuseLayout_good
  valid f x := by
    simp only [FuseBytes.checkValid, fuseLayout_finished, fuseLayout_kind, fuseLayout_sequence, Bool.and_eq_true,
      Bool.or_eq_true, fuseLayout_good, beq_iff_eq, bne_iff_ne, and_assoc]
  programmed := fuseLayout_finish

/-- The record that programming writes is the layout of its fields with the check of R122, zero elsewhere. -/
theorem program_layout (k : BitVec 2) (seq : BitVec 12) (slot : BitVec 6) (bank : BitVec 2) (row : BitVec 17) :
    FuseBytes.program k seq slot bank row =
      let f : FuseFields := ⟨true, false, k, seq, slot, bank, row, 0⟩
      fuseLayout { f with check := checkOf (fuseLayout f ⟨0, 0, 0, 0⟩) } ⟨0, 0, 0, 0⟩ := by
  have h : ∀ c, FuseBytes.assemble true false k seq slot bank row c =
      fuseLayout ⟨true, false, k, seq, slot, bank, row, c⟩ ⟨0, 0, 0, 0⟩ := by
    intro c
    apply BitVec.eq_of_getLsbD_eq
    intro i hi
    simp only [FuseBytes.assemble, FuseBytes.byte0, fuseLayout, BitVec.getLsbD_append]
    interval_cases i <;> simp
  simp only [FuseBytes.program, h, crc_checkOf]

end Sys2Proof.Machine
end

