-- ==== Sys2Proof/Laws/Layouts.lean ====
section
/-! SUPPORT. The words of registers, view entries, report records and outbound messages have the layouts of spec/11, and
every offset of the window addresses the word its summary gives. -/

namespace Sys2Proof.Machine

/-! ### Bits of a placed field -/

theorem getLsbD_place {n : Nat} (x : BitVec n) (lo i : Nat) :
    (place x lo).getLsbD i = (decide (i < 32) && decide (lo ≤ i) && x.getLsbD (i - lo)) := by
  unfold place
  rw [BitVec.getLsbD_shiftLeft, BitVec.getLsbD_setWidth]
  by_cases h : i < lo
  · simp [h, Nat.not_le.2 h]
  · have := Nat.le_of_not_lt h
    by_cases h2 : i < 32
    · have h3 : i - lo < 32 := by omega
      simp [h, this, h2, h3]
    · simp [h2]

/-- Two words are equal that agree at each of the 32 bits. -/
theorem word_ext {x y : Word} (h : ∀ i, i < 32 → x.getLsbD i = y.getLsbD i) : x = y :=
  BitVec.eq_of_getLsbD_eq h

/-- A row word read from its layout: bits 31:23 are ignored (11.4.1). -/
theorem ofWord_layout (x : BitVec 9) (c g b : BitVec 2) (r : BitVec 17) :
    RowAddr.ofWord (x ++ c ++ g ++ b ++ r) = ⟨c, g, b, r⟩ := by
  simp only [RowAddr.ofWord, RowAddr.mk.injEq]
  refine ⟨?_, ?_, ?_, ?_⟩ <;> (apply BitVec.eq_of_getLsbD_eq; intro i hi) <;>
    simp only [field, BitVec.getLsbD_extractLsb', BitVec.getLsbD_append] <;> interval_cases i <;> simp

theorem rowLayout_false (r : RowAddr) : r.toWord = rowLayout false r := by
  apply word_ext; intro i hi
  simp only [RowAddr.toWord, rowLayout, BitVec.getLsbD_or, getLsbD_place, BitVec.getLsbD_append]
  interval_cases i <;> simp

theorem rowLayout_true (r : RowAddr) : r.presentWord = rowLayout true r := by
  apply word_ext; intro i hi
  simp only [RowAddr.presentWord, RowAddr.toWord, mark, rowLayout, BitVec.getLsbD_or, getLsbD_place,
    BitVec.getLsbD_append]
  interval_cases i <;> simp

/-! ### Registers -/

theorem half_layout (x : BitVec 16) : place x 0 = 0#16 ++ x := by
  apply word_ext; intro i hi
  simp only [getLsbD_place, BitVec.getLsbD_append]
  interval_cases i <;> simp

theorem ctrl_layout (c : Settings) : c.ctrlWord = 0#25 ++ BitVec.ofBool c.poisonOnBad ++
    (match c.mode with
      | .off => 0#2
      | .spareOnly => 1#2
      | .spareAndRespare => 2#2) ++
    0#1 ++ BitVec.ofBool c.fuseEnable ++ BitVec.ofBool c.scrubEnable ++ BitVec.ofBool c.engineEnable := by
  have word (e k f p : BitVec 1) (m : BitVec 2) :
      place e 0 ||| place k 1 ||| place f 2 ||| place m 4 ||| place p 6 =
        0#25 ++ p ++ m ++ 0#1 ++ f ++ k ++ e := by
    apply word_ext; intro i hi
    simp only [BitVec.getLsbD_or, getLsbD_place, BitVec.getLsbD_append]
    interval_cases i <;> simp
  have mode : BitVec.ofNat 2 c.mode.code = match c.mode with
      | .off => 0#2
      | .spareOnly => 1#2
      | .spareAndRespare => 2#2 := by cases c.mode <;> rfl
  unfold Settings.ctrlWord number mark
  rw [mode]
  exact word _ _ _ _ _

theorem irq_layout (b : IrqBits) : b.word = b.layout := by
  apply word_ext; intro i hi
  simp only [IrqBits.word, IrqBits.layout, mark, BitVec.getLsbD_or, getLsbD_place, BitVec.getLsbD_append]
  interval_cases i <;> simp

theorem loadCounts_layout (c : LoadCounts) : c.word1 = c.layout := by
  apply word_ext; intro i hi
  simp only [LoadCounts.word1, LoadCounts.layout, number, BitVec.getLsbD_or, getLsbD_place, BitVec.getLsbD_append]
  interval_cases i <;> simp

theorem loadCounts_layout2 (c : LoadCounts) :
    c.word2 = 0#17 ++ BitVec.ofNat 7 c.conflict ++ 0#1 ++ BitVec.ofNat 7 c.corrupt := by
  apply word_ext; intro i hi
  simp only [LoadCounts.word2, number, BitVec.getLsbD_or, getLsbD_place, BitVec.getLsbD_append]
  interval_cases i <;> simp

theorem fuseLoad_layout5 (c : LoadCounts) (n : Nat) : c.word2 ||| number 7 16 n =
    0#9 ++ BitVec.ofNat 7 n ++ 0#1 ++ BitVec.ofNat 7 c.conflict ++ 0#1 ++ BitVec.ofNat 7 c.corrupt := by
  apply word_ext; intro i hi
  simp only [LoadCounts.word2, number, BitVec.getLsbD_or, getLsbD_place, BitVec.getLsbD_append]
  interval_cases i <;> simp

theorem tag_layout (x : Tag) : BitVec.ofNat 4 x.nibble = x.layout := by
  have f : ∀ n : Fin 2, n = 0 ∨ n = 1 := by decide
  cases x with
  | free => rfl
  | outstanding h => rcases f h.attempt with a | a <;> cases o : h.owner <;> simp [Tag.nibble, Tag.layout, a, o]
  | quarantined h => rcases f h.attempt with a | a <;> cases o : h.owner <;> simp [Tag.nibble, Tag.layout, a, o]

theorem state2_layout (s : State) : s.state2 =
    0#8 ++ (s.tag 3).layout ++ (s.tag 2).layout ++ (s.tag 1).layout ++ (s.tag 0).layout ++ 0#7 ++
      BitVec.ofBool s.link.up := by
  apply word_ext; intro i hi
  simp only [State.state2, number, mark, tag_layout, BitVec.getLsbD_or, getLsbD_place, BitVec.getLsbD_append]
  interval_cases i <;> simp

theorem state1_layout (s : State) : s.state1 = s.state1Layout := by
  have word (x : BitVec 3) (g : BitVec 2) (g? : BitVec 1) (p : BitVec 4) (f : BitVec 1) (d : BitVec 2) :
      (place 1#1 0 ||| place d 1 ||| place f 3 ||| place p 4 ||| (place g? 8 ||| place g 9)) ||| place x 16 =
        0#13 ++ x ++ 0#5 ++ (g ++ g? ++ p ++ f ++ d ++ 1#1) := by
    apply word_ext; intro i hi
    simp only [BitVec.getLsbD_or, getLsbD_place, BitVec.getLsbD_append]
    interval_cases i <;> simp
  have none_word (x : BitVec 3) : (0 : Word) ||| place x 16 = 0#13 ++ x ++ 0#5 ++ 0#11 := by
    apply word_ext; intro i hi
    simp only [BitVec.getLsbD_or, getLsbD_place, BitVec.getLsbD_append]
    interval_cases i <;> simp
  have zero : (0 : Word) = place 0#1 8 ||| place 0#2 9 := by decide
  have scrubber : BitVec.ofNat 3 s.scrub.state.code = match s.scrub.state with
      | .off => 0
      | .running => 1
      | .pausedLink => 2
      | .pausedReports => 3 := by cases s.scrub.state <;> rfl
  unfold State.state1 State.state1Layout number mark
  rw [scrubber]
  cases s.migration with
  | none => exact none_word _
  | some c =>
    have direction : BitVec.ofNat 2 c.direction.code = match c.direction with
        | .forward => 1
        | .respare => 2
        | .revert => 3 := by cases c.direction <;> rfl
    dsimp only [Option.elim]
    rw [direction]
    cases c.copyTag with
    | none => rw [zero]; exact word _ 0 0 _ _ _
    | some t => exact word _ _ 1 _ _ _

theorem state0_layout (s : State) : s.state0 = s.state0Layout := by
  have word (d : BitVec 1) (e c : BitVec 2) (k : BitVec 4) (f : BitVec 2) (r : BitVec 7) (r? : BitVec 1) :
      place d 0 ||| place e 2 ||| (place c 4 ||| place k 8) ||| place f 12 ||| (place r 16 ||| place r? 23) =
        0#8 ++ (r? ++ r) ++ 0#2 ++ f ++ k ++ 0#2 ++ c ++ e ++ 0#1 ++ d := by
    apply word_ext; intro i hi
    simp only [BitVec.getLsbD_or, getLsbD_place, BitVec.getLsbD_append]
    interval_cases i <;> simp
  have engine : BitVec.ofNat 2 s.engine.state.code = match s.engine.state with
      | .stopped => 0
      | .idle => 1
      | .busy _ => 2
      | .restartPending _ => 3 := by cases s.engine.state <;> rfl
  have fuse : BitVec.ofNat 2 s.fuse.state.code = match s.fuse.state with
      | .loading _ => 0
      | .idle => 1
      | .programming _ _ _ => 2 := by cases s.fuse.state <;> rfl
  have source (j : Job) : BitVec.ofNat 2 (JobSource.code (some j.source)) = match j.source with
      | .urgent => 1
      | .routine => 2
      | .selfRepair => 3 := by cases j.source <;> rfl
  have noJob (d : BitVec 1) (e f : BitVec 2) (r : BitVec 7) (r? : BitVec 1) :
      place d 0 ||| place e 2 ||| 0 ||| place f 12 ||| (place r 16 ||| place r? 23) =
        0#8 ++ (r? ++ r) ++ 0#2 ++ f ++ 0#4 ++ 0#2 ++ 0#2 ++ e ++ 0#1 ++ d := by
    rw [← word]; rfl
  have noRecord (d : BitVec 1) (e c : BitVec 2) (k : BitVec 4) (f : BitVec 2) :
      place d 0 ||| place e 2 ||| (place c 4 ||| place k 8) ||| place f 12 ||| 0 =
        0#8 ++ 0#8 ++ 0#2 ++ f ++ k ++ 0#2 ++ c ++ e ++ 0#1 ++ d := by
    exact word _ _ _ _ _ 0 0
  have neither (d : BitVec 1) (e f : BitVec 2) : place d 0 ||| place e 2 ||| (0 : Word) ||| place f 12 ||| 0 =
        0#8 ++ 0#8 ++ 0#2 ++ f ++ 0#4 ++ 0#2 ++ 0#2 ++ e ++ 0#1 ++ d := by
    exact word _ _ 0 0 _ 0 0
  unfold State.state0 State.state0Layout number mark
  rw [engine, fuse]
  cases s.jobInFlight <;> cases s.fuse.state <;> dsimp only [Option.elim]
  all_goals (first | rw [source] | skip)
  · exact neither _ _ _
  · exact neither _ _ _
  · exact noJob _ _ _ _ 1
  · exact noRecord _ _ _ _ _
  · exact noRecord _ _ _ _ _
  · exact word _ _ _ _ _ _ 1

/-- Every register reads as its layout (spec/11, 11.3). -/
theorem registersShown (s : State) : s.RegistersShown where
  id := rfl
  ctrl := ctrl_layout _
  cmd := rfl
  irqf := irq_layout _
  irqm := irq_layout _
  geom := by
    apply word_ext; intro i hi
    simp only [State.regValue, Settings.geomWord, getLsbD_place, BitVec.getLsbD_append]
    interval_cases i <;> simp
  tallycfg := by
    apply word_ext; intro i hi
    simp only [State.regValue, Settings.tallyWord, BitVec.getLsbD_or, getLsbD_place, BitVec.getLsbD_append]
    interval_cases i <;> simp
  scrubcfg := by
    apply word_ext; intro i hi
    simp only [State.regValue, Settings.scrubWord, BitVec.getLsbD_or, getLsbD_place, BitVec.getLsbD_append]
    interval_cases i <;> simp
  linkcfg := by
    apply word_ext; intro i hi
    simp only [State.regValue, Settings.linkWord, BitVec.getLsbD_or, getLsbD_place, BitVec.getLsbD_append]
    interval_cases i <;> simp
  state0 := state0_layout s
  state1 := state1_layout s
  state2 := state2_layout s
  urgpos := by
    apply word_ext; intro i hi
    simp only [State.regValue, number, getLsbD_place, BitVec.getLsbD_append]
    interval_cases i <;> simp
  routpos := by
    apply word_ext; intro i hi
    simp only [State.regValue, number, getLsbD_place, BitVec.getLsbD_append]
    interval_cases i <;> simp
  rptpos := by
    apply word_ext; intro i hi
    simp only [State.regValue, number, BitVec.getLsbD_or, getLsbD_place, BitVec.getLsbD_append]
    interval_cases i <;> simp
  fusepos0 := by
    apply word_ext; intro i hi
    simp only [State.regValue, number, BitVec.getLsbD_or, getLsbD_place, BitVec.getLsbD_append]
    interval_cases i <;> simp
  fusepos1 := loadCounts_layout _
  fusepos2 := loadCounts_layout2 _
  epoch := rfl
  scrubpos0 := rowLayout_false _
  scrubpos1 := half_layout _
  staleDone := half_layout _
  staleNote := half_layout _
  range := half_layout _
  refused := half_layout _
  retry := half_layout _
  wait := half_layout _

/-! ### View entries -/

theorem slotEntry_layout (r : SlotRec) (k : SlotNum) :
    r.viewEntry k = slotEntryLayout k (BitVec.ofNat 3 r.code) r.victim r.former r.recordIndex := by
  have word (c : BitVec 3) (f g i? : BitVec 1) (i : BitVec 7) :
      place c 0 ||| place g 4 ||| place f 5 ||| (place i 8 ||| place i? 15) =
        0#16 ++ (i? ++ i) ++ 0#2 ++ f ++ g ++ 0#1 ++ c := by
    apply word_ext; intro i hi
    simp only [BitVec.getLsbD_or, getLsbD_place, BitVec.getLsbD_append]
    interval_cases i <;> simp
  have noIndex : (0 : Word) = place 0#7 8 ||| place 0#1 15 := by decide
  have pool : k.val / 16 = k.val / 4 / 4 := by omega
  have fused : r.fused = r.recordIndex.isSome := by
    cases r with
    | retired _ i => cases i <;> rfl
    | _ => rfl
  unfold SlotRec.viewEntry slotEntryLayout number mark
  rw [fused]
  refine congrArg₂ (fun (x y : Word) => x ++ y) ?_ ?_
  · cases r.recordIndex with
    | none => rw [noIndex]; exact word _ _ _ 0 0
    | some i => exact word _ _ _ 1 _
  · cases r.victim with
    | none => rfl
    | some v => exact (rowLayout_true _).trans (by rw [Victim.rowAt, pool]; rfl)

theorem tallyEntry_layout (e : TallyEntry) : e.viewEntry = tallyEntryLayout e := by
  have word (c : BitVec 4) (u t a q l : BitVec 1) (k : BitVec 6) (n : BitVec 16) :
      place c 0 ||| place u 4 ||| place t 5 ||| place a 6 ||| place q 7 ||| (place k 8 ||| place l 14) |||
        place n 16 = n ++ 0#1 ++ l ++ k ++ q ++ a ++ t ++ u ++ c := by
    apply word_ext; intro i hi
    simp only [BitVec.getLsbD_or, getLsbD_place, BitVec.getLsbD_append]
    interval_cases i <;> simp
  have noSlot : (0 : Word) = place 0#6 8 ||| place 0#1 14 := by decide
  have state : e.state.toBool = decide (e.state = .candidate) := by cases e.state <;> rfl
  unfold TallyEntry.viewEntry tallyEntryLayout number mark
  rw [state]
  refine congrArg₂ (fun (x y : Word) => x ++ y) ?_ (rowLayout_true _)
  cases e.loc with
  | row => dsimp only; rw [noSlot]; exact word _ _ _ _ _ 0 0 _
  | slot k => exact word _ _ _ _ _ 1 _ _

theorem poisonEntry_layout (e : PoisonEntry) : e.viewEntry = poisonEntryLayout e := by
  have word (h : BitVec 8) (o r : BitVec 1) : place h 0 ||| place o 8 ||| place r 9 = 0#22 ++ r ++ o ++ h := by
    apply word_ext; intro i hi
    simp only [BitVec.getLsbD_or, getLsbD_place, BitVec.getLsbD_append]
    interval_cases i <;> simp
  have origin : e.origin.toBool = decide (e.origin = .copy) := by cases e.origin <;> rfl
  unfold PoisonEntry.viewEntry poisonEntryLayout number mark
  rw [origin]
  exact congrArg₂ (fun (x y : Word) => x ++ y) (word _ _ _) (rowLayout_true _)

/-- Every view entry and every word of the rings reads as its layout (spec/11, 11.4.5). -/
theorem viewsShown (s : State) : s.ViewsShown where
  slots k := by
    refine (slotEntry_layout (s.slot k) k).trans ?_
    cases s.slot k with
    | retired v i => cases v <;> rfl
    | _ => rfl
  tally p := by
    unfold State.tallyEntry
    cases s.entry p with
    | none => rfl
    | some e => exact tallyEntry_layout e
  poison n := by
    unfold State.poisonViewEntry
    cases s.query.poison[n.val]? with
    | none => rfl
    | some e => exact poisonEntry_layout e
  queue n := by
    unfold State.queueEntry
    cases s.tally.queue[n.val]? with
    | none => rfl
    | some r => exact rowLayout_true r
  descriptor _ := ⟨rfl, rfl, rfl, rfl⟩
  report _ := ⟨rfl, rfl, rfl, rfl, rfl, rfl, rfl, rfl⟩

/-! ### Report records and outbound messages -/

theorem byte_layout (x : BitVec 1) : place x 0 = 0#31 ++ x := by
  apply word_ext; intro i hi
  simp only [getLsbD_place, BitVec.getLsbD_append]
  interval_cases i <;> simp

theorem whole_layout (x : BitVec 32) : place x 0 = x := by
  apply word_ext; intro i hi
  simp only [getLsbD_place]
  simp [hi]

theorem slotWords_layout (b : ReportBody) (e : BitVec 32) (n : BitVec 16) : HeldReport.slotWords ⟨⟨b, e⟩, n⟩ =
    recordLayout n e (BitVec.ofNat 4 b.kindCode) b.row b.slot b.detail4 b.detail5 := by
  have word (k : BitVec 4) (r s : BitVec 1) : place k 4 ||| place r 8 ||| place s 9 ||| place n 16 =
      n ++ 0#6 ++ s ++ r ++ k ++ 0#4 := by
    apply word_ext; intro i hi
    simp only [BitVec.getLsbD_or, getLsbD_place, BitVec.getLsbD_append]
    interval_cases i <;> simp
  have slot (k : BitVec 6) : place k 0 = 0#26 ++ k := by
    apply word_ext; intro i hi
    simp only [getLsbD_place, BitVec.getLsbD_append]
    interval_cases i <;> simp
  unfold HeldReport.slotWords recordLayout number mark
  rw [ReportSlot.mk.injEq]
  refine ⟨word _ _ _, ?_, rfl, ?_, rfl, rfl⟩
  · dsimp only
    cases b.row with
    | none => rfl
    | some r => exact rowLayout_false r
  · dsimp only
    cases b.slot with
    | none => rfl
    | some k => exact slot _

/-- Every report stands in its slot in the layout of its kind (spec/11, 11.4.3). -/
theorem reportsShown : ReportsShown := by
  have candidate (c : BitVec 4) (u : BitVec 1) (o x : BitVec 2) :
      place c 0 ||| place u 4 ||| place o 8 ||| place x 12 = 0#18 ++ x ++ 0#2 ++ o ++ 0#3 ++ u ++ c := by
    apply word_ext; intro i hi
    simp only [BitVec.getLsbD_or, getLsbD_place, BitVec.getLsbD_append]
    interval_cases i <;> simp
  have uncorrectable (a b : BitVec 1) : place a 0 ||| place b 1 = 0#30 ++ b ++ a := by
    apply word_ext; intro i hi
    simp only [BitVec.getLsbD_or, getLsbD_place, BitVec.getLsbD_append]
    interval_cases i <;> simp
  have autoRepair (k : BitVec 4) (st : BitVec 8) (p : BitVec 4) :
      place k 0 ||| place st 8 ||| place p 16 = 0#12 ++ p ++ st ++ 0#4 ++ k := by
    apply word_ext; intro i hi
    simp only [BitVec.getLsbD_or, getLsbD_place, BitVec.getLsbD_append]
    interval_cases i <;> simp
  have restartDone (n : BitVec 6) (x : BitVec 2) : place n 0 ||| place x 8 = 0#22 ++ x ++ 0#2 ++ n := by
    apply word_ext; intro i hi
    simp only [BitVec.getLsbD_or, getLsbD_place, BitVec.getLsbD_append]
    interval_cases i <;> simp
  intro b e n
  rw [slotWords_layout]
  cases b with
  | candidate r l count unc o x =>
    refine congrArg (recordLayout n e 1 (some r) l.slot? · 0) ?_
    cases o <;> cases x <;> exact candidate _ _ _ _
  | uncorrectable r l src u =>
    refine congrArg (recordLayout n e 2 (some r) l.slot? · 0) ?_
    cases src <;> exact uncorrectable _ _
  | tallyFull r l c => exact congrArg (recordLayout n e 3 (some r) l.slot? · 0) (whole_layout _)
  | poisonHit r o =>
    refine congrArg (recordLayout n e 4 (some r) none · 0) ?_
    cases o <;> exact byte_layout _
  | poisonFull r k c => exact congrArg (recordLayout n e 5 (some r) k · 0) (whole_layout _)
  | autoRepair r k kind st p => exact congrArg (recordLayout n e 6 (some r) k · 0) (autoRepair _ _ _)
  | scrubPass c => exact congrArg (recordLayout n e 7 none none · 0) (half_layout _)
  | linkChange up => exact congrArg (recordLayout n e 8 none none · 0) (byte_layout _)
  | fuseLoad c p =>
    exact congrArg₂ (recordLayout n e 9 none none · ·) (loadCounts_layout _) (fuseLoad_layout5 _ _)
  | overrun c => exact congrArg (recordLayout n e 10 none none · 0) (half_layout _)
  | restartDone c src =>
    refine congrArg (recordLayout n e 11 none none · 0) ?_
    cases src with
    | none => exact restartDone _ _
    | some x => cases x <;> exact restartDone _ _

theorem answer_layout (id : BitVec 8) (v : Verdict) : OutMsg.words (.answer id v) =
    [match v with
      | .pass => 0#14 ++ 0#2 ++ id ++ 0#4 ++ 8#4
      | .spare k => 0#2 ++ BitVec.ofNat 6 k.val ++ 0#6 ++ 1#2 ++ id ++ 0#4 ++ 8#4
      | .wait => 0#14 ++ 2#2 ++ id ++ 0#4 ++ 8#4
      | .poison => 0#14 ++ 3#2 ++ id ++ 0#4 ++ 8#4] := by
  have plain (c : BitVec 2) : place 8#4 0 ||| place id 8 ||| place c 16 ||| 0 = 0#14 ++ c ++ id ++ 0#4 ++ 8#4 := by
    apply word_ext; intro i hi
    simp only [BitVec.getLsbD_or, getLsbD_place, BitVec.getLsbD_append]
    interval_cases i <;> simp
  have spare (k : BitVec 6) : place 8#4 0 ||| place id 8 ||| place 1#2 16 ||| place k 24 =
      0#2 ++ k ++ 0#6 ++ 1#2 ++ id ++ 0#4 ++ 8#4 := by
    apply word_ext; intro i hi
    simp only [BitVec.getLsbD_or, getLsbD_place, BitVec.getLsbD_append]
    interval_cases i <;> simp
  cases v with
  | spare k => exact congrArg (fun x : Word => [x]) (spare _)
  | _ => exact congrArg (fun x : Word => [x]) (plain _)

theorem slotNumber_layout (l : Location) : BitVec.ofNat 6 l.slotNumber = slotLayout l := by cases l <;> rfl

theorem opReq_layout (t : TagNum) (n : Fin 2) (r : RowAddr) (a b : Location) :
    OutMsg.words (.opReq t n (.verify r a)) =
      [0#10 ++ slotLayout a ++ 0#3 ++ BitVec.ofBool a.toBool ++ 0#1 ++ BitVec.ofNat 1 n.val ++ BitVec.ofNat 2 t.val ++
        0#4 ++ 9#4, rowLayout false r] ∧
    OutMsg.words (.opReq t n (.copy r a b)) =
      [0#2 ++ slotLayout b ++ 0#1 ++ BitVec.ofBool b.toBool ++ slotLayout a ++ 0#3 ++ BitVec.ofBool a.toBool ++ 1#1 ++
        BitVec.ofNat 1 n.val ++ BitVec.ofNat 2 t.val ++ 0#4 ++ 9#4, rowLayout false r] := by
  have verify (t : BitVec 2) (n a : BitVec 1) (s : BitVec 6) :
      place 9#4 0 ||| place t 8 ||| place n 10 ||| place a 12 ||| place s 16 =
        0#10 ++ s ++ 0#3 ++ a ++ 0#1 ++ n ++ t ++ 0#4 ++ 9#4 := by
    apply word_ext; intro i hi
    simp only [BitVec.getLsbD_or, getLsbD_place, BitVec.getLsbD_append]
    interval_cases i <;> simp
  have copy (t : BitVec 2) (n a b : BitVec 1) (s u : BitVec 6) :
      place 9#4 0 ||| place t 8 ||| place n 10 ||| place 1#1 11 ||| place a 12 ||| place s 16 ||| place b 22 |||
        place u 24 = 0#2 ++ u ++ 0#1 ++ b ++ s ++ 0#3 ++ a ++ 1#1 ++ n ++ t ++ 0#4 ++ 9#4 := by
    apply word_ext; intro i hi
    simp only [BitVec.getLsbD_or, getLsbD_place, BitVec.getLsbD_append]
    interval_cases i <;> simp
  rw [← slotNumber_layout, ← slotNumber_layout, ← rowLayout_false]
  exact ⟨congrArg (fun x : Word => [x, r.toWord]) (verify _ _ _ _),
    congrArg (fun x : Word => [x, r.toWord]) (copy _ _ _ _ _ _)⟩

/-! ### The window -/

theorem regionOf_word (a : Nat) : regionOf a = regionOf (a / 4 * 4) := by
  unfold regionOf
  simp only [show a / 4 * 4 / 4 = a / 4 by omega, show (a / 4 * 4 < 0x100) = (a < 0x100) by
      apply propext; omega,
    show (0x400 ≤ a / 4 * 4 ∧ a / 4 * 4 < 0x480) = (0x400 ≤ a ∧ a < 0x480) by apply propext; omega,
    show (0x500 ≤ a / 4 * 4 ∧ a / 4 * 4 < 0x680) = (0x500 ≤ a ∧ a < 0x680) by apply propext; omega,
    show (0x800 ≤ a / 4 * 4 ∧ a / 4 * 4 < 0x1000) = (0x800 ≤ a ∧ a < 0x1000) by apply propext; omega,
    show (0x1000 ≤ a / 4 * 4 ∧ a / 4 * 4 < 0x1200) = (0x1000 ≤ a ∧ a < 0x1200) by apply propext; omega,
    show (0x1400 ≤ a / 4 * 4 ∧ a / 4 * 4 < 0x1500) = (0x1400 ≤ a ∧ a < 0x1500) by apply propext; omega,
    show (0x1600 ≤ a / 4 * 4 ∧ a / 4 * 4 < 0x1620) = (0x1600 ≤ a ∧ a < 0x1620) by apply propext; omega,
    show (0x1700 ≤ a / 4 * 4 ∧ a / 4 * 4 < 0x1780) = (0x1700 ≤ a ∧ a < 0x1780) by apply propext; omega,
    show (0x2000 ≤ a / 4 * 4 ∧ a / 4 * 4 < 0x2300) = (0x2000 ≤ a ∧ a < 0x2300) by apply propext; omega,
    show (a / 4 * 4 - 0x400) / 16 = (a - 0x400) / 16 by omega, show (a / 4 * 4 - 0x500) / 16 = (a - 0x500) / 16 by omega,
    show (a / 4 * 4 - 0x800) / 32 = (a - 0x800) / 32 by omega, show (a / 4 * 4 - 0x1000) / 8 = (a - 0x1000) / 8 by omega,
    show (a / 4 * 4 - 0x1400) / 8 = (a - 0x1400) / 8 by omega, show (a / 4 * 4 - 0x1600) / 4 = (a - 0x1600) / 4 by omega,
    show (a / 4 * 4 - 0x1700) / 8 = (a - 0x1700) / 8 by omega, show (a / 4 * 4 - 0x2000) / 8 = (a - 0x2000) / 8 by omega]

theorem regionOf_unmapped {a : Nat} (h : ¬a < 0x100) (h1 : ¬(0x400 ≤ a ∧ a < 0x480)) (h2 : ¬(0x500 ≤ a ∧ a < 0x680))
    (h3 : ¬(0x800 ≤ a ∧ a < 0x1000)) (h4 : ¬(0x1000 ≤ a ∧ a < 0x1200)) (h5 : ¬(0x1400 ≤ a ∧ a < 0x1500))
    (h6 : ¬(0x1600 ≤ a ∧ a < 0x1620)) (h7 : ¬(0x1700 ≤ a ∧ a < 0x1780)) (h8 : ¬(0x2000 ≤ a ∧ a < 0x2300)) :
    regionOf a = .unmapped := by
  unfold regionOf
  rw [if_neg h, if_neg h1, if_neg h2, if_neg h3, if_neg h4, if_neg h5, if_neg h6, if_neg h7, if_neg h8]

/-- Every offset of the window addresses the word its summary gives (spec/11, 11.1, 11.3). -/
theorem windowMap : WindowMap where
  word := regionOf_word
  registers := by decide +kernel
  descriptors i w := by
    cases i with
    | urgent k => revert k w; decide +kernel
    | routine k => revert k w; decide +kernel
  reports := by decide +kernel
  slots := by decide +kernel
  tally := by decide +kernel
  queue := by decide +kernel
  poison := by decide +kernel
  fuse := by decide +kernel
  unmapped := by
    have low : ∀ a : Fin 0x100, ∀ x ∈ unmappedRanges, x.1 ≤ a.val → a.val < x.2 → regionOf a.val = .unmapped := by
      decide +kernel
    intro x hx a h1 h2
    by_cases h : a < 0x100
    · exact low ⟨a, h⟩ x hx h1 h2
    · simp only [unmappedRanges, List.mem_cons, List.not_mem_nil, or_false] at hx
      rcases hx with rfl | rfl | rfl | rfl | rfl | rfl | rfl | rfl | rfl | rfl | rfl | rfl | rfl <;>
        simp only at h1 h2 <;> apply regionOf_unmapped <;> omega

end Sys2Proof.Machine
end

