-- ==== Sys2Proof/Laws/Mapping.lean ====
section
/-! SUPPORT. The mapping of R3 as the pool search finds it: a slot that maps a row lies in the row's pool, so the search of
the four slots of the pool finds it, and finds none just where no slot maps the row. -/

namespace Sys2Proof.Machine

theorem mem_poolSlots {r : RowAddr} {k : SlotNum} : k ∈ r.poolSlots ↔ k.val / 4 = r.pool := by
  have hp : r.pool < 16 := by unfold RowAddr.pool; omega
  have ht : ∀ i : Fin 4, (r.slotAt i).val = 4 * r.pool + i.val := by
    intro i
    show (4 * r.pool + i.val) % 64 = _
    omega
  constructor
  · intro h
    simp only [RowAddr.poolSlots, List.mem_cons, List.not_mem_nil, or_false] at h
    rcases h with h | h | h | h <;> rw [h, ht] <;> omega
  · intro h
    have hk := k.isLt
    have hm : k = r.slotAt ⟨k.val % 4, by omega⟩ := Fin.ext (by rw [ht]; show k.val = 4 * r.pool + k.val % 4; omega)
    have h4 : k.val % 4 = 0 ∨ k.val % 4 = 1 ∨ k.val % 4 = 2 ∨ k.val % 4 = 3 := by omega
    rw [hm]
    rcases h4 with h | h | h | h <;> simp [RowAddr.poolSlots, h]

theorem rowAt_pool (v : Victim) (k : SlotNum) : (v.rowAt k).pool = k.val / 4 := by
  have hk := k.isLt
  simp only [RowAddr.pool, Victim.rowAt, BitVec.toNat_ofNat]
  omega

/-- R1: a victim placed in a slot of its own pool has its full row address back. -/
theorem rowAt_victim {r : RowAddr} {k : SlotNum} (h : k.val / 4 = r.pool) : r.victim.rowAt k = r := by
  obtain ⟨c, g, b, w⟩ := r
  simp only [RowAddr.pool] at h
  simp only [RowAddr.victim, Victim.rowAt, RowAddr.mk.injEq, and_true]
  constructor <;> apply BitVec.eq_of_toNat_eq <;> simp only [BitVec.toNat_ofNat] <;> omega

theorem mapsAt_iff {s : State} {r : RowAddr} {k : SlotNum} :
    s.mapsAt r k = true ↔ ∃ v, (s.slot k).mapped = some v ∧ v.rowAt k = r := by
  unfold State.mapsAt
  split <;> rename_i h <;> simp [h]

theorem mapsAt_pool {s : State} {r : RowAddr} {k : SlotNum} (h : s.mapsAt r k = true) : k.val / 4 = r.pool := by
  obtain ⟨v, _, rfl⟩ := mapsAt_iff.1 h
  exact (rowAt_pool v k).symm

/-- A slot in a mapping state maps its victim and nothing else (R3). -/
theorem mapsAt_victim {s : State} {r : RowAddr} {k : SlotNum} {v : Victim}
    (h : s.slot k = .soft v ∨ s.slot k = .committing v ∨ ∃ i, s.slot k = .hard v i) :
    s.mapsAt r k = true ↔ r = v.rowAt k := by
  have m : (s.slot k).mapped = some v := by rcases h with h | h | ⟨i, h⟩ <;> rw [h] <;> rfl
  simp only [State.mapsAt, m, decide_eq_true_eq]
  exact eq_comm

/-- A slot in any other state maps no row (R3). -/
theorem mapsAt_none {s : State} {r : RowAddr} {k : SlotNum} {v : Victim}
    (h : s.slot k = .free ∨ s.slot k = .reserved v ∨ s.slot k = .draining v ∨ ∃ x i, s.slot k = .retired x i) :
    s.mapsAt r k = false := by
  have m : (s.slot k).mapped = none := by rcases h with h | h | h | ⟨x, i, h⟩ <;> rw [h] <;> rfl
  simp only [State.mapsAt, m]

theorem mappedSlot_mapsAt {s : State} {r : RowAddr} {k : SlotNum} (h : s.mappedSlot r = some k) :
    s.mapsAt r k = true := List.find?_some h

theorem mappedSlot_none {s : State} {r : RowAddr} : s.mappedSlot r = none ↔ ∀ k, s.mapsAt r k = false := by
  constructor
  · intro h k
    cases hk : s.mapsAt r k
    · rfl
    · have := List.find?_eq_none.1 h k (mem_poolSlots.2 (mapsAt_pool hk))
      exact absurd hk (by simpa using this)
  · intro h
    exact List.find?_eq_none.2 fun k _ => by simp [h k]

theorem mappedSlot_unique {s : State} {r : RowAddr} {k : SlotNum} (h : s.mapsAt r k = true)
    (u : ∀ j, s.mapsAt r j = true → j = k) : s.mappedSlot r = some k := by
  cases hm : s.mappedSlot r with
  | none => simp [mappedSlot_none.1 hm k] at h
  | some j => rw [u j (mappedSlot_mapsAt hm)]

theorem hardAt_pool {s : State} {r : RowAddr} {k : SlotNum} (h : s.hardAt r k = true) : k.val / 4 = r.pool := by
  unfold State.hardAt at h
  split at h
  · have := of_decide_eq_true h
    rw [← this, rowAt_pool]
  · cases h

theorem hardSlot_hardAt {s : State} {r : RowAddr} {k : SlotNum} (h : s.hardSlot r = some k) :
    s.hardAt r k = true := List.find?_some h

theorem hardSlot_none {s : State} {r : RowAddr} : s.hardSlot r = none ↔ ∀ k, s.hardAt r k = false := by
  constructor
  · intro h k
    cases hk : s.hardAt r k
    · rfl
    · have := List.find?_eq_none.1 h k (mem_poolSlots.2 (hardAt_pool hk))
      exact absurd hk (by simpa using this)
  · intro h
    exact List.find?_eq_none.2 fun k _ => by simp [h k]

theorem hardSlot_unique {s : State} {r : RowAddr} {k : SlotNum} (h : s.hardAt r k = true)
    (u : ∀ j, s.hardAt r j = true → j = k) : s.hardSlot r = some k := by
  cases hm : s.hardSlot r with
  | none => simp [hardSlot_none.1 hm k] at h
  | some j => rw [u j (hardSlot_hardAt hm)]

end Sys2Proof.Machine
end

