-- ==== Sys2Proof/Laws/Tally.lean ====
section
/-! SUPPORT. Walks over the 32 tally positions: what a walk does to one entry, when each visit changes no entry but the
one it visits; a threshold write and an appending mode write in closed form. -/

namespace Sys2Proof.Machine

theorem positions_nodup : positions.Nodup := List.nodup_finRange 32

theorem mem_positions (p : Fin 32) : p ∈ positions := List.mem_finRange p

/-- The visits of a walk change no entry but the one they visit. -/
def Visits (f : Fin 32 → State → State) : Prop := ∀ p q s, p ≠ q → (f p s).entry q = s.entry q

/-- A walk that does not visit `q` leaves its entry. -/
theorem walk_entry_of_not_mem {f : Fin 32 → State → State} (hf : Visits f) (q : Fin 32) :
    ∀ (l : List (Fin 32)) (s : State), q ∉ l → (l.foldl (fun t p => f p t) s).entry q = s.entry q
  | [], _, _ => rfl
  | p :: l, s, h => by
      have hp : p ≠ q := fun e => h (e ▸ List.mem_cons_self)
      have hl : q ∉ l := fun m => h (List.mem_cons_of_mem _ m)
      exact (walk_entry_of_not_mem hf q l (f p s) hl).trans (hf p q s hp)

/-- A walk that visits `q` once makes of its entry what that visit makes of it, in a state `t` in which the entry still
stands as at the start and whatever every visit keeps (`I`) still holds. -/
theorem walk_entry_of_mem {f : Fin 32 → State → State} (hf : Visits f) {I : State → Prop} (hI : ∀ p s, I s → I (f p s))
    (q : Fin 32) : ∀ (l : List (Fin 32)) (s : State), l.Nodup → q ∈ l → I s →
    ∃ t, I t ∧ t.entry q = s.entry q ∧ (l.foldl (fun t p => f p t) s).entry q = (f q t).entry q
  | [], _, _, h, _ => absurd h List.not_mem_nil
  | p :: l, s, hn, h, h0 => by
      obtain ⟨hp, hn⟩ := List.nodup_cons.1 hn
      by_cases e : p = q
      · subst e
        exact ⟨s, h0, rfl, walk_entry_of_not_mem hf p l (f p s) hp⟩
      · have hl : q ∈ l := (List.mem_cons.1 h).resolve_left fun x => e x.symm
        obtain ⟨t, a, b, c⟩ := walk_entry_of_mem hf hI q l (f p s) hn hl (hI p s h0)
        exact ⟨t, a, b.trans (hf p q s e), c⟩

/-- Whatever every visit keeps, the walk keeps. -/
theorem walk_keeps {f : Fin 32 → State → State} {I : State → Prop} (hI : ∀ p s, I s → I (f p s)) :
    ∀ (l : List (Fin 32)) (s : State), I s → I (l.foldl (fun t p => f p t) s)
  | [], _, h => h
  | p :: l, s, h => walk_keeps hI l (f p s) (hI p s h)

theorem entry_putEntry_ne {s : State} {p q : Fin 32} {e : Option TallyEntry} (h : p ≠ q) :
    (s.putEntry p e).entry q = s.entry q := (entry_putEntry s p q e).trans (if_neg h)

theorem entry_putEntry_self {s : State} {p : Fin 32} {e : Option TallyEntry} : (s.putEntry p e).entry p = e :=
  (entry_putEntry s p p e).trans (if_pos rfl)

theorem decayAt_visits : Visits decayAt := by
  intro p q s h
  unfold decayAt
  split
  · rfl
  · split
    · split <;> exact entry_putEntry_ne (s := s) h
    · rfl

theorem rethresholdAt_visits : Visits rethresholdAt := by
  intro p q s h
  unfold rethresholdAt
  split
  · rfl
  · split
    · unfold promote
      dsimp only
      split <;> exact entry_putEntry_ne (s := s) h
    · rfl

theorem trimAt_visits (keep : Location → Bool) : Visits (trimAt keep) := by
  intro p q s h
  unfold trimAt
  split
  · rfl
  · split
    · exact entry_putEntry_ne (s := s) h
    · rfl

theorem appendAt_visits : Visits appendAt := by
  intro p q s h
  unfold appendAt
  split
  · rfl
  · split
    · exact entry_putEntry_ne (s := s) h
    · rfl

/-- What decay makes of one entry (R101). -/
def TallyEntry.decayed (e : TallyEntry) : Option TallyEntry :=
  if e.tracking then if e.count ≤ 1 then none else some { e with count := e.count - 1 } else some e

theorem decayAt_entry (p : Fin 32) (s : State) : (decayAt p s).entry p = (s.entry p).bind TallyEntry.decayed := by
  unfold decayAt
  cases h : s.entry p with
  | none => exact h
  | some e =>
    simp only [Option.bind_some, TallyEntry.decayed]
    split
    · split <;> exact entry_putEntry_self (s := s)
    · exact h

theorem decay_entry (p : Fin 32) (s : State) : (decay s).entry p = (s.entry p).bind TallyEntry.decayed := by
  obtain ⟨t, _, h, e⟩ := walk_entry_of_mem decayAt_visits (I := fun _ => True) (fun _ _ h => h) p positions s
    positions_nodup (mem_positions p) trivial
  refine e.trans ?_
  rw [decayAt_entry, h]

/-! ### The walk of a threshold write, and of a mode write, in closed form -/

theorem positions_split {pre l : List (Fin 32)} {p : Fin 32} (h : pre ++ p :: l = positions) :
    (∀ q ∈ pre, q < p) ∧ ∀ q ∈ l, ¬q < p := by
  have hs : positions.Pairwise (· < ·) := List.pairwise_lt_finRange 32
  rw [← h, List.pairwise_append, List.pairwise_cons] at hs
  exact ⟨fun q hq => hs.2.2 q hq p List.mem_cons_self, fun q hq x => absurd (hs.2.1.1 q hq) (by omega)⟩

/-- How many of the positions below `p` have `f`, counted over the part of the walk before `p`. -/
theorem filter_below {pre l : List (Fin 32)} {p : Fin 32} (h : pre ++ p :: l = positions) (f : Fin 32 → Bool) :
    positions.filter (fun q => q < p && f q) = pre.filter f := by
  obtain ⟨a, b⟩ := positions_split h
  rw [← h, List.filter_append]
  have e1 : pre.filter (fun q => q < p && f q) = pre.filter f :=
    List.filter_congr fun q hq => by simp [a q hq]
  have e2 : (p :: l).filter (fun q => decide (q < p) && f q) = [] := by
    apply List.filter_eq_nil_iff.2
    intro q hq
    rcases List.mem_cons.1 hq with rfl | hq
    · simp
    · simp [b q hq]
  rw [e1, e2, List.append_nil]

/-- A walk over the positions, by what holds after each part of it. -/
theorem walk_induction {f : Fin 32 → State → State} (P : List (Fin 32) → State → Prop)
    (step : ∀ pre p l t, pre ++ p :: l = positions → P pre t → P (pre ++ [p]) (f p t)) {s : State} (h : P [] s) :
    P positions (positions.foldl (fun t p => f p t) s) := by
  have : ∀ (l pre : List (Fin 32)) (t : State), pre ++ l = positions → P pre t →
      P positions (l.foldl (fun t p => f p t) t) := by
    intro l
    induction l with
    | nil => intro pre t e h; rw [List.append_nil] at e; rw [← e]; exact h
    | cons p l ih =>
      intro pre t e h
      exact ih (pre ++ [p]) (f p t) (by rw [List.append_assoc]; exact e) (step pre p l t e h)
  exact this positions [] s rfl h

/-- The entry that a threshold write promotes at a position, T being the one now held (R99). -/
def State.due (s : State) (p : Fin 32) : Option TallyEntry :=
  (s.entry p).filter fun e => e.state = .tracking ∧ s.config.threshold.toNat ≤ e.count

/-- It is promoted and its location is one that the mode permits. -/
def State.duePermitted (s : State) (p : Fin 32) : Bool := (s.due p).any fun e => s.config.mode.permits e.loc

/-- Its queue decision: every permitted one at a lower position has joined the queue while there was room (R98). -/
def State.dueOutcome (s : State) (p : Fin 32) : QueueOutcome :=
  if s.duePermitted p = false then .neither
  else if s.tally.queue.length + (positions.filter fun q => q < p && s.duePermitted q).length < 8 then .queued
  else .autoSkipped

/-- Its report. -/
def State.dueReport (s : State) (p : Fin 32) : Option Arrival := (s.due p).map fun e =>
  ⟨.errorTally, ⟨.candidate e.row e.loc e.count e.uncorrectable (s.dueOutcome p) .rethreshold, s.tally.epoch⟩⟩

/-- Its row, where it joins the queue. -/
def State.dueRow (s : State) (p : Fin 32) : Option RowAddr :=
  if s.dueOutcome p = .queued then (s.due p).map (·.row) else none

/-- What a threshold write has done to the tally of `s` when it has visited the positions `pre`. -/
structure Rethresholded (s : State) (pre : List (Fin 32)) (t : State) : Prop where
  arrivals : t.arrivals = s.arrivals ++ pre.filterMap s.dueReport
  queue : t.tally.queue = s.tally.queue ++ pre.filterMap s.dueRow
  config : t.config = s.config
  rest : t.tally = { s.tally with entries := t.tally.entries, queue := t.tally.queue }
  unvisited : ∀ p, p ∉ pre → t.entry p = s.entry p
  promoted : ∀ p e, p ∈ pre → s.due p = some e →
    t.entry p = some { e with state := .candidate, queued := e.queued || s.dueOutcome p == .queued }
  others : ∀ p, s.due p = none → t.entry p = s.entry p
  room : s.tally.queue.length + (pre.filter s.duePermitted).length < 8 →
    t.tally.queue.length = s.tally.queue.length + (pre.filter s.duePermitted).length
  full : 8 ≤ s.tally.queue.length + (pre.filter s.duePermitted).length → 8 ≤ t.tally.queue.length

theorem rethresholdAt_none {s : State} {p : Fin 32} (h : s.due p = none) : rethresholdAt p s = s := by
  unfold rethresholdAt
  unfold State.due at h
  split
  · rfl
  · rename_i e he
    rw [he] at h
    split
    · rename_i hc
      simp only [TallyEntry.tracking, Bool.and_eq_true, decide_eq_true_eq] at hc
      simp [Option.filter, hc] at h
    · rfl

theorem rethresholdAt_some {s : State} {p : Fin 32} {e : TallyEntry} (h : s.due p = some e) :
    rethresholdAt p s = promote p e .rethreshold s := by
  unfold rethresholdAt
  unfold State.due at h
  obtain ⟨he, hc⟩ := Option.filter_eq_some_iff.1 h
  rw [he]
  have : e.tracking = true ∧ s.config.threshold.toNat ≤ e.count := by
    simpa [TallyEntry.tracking] using hc
  simp [this]

/-- A threshold write in closed form (R99). -/
theorem rethreshold_closed (s : State) : Rethresholded s positions (rethreshold s) := by
  refine walk_induction (Rethresholded s) ?_ ⟨by simp, by simp, rfl, rfl, fun _ _ => rfl,
    fun _ _ h => absurd h List.not_mem_nil, fun _ _ => rfl, fun _ => rfl, fun h => h⟩
  intro pre p l t hs h
  have hp : p ∉ pre := fun x => absurd ((positions_split hs).1 p x) (lt_irrefl p)
  have entry : t.entry p = s.entry p := h.unvisited p hp
  have due : t.due p = s.due p := by unfold State.due; rw [entry, h.config]
  have below := filter_below hs s.duePermitted
  cases hd : s.due p with
  | none =>
    rw [rethresholdAt_none (due.trans hd)]
    have np : s.duePermitted p = false := by unfold State.duePermitted; rw [hd]; rfl
    have e : (pre ++ [p]).filter s.duePermitted = pre.filter s.duePermitted := by
      rw [List.filter_append]; simp [np]
    refine ⟨?_, ?_, h.config, h.rest, fun q hq => h.unvisited q fun x => hq (List.mem_append_left _ x), ?_, h.others,
      ?_, ?_⟩
    · rw [h.arrivals, List.filterMap_append]; simp [State.dueReport, hd]
    · rw [h.queue, List.filterMap_append]; simp [State.dueRow, hd]
    · intro q f hq hf
      rcases List.mem_append.1 hq with hq | hq
      · exact h.promoted q f hq hf
      · rw [List.mem_singleton.1 hq, hd] at hf; cases hf
    · rw [e]; exact h.room
    · rw [e]; exact h.full
  | some e =>
    rw [rethresholdAt_some (due.trans hd)]
    have perm : s.duePermitted p = s.config.mode.permits e.loc := by unfold State.duePermitted; rw [hd]; rfl
    have small : t.tally.queue.length < 8 ↔ s.tally.queue.length + (pre.filter s.duePermitted).length < 8 := by
      constructor
      · intro x; by_contra y; exact absurd (h.full (by omega)) (by omega)
      · intro x; rw [h.room x]; exact x
    have outcome : t.queueOutcome e.loc = s.dueOutcome p := by
      unfold State.queueOutcome State.dueOutcome
      rw [h.config, ← perm, below]
      cases s.duePermitted p
      · rfl
      · simp only [if_true, Bool.true_eq_false, if_false]
        by_cases x : t.tally.queue.length < Config.queueCapacity
        · rw [if_pos x, if_pos (small.1 x)]
        · rw [if_neg x, if_neg fun y => x (small.2 y)]
    have epoch : t.tally.epoch = s.tally.epoch := by rw [h.rest]
    have cnt : ((pre ++ [p]).filter s.duePermitted).length =
        (pre.filter s.duePermitted).length + if s.duePermitted p then 1 else 0 := by
      rw [List.filter_append, List.length_append]
      cases hx : s.duePermitted p <;> simp [hx]
    have un : (promote p e .rethreshold t).arrivals = t.arrivals ++
        [⟨.errorTally, ⟨.candidate e.row e.loc e.count e.uncorrectable (s.dueOutcome p) .rethreshold,
          s.tally.epoch⟩⟩] := by
      unfold promote; rw [outcome, ← epoch]
      dsimp only; split <;> rfl
    have ent (q) : (promote p e .rethreshold t).entry q = if p = q then
        some { e with state := .candidate, queued := e.queued || s.dueOutcome p == .queued } else t.entry q := by
      unfold promote; rw [outcome]
      dsimp only
      split
      · rename_i ho
        rw [ho]
        refine (entry_putEntry _ _ _ _).trans ?_
        simp; rfl
      · rename_i ho
        have : (s.dueOutcome p == .queued) = false := by
          cases hx : s.dueOutcome p
          · rfl
          · exact absurd hx ho
          · rfl
        rw [this, Bool.or_false]
        exact entry_putEntry _ _ _ _
    have que : (promote p e .rethreshold t).tally.queue = t.tally.queue ++
        if s.dueOutcome p = .queued then [e.row] else [] := by
      unfold promote; rw [outcome]
      dsimp only
      split
      · rename_i ho; rw [ho, if_pos rfl]; rfl
      · rename_i ho; rw [if_neg ho, List.append_nil]; rfl
    have qlen : (promote p e .rethreshold t).tally.queue.length = t.tally.queue.length +
        if s.dueOutcome p = .queued then 1 else 0 := by
      rw [que, List.length_append]; split <;> rfl
    have fr : (promote p e .rethreshold t).config = t.config := by
      unfold promote; dsimp only; split <;> rfl
    refine ⟨?_, ?_, fr.trans h.config, ?_, ?_, ?_, ?_, ?_, ?_⟩
    · rw [un, h.arrivals, List.filterMap_append, List.append_assoc]; simp [State.dueReport, hd]
    · rw [que, h.queue, List.filterMap_append, List.append_assoc]
      congr 2
      unfold State.dueRow
      split <;> rename_i x <;> simp [hd, x]
    · have : (promote p e .rethreshold t).tally = { t.tally with
          entries := (promote p e .rethreshold t).tally.entries
          queue := (promote p e .rethreshold t).tally.queue } := by
        unfold promote; dsimp only; split <;> rfl
      rw [this, h.rest]
    · intro q hq
      rw [ent, if_neg fun x => hq (by rw [← x]; exact List.mem_append_right _ List.mem_cons_self)]
      exact h.unvisited q fun x => hq (List.mem_append_left _ x)
    · intro q f hq hf
      rw [ent]
      by_cases x : p = q
      · rw [if_pos x]; subst x; rw [hd] at hf; cases hf; rfl
      · rw [if_neg x]
        rcases List.mem_append.1 hq with hq | hq
        · exact h.promoted q f hq hf
        · exact absurd (List.mem_singleton.1 hq).symm x
    · intro q hq
      rw [ent, if_neg fun x => by rw [x] at hd; rw [hd] at hq; cases hq]
      exact h.others q hq
    · intro x
      rw [cnt] at x ⊢
      have y : s.tally.queue.length + (pre.filter s.duePermitted).length < 8 := by omega
      rw [qlen, h.room y]
      unfold State.dueOutcome
      rw [below]
      cases s.duePermitted p
      · simp
      · simp [y]; omega
    · intro x
      rw [cnt] at x
      rw [qlen]
      by_cases y : 8 ≤ s.tally.queue.length + (pre.filter s.duePermitted).length
      · have := h.full y; omega
      · have y' : s.tally.queue.length + (pre.filter s.duePermitted).length < 8 := by omega
        rw [h.room y']
        unfold State.dueOutcome
        rw [below]
        cases hx : s.duePermitted p
        · rw [hx] at x; simp at x; omega
        · rw [hx] at x; simp [y'] at x ⊢; omega

/-- The row that a mode write would append at a position, room aside (R103). -/
def State.offered (s : State) (p : Fin 32) : Option RowAddr := (s.entry p).bind fun e =>
  if e.state = .candidate ∧ e.queued = false ∧ e.attempted = false ∧ s.config.mode.permits e.loc = true
  then some e.row else none

/-- Appending in closed form (R103): the rows offered, in ascending order of position, as far as the queue has room. -/
theorem fillQueue_closed (s : State) : (fillQueue s).tally.queue =
    s.tally.queue ++ (positions.filterMap s.offered).take (8 - s.tally.queue.length) := by
  have key := walk_induction (f := appendAt) (s := s) (fun pre t =>
    t.config = s.config ∧ (∀ q, q ∉ pre → t.entry q = s.entry q) ∧
      t.tally.queue = s.tally.queue ++ (pre.filterMap s.offered).take (8 - s.tally.queue.length)) ?_
    ⟨rfl, fun _ _ => rfl, by simp⟩
  · unfold fillQueue; exact key.2.2
  intro pre p l t hs ⟨hc, he, hq⟩
  have hp : p ∉ pre := fun x => absurd ((positions_split hs).1 p x) (lt_irrefl p)
  have entry := he p hp
  have step : (appendAt p t).config = t.config ∧ (∀ q, p ≠ q → (appendAt p t).entry q = t.entry q) ∧
      (appendAt p t).tally.queue = if t.tally.queue.length < 8 then t.tally.queue ++ (s.offered p).toList
        else t.tally.queue := by
    refine ⟨?_, fun q h => appendAt_visits p q t h, ?_⟩
    · unfold appendAt; split
      · rfl
      · split <;> rfl
    · unfold appendAt State.offered
      rw [entry]
      cases s.entry p with
      | none => simp
      | some e =>
        dsimp only [Option.bind_some]
        rw [hc]
        by_cases x : e.state = .candidate ∧ e.queued = false ∧ e.attempted = false ∧
            s.config.mode.permits e.loc = true
        · obtain ⟨x1, x2, x3, x4⟩ := x
          by_cases y : t.tally.queue.length < 8
          · have y' : t.tally.queue.length < Config.queueCapacity := y
            rw [if_pos (by simp [x1, x2, x3, x4, y']), if_pos y, if_pos ⟨x1, x2, x3, x4⟩]
            rfl
          · have y' : ¬t.tally.queue.length < Config.queueCapacity := y
            rw [if_neg (by simp [x1, x2, x3, x4, y']), if_neg y]
        · rw [if_neg x, if_neg]
          · simp
          · intro z
            simp only [Bool.and_eq_true, Bool.not_eq_true', decide_eq_true_eq] at z
            exact x ⟨z.1.1.1.1, z.1.1.1.2, z.1.1.2, z.1.2⟩
  obtain ⟨s1, s2, s3⟩ := step
  refine ⟨s1.trans hc, fun q h => ?_, ?_⟩
  · rw [s2 q fun x => h (by rw [← x]; exact List.mem_append_right _ List.mem_cons_self)]
    exact he q fun x => h (List.mem_append_left _ x)
  · have cut : (pre ++ [p]).filterMap s.offered = pre.filterMap s.offered ++ (s.offered p).toList := by
      rw [List.filterMap_append]
      cases x : s.offered p <;> simp [x]
    rw [s3, cut, hq]
    have tl : (s.offered p).toList.length ≤ 1 := by cases s.offered p <;> simp
    by_cases y : (pre.filterMap s.offered).length < 8 - s.tally.queue.length
    · rw [if_pos (by rw [List.length_append, List.length_take]; omega), List.take_of_length_le (by omega),
        List.take_of_length_le (by rw [List.length_append]; omega), List.append_assoc]
    · rw [if_neg (by rw [List.length_append, List.length_take]; omega), List.take_append_of_le_length (by omega)]

end Sys2Proof.Machine
end

