-- ==== Sys2Proof/Laws/TallyLaw.lean ====
section
/-! SUPPORT. The law of the error tally: what each operation of the tally keeps of it. -/

namespace Sys2Proof.Machine

/-- The part of the tally's law that no threshold enters. -/
structure TallyShape (s : State) : Prop where
  single : ∀ p q e f, s.entry p = some e → s.entry q = some f → e.row = f.row → p = q
  count : ∀ p e, s.entry p = some e → e.count ≤ 15
  room : s.tally.queue.length ≤ 8
  distinct : s.tally.queue.Nodup
  candidate : ∀ r ∈ s.tally.queue, ∃ p e, s.entry p = some e ∧ e.row = r ∧ e.state = .candidate
  queued : ∀ p e, s.entry p = some e → (e.queued = true ↔ e.row ∈ s.tally.queue)

/-- A TRACKING entry as it stands between events (R98, R99). -/
def State.trackingOk (s : State) (e : TallyEntry) : Prop :=
  e.state = .tracking → 1 ≤ e.count ∧ e.count < s.config.threshold.toNat ∧ e.uncorrectable = false

theorem TallyLaw.shape {s : State} (h : TallyLaw s) : TallyShape s :=
  ⟨h.single, h.count, h.room, h.distinct, h.candidate, h.queued⟩

theorem TallyShape.law {s : State} (h : TallyShape s) (t : ∀ p e, s.entry p = some e → s.trackingOk e) : TallyLaw s :=
  ⟨h.single, h.count, t, h.room, h.distinct, h.candidate, h.queued⟩

/-- The law reads the tally's entries, its queue and T alone. -/
theorem TallyLaw.of_same {s t : State} (h : TallyLaw s) (e : t.tally.entries = s.tally.entries)
    (q : t.tally.queue = s.tally.queue) (c : t.config.threshold = s.config.threshold) : TallyLaw t := by
  have ent (p) : t.entry p = s.entry p := congrArg (fun x : Vector _ 32 => x.get p) e
  constructor
  · simpa only [ent] using h.single
  · simpa only [ent] using h.count
  · simpa only [ent, c] using h.tracking
  · rw [q]; exact h.room
  · rw [q]; exact h.distinct
  · simpa only [ent, q] using h.candidate
  · simpa only [ent, q] using h.queued

/-- One entry and the queue change. -/
theorem TallyShape.change {s t : State} {p : Fin 32} {x : Option TallyEntry} (h : TallyShape s)
    (entry : ∀ q, t.entry q = if p = q then x else s.entry q)
    (row : ∀ e, x = some e → ∀ q f, p ≠ q → s.entry q = some f → f.row ≠ e.row)
    (count : ∀ e, x = some e → e.count ≤ 15) (room : t.tally.queue.length ≤ 8) (distinct : t.tally.queue.Nodup)
    (here : ∀ e, x = some e → (e.queued = true ↔ e.row ∈ t.tally.queue) ∧ (e.queued = true → e.state = .candidate))
    (gone : ∀ r ∈ t.tally.queue, (∃ e, x = some e ∧ e.row = r) ∨ r ∈ s.tally.queue ∧ ∀ f, s.entry p = some f → f.row ≠ r)
    (there : ∀ q e, p ≠ q → s.entry q = some e → e.row ∈ s.tally.queue → e.row ∈ t.tally.queue) : TallyShape t := by
  constructor
  · intro a b e f ha hb hr
    rw [entry] at ha hb
    split at ha
    · rename_i pa
      split at hb
      · rename_i pb; exact pa.symm.trans pb
      · rename_i pb; exact absurd hr.symm (row e ha b f pb hb)
    · rename_i pa
      split at hb
      · rename_i pb; exact absurd hr (row f hb a e pa ha)
      · exact h.single a b e f ha hb hr
  · intro q e hq
    rw [entry] at hq
    split at hq
    · exact count e hq
    · exact h.count q e hq
  · exact room
  · exact distinct
  · intro r hr
    rcases gone r hr with ⟨e, hx, he⟩ | ⟨hs, hn⟩
    · exact ⟨p, e, by rw [entry, if_pos rfl, hx], he, (here e hx).2 ((here e hx).1.2 (he ▸ hr))⟩
    · obtain ⟨q, e, he, a, b⟩ := h.candidate r hs
      have : p ≠ q := by rintro rfl; exact hn e he a
      exact ⟨q, e, by rw [entry, if_neg this]; exact he, a, b⟩
  · intro q e hq
    rw [entry] at hq
    split at hq
    · exact (here e hq).1
    · rename_i n
      rw [h.queued q e hq]
      refine ⟨there q e n hq, fun m => ?_⟩
      rcases gone _ m with ⟨f, hf, hr⟩ | ⟨m, _⟩
      · exact absurd hr.symm (row f hf q e n hq)
      · exact m

theorem TallyShape.unqueued {s : State} (h : TallyShape s) {p : Fin 32} {e : TallyEntry} (he : s.entry p = some e)
    (ht : e.state = .tracking) : e.row ∉ s.tally.queue := by
  intro m
  obtain ⟨q, f, hf, a, b⟩ := h.candidate _ m
  obtain rfl := h.single q p f e hf he a
  rw [he] at hf; cases hf; rw [ht] at b; cases b

/-- An entry is rewritten with its row, its queued mark and its state, or the state CANDIDATE, kept; the queue stays. -/
theorem TallyShape.rewrite {s t : State} {p : Fin 32} {e f : TallyEntry} (h : TallyShape s) (he : s.entry p = some e)
    (entry : ∀ q, t.entry q = if p = q then some f else s.entry q) (queue : t.tally.queue = s.tally.queue)
    (row : f.row = e.row) (mark : f.queued = e.queued) (state : e.state = .candidate → f.state = .candidate)
    (count : f.count ≤ 15) : TallyShape t := by
  have cand (m : e.row ∈ s.tally.queue) : e.state = .candidate := by
    obtain ⟨q, g, hg, a, b⟩ := h.candidate _ m
    obtain rfl := h.single q p g e hg he a
    rw [he] at hg; cases hg; exact b
  refine h.change entry ?_ ?_ (queue ▸ h.room) (queue ▸ h.distinct) ?_ ?_ fun _ _ _ _ m => queue ▸ m
  · rintro _ ⟨⟩ q g n hg x; exact n (h.single p q e g he hg (by rw [x, row]))
  · rintro _ ⟨⟩; exact count
  · rintro _ ⟨⟩
    rw [queue, row, mark]
    exact ⟨h.queued p e he, fun m => state (cand ((h.queued p e he).1 m))⟩
  · intro r m
    rw [queue] at m
    by_cases x : e.row = r
    · exact .inl ⟨f, rfl, row.trans x⟩
    · exact .inr ⟨m, fun g hg => by rw [he] at hg; cases hg; exact x⟩

/-! ### Finding an entry -/

theorem findEntry_some {s : State} {r : RowAddr} {p : Fin 32} {e : TallyEntry} (h : s.findEntry r = some (p, e)) :
    s.entry p = some e ∧ e.row = r := by
  obtain ⟨q, _, hq⟩ := List.exists_of_findSome?_eq_some h
  split at hq
  · split at hq
    · cases hq; exact ⟨by assumption, by assumption⟩
    · cases hq
  · cases hq

theorem findEntry_none {s : State} {r : RowAddr} (h : s.findEntry r = none) {p : Fin 32} {e : TallyEntry}
    (he : s.entry p = some e) : e.row ≠ r := by
  have := List.findSome?_eq_none_iff.1 h p (mem_positions p)
  rw [he] at this
  dsimp only at this
  split at this
  · cases this
  · assumption

/-- Where the entry of a row is rewritten with its row kept, it is still the one found. -/
theorem findEntry_put {s : State} {r : RowAddr} {p : Fin 32} {e f : TallyEntry} (h : s.findEntry r = some (p, e))
    (hf : f.row = r) {t : State} (ht : ∀ q, t.entry q = if p = q then some f else s.entry q) :
    t.findEntry r = some (p, f) := by
  unfold State.findEntry at h ⊢
  rw [List.findSome?_eq_some_iff] at h ⊢
  obtain ⟨l1, a, l2, hl, ha, hb⟩ := h
  have hap : a = p := by
    split at ha
    · split at ha
      · cases ha; rfl
      · cases ha
    · cases ha
  subst hap
  refine ⟨l1, a, l2, hl, ?_, ?_⟩
  · rw [ht, if_pos rfl]; simp [hf]
  · intro q hq
    have nd := positions_nodup
    rw [hl, List.nodup_append] at nd
    have : a ≠ q := fun x => nd.2.2 q hq a List.mem_cons_self x.symm
    rw [ht, if_neg this]
    exact hb q hq

theorem freePosition_some {s : State} {p : Fin 32} (h : s.freePosition = some p) : s.entry p = none := by
  simpa using List.find?_some h

/-- The entry evicted is a TRACKING entry (R95). -/
theorem evictee_tracking {s : State} {p : Fin 32} (h : s.evictee = some p) :
    ∃ e, s.entry p = some e ∧ e.state = .tracking := by
  have walk : ∀ (l : List (Fin 32)) (b : Option (Fin 32 × TallyEntry)),
      (∀ q f, b = some (q, f) → s.entry q = some f ∧ f.state = .tracking) → ∀ p, evictFrom s l b = some p →
      ∃ e, s.entry p = some e ∧ e.state = .tracking := by
    intro l
    induction l with
    | nil =>
      intro b hb p hp
      obtain ⟨⟨q, f⟩, h1, rfl⟩ := Option.map_eq_some_iff.1 hp
      exact ⟨f, hb q f h1⟩
    | cons q l ih =>
      intro b hb p hp
      unfold evictFrom at hp
      cases he : s.entry q with
      | none => rw [he] at hp; exact ih b hb p hp
      | some e =>
        rw [he] at hp
        dsimp only at hp
        by_cases ht : e.tracking = true
        · rw [if_pos ht] at hp
          have new : s.entry q = some e ∧ e.state = .tracking := ⟨he, of_decide_eq_true ht⟩
          cases hb' : b with
          | none => rw [hb'] at hp; exact ih _ (by rintro _ _ ⟨⟩; exact new) p hp
          | some x =>
            rw [hb'] at hp
            dsimp only at hp
            refine ih _ ?_ p hp
            intro a f hf
            split at hf
            · cases hf; exact new
            · cases hf; exact hb _ _ hb'
        · rw [if_neg ht] at hp; exact ih b hb p hp
  exact walk positions none (fun _ _ h => by cases h) p h

/-! ### Promotion and notes -/

theorem promote_entry (p q : Fin 32) (e : TallyEntry) (c : PromotionCause) (s : State) :
    (promote p e c s).entry q = if p = q then
      some { e with state := .candidate, queued := e.queued || s.queueOutcome e.loc == .queued } else s.entry q := by
  unfold promote
  dsimp only
  have no : ∀ o : QueueOutcome, o ≠ .queued → (e.queued || o == .queued) = e.queued := by
    intro o h; rw [beq_false_of_ne h, Bool.or_false]
  split
  · rename_i h
    rw [h, beq_self_eq_true, Bool.or_true]
    exact entry_putEntry _ _ _ _
  · rename_i h
    rw [no _ fun x => h x]
    exact entry_putEntry _ _ _ _

theorem promote_queue (p : Fin 32) (e : TallyEntry) (c : PromotionCause) (s : State) :
    (promote p e c s).tally.queue = s.tally.queue ++ if s.queueOutcome e.loc = .queued then [e.row] else [] := by
  unfold promote
  dsimp only
  cases h : s.queueOutcome e.loc <;> simp [enqueue] <;> rfl

theorem promote_config (p : Fin 32) (e : TallyEntry) (c : PromotionCause) (s : State) :
    (promote p e c s).config = s.config := by
  unfold promote
  dsimp only
  split <;> rfl

theorem queueOutcome_queued {s : State} {l : Location} (h : s.queueOutcome l = .queued) :
    s.tally.queue.length < 8 := by
  unfold State.queueOutcome at h
  split at h
  · split at h
    · assumption
    · cases h
  · cases h

/-- A promotion keeps the shape, and makes no TRACKING entry (R98). -/
theorem promote_shape {s : State} (h : TallyShape s) {p : Fin 32} {e : TallyEntry} (he : s.entry p = some e)
    (ht : e.state = .tracking) (c : PromotionCause) : TallyShape (promote p e c s) := by
  have un := h.unqueued he ht
  have mark : e.queued = false := by
    cases m : e.queued with
    | false => rfl
    | true => exact absurd ((h.queued p e he).1 m) un
  refine h.change (promote_entry p · e c s) ?_ ?_ ?_ ?_ ?_ ?_ ?_
  · rintro _ ⟨⟩ q g n hg x; exact n (h.single p q e g he hg x.symm)
  · rintro _ ⟨⟩; exact h.count p e he
  · rw [promote_queue]
    split
    · rename_i x
      have := queueOutcome_queued x
      rw [List.length_append]; exact this
    · rw [List.append_nil]; exact h.room
  · rw [promote_queue]
    split
    · exact List.nodup_append.2 ⟨h.distinct, List.nodup_singleton _, by
        intro a ha b hb; rw [List.mem_singleton.1 hb]; rintro rfl; exact un ha⟩
    · rw [List.append_nil]; exact h.distinct
  · rintro _ ⟨⟩
    rw [promote_queue, mark]
    refine ⟨?_, fun _ => rfl⟩
    cases x : s.queueOutcome e.loc <;> simp [un]
  · intro r m
    rw [promote_queue] at m
    by_cases x : e.row = r
    · exact .inl ⟨_, rfl, x⟩
    · refine .inr ⟨?_, fun f hf => by rw [he] at hf; cases hf; exact x⟩
      rcases List.mem_append.1 m with m | m
      · exact m
      · split at m
        · exact absurd (List.mem_singleton.1 m).symm x
        · exact absurd m List.not_mem_nil
  · intro q f _ _ m
    rw [promote_queue]; exact List.mem_append_left _ m

/-- The promotion test makes the law of a tally whose other TRACKING entries are as they should be (R98). -/
theorem promotionTest_law {s : State} (h : TallyShape s) {p : Fin 32} {e : TallyEntry} (he : s.entry p = some e)
    (ht : e.state = .tracking) (one : 1 ≤ e.count)
    (rest : ∀ q f, p ≠ q → s.entry q = some f → s.trackingOk f) : TallyLaw (promotionTest p e s) := by
  have promoted (c : PromotionCause) : TallyLaw (promote p e c s) := by
    refine (promote_shape h he ht c).law fun q f hf => ?_
    rw [promote_entry] at hf
    unfold State.trackingOk
    rw [promote_config]
    split at hf
    · cases hf; rintro ⟨⟩
    · rename_i n; exact rest q f n hf
  unfold promotionTest
  split
  · exact promoted _
  · split
    · exact promoted _
    · rename_i hu hc
      refine h.law fun q f hf => ?_
      by_cases x : p = q
      · subst x; rw [he] at hf; cases hf
        exact fun _ => ⟨one, by omega, by simpa using hu⟩
      · exact rest q f x hf

theorem TallyShape.of_same {s t : State} (h : TallyShape s) (e : t.tally.entries = s.tally.entries)
    (q : t.tally.queue = s.tally.queue) : TallyShape t := by
  have ent (p) : t.entry p = s.entry p := congrArg (fun x : Vector _ 32 => x.get p) e
  constructor
  · simpa only [ent] using h.single
  · simpa only [ent] using h.count
  · rw [q]; exact h.room
  · rw [q]; exact h.distinct
  · simpa only [ent, q] using h.candidate
  · simpa only [ent, q] using h.queued

/-- Counting a note keeps the law (R93, R98). -/
theorem countNote_law {s : State} (h : TallyLaw s) {p : Fin 32} {e : TallyEntry} (he : s.entry p = some e) (n : Note) :
    TallyLaw (countNote p e n s) := by
  unfold countNote
  dsimp only
  generalize hf : ({ e with
    count := if e.count < 15 then e.count + 1 else e.count
    lastEpoch := s.tally.epoch
    uncorrectable := e.uncorrectable || n.bad } : TallyEntry) = f
  have row : f.row = e.row := by rw [← hf]
  have state : f.state = e.state := by rw [← hf]
  have cnt : f.count ≤ 15 ∧ (1 ≤ e.count → 1 ≤ f.count) := by
    have := h.count p e he
    rw [← hf]; dsimp only
    split <;> omega
  have entry (q) : (s.putEntry p (some f)).entry q = if p = q then some f else s.entry q := entry_putEntry _ _ _ _
  have shape : TallyShape (s.putEntry p (some f)) := by
    refine h.shape.rewrite he entry rfl row (by rw [← hf]) (fun x => state.trans x) cnt.1
  have rest : ∀ q g, p ≠ q → (s.putEntry p (some f)).entry q = some g → (s.putEntry p (some f)).trackingOk g := by
    intro q g n hg
    rw [entry, if_neg n] at hg
    exact h.tracking q g hg
  have here : (s.putEntry p (some f)).entry p = some f := by rw [entry, if_pos rfl]
  have report : ∀ u : State, u.tally = (s.putEntry p (some f)).tally → u.config = s.config →
      TallyLaw (if e.tracking then promotionTest p f u else u) := by
    intro u hu hc
    have ue (q) : u.entry q = (s.putEntry p (some f)).entry q := congrArg (fun x : Tally => x.entries.get q) hu
    have us : TallyShape u := shape.of_same (by rw [hu]) (by rw [hu])
    have ok (g) : u.trackingOk g ↔ (s.putEntry p (some f)).trackingOk g := by unfold State.trackingOk; rw [hc]; rfl
    split
    · rename_i ht
      have ht : e.state = .tracking := of_decide_eq_true ht
      exact promotionTest_law us ((ue p).trans here) (state.trans ht) (cnt.2 (h.tracking p e he ht).1)
        fun q g n hg => (ok g).2 (rest q g n ((ue q).symm.trans hg))
    · rename_i ht
      refine us.law fun q g hg => (ok g).2 ?_
      rw [ue] at hg
      by_cases x : p = q
      · subst x; rw [here] at hg; cases hg
        exact fun y => absurd (decide_eq_true (state.symm.trans y)) ht
      · exact rest q g x hg
  by_cases x : (n.bad && !e.uncorrectable) = true
  · rw [if_pos x]; exact report _ rfl rfl
  · rw [if_neg x]; exact report _ rfl rfl

/-- A new entry keeps the law: its row has no entry, and the entry it replaces is a TRACKING one (R94, R95). -/
theorem createEntry_law {s : State} (h : TallyLaw s) {p : Fin 32} (n : Note)
    (old : ∀ e, s.entry p = some e → e.state = .tracking) (new : ∀ q e, s.entry q = some e → e.row ≠ n.row) :
    TallyLaw (createEntry p n s) := by
  unfold createEntry
  dsimp only
  generalize hf : (⟨n.row, n.loc, 1, n.bad, .tracking, s.tally.epoch, false, false⟩ : TallyEntry) = f
  have row : f.row = n.row := by rw [← hf]
  have entry (q) : (s.putEntry p (some f)).entry q = if p = q then some f else s.entry q := entry_putEntry _ _ _ _
  have out : n.row ∉ s.tally.queue := by
    intro m
    obtain ⟨q, e, he, a, _⟩ := h.candidate _ m
    exact new q e he a
  have shape : TallyShape (s.putEntry p (some f)) := by
    refine h.shape.change entry ?_ ?_ h.room h.distinct ?_ ?_ fun _ _ _ _ m => m
    · rintro _ ⟨⟩ q g _ hg x; exact new q g hg (x.trans row)
    · rintro _ ⟨⟩; rw [← hf]; exact (by decide : 1 ≤ 15)
    · rintro _ ⟨⟩
      rw [row, ← hf]
      exact ⟨⟨fun x => Bool.noConfusion x, fun x => absurd x out⟩, fun x => Bool.noConfusion x⟩
    · intro r m
      exact .inr ⟨m, fun g hg x => h.shape.unqueued hg (old g hg) (x ▸ m)⟩
  have here : (s.putEntry p (some f)).entry p = some f := by rw [entry, if_pos rfl]
  have report : ∀ u : State, u.tally = (s.putEntry p (some f)).tally → u.config = s.config →
      TallyLaw (promotionTest p f u) := by
    intro u hu hc
    have ue (q) : u.entry q = (s.putEntry p (some f)).entry q := congrArg (fun x : Tally => x.entries.get q) hu
    refine promotionTest_law (shape.of_same (by rw [hu]) (by rw [hu])) ((ue p).trans here) (by rw [← hf])
      (by rw [← hf]) fun q g n hg => ?_
    rw [ue, entry, if_neg n] at hg
    unfold State.trackingOk; rw [hc]
    exact h.tracking q g hg
  by_cases x : n.bad = true
  · rw [if_pos x]; exact report _ rfl rfl
  · rw [if_neg x]; exact report _ rfl rfl

/-- An agreeing note keeps the law (R93 to R96). -/
theorem recordNote_law {s : State} (h : TallyLaw s) (n : Note) : TallyLaw (recordNote n s) := by
  unfold recordNote
  split
  · rename_i p e hf
    exact countNote_law h (findEntry_some hf).1 n
  · rename_i hf
    have new (q e) (he : s.entry q = some e) : e.row ≠ n.row := findEntry_none hf he
    split
    · rename_i p hp
      exact createEntry_law h n (fun e he => by rw [freePosition_some hp] at he; cases he) new
    · split
      · rename_i p hp
        obtain ⟨e, he, ht⟩ := evictee_tracking hp
        exact createEntry_law h n (fun f hf => by rw [he] at hf; cases hf; exact ht) new
      · unfold unrecorded
        dsimp only
        refine h.of_same ?_ ?_ ?_ <;> split <;> split <;> rfl

/-! ### Removal, marks and decay -/

/-- Removing the entry of a row keeps the law (R105). -/
theorem removeAt_law {s : State} (h : TallyLaw s) {p : Fin 32} {e : TallyEntry} (he : s.entry p = some e) :
    TallyLaw (removeAt p e.row s) := by
  have entry (q) : (removeAt p e.row s).entry q = if p = q then none else s.entry q := entry_putEntry s p q none
  have queue : (removeAt p e.row s).tally.queue = s.tally.queue.filter (· ≠ e.row) := rfl
  have shape : TallyShape (removeAt p e.row s) := by
    refine h.shape.change entry (fun _ x => by cases x) (fun _ x => by cases x) ?_ ?_ (fun _ x => by cases x) ?_ ?_
    · rw [queue]; exact (List.length_filter_le _ _).trans h.room
    · rw [queue]; exact h.distinct.filter _
    · intro r m
      rw [queue, List.mem_filter] at m
      exact .inr ⟨m.1, fun f hf x => by rw [he] at hf; cases hf; simp [x] at m⟩
    · intro q f n hf m
      rw [queue, List.mem_filter]
      exact ⟨m, by simpa using fun x => n (h.single p q e f he hf x.symm)⟩
  refine shape.law fun q f hf => ?_
  rw [entry] at hf
  split at hf
  · cases hf
  · exact h.tracking q f hf

/-- The removal claim keeps the law (R56, R105). -/
theorem forgetRow_law {s : State} (h : TallyLaw s) (r : RowAddr) : TallyLaw (forgetRow r s) := by
  unfold forgetRow
  split
  · rename_i p e hf
    obtain ⟨he, rfl⟩ := findEntry_some hf
    exact removeAt_law h he
  · rename_i hf
    have out : r ∉ s.tally.queue := by
      intro m
      obtain ⟨q, e, he, a, _⟩ := h.candidate _ m
      exact findEntry_none hf he a
    exact h.of_same rfl (List.filter_eq_self.2 fun x hx => by
      simpa using fun y : x = r => out (y ▸ hx)) rfl

/-- The mark claim keeps the law (R104). -/
theorem markAttempted_law {s : State} (h : TallyLaw s) (r : RowAddr) : TallyLaw (markAttempted r s) := by
  unfold markAttempted
  split
  · rename_i p e hf
    have he := (findEntry_some hf).1
    have entry (q) := entry_putEntry s p q (some { e with attempted := true })
    refine (h.shape.rewrite he entry rfl rfl rfl (fun x => x) (h.count p e he)).law fun q f hq => ?_
    rw [entry] at hq
    split at hq
    · cases hq; exact h.tracking p e he
    · exact h.tracking q f hq
  · exact h

/-- Decay keeps the law (R101). -/
theorem decay_law {s : State} (h : TallyLaw s) : TallyLaw (decay s) := by
  refine walk_keeps (I := TallyLaw) (fun p t h => ?_) positions s h
  unfold decayAt
  split
  · exact h
  · rename_i e he
    split
    · rename_i ht
      split
      · exact removeAt_law h he
      · rename_i hc
        have entry (q) := entry_putEntry t p q (some { e with count := e.count - 1 })
        have cnt := h.count p e he
        refine (h.shape.rewrite he entry rfl rfl rfl (fun x => x) (by show e.count - 1 ≤ 15; omega)).law
          fun q f hq => ?_
        rw [entry] at hq
        split at hq
        · cases hq
          have := h.tracking p e he (of_decide_eq_true ht)
          exact fun _ => ⟨by show 1 ≤ e.count - 1; omega, by show e.count - 1 < t.config.threshold.toNat; omega, this.2.2⟩
        · exact h.tracking q f hq
    · exact h

/-- A threshold write makes the law from the shape, whatever T it found (R99). -/
theorem rethreshold_law {s : State} (h : TallyShape s)
    (small : ∀ p e, s.entry p = some e → e.state = .tracking → 1 ≤ e.count ∧ e.uncorrectable = false) :
    TallyLaw (rethreshold s) := by
  have closed := rethreshold_closed s
  have shape : TallyShape (rethreshold s) := by
    refine walk_keeps (I := TallyShape) (fun p t h => ?_) positions s h
    unfold rethresholdAt
    split
    · exact h
    · rename_i e he
      split
      · rename_i x
        rw [Bool.and_eq_true] at x
        exact promote_shape h he (of_decide_eq_true x.1) _
      · exact h
  refine shape.law fun p e he => ?_
  unfold State.trackingOk
  rw [closed.config]
  intro ht
  cases hd : s.due p with
  | some f => rw [closed.promoted p f (mem_positions p) hd] at he; cases he; cases ht
  | none =>
    rw [closed.others p hd] at he
    unfold State.due at hd
    rw [he, Option.filter_eq_none_iff] at hd
    have := hd e rfl
    have low := small p e he ht
    simp only [decide_eq_true_eq, not_and, Nat.not_le] at this
    exact ⟨low.1, this ht, low.2⟩

/-! ### Writes of the mode, and the take -/

/-- Taking an entry's row out of the queue and clearing its mark keeps the law (R102). -/
theorem unqueue_law {s : State} (h : TallyLaw s) {p : Fin 32} {e : TallyEntry} (he : s.entry p = some e) {t : State}
    (entry : ∀ q, t.entry q = if p = q then some { e with queued := false } else s.entry q)
    (queue : t.tally.queue = s.tally.queue.filter (· ≠ e.row)) (config : t.config = s.config) : TallyLaw t := by
  have shape : TallyShape t := by
    refine h.shape.change entry ?_ ?_ ?_ ?_ ?_ ?_ ?_
    · rintro _ ⟨⟩ q g n hg x; exact n (h.single p q e g he hg x.symm)
    · rintro _ ⟨⟩; exact h.count p e he
    · rw [queue]; exact (List.length_filter_le _ _).trans h.room
    · rw [queue]; exact h.distinct.filter _
    · rintro _ ⟨⟩
      rw [queue, List.mem_filter]
      exact ⟨⟨fun x => Bool.noConfusion x, fun x => absurd x.2 (by simp)⟩, fun x => Bool.noConfusion x⟩
    · intro r m
      rw [queue, List.mem_filter] at m
      exact .inr ⟨m.1, fun f hf x => by rw [he] at hf; cases hf; simp [x] at m⟩
    · intro q f n hf m
      rw [queue, List.mem_filter]
      exact ⟨m, by simpa using fun x => n (h.single p q e f he hf x.symm)⟩
  refine shape.law fun q f hq => ?_
  unfold State.trackingOk
  rw [config]
  rw [entry] at hq
  split at hq
  · cases hq; exact h.tracking p e he
  · exact h.tracking q f hq

/-- The take claim on the queue's head keeps the law (R104). -/
theorem takeClaim_law {s : State} (h : TallyLaw s) {r : RowAddr} {q : List RowAddr} (hq : s.tally.queue = r :: q) :
    TallyLaw (takeClaim r s) := by
  obtain ⟨p, e, he, hr, _⟩ := h.candidate r (by rw [hq]; exact List.mem_cons_self)
  have nodup := h.distinct
  rw [hq, List.nodup_cons] at nodup
  have tail : q = s.tally.queue.filter (· ≠ r) := by
    rw [hq, List.filter_cons_of_neg (by simp)]
    exact (List.filter_eq_self.2 fun x hx => by
      simpa using fun y : x = r => nodup.1 (y ▸ hx)).symm
  unfold takeClaim
  cases hf : s.findEntry r with
  | none => exact absurd hr (findEntry_none hf he)
  | some x =>
    obtain ⟨k, f⟩ := x
    obtain ⟨hk, rfl⟩ := findEntry_some hf
    refine unqueue_law h hk (fun j => entry_putEntry _ _ _ _) ?_ rfl
    show s.tally.queue.drop 1 = _
    rw [← tail, hq]; rfl

theorem trimQueue_law (keep : Location → Bool) {s : State} (h : TallyLaw s) : TallyLaw (trimQueue keep s) := by
  refine walk_keeps (I := TallyLaw) (fun p t h => ?_) positions s h
  unfold trimAt
  split
  · exact h
  · rename_i e he
    split
    · exact unqueue_law h he (fun q => entry_putEntry _ _ _ _) rfl rfl
    · exact h

theorem fillQueue_law {s : State} (h : TallyLaw s) : TallyLaw (fillQueue s) := by
  refine walk_keeps (I := TallyLaw) (fun p t h => ?_) positions s h
  unfold appendAt
  split
  · exact h
  · rename_i e he
    split
    · rename_i hc
      simp only [Bool.and_eq_true, Bool.not_eq_true', decide_eq_true_eq] at hc
      obtain ⟨⟨⟨⟨hc, hq⟩, _⟩, _⟩, len⟩ := hc
      have len : t.tally.queue.length < 8 := len
      have out : e.row ∉ t.tally.queue := fun m => by rw [(h.queued p e he).2 m] at hq; cases hq
      have entry (q) : (enqueue e.row (t.putEntry p (some { e with queued := true }))).entry q =
          if p = q then some { e with queued := true } else t.entry q := entry_putEntry t p q _
      have queue : (enqueue e.row (t.putEntry p (some { e with queued := true }))).tally.queue =
          t.tally.queue ++ [e.row] := rfl
      refine (h.shape.change entry ?_ ?_ ?_ ?_ ?_ ?_ ?_).law fun q f hq => ?_
      · rintro _ ⟨⟩ q g n hg x; exact n (h.single p q e g he hg x.symm)
      · rintro _ ⟨⟩; exact h.count p e he
      · rw [queue, List.length_append]; exact len
      · rw [queue]
        exact List.nodup_append.2 ⟨h.distinct, List.nodup_singleton _, by
          intro a ha b hb; rw [List.mem_singleton.1 hb]; rintro rfl; exact out ha⟩
      · rintro _ ⟨⟩
        rw [queue]
        exact ⟨⟨fun _ => List.mem_append_right _ List.mem_cons_self, fun _ => rfl⟩, fun _ => hc⟩
      · intro r m
        rw [queue] at m
        by_cases x : e.row = r
        · exact .inl ⟨_, rfl, x⟩
        · rcases List.mem_append.1 m with m | m
          · exact .inr ⟨m, fun f hf => by rw [he] at hf; cases hf; exact x⟩
          · exact absurd (List.mem_singleton.1 m).symm x
      · intro q f _ _ m
        rw [queue]; exact List.mem_append_left _ m
      · rw [entry] at hq
        split at hq
        · cases hq; exact h.tracking p e he
        · exact h.tracking q f hq
    · exact h

/-- Trimming with nothing kept leaves no entry marked queued. -/
theorem trimQueue_none (s : State) (p : Fin 32) (e : TallyEntry)
    (h : (trimQueue (fun _ => false) s).entry p = some e) : e.queued = false := by
  obtain ⟨t, _, _, x⟩ := walk_entry_of_mem (trimAt_visits fun _ => false) (I := fun _ => True) (fun _ _ h => h) p
    positions s positions_nodup (mem_positions p) trivial
  rw [show (trimQueue (fun _ => false) s).entry p = _ from x] at h
  unfold trimAt at h
  split at h
  · rename_i hn; rw [hn] at h; cases h
  · rename_i f hf
    split at h
    · rw [show (dequeue f.row (t.putEntry p (some { f with queued := false }))).entry p = _ from
        entry_putEntry_self (s := t)] at h
      cases h; rfl
    · rename_i hq
      rw [hf] at h; cases h
      simpa using hq

/-- A changed mode keeps the law (R103). -/
theorem applyMode_law (old : RepairMode) {s : State} (h : TallyLaw s) : TallyLaw (applyMode old s) := by
  have empty : TallyLaw (emptyQueue s) := by
    have key (t : State) (law : TallyLaw t) (none : ∀ p e, t.entry p = some e → e.queued = false) :
        TallyLaw { t with tally := { t.tally with queue := [] } } := by
      refine ⟨law.single, law.count, law.tracking, Nat.zero_le 8, List.nodup_nil,
        fun _ m => absurd m List.not_mem_nil, fun p e he => ?_⟩
      rw [none p e he]
      exact ⟨fun x => Bool.noConfusion x, fun m => absurd m List.not_mem_nil⟩
    exact key _ (trimQueue_law _ h) (trimQueue_none s)
  unfold applyMode
  split
  · exact empty
  · exact trimQueue_law _ h
  · exact fillQueue_law h
  · exact fillQueue_law h

end Sys2Proof.Machine
end

