-- ==== Sys2Proof/Laws/Notes.lean ====
section
/-! SUPPORT. The searches of the error tally as the rules say them, and what an agreeing note does, whatever its source
(R93 to R98). -/

namespace Sys2Proof.Machine

/-! ### The searches (R90, R94) -/

theorem positions_at (p : Fin 32) : ∃ pre l, pre ++ p :: l = positions := by
  obtain ⟨pre, l, h⟩ := List.append_of_mem (mem_positions p)
  exact ⟨pre, l, h.symm⟩

/-- In the walk over the positions, those before `p` are those below it. -/
theorem mem_before {pre l : List (Fin 32)} {p : Fin 32} (h : pre ++ p :: l = positions) (q : Fin 32) :
    q ∈ pre ↔ q < p := by
  refine ⟨fun m => (positions_split h).1 q m, fun m => ?_⟩
  have : q ∈ pre ++ p :: l := h ▸ mem_positions q
  rcases List.mem_append.1 this with x | x
  · exact x
  · rcases List.mem_cons.1 x with x | x
    · exact absurd m (x ▸ lt_irrefl _)
    · exact absurd m ((positions_split h).2 q x)

theorem freePosition_iff {s : State} {p : Fin 32} :
    s.freePosition = some p ↔ s.entry p = none ∧ ∀ q, q < p → s.entry q ≠ none := by
  unfold State.freePosition
  rw [List.find?_eq_some_iff_append]
  constructor
  · rintro ⟨a, pre, l, h, b⟩
    exact ⟨by simpa using a, fun q hq => by simpa using b q ((mem_before h.symm q).2 hq)⟩
  · rintro ⟨a, b⟩
    obtain ⟨pre, l, h⟩ := positions_at p
    exact ⟨by simpa using a, pre, l, h.symm, fun q hq => by simpa using b q ((mem_before h q).1 hq)⟩

theorem freePosition_none {s : State} : s.freePosition = none ↔ ∀ p, s.entry p ≠ none := by
  unfold State.freePosition
  rw [List.find?_eq_none]
  exact ⟨fun h p => by simpa using h p (mem_positions p), fun h p _ => by simpa using h p⟩

theorem findEntry_none_iff {s : State} {r : RowAddr} :
    s.findEntry r = none ↔ ∀ p e, s.entry p = some e → e.row ≠ r := by
  refine ⟨fun h p e he => findEntry_none h he, fun h => ?_⟩
  unfold State.findEntry
  rw [List.findSome?_eq_none_iff]
  intro p _
  split
  · rename_i e he; rw [if_neg (h p e he)]
  · rfl

theorem findEntry_iff {s : State} {r : RowAddr} {p : Fin 32} {e : TallyEntry} : s.findEntry r = some (p, e) ↔
    s.entry p = some e ∧ e.row = r ∧ ∀ q f, q < p → s.entry q = some f → f.row ≠ r := by
  constructor
  · intro h
    refine ⟨(findEntry_some h).1, (findEntry_some h).2, ?_⟩
    unfold State.findEntry at h
    obtain ⟨pre, a, l, hl, ha, hb⟩ := List.findSome?_eq_some_iff.1 h
    have : a = p := by
      split at ha
      · split at ha
        · cases ha; rfl
        · cases ha
      · cases ha
    subst this
    intro q f hq hf x
    have := hb q ((mem_before hl.symm q).2 hq)
    rw [hf] at this
    simp [x] at this
  · rintro ⟨he, hr, hn⟩
    obtain ⟨pre, l, hl⟩ := positions_at p
    unfold State.findEntry
    refine List.findSome?_eq_some_iff.2 ⟨pre, p, l, hl.symm, by rw [he]; simp [hr], ?_⟩
    intro q hq
    split
    · rename_i f hf; rw [if_neg (hn q f ((mem_before hl q).1 hq) hf)]
    · rfl

/-- The entry evicted is a matter of the tally alone. -/
theorem evictee_same {s t : State} (h : t.tally = s.tally) : t.evictee = s.evictee := by
  have walk : ∀ l b, evictFrom t l b = evictFrom s l b := by
    intro l
    induction l with
    | nil => intro b; rfl
    | cons p ps ih =>
      intro b
      unfold evictFrom State.entry
      rw [h]
      simp only [ih]
  exact walk _ _

/-! ### Promotion (R98) -/

theorem queueOutcome_no {s : State} {l : Location} (h : s.config.mode.permits l = false) :
    s.queueOutcome l = .neither := by
  unfold State.queueOutcome; rw [h]; rfl

theorem queueOutcome_full {s : State} {l : Location} (h : s.config.mode.permits l = true)
    (f : 8 ≤ s.tally.queue.length) : s.queueOutcome l = .autoSkipped := by
  unfold State.queueOutcome; rw [h, if_pos rfl]; exact if_neg (Nat.not_lt.2 f)

theorem queueOutcome_room {s : State} {l : Location} (h : s.config.mode.permits l = true)
    (f : s.tally.queue.length < 8) : s.queueOutcome l = .queued := by
  unfold State.queueOutcome; rw [h, if_pos rfl]; exact if_pos f

/-- Everything a promotion does: the entry, its report, and its queue decision. -/
theorem promote_eq (p : Fin 32) (e : TallyEntry) (c : PromotionCause) (s : State) : promote p e c s = { s with
    tally := { s.tally with
      entries := s.tally.entries.set p
        (some { e with state := .candidate, queued := e.queued || s.queueOutcome e.loc == .queued })
      queue := s.tally.queue ++ if s.queueOutcome e.loc = .queued then [e.row] else [] }
    arrivals := s.arrivals ++
      [⟨.errorTally, ⟨.candidate e.row e.loc e.count e.uncorrectable (s.queueOutcome e.loc) c, s.tally.epoch⟩⟩] } := by
  unfold promote
  dsimp only
  have neither : (QueueOutcome.neither == .queued) = false := rfl
  have skipped : (QueueOutcome.autoSkipped == .queued) = false := rfl
  cases s.queueOutcome e.loc with
  | neither => simp [produce, State.putEntry, neither]
  | queued => simp [produce, State.putEntry, enqueue]
  | autoSkipped => simp [produce, State.putEntry, skipped]

/-! ### An agreeing note (R93 to R97) -/

/-- The UNCORRECTABLE report of a note, if it makes one (R97). -/
def Note.reports (n : Note) (untracked : Bool) (epoch : BitVec 32) : List Arrival :=
  if n.bad then [⟨.errorTally, ⟨.uncorrectable n.row n.loc n.source untracked, epoch⟩⟩] else []

/-- The TRACKING entry as the note leaves it, before the promotion test: the one counted, or a new one in the lowest free
position or else in the evicted entry's. -/
def State.noted (s : State) (n : Note) (p : Fin 32) (e : TallyEntry) : Prop :=
  (∃ f, s.findEntry n.row = some (p, f) ∧ f.state = .tracking ∧ f.uncorrectable = false ∧
    e = { f with
      count := if f.count < 15 then f.count + 1 else f.count
      lastEpoch := s.tally.epoch
      uncorrectable := n.bad }) ∨
  (s.findEntry n.row = none ∧ (s.freePosition = some p ∨ (s.freePosition = none ∧ s.evictee = some p)) ∧
    e = ⟨n.row, n.loc, 1, n.bad, .tracking, s.tally.epoch, false, false⟩)

theorem noted_bad {s : State} {n : Note} {p : Fin 32} {e : TallyEntry} (h : s.noted n p e) : e.uncorrectable = n.bad := by
  rcases h with ⟨f, _, _, _, rfl⟩ | ⟨_, _, rfl⟩ <;> rfl

theorem recordNote_tested {s : State} {n : Note} {p : Fin 32} {e : TallyEntry} (h : s.noted n p e) :
    recordNote n s =
      promotionTest p e { s.putEntry p (some e) with arrivals := s.arrivals ++ n.reports false s.tally.epoch } := by
  have reported : (if n.bad then reportUncorrectable n false (s.putEntry p (some e)) else s.putEntry p (some e)) =
      { s.putEntry p (some e) with arrivals := s.arrivals ++ n.reports false s.tally.epoch } := by
    unfold Note.reports
    cases n.bad
    · rw [if_neg Bool.false_ne_true, if_neg Bool.false_ne_true, List.append_nil]; rfl
    · rfl
  rw [← reported]
  unfold recordNote
  rcases h with ⟨f, hf, ht, hn, rfl⟩ | ⟨hf, hp, rfl⟩
  · rw [hf]
    simp only [countNote, hn, Bool.false_or, Bool.not_false, Bool.and_true, TallyEntry.tracking, ht, decide_true, if_true]
  · rw [hf]
    rcases hp with hp | ⟨hp, hv⟩
    · rw [hp]; rfl
    · rw [hp, hv]; rfl

/-- A note that leaves its entry TRACKING. -/
theorem recordNote_counted {s : State} {n : Note} {p : Fin 32} {e : TallyEntry} (h : s.noted n p e)
    (b : n.bad = false) (c : e.count < s.config.threshold.toNat) : recordNote n s = s.putEntry p (some e) := by
  rw [recordNote_tested h]
  unfold promotionTest
  rw [noted_bad h, b, if_neg Bool.false_ne_true]
  refine (if_neg (Nat.not_le.2 c)).trans ?_
  simp [Note.reports, b]
  rfl

/-- A note that promotes its entry (R98): everything it does. -/
theorem recordNote_promoted {s : State} {n : Note} {p : Fin 32} {e : TallyEntry} (h : s.noted n p e)
    (c : n.bad = true ∨ s.config.threshold.toNat ≤ e.count) : recordNote n s = { s with
      tally := { s.tally with
        entries := s.tally.entries.set p
          (some { e with state := .candidate, queued := e.queued || s.queueOutcome e.loc == .queued })
        queue := s.tally.queue ++ if s.queueOutcome e.loc = .queued then [e.row] else [] }
      arrivals := s.arrivals ++ n.reports false s.tally.epoch ++ [⟨.errorTally, ⟨.candidate e.row e.loc e.count n.bad
        (s.queueOutcome e.loc) (if n.bad then .uncorrectable else .threshold), s.tally.epoch⟩⟩] } := by
  have twice : ∀ x y, (s.tally.entries.set p x).set p y = s.tally.entries.set p y := by
    intro x y
    ext i hi
    simp only [Vector.getElem_set]
    split <;> rfl
  have test : ∀ t : State, t.config = s.config → promotionTest p e t =
      promote p e (if n.bad then .uncorrectable else .threshold) t := by
    intro t ht
    unfold promotionTest
    rw [noted_bad h, ht]
    cases b : n.bad
    · rw [b] at c
      rw [if_neg Bool.false_ne_true, if_neg Bool.false_ne_true, if_pos (by simpa using c)]
    · rfl
  rw [recordNote_tested h]
  rw [test { s.putEntry p (some e) with arrivals := s.arrivals ++ n.reports false s.tally.epoch } rfl, promote_eq,
    noted_bad h]
  have outcome : State.queueOutcome { s.putEntry p (some e) with
      arrivals := s.arrivals ++ n.reports false s.tally.epoch } e.loc = s.queueOutcome e.loc := rfl
  rw [outcome]
  simp only [State.putEntry, twice]

/-- A note for a CANDIDATE entry (R93). -/
theorem recordNote_candidate {s : State} {n : Note} {p : Fin 32} {e : TallyEntry} (h : s.findEntry n.row = some (p, e))
    (c : e.state = .candidate) : recordNote n s = {
      s.putEntry p (some { e with
        count := if e.count < 15 then e.count + 1 else e.count
        lastEpoch := s.tally.epoch
        uncorrectable := e.uncorrectable || n.bad }) with
      arrivals := s.arrivals ++ if e.uncorrectable then [] else n.reports false s.tally.epoch } := by
  have t : e.tracking = false := by simp [TallyEntry.tracking, c]
  unfold recordNote
  rw [h]
  dsimp only
  unfold countNote
  rw [t]
  unfold Note.reports
  cases hb : n.bad <;> cases hu : e.uncorrectable <;> simp [reportUncorrectable, produce, State.putEntry]

/-- A note that finds only CANDIDATE entries (R96). -/
theorem recordNote_full {s : State} {n : Note} (h : s.findEntry n.row = none) (f : s.freePosition = none)
    (v : s.evictee = none) : recordNote n s = { s with
      tally := { s.tally with fullReported := true }
      arrivals := s.arrivals ++
        (if s.tally.fullReported then [] else [⟨.errorTally, ⟨.tallyFull n.row n.loc 32, s.tally.epoch⟩⟩]) ++
        n.reports true s.tally.epoch } := by
  unfold recordNote
  rw [h]
  dsimp only
  rw [f]
  dsimp only
  rw [v]
  unfold unrecorded Note.reports
  have same : s.tally.fullReported = true → { s.tally with fullReported := true } = s.tally := by
    intro x; rw [← x]
  cases hr : s.tally.fullReported <;> cases hb : n.bad <;> simp [reportUncorrectable, produce, same, hr]

end Sys2Proof.Machine
end

