-- ==== Sys2Proof/Laws/State.lean ====
section
/-! SUPPORT. Reading a part of the state after each named update, true by definition. -/

namespace Sys2Proof.Machine

section Updates

variable (s : State)

@[simp] theorem putSlot_slots (k : SlotNum) (r : SlotRec) :
    (s.putSlot k r).slots = ⟨s.slots.recs.set k r, s.slots.latch⟩ := rfl

@[simp] theorem putTag_tracker (t : TagNum) (r : Tag) :
    (s.putTag t r).tracker = { s.tracker with tags := s.tracker.tags.set t r } := rfl

@[simp] theorem putEntry_tally (p : Fin 32) (e : Option TallyEntry) :
    (s.putEntry p e).tally = { s.tally with entries := s.tally.entries.set p e } := rfl

@[simp] theorem putDesc_urgent (k : Fin 8) (d : Descriptor) :
    (s.putDesc (.urgent k) d).engine = { s.engine with urgent := s.engine.urgent.set k d } := rfl

@[simp] theorem putDesc_routine (k : Fin 24) (d : Descriptor) :
    (s.putDesc (.routine k) d).engine = { s.engine with routine := s.engine.routine.set k d } := rfl

@[simp] theorem putRecord_fuse (i : Fin 96) (r : FuseBytes) :
    (s.putRecord i r).fuse = { s.fuse with records := s.fuse.records.set i r } := rfl

@[simp] theorem putReportSlot_reports (k : Fin 64) (r : ReportSlot) :
    (s.putReportSlot k r).reports = { s.reports with ring := s.reports.ring.set k r } := rfl

@[simp] theorem produce_arrivals (p : Producer) (b : ReportBody) :
    (produce p b s).arrivals = s.arrivals ++ [⟨p, ⟨b, s.tally.epoch⟩⟩] := rfl

@[simp] theorem send_link (m : OutMsg) : (send m s).link = ⟨s.link.up, s.link.outbound ++ [m]⟩ := rfl

@[simp] theorem putContext_migration (c : Option Context) : (s.putContext c).migration = c := rfl

@[simp] theorem putSettings_config (c : Settings) : (putSettings c s).config = c := rfl

@[simp] theorem putPosition_scrub (p : RowAddr) : (putPosition p s).scrub = { s.scrub with position := p } := rfl

@[simp] theorem putReadData_port (v : Word) : (putReadData v s).port = { s.port with readData := v } := rfl

@[simp] theorem putCounts_fuse (c : LoadCounts) : (putCounts c s).fuse = { s.fuse with counts := c } := rfl

@[simp] theorem putLoading_fuse (k : Nat) : (putLoading k s).fuse = { s.fuse with state := .loading k } := rfl

@[simp] theorem fuseIdle_fuse : (fuseIdle s).fuse = { s.fuse with state := .idle } := rfl

@[simp] theorem putSupply_supplyOk (level : Bool) : (putSupply level s).supplyOk = level := rfl

@[simp] theorem refuseWrite_refused : (refuseWrite s).port.refused = satInc s.port.refused := rfl

@[simp] theorem refuseWrite_flags :
    (refuseWrite s).port.flags = { s.port.flags with portError := true } := rfl

@[simp] theorem raiseReport_port :
    (raiseReport s).port = { s.port with flags := { s.port.flags with report := true } } := rfl

@[simp] theorem raiseOverrun_port :
    (raiseOverrun s).port = { s.port with flags := { s.port.flags with overrun := true } } := rfl

@[simp] theorem raiseJobDone_port :
    (raiseJobDone s).port = { s.port with flags := { s.port.flags with jobDone := true } } := rfl

@[simp] theorem raiseLink_port :
    (raiseLink s).port = { s.port with flags := { s.port.flags with link := true } } := rfl

@[simp] theorem hold_reports (r : Report) : (hold r s).reports =
    { s.reports with held := s.reports.held ++ [⟨r, s.reports.serial⟩], serial := s.reports.serial + 1 } := rfl

@[simp] theorem nextSerial_reports :
    (nextSerial s).reports = { s.reports with serial := s.reports.serial + 1 } := rfl

@[simp] theorem enqueue_tally (r : RowAddr) :
    (enqueue r s).tally = { s.tally with queue := s.tally.queue ++ [r] } := rfl

@[simp] theorem dequeue_tally (r : RowAddr) :
    (dequeue r s).tally = { s.tally with queue := s.tally.queue.filter (· ≠ r) } := rfl

@[simp] theorem addPoison_query (r : RowAddr) (o : Origin) :
    (addPoison r o s).query = { s.query with poison := s.query.poison ++ [⟨r, o, 0, false⟩] } := rfl

@[simp] theorem removePoison_query (r : RowAddr) :
    (removePoison r s).query = { s.query with poison := s.query.poison.filter (fun e => e.row ≠ r) } := rfl

@[simp] theorem stepUrgent_engine :
    (stepUrgent s).engine = { s.engine with urgPos := s.engine.urgPos + 1 } := rfl

@[simp] theorem stepRoutine_engine :
    (stepRoutine s).engine = { s.engine with routPos := s.engine.routPos + 1 } := rfl

@[simp] theorem startEpoch_tally :
    (startEpoch s).tally = { s.tally with epochTimer := .running s.config.epochMicros } := rfl

end Updates

end Sys2Proof.Machine
end

