-- ==== Sys2Proof/Laws/Reports.lean ====
section
/-! SUPPORT. The order in which the report unit takes the reports of one event, with one producer and with several. -/

namespace Sys2Proof.Machine

theorem producersOf_producer {p : Producer} : ∀ {l : List Arrival}, l ≠ [] → (∀ a ∈ l, a.producer = p) →
    producersOf l = [p]
  | [], h, _ => absurd rfl h
  | [a], _, h => by simp [producersOf, h a (by simp)]
  | a :: b :: as, _, h => by
      have ih := producersOf_producer (l := b :: as) (by simp) fun x hx => h x (by simp [hx])
      simp only [producersOf] at ih ⊢
      rw [ih, h a (by simp)]
      simp

/-- Reports of one producer keep their order and use no choice. -/
theorem orderArrivals_producer {p : Producer} (f n : Nat) {l : List Arrival} (h : ∀ a ∈ l, a.producer = p) :
    orderArrivals f n l = (l, n) := by
  cases f with
  | zero => rfl
  | succ f =>
    by_cases hl : l = []
    · subst hl; rfl
    · simp [orderArrivals, producersOf_producer hl h]

theorem settleReports_nil {s : State} (h : s.arrivals = []) : settleReports s = s := by
  simp [settleReports, h]

theorem settleReports_producer {p : Producer} {s : State} (hn : s.arrivals ≠ []) (h : ∀ a ∈ s.arrivals, a.producer = p) :
    settleReports s = decideScrub (arriveAll s.arrivals { s with arrivals := [] }) := by
  simp only [settleReports, if_neg hn, takeArrivals, orderArrivals_producer _ _ h]

theorem settleReports_one {s : State} {a : Arrival} (h : s.arrivals = [a]) :
    settleReports s = decideScrub (arrive a.report { s with arrivals := [] }) := by
  rw [settleReports_producer (p := a.producer) (by simp [h]) (by simp [h]), h]
  rfl

theorem arriveAll_eq_foldl : ∀ (l : List Arrival) (s : State),
    arriveAll l s = (l.map (·.report)).foldl (fun t r => arrive r t) s
  | [], _ => rfl
  | a :: as, s => arriveAll_eq_foldl as (arrive a.report s)

theorem settleReports_arrivals (s : State) : (settleReports s).arrivals = [] := by
  have hd : ∀ u : State, (decideScrub u).arrivals = u.arrivals := by
    intro u; unfold decideScrub; split
    · rfl
    · split <;> rfl
  have ha : ∀ r (u : State), (arrive r u).arrivals = u.arrivals := by
    intro r u; unfold arrive loseReport
    split
    · rfl
    · split
      · rfl
      · dsimp only; split <;> rfl
  have hl : ∀ (l : List Arrival) (u : State), (arriveAll l u).arrivals = u.arrivals := by
    intro l
    induction l with
    | nil => intro u; rfl
    | cons a as ih => intro u; exact (ih _).trans (ha _ _)
  unfold settleReports
  split
  · assumption
  · rw [hd]; exact hl _ _

theorem takeFrom_producer {p : Producer} : ∀ {l : List Arrival} {a : Arrival} {r : List Arrival},
    takeFrom p l = some (a, r) → a.producer = p
  | [], _, _, h => by cases h
  | b :: bs, a, r, h => by
      simp only [takeFrom] at h
      split at h
      · cases h; assumption
      · split at h
        · rename_i hc; cases h; exact takeFrom_producer hc
        · cases h

/-- The oldest report of a producer taken out and put in front: the same reports, each producer's in its order. -/
theorem takeFrom_order {p : Producer} : ∀ {l : List Arrival} {a : Arrival} {r : List Arrival},
    takeFrom p l = some (a, r) → (a :: r).Perm l ∧
      ∀ q, (a :: r).filter (fun x => x.producer = q) = l.filter (fun x => x.producer = q)
  | [], _, _, h => by cases h
  | b :: bs, a, r, h => by
      simp only [takeFrom] at h
      split at h
      · cases h; exact ⟨List.Perm.refl _, fun _ => rfl⟩
      · rename_i hb
        split at h
        · rename_i cs hc
          cases h
          obtain ⟨hp, hf⟩ := takeFrom_order hc
          have ha := takeFrom_producer hc
          refine ⟨(List.Perm.swap b a _).trans (hp.cons b), fun q => ?_⟩
          have hq := hf q
          by_cases h1 : a.producer = q <;> by_cases h2 : b.producer = q
          · exact absurd (h2.trans (h1.symm.trans ha)) hb
          all_goals
            simp only [List.filter_cons, h1, h2, decide_true, decide_false, Bool.false_eq_true, if_true, if_false] at hq ⊢
            rw [hq]
        · cases h

/-- The report unit takes each report of an event once, and those of one producer in their order (R176). -/
theorem orderArrivals_order : ∀ (f n : Nat) (l : List Arrival), (orderArrivals f n l).1.Perm l ∧
    ∀ q, (orderArrivals f n l).1.filter (fun x => x.producer = q) = l.filter (fun x => x.producer = q)
  | 0, _, _ => ⟨List.Perm.refl _, fun _ => rfl⟩
  | f + 1, n, l => by
      unfold orderArrivals
      split
      · exact ⟨List.Perm.refl _, fun _ => rfl⟩
      · exact ⟨List.Perm.refl _, fun _ => rfl⟩
      · dsimp only
        split
        · exact ⟨List.Perm.refl _, fun _ => rfl⟩
        · rename_i a rest h
          obtain ⟨hp, hf⟩ := takeFrom_order h
          obtain ⟨ip, jf⟩ := orderArrivals_order f (n + 1) rest
          refine ⟨(ip.cons a).trans hp, fun q => ?_⟩
          rw [← hf q]
          simp only [List.filter_cons, jf q]

/-- What the report unit does in an event with reports of any producers (R176). -/
theorem settleReports_order {s : State} (hn : s.arrivals ≠ []) : ∃ (l : List Arrival) (n : Nat), l.Perm s.arrivals ∧
    (∀ p, l.filter (fun a => a.producer = p) = s.arrivals.filter (fun a => a.producer = p)) ∧
    settleReports s = decideScrub ((l.map (·.report)).foldl (fun t r => arrive r t)
      { s with arrivals := [], freeCount := n }) := by
  obtain ⟨hp, hf⟩ := orderArrivals_order s.arrivals.length s.freeCount s.arrivals
  refine ⟨_, (orderArrivals s.arrivals.length s.freeCount s.arrivals).2, hp, hf, ?_⟩
  rw [settleReports, if_neg hn, takeArrivals, arriveAll_eq_foldl]

end Sys2Proof.Machine
end

