-- ==== Sys2Proof/Laws/Slots.lean ====
section
/-! SUPPORT. What each claim on the spare slot table does to the slot it names, by the state it finds (R5 to R19). -/

namespace Sys2Proof.Machine

variable {s : State} {k : SlotNum}

theorem reserve_free (r : RowAddr) (h : s.slot k = .free) : reserve k r s = s.putSlot k (.reserved r.victim) := by
  simp only [reserve, h]

theorem switchTarget_reserved {v : Victim} (h : s.slot k = .reserved v) : switchTarget k s = s.putSlot k (.soft v) := by
  simp only [switchTarget, h]

theorem retireSource_soft {v : Victim} (h : s.slot k = .soft v) :
    retireSource k s = s.putSlot k (.retired (some v) none) := by
  simp only [retireSource, h]

theorem retireSource_hard {v : Victim} {i : Fin 96} (h : s.slot k = .hard v i) :
    retireSource k s = s.putSlot k (.retired (some v) (some i)) := by
  simp only [retireSource, h]

theorem freeSource_soft {v : Victim} (h : s.slot k = .soft v) : freeSource k s = s.putSlot k .free := by
  simp only [freeSource, h]

theorem abortRelease_held {v : Victim} (h : s.slot k = .reserved v) (c : s.copyHeld k = true) :
    abortRelease k s = s.putSlot k (.draining v) := by
  simp only [abortRelease, h, c, if_true]

theorem abortRelease_notHeld {v : Victim} (h : s.slot k = .reserved v) (c : s.copyHeld k = false) :
    abortRelease k s = s.putSlot k .free := by
  simp only [abortRelease, h, c, Bool.false_eq_true, if_false]

theorem abortRelease_other (h : ∀ v, s.slot k ≠ .reserved v) : abortRelease k s = s := by
  unfold abortRelease; split
  · rename_i e; exact absurd e (h _)
  · rfl

theorem drainRelease_draining {v : Victim} (h : s.slot k = .draining v) : drainRelease k s = s.putSlot k .free := by
  simp only [drainRelease, h]

theorem drainRelease_other (h : ∀ v, s.slot k ≠ .draining v) : drainRelease k s = s := by
  unfold drainRelease; split
  · rename_i e; exact absurd e (h _)
  · rfl

theorem beginCommit_soft {v : Victim} (h : s.slot k = .soft v) : beginCommit k s = s.putSlot k (.committing v) := by
  simp only [beginCommit, h]

theorem commitGood_committing {v : Victim} (i : Fin 96) (h : s.slot k = .committing v) :
    commitGood k i s = s.putSlot k (.hard v i) := by
  simp only [commitGood, h]

theorem commitBad_committing {v : Victim} (h : s.slot k = .committing v) : commitBad k s = s.putSlot k (.soft v) := by
  simp only [commitBad, h]

theorem condemn_free (h : s.slot k = .free) : condemn k s = s.putSlot k (.retired none none) := by
  simp only [condemn, h]

theorem condemnFused_retired {v : Option Victim} {f : Option (Fin 96)} (i : Fin 96) (h : s.slot k = .retired v f) :
    condemnFused k i s = s.putSlot k (.retired v (some i)) := by
  simp only [condemnFused, h]

theorem installMap_free (v : Victim) (i : Fin 96) (h : s.slot k = .free) :
    installMap k v i s = s.putSlot k (.hard v i) := by
  simp only [installMap, h]

theorem installSupersede_hard {v : Victim} {m : Fin 96} (i : Fin 96) (h : s.slot k = .hard v m) :
    installSupersede k i s = s.putSlot k (.retired (some v) (some i)) := by
  simp only [installSupersede, h]

theorem installCondemn_free (i : Fin 96) (h : s.slot k = .free) :
    installCondemn k i s = s.putSlot k (.retired none (some i)) := by
  simp only [installCondemn, h]

end Sys2Proof.Machine
end

