-- ==== Sys2Proof/Laws/Restart.lean ====
section
/-! SUPPORT. The parts of an engine restart: what abandoning does to a tag, a completion to a descriptor, an abort to the
target slot, and the restart to both rings. -/

namespace Sys2Proof.Machine

/-! ### Tags -/

/-- What abandonment makes of a tag (R83). -/
def Tag.abandoned (timer : Timer) : Tag → Tag
  | .free => .free
  | .outstanding h => .quarantined { h with timer := timer }
  | .quarantined h => .quarantined h

theorem abandon_tag (t j : TagNum) (s : State) :
    (abandon t s).tag j = if t = j then (s.tag j).abandoned s.opTimer else s.tag j := by
  unfold abandon
  by_cases e : t = j
  · subst e
    rw [if_pos rfl]
    cases h : s.tag t with
    | free => exact h
    | outstanding x => exact (tag_putTag _ _ _ _).trans (if_pos rfl)
    | quarantined x => exact h
  · rw [if_neg e]
    split
    · exact (tag_putTag _ _ _ _).trans (if_neg e)
    · rfl
    · rfl

theorem abandon_opTimer (t : TagNum) (s : State) : (abandon t s).opTimer = s.opTimer := by
  unfold State.opTimer; rw [abandon_same t s .config (by decide)]

theorem abandon_counts (t : TagNum) (s : State) : (abandon t s).tracker.staleDone = s.tracker.staleDone ∧
    (abandon t s).tracker.retries = s.tracker.retries := by
  unfold abandon; split <;> exact ⟨rfl, rfl⟩

theorem abandonAll_tag (j : TagNum) (s : State) : (abandonAll s).tag j = (s.tag j).abandoned s.opTimer := by
  show (abandon 3 (abandon 2 (abandon 1 (abandon 0 s)))).tag j = _
  simp only [abandon_tag, abandon_opTimer]
  revert j; intro j
  fin_cases j <;> rfl

theorem abandonAll_counts (s : State) : (abandonAll s).tracker.staleDone = s.tracker.staleDone ∧
    (abandonAll s).tracker.retries = s.tracker.retries := by
  show (abandon 3 (abandon 2 (abandon 1 (abandon 0 s)))).tracker.staleDone = _ ∧ _
  have a := abandon_counts 3 (abandon 2 (abandon 1 (abandon 0 s)))
  have b := abandon_counts 2 (abandon 1 (abandon 0 s))
  have c := abandon_counts 1 (abandon 0 s)
  have d := abandon_counts 0 s
  exact ⟨a.1.trans (b.1.trans (c.1.trans d.1)), a.2.trans (b.2.trans (c.2.trans d.2))⟩

theorem abandoned_abandoned (m : Timer) (x : Tag) : (x.abandoned m).abandoned m = x.abandoned m := by cases x <;> rfl

theorem abandonCopy_tag (c : Context) (j : TagNum) (s : State) :
    (abandonCopy c s).tag j = if c.copyTag = some j then (s.tag j).abandoned s.opTimer else s.tag j := by
  unfold abandonCopy
  cases h : c.copyTag with
  | none => rfl
  | some t =>
    refine (abandon_tag t j s).trans ?_
    by_cases e : t = j
    · rw [if_pos e, if_pos (congrArg some e)]
    · rw [if_neg e, if_neg fun x => e (Option.some.inj x)]

theorem abandonCopy_counts (c : Context) (s : State) : (abandonCopy c s).tracker.staleDone = s.tracker.staleDone ∧
    (abandonCopy c s).tracker.retries = s.tracker.retries := by
  unfold abandonCopy; split
  · exact abandon_counts _ _
  · exact ⟨rfl, rfl⟩

/-- A COPY into slot `k` is held (R11). -/
theorem copyHeld_iff (s : State) (k : SlotNum) : s.copyHeld k = true ↔
    ∃ t h r a, (s.tag t = .outstanding h ∨ s.tag t = .quarantined h) ∧ h.op = .copy r a (.slot k) := by
  unfold State.copyHeld
  rw [List.any_eq_true]
  constructor
  · rintro ⟨t, _, h⟩
    split at h
    · cases h
    · rename_i x hx
      split at h
      · rename_i r a b hb
        exact ⟨t, x, r, a, .inl hx, by rw [hb, of_decide_eq_true h]⟩
      · cases h
    · rename_i x hx
      split at h
      · rename_i r a b hb
        exact ⟨t, x, r, a, .inr hx, by rw [hb, of_decide_eq_true h]⟩
      · cases h
  · rintro ⟨t, x, r, a, hx, ho⟩
    refine ⟨t, ?_, ?_⟩
    · fin_cases t <;> simp [tagNumbers]
    · rcases hx with hx | hx <;> simp [hx, ho]

/-- Abandoning a tag keeps what it holds. -/
theorem abandonCopy_copyHeld (c : Context) (k : SlotNum) (s : State) :
    (abandonCopy c s).copyHeld k = s.copyHeld k := by
  rw [Bool.eq_iff_iff, copyHeld_iff, copyHeld_iff]
  have tag (t) := abandonCopy_tag c t s
  constructor
  · rintro ⟨t, x, r, a, hx, ho⟩
    rw [tag] at hx
    by_cases e : c.copyTag = some t
    · rw [if_pos e] at hx
      cases hs : s.tag t with
      | free => rw [hs] at hx; rcases hx with hx | hx <;> cases hx
      | outstanding y =>
        rw [hs] at hx
        rcases hx with hx | hx <;> cases hx
        exact ⟨t, y, r, a, .inl hs, ho⟩
      | quarantined y =>
        rw [hs] at hx
        rcases hx with hx | hx <;> cases hx
        exact ⟨t, x, r, a, .inr hs, ho⟩
    · rw [if_neg e] at hx; exact ⟨t, x, r, a, hx, ho⟩
  · rintro ⟨t, x, r, a, hx, ho⟩
    by_cases e : c.copyTag = some t
    · rcases hx with hx | hx
      · exact ⟨t, { x with timer := s.opTimer }, r, a, .inr (by rw [tag, if_pos e, hx]; rfl), ho⟩
      · exact ⟨t, x, r, a, .inr (by rw [tag, if_pos e, hx]; rfl), ho⟩
    · exact ⟨t, x, r, a, by rw [tag, if_neg e]; exact hx, ho⟩

/-! ### Completion -/

theorem complete_device (d : Descriptor) (r : Result) : (d.complete r).device = false := by
  show (d.w0 &&& 0xFFFFFFFE).getLsbD 0 = false
  simp

theorem completeInFlight_none {r : Result} {s : State} (h : s.jobInFlight = none) : completeInFlight r s = s := by
  unfold completeInFlight; rw [h]

theorem completeInFlight_urgent {r : Result} {s : State} {j : Job} (hj : s.jobInFlight = some j)
    (hs : j.source = .urgent) : completeInFlight r s = leaveBusy (completeUrgent r s) := by
  unfold completeInFlight; rw [hj]; dsimp only; unfold deliverResult; rw [hs]

theorem completeInFlight_routine {r : Result} {s : State} {j : Job} (hj : s.jobInFlight = some j)
    (hs : j.source = .routine) : completeInFlight r s = leaveBusy (completeRoutine r s) := by
  unfold completeInFlight; rw [hj]; dsimp only; unfold deliverResult; rw [hs]

theorem completeInFlight_selfRepair {r : Result} {s : State} {j : Job} (hj : s.jobInFlight = some j)
    (hs : j.source = .selfRepair) : completeInFlight r s = leaveBusy (completeSelfRepair j.row j.kind r s) := by
  unfold completeInFlight; rw [hj]; dsimp only; unfold deliverResult; rw [hs]

theorem inFlight_none {s : State} (h : s.jobInFlight = none) (i : DescId) : s.inFlight i = false := by
  unfold State.inFlight; rw [h]

theorem inFlight_urgent {s : State} {j : Job} (hj : s.jobInFlight = some j) (hs : j.source = .urgent) (i : DescId) :
    s.inFlight i = decide (i = s.urgentHead) := by
  unfold State.inFlight; rw [hj]; dsimp only; rw [hs]

theorem inFlight_routine {s : State} {j : Job} (hj : s.jobInFlight = some j) (hs : j.source = .routine) (i : DescId) :
    s.inFlight i = decide (i = s.routineHead) := by
  unfold State.inFlight; rw [hj]; dsimp only; rw [hs]

theorem inFlight_selfRepair {s : State} {j : Job} (hj : s.jobInFlight = some j) (hs : j.source = .selfRepair)
    (i : DescId) : s.inFlight i = false := by
  unfold State.inFlight; rw [hj]; dsimp only; rw [hs]

theorem completeInFlight_desc (r : Result) (s : State) (i : DescId) :
    (completeInFlight r s).desc i = if s.inFlight i = true then (s.desc i).complete r else s.desc i := by
  have put (j : DescId) : (s.putDesc j ((s.desc j).complete r)).desc i =
      if i = j then (s.desc i).complete r else s.desc i := by
    rw [desc_putDesc]
    by_cases e : j = i
    · rw [if_pos e, if_pos e.symm, e]
    · rw [if_neg e, if_neg fun x => e x.symm]
  cases hj : s.jobInFlight with
  | none => rw [completeInFlight_none hj, inFlight_none hj, if_neg (by decide)]
  | some j =>
    cases hs : j.source with
    | urgent =>
      rw [completeInFlight_urgent hj hs, inFlight_urgent hj hs]
      simp only [decide_eq_true_eq]
      refine Eq.trans ?_ (put s.urgentHead)
      cases i <;> rfl
    | routine =>
      rw [completeInFlight_routine hj hs, inFlight_routine hj hs]
      simp only [decide_eq_true_eq]
      refine Eq.trans ?_ (put s.routineHead)
      cases i <;> rfl
    | selfRepair =>
      rw [completeInFlight_selfRepair hj hs, inFlight_selfRepair hj hs, if_neg (by decide)]
      have : (completeSelfRepair j.row j.kind r s).engine = s.engine :=
        completeSelfRepair_same _ _ _ _ .engine (by decide)
      cases i with
      | urgent k => have h := congrArg (fun e : JobEngine => e.urgent.get k) this; exact h
      | routine k => have h := congrArg (fun e : JobEngine => e.routine.get k) this; exact h

/-- A descriptor job that completes sets JOB_DONE; nothing else of the port changes (R148, R149). -/
theorem completeInFlight_port (r : Result) (s : State) :
    ((∃ i, s.inFlight i = true) →
      (completeInFlight r s).port = { s.port with flags := { s.port.flags with jobDone := true } }) ∧
    ((∀ i, s.inFlight i = false) → (completeInFlight r s).port = s.port) := by
  cases hj : s.jobInFlight with
  | none =>
    rw [completeInFlight_none hj]
    refine ⟨?_, fun _ => rfl⟩
    rintro ⟨i, h⟩
    rw [inFlight_none hj] at h
    exact absurd h (by decide)
  | some j =>
    cases hs : j.source with
    | urgent =>
      rw [completeInFlight_urgent hj hs]
      refine ⟨fun _ => rfl, fun h => ?_⟩
      have := h s.urgentHead
      rw [inFlight_urgent hj hs] at this; simp at this
    | routine =>
      rw [completeInFlight_routine hj hs]
      refine ⟨fun _ => rfl, fun h => ?_⟩
      have := h s.routineHead
      rw [inFlight_routine hj hs] at this; simp at this
    | selfRepair =>
      rw [completeInFlight_selfRepair hj hs]
      refine ⟨?_, fun _ => completeSelfRepair_same _ _ _ _ .port (by decide)⟩
      rintro ⟨i, h⟩
      rw [inFlight_selfRepair hj hs] at h
      exact absurd h (by decide)

/-- Where no self-repair job is in flight, a completion leaves the tally and produces no report. -/
theorem completeInFlight_tally {r : Result} {s : State} (h : ∀ j, s.jobInFlight = some j → j.source ≠ .selfRepair) :
    (completeInFlight r s).tally = s.tally ∧ (completeInFlight r s).arrivals = s.arrivals := by
  cases hj : s.jobInFlight with
  | none => rw [completeInFlight_none hj]; exact ⟨rfl, rfl⟩
  | some j =>
    cases hs : j.source with
    | urgent => rw [completeInFlight_urgent hj hs]; exact ⟨rfl, rfl⟩
    | routine => rw [completeInFlight_routine hj hs]; exact ⟨rfl, rfl⟩
    | selfRepair => exact absurd hs (h j hj)

/-! ### The abort -/

theorem slotUsed_target {c : Context} {k : SlotNum} (h : c.direction ≠ .revert) (ht : c.target = .slot k) :
    c.slotUsed = some k := by
  unfold Context.slotUsed
  cases hd : c.direction with
  | forward => dsimp only; rw [ht]; rfl
  | respare => dsimp only; rw [ht]; rfl
  | revert => exact absurd hd h

theorem slotUsed_source {c : Context} {k : SlotNum} (h : c.direction = .revert) (hs : c.source = .slot k) :
    c.slotUsed = some k := by
  unfold Context.slotUsed; rw [h]; dsimp only; rw [hs]; rfl

theorem releaseTarget_slot {c : Context} {k : SlotNum} (h : c.direction ≠ .revert) (ht : c.target = .slot k) (s : State) :
    releaseTarget c s = abortRelease k s := by
  unfold releaseTarget
  cases hd : c.direction with
  | forward => rw [ht]
  | respare => rw [ht]
  | revert => exact absurd hd h

theorem releaseTarget_other {c : Context} (h : ∀ k, c.direction = .revert ∨ c.target ≠ .slot k) (s : State) :
    releaseTarget c s = s := by
  unfold releaseTarget
  split
  · rename_i k hd ht; rcases h k with x | x
    · rw [hd] at x; cases x
    · exact absurd ht x
  · rename_i k hd ht; rcases h k with x | x
    · rw [hd] at x; cases x
    · exact absurd ht x
  · rfl

/-- The release of an aborted migration's target (R11, R58), at every slot. -/
theorem releaseTarget_slots (c : Context) (s : State) (n : SlotNum) :
    (∀ v, c.direction ≠ .revert → c.target = .slot n → s.slot n = .reserved v →
      (releaseTarget c s).slot n = if s.copyHeld n = true then .draining v else .free) ∧
    ((c.direction = .revert ∨ c.target ≠ .slot n ∨ ∀ v, s.slot n ≠ .reserved v) →
      (releaseTarget c s).slot n = s.slot n) := by
  constructor
  · intro v hd ht hs
    rw [releaseTarget_slot hd ht]
    cases hc : s.copyHeld n with
    | true => rw [abortRelease_held hs hc, slot_putSlot, if_pos rfl, if_pos rfl]
    | false => rw [abortRelease_notHeld hs hc, slot_putSlot, if_pos rfl, if_neg (by decide)]
  · intro h
    by_cases hr : ∀ k, c.direction = .revert ∨ c.target ≠ .slot k
    · rw [releaseTarget_other hr]
    · simp only [not_forall, not_or, not_not] at hr
      obtain ⟨k, hd, ht⟩ := hr
      rw [releaseTarget_slot hd ht]
      by_cases hk : ∃ v, s.slot k = .reserved v
      · obtain ⟨v, hv⟩ := hk
        have ne : k ≠ n := by
          rintro rfl
          rcases h with x | x | x
          · exact hd x
          · exact x ht
          · exact x v hv
        cases hc : s.copyHeld k with
        | true => rw [abortRelease_held hv hc, slot_putSlot, if_neg ne]
        | false => rw [abortRelease_notHeld hv hc, slot_putSlot, if_neg ne]
      · rw [abortRelease_other fun v x => hk ⟨v, x⟩]

theorem releaseTarget_latch (c : Context) (s : State) : (releaseTarget c s).slots.latch = s.slots.latch := by
  have rel (k : SlotNum) : (abortRelease k s).slots.latch = s.slots.latch := by
    unfold abortRelease; split
    · rfl
    · rfl
  unfold releaseTarget; split
  · exact rel _
  · exact rel _
  · rfl

/-! ### The rings -/

theorem restartDesc_desc (i j : DescId) (s : State) : (restartDesc i s).desc j =
    if i = j ∧ (s.desc j).device = true then (s.desc j).complete .restarted else s.desc j := by
  unfold restartDesc
  by_cases e : i = j
  · subst e
    by_cases h : (s.desc i).device = true
    · rw [if_pos h, if_pos ⟨rfl, h⟩]; exact (desc_putDesc _ _ _ _).trans (if_pos rfl)
    · rw [if_neg h, if_neg fun x => h x.2]
  · rw [if_neg fun x : i = j ∧ _ => e x.1]
    split
    · exact (desc_putDesc _ _ _ _).trans (if_neg e)
    · rfl

theorem mem_descIds (i : DescId) : i ∈ descIds := by
  cases i <;> simp [descIds]

/-- Step 2 of R152: every DEVICE-owned descriptor is completed RESTARTED. -/
theorem restartDescs_desc (j : DescId) (s : State) : (restartDescs s).desc j =
    if (s.desc j).device = true then (s.desc j).complete .restarted else s.desc j := by
  have walk : ∀ (l : List DescId) (s : State), (l.foldl (fun t i => restartDesc i t) s).desc j =
      if j ∈ l ∧ (s.desc j).device = true then (s.desc j).complete .restarted else s.desc j := by
    intro l
    induction l with
    | nil => intro s; rw [if_neg fun x => absurd x.1 List.not_mem_nil]; rfl
    | cons i l ih =>
      intro s
      refine (ih _).trans ?_
      rw [restartDesc_desc]
      by_cases hd : (s.desc j).device = true
      · by_cases e : i = j
        · subst e
          have step : (if i = i ∧ (s.desc i).device = true then (s.desc i).complete .restarted else s.desc i) =
              (s.desc i).complete .restarted := if_pos ⟨rfl, hd⟩
          rw [step, complete_device]
          exact (if_neg fun x => Bool.noConfusion x.2).trans (if_pos ⟨List.mem_cons_self, hd⟩).symm
        · have step : (if i = j ∧ (s.desc j).device = true then (s.desc j).complete .restarted else s.desc j) =
              s.desc j := if_neg fun x => e x.1
          have mem : j ∈ i :: l ↔ j ∈ l := by
            rw [List.mem_cons]; exact ⟨fun x => x.resolve_left fun y => e y.symm, .inr⟩
          rw [step]
          simp only [mem]
      · have step : (if i = j ∧ (s.desc j).device = true then (s.desc j).complete .restarted else s.desc j) =
            s.desc j := if_neg fun x => hd x.2
        rw [step, if_neg fun x => hd x.2, if_neg fun x => hd x.2]
  refine (walk descIds s).trans ?_
  simp only [mem_descIds, true_and]

end Sys2Proof.Machine
end

