-- ==== Sys2Proof/Tests/Slice0.lean ====
section
/-! SUPPORT. Tests of the model's own: the well-formedness checks, words of spec/11 read and written, single events of the
worked sequences, and for each statement with hypotheses a state and operands that meet them together. -/

namespace Sys2Proof.Tests

set_option maxRecDepth 20000
set_option Elab.async false

open Machine

/-! ### States the tests stand on -/

/-- Running, link UP, fuse store IDLE, engine STOPPED, nothing held. -/
def up : State := { State.reset with
  resetLow := false, device := .running, link := ⟨true, []⟩, fuse := { State.reset.fuse with state := .idle } }

/-- Loading, RESET_N high, the first fuse records as given. -/
def loading (l : List (Fin 96 × FuseBytes)) : State := { State.reset with
  resetLow := false
  fuse := { State.reset.fuse with records := l.foldl (fun v x => v.set x.1 x.2) State.reset.fuse.records,
                                  writePos := l.length } }

/-- A finished MAP record of sequence 1 for slot `k` and row 77 of bank 0. -/
def mapRecord (k : BitVec 6) : FuseBytes := (FuseBytes.program 1 1 k 0 77).finish

/-- A finished CONDEMN record of sequence 1 for slot `k`. -/
def condemnRecord (k : BitVec 6) : FuseBytes := (FuseBytes.program 2 1 k 0 0).finish

/-- Row `n` of channel 0, bank group 0, bank 0; its pool holds slots 0 to 3. -/
def row (n : BitVec 17) : RowAddr := ⟨0, 0, 0, n⟩

/-- A tally entry of row 0 at ROW with a count and a state. -/
def entry (n : Nat) (x : TallyState) : TallyEntry := ⟨row 0, .row, n, false, x, 0, false, false⟩

/-- A SPARE of row 7 into slot 0 from the urgent ring: context without a tag, the job in flight. -/
def sparing : Context := .new .forward (row 7) .row (.slot 0) true

/-- The same SPARE with its first COPY on tag 0. -/
def copying : Context := { sparing with copyTag := some 0, issued := 1 }

/-- An UNSPARE of row 7 from slot 3. -/
def reverting : Context := .new .revert (row 7) (.slot 3) .row true

/-- What tag 0 holds for that COPY at an attempt. -/
def copyHeld (a : Fin 2) : HeldOp := ⟨.migration, .copy (row 7) .row (.slot 0), a, .running 2000⟩

/-- A VERIFY of row 7 at ROW at an attempt. -/
def verifyHeld (a : Fin 2) : HeldOp := ⟨.scrub, .verify (row 7) .row, a, .running 2000⟩

/-- `up` in that migration, with the context and the tag as given. -/
def migrating (c : Context) (x : Tag) : State :=
  { ((up.putSlot 0 (.reserved ⟨0, 7⟩)).putTag 0 x) with
    migration := some c, engine := { State.reset.engine with state := .busy ⟨.urgent, .spare, row 7⟩ } }

/-- `up` with a fuse job in flight that programs record 0 for slot `k`. -/
def fusing (kind : RecordKind) (job : JobKind) (k : SlotNum) (r : SlotRec) : State :=
  { ((up.putSlot k r).putRecord 0 (FuseRequest.bytes ⟨kind, k, ⟨0, 77⟩⟩ 1)) with
    engine := { State.reset.engine with state := .busy ⟨.urgent, job, row 77⟩ }
    fuse := { (up.putRecord 0 (FuseRequest.bytes ⟨kind, k, ⟨0, 77⟩⟩ 1)).fuse with
      writePos := 1, nextSeq := 2, state := .programming 0 kind k } }

/-- `up` with 32 entries of one state. -/
def fullTally (x : TallyState) : State :=
  { up with tally := { up.tally with entries := .replicate 32 (some (entry 1 x)) } }

/-- `up` with the settings changed. -/
def withMode (m : RepairMode) (n : Nat) : State := { up with
  config := { up.config with mode := m }
  tally := { up.tally with queue := (List.range n).map fun i => row (BitVec.ofNat 17 (100 + i)) } }

/-- A poison list of the rows from 100 on. -/
def listed (n : Nat) : List PoisonEntry :=
  (List.range n).map fun i => ⟨row (BitVec.ofNat 17 (100 + i)), .software, 0, false⟩

/-- `up` with the engine IDLE and one descriptor DEVICE-owned with the kind code. -/
def handedOver (i : DescId) (kind : Nat) : State :=
  let s : State := { up with engine := { up.engine with state := .idle } }
  s.putDesc i ⟨BitVec.ofNat 32 (16 * kind + 1), 0, 0, 0⟩

/-- A report that any test may hold. -/
def held : HeldReport := ⟨⟨.linkChange true, 0⟩, 0⟩

/-! ### Well-formedness: each check refuses an ill-formed term -/

theorem test_wf_unknownMessage : (Instr.unknownMessage 0x00000001).wellFormed = false := by decide
theorem test_wf_programmingCompletion :
    (Instr.programmingCompletion (some (mapRecord 4))).wellFormed = false ∧
      (Instr.programmingCompletion (some 0x40)).wellFormed = false ∧
      (Instr.programmingCompletion (some 0xC0)).wellFormed = true := by decide +kernel
theorem test_wf_badCommand :
    (Instr.badCommand 1).wellFormed = false ∧ (Instr.badCommand 2).wellFormed = false := by decide
theorem test_wf_descriptorWrite :
    (Instr.descriptorWrite 0x480 0).wellFormed = false ∧ (Instr.descriptorWrite 0x402 0).wellFormed = false := by decide
theorem test_wf_handOver :
    (Instr.handOver 0x404 1).wellFormed = false ∧ (Instr.handOver 0x400 0).wellFormed = false := by decide
theorem test_wf_revoke :
    (Instr.revoke 0x404 0).wellFormed = false ∧ (Instr.revoke 0x400 1).wellFormed = false := by decide
theorem test_wf_reportSlotWrite : (Instr.reportSlotWrite 0x1000 0).wellFormed = false := by decide
theorem test_wf_handBack :
    (Instr.handBack 0x804 1).wellFormed = false ∧ (Instr.handBack 0x800 0).wellFormed = false := by decide
theorem test_wf_writeRefused : (Instr.writeRefused 0x004 .w32 0).wellFormed = false := by decide

/-! ### Words of the spec -/

/-- spec/11, 11.4.1: c2 g1 b3 row 4100 is 0x004E1004. -/
theorem test_row_word :
    RowAddr.toWord ⟨2, 1, 3, 4100⟩ = 0x004E1004 ∧ RowAddr.ofWord 0x004E1004 = ⟨2, 1, 3, 4100⟩ := by decide

/-- spec/11, 11.4.6: a READ QUERY of id 0x2A, an uncorrectable ERR_NOTE at slot 5, an OP_DONE of tag 2, attempt 1,
result 2, bit count 3, and a header of kind 4. -/
theorem test_decode_messages :
    decodeMessage 0x00012A01 9 = .query 0x2A 1 9 ∧ decodeMessage 0x00010512 9 = .errNote true 5 true 0 9 ∧
      decodeMessage 0x00032603 0 = .opDone 2 1 2 3 ∧ decodeMessage 0x00000004 0 = .unknownMessage 4 := by decide

/-- No word of the table spells a command. -/
theorem test_no_table_word : decodeTableWord 32 0 = none := rfl

/-- A programmed record reads back its fields and carries a good check; with its finished bit it is check-valid. -/
theorem test_record : (FuseBytes.program 1 1 4 0 77).checkGood = true ∧ (mapRecord 4).checkValid = true ∧
    (mapRecord 4).slotNum = 4 ∧ (mapRecord 4).victim = ⟨0, 77⟩ ∧ (mapRecord 4).sequence = 1 := by decide +kernel

/-- spec/11, 11.4.4, byte by byte: a started MAP record of sequence 0x123 for slot 37, bank 3, row 0x15AC7. Its check
0xB2 is the remainder of the first seven bytes (the first with its marks zero and the initial value in) by 0x14D. -/
theorem test_record_word :
    FuseBytes.program 1 0x123 37 3 0x15AC7 = 0xB2C75A8325301281 ∧ checkOf 0xB2C75A8325301281 = 0xB2 ∧
      fuseLayout ⟨true, false, 1, 0x123, 37, 3, 0x15AC7, 0xB2⟩ ⟨0, 0, 0, 0⟩ = 0xB2C75A8325301281 := by decide +kernel

/-! ### Single events -/

/-- The state a command answers. -/
def after (c : Instr) (s : State) : State :=
  match exec c s with
  | .next t => t
  | .fault _ => s
  | .refused _ => s

/-- A QUERY for a mapped row is answered SPARE with its slot (R26). -/
theorem test_query_mapped :
    (after (.query 1 1 77) (up.putSlot 2 (.soft ⟨0, 77⟩))).link.outbound = [.answer 1 (.spare 2)] := by decide +kernel

/-- The hand-over of a SPARE at the fetch position with the engine IDLE reserves slot 0 and issues its COPY on tag 0. -/
theorem test_hand_over_spare :
    let s : State := { up with engine := { up.engine with state := .idle } }
    let t := after (.handOver 0x400 0x00000111) { s with engine := { s.engine with
      urgent := s.engine.urgent.set 0 ⟨0, 7, 0, 0⟩ } }
    t.slot 0 = .reserved ⟨0, 7⟩ ∧ t.migration = some { copying with poisonOnBad := false } ∧
      t.link.outbound = [.opReq 0 0 (.copy (row 7) .row (.slot 0))] := by decide +kernel

/-- A clean pass switches: slot 0 is SOFT, the descriptor reads OK with slot 0 and one pass, the job engine is STOPPED by
its enable (R50, R57). -/
theorem test_clean_pass :
    let t := after (.opDone 0 0 1 0) (migrating copying (.outstanding (copyHeld 0)))
    t.slot 0 = .soft ⟨0, 7⟩ ∧ t.migration = none ∧ t.tag 0 = .free ∧
      (t.engine.urgent.get 0).w3 = 0x00018001 ∧ t.engine.state = .stopped := by decide +kernel

/-- Programming that completes as programmed makes the slot HARD by the record (R132). -/
theorem test_programming_completes :
    let t := after (.programmingCompletion none) (fusing .map .promote 0 (.committing ⟨0, 77⟩))
    t.slot 0 = .hard ⟨0, 77⟩ 0 ∧ t.fuse.state = .idle ∧ (t.record 0).checkValid = true := by decide +kernel

/-- The load step of a valid MAP record installs its slot (R128). -/
theorem test_load_step : (after .loadStep (loading [(0, mapRecord 4)])).slot 4 = .hard ⟨0, 77⟩ 0 := by decide +kernel

/-- A slot view read captures the latch in word 0 (R21). -/
theorem test_view_read :
    let t := after (.viewRead 0x1000 .w32) (up.putSlot 0 (.soft ⟨1, 5⟩))
    t.port.readData = 0x80020005 ∧ t.slots.latch = some ⟨0, 0x00000002_80020005⟩ := by decide +kernel

/-! ### Laws at the states above -/

theorem up_slot (k : SlotNum) : up.slot k = .free := by
  revert k; decide +kernel

theorem up_mapsAt (r : RowAddr) (k : SlotNum) : up.mapsAt r k = false := by
  simp [State.mapsAt, up_slot, SlotRec.mapped]

theorem up_tag (t : TagNum) : up.tag t = .free := by
  revert t; decide +kernel

/-- The tag arbiter's law holds where nobody waits. -/
theorem tags_of_quiet {s : State} (h : s.waitsForTag = false) (g : s.scrub.waiting = false) : TagsLaw s :=
  ⟨fun _ x => (Bool.noConfusion (h.symm.trans x)), fun x => (Bool.noConfusion (g.symm.trans x))⟩

theorem up_mapping : MappingLaw up where
  unique r k j h := by rw [up_mapsAt] at h; cases h
  reserved k v h := by rw [up_slot] at h; cases h
  context c h := by cases h
  migrating := by constructor <;> intro h; · cases h
                  · obtain ⟨j, h, _⟩ := h; cases h
  fusing := by constructor <;> intro h; · cases h
               · obtain ⟨j, h, _⟩ := h; cases h
  committing k v h := by rw [up_slot] at h; cases h
  draining k v h := by rw [up_slot] at h; cases h
  outstanding t h g := by rw [up_tag] at g; cases g
  copyTag c t h := by cases h
  down h := by cases h
  loading h := by cases h
  fuseLoading n h := by cases h
  held h := by cases h

theorem up_fuse : FuseLaw up where
  range := by decide
  below i h := absurd h (Nat.not_lt_zero _)
  above := by decide +kernel
  programming i k n h := by cases h
  sequence := by decide

/-! ### Every statement's hypotheses are met together

Named after the statement. A clause at the edge of its range is met at that edge. -/

theorem test_witness_StepTakesFrontCommand :
    ({ up with pending := [.linkDown, .abort] } : State).pending = .linkDown :: [.abort] ∧
      (up.pending = [] ∧ up.link.up = true) ∧ State.reset.pending = [] ∧ State.reset.link.up = false := ⟨rfl, by decide⟩

theorem test_witness_HeldResetTakesNoCommand :
    State.reset.resetLow = true ∧ takenInReset .linkUp = false := by decide

theorem test_witness_ResetReleaseBeginsTheLoad :
    (let s : State := { loading [(0, 0x80)] with resetLow := true }
     s.resetLow = true ∧ 0 < s.firstBlank) ∧ State.reset.firstBlank = 0 := by decide +kernel

theorem test_witness_LoadStepAppliesTheRecord :
    (∀ l ∈ [[(0, 0x80)], [(0, 0xC0)], [((0 : Fin 96), condemnRecord 4)], [(0, mapRecord 4)]],
      (loading l).resetLow = false ∧ (loading l).fuse.state = .loading 0 ∧ 0 < (loading l).fuse.writePos) ∧
    ((loading [(0, 0x80)]).record 0).finished = false ∧
    (((loading [(0, 0xC0)]).record 0).finished = true ∧ ((loading [(0, 0xC0)]).record 0).checkValid = false) ∧
    (((loading [(0, mapRecord 4)]).putSlot 4 (.retired none none)).slot 4 ≠ .free ∧
      (mapRecord 4).checkValid = true ∧ (mapRecord 4).slotNum = 4) ∧
    ((condemnRecord 4).checkValid = true ∧ (condemnRecord 4).kindCode = 2 ∧
      (loading [(0, condemnRecord 4)]).slot (condemnRecord 4).slotNum = .free) ∧
    ((mapRecord 4).kindCode = 1 ∧ (loading [(0, mapRecord 4)]).slot 4 = .free ∧
      ∀ j, (loading [(0, mapRecord 4)]).hardAt ((mapRecord 4).victim.rowAt 4) j = false) ∧
    (let s := (loading [(0, mapRecord 4)]).putSlot 5 (.hard ⟨0, 77⟩ 3)
     s.slot 4 = .free ∧ s.slot 5 = .hard (mapRecord 4).victim 3 ∧
       (∀ n, s.hardAt ((mapRecord 4).victim.rowAt 4) n = true → n = 5) ∧ (5 : SlotNum).val / 4 = (4 : SlotNum).val / 4) := by
  decide +kernel

theorem test_witness_LoadEndStartsTheDevice :
    let s := loading []
    s.resetLow = false ∧ s.fuse.state = .loading 0 ∧ s.fuse.writePos ≤ 0 ∧ s.engine.state = .stopped := by decide +kernel

/-- With scrub enable set and the link UP, the load's end makes the scrubber RUNNING with its timer started (R110). -/
theorem test_load_end_scrubber :
    let s : State := { loading [] with
      link := ⟨true, []⟩, config := { State.reset.config with scrubEnable := true } }
    (after .loadEnd s).scrub.state = .running ∧ (after .loadEnd s).scrub.timer = .running 500 := by decide +kernel

theorem test_witness_LinkUpIsReportedAndServesWaiters :
    (up.resetLow = false ∧ up.link.up = true) ∧
    (let s : State := { up with link := ⟨false, []⟩ }; s.resetLow = false ∧ s.link.up = false) := by decide

theorem test_witness_LinkDownReleasesTagsAndMigration :
    (let s : State := { up with link := ⟨false, []⟩ }; s.resetLow = false ∧ s.link.up = false) ∧
    (up.link.up = true ∧ up.migration = none) ∧
    (let s := migrating copying (.outstanding (copyHeld 0))
     s.resetLow = false ∧ s.link.up = true ∧ s.migration = some copying ∧ copying.direction ≠ .revert ∧
       copying.target = .slot 0 ∧ s.slot 0 = .reserved ⟨0, 7⟩) ∧
    (let s := (up.putSlot 0 (.draining ⟨0, 7⟩)).putTag 1 (.quarantined (copyHeld 1))
     s.slot 0 = .draining ⟨0, 7⟩ ∧ s.tag 1 = .quarantined (copyHeld 1) ∧
       (copyHeld 1).op = .copy (row 7) .row (.slot 0)) ∧
    ((reverting.direction = .revert ∧ reverting.source = .slot 3) ∧ (∀ v, up.slot 1 ≠ .draining v) ∧
      ∀ v, up.slot 1 ≠ .reserved v) := by
  refine ⟨by decide, by decide, by decide +kernel, by decide +kernel, by decide, ?_, ?_⟩ <;> intro v h <;>
    (rw [up_slot] at h; cases h)

theorem test_witness_EveryQueryGetsOneTrueAnswer :
    up.resetLow = false ∧ up.link.up = true ∧ MappingLaw up := ⟨rfl, rfl, up_mapping⟩

theorem test_witness_QueryWhileLoadingOrBeyondR :
    (let s : State := { up with device := .loading }
     s.resetLow = false ∧ s.link.up = true ∧ s.arrivals = [] ∧ s.device = .loading) ∧
    (up.arrivals = [] ∧ up.device = .running ∧ up.config.rows ≤ (RowAddr.ofWord 0x10000).row.toNat) := by decide

theorem test_witness_QueryOfPoisonedRow :
    ∀ b, (let s : State := { up with query := { up.query with poison := [⟨row 65535, .copy, 255, b⟩] } }
      s.resetLow = false ∧ s.link.up = true ∧ s.arrivals = [] ∧ s.device = .running ∧
        (RowAddr.ofWord 0xFFFF).row.toNat < s.config.rows ∧
        s.poisonEntry (RowAddr.ofWord 0xFFFF) = some ⟨row 65535, .copy, 255, b⟩) := by decide +kernel

theorem test_witness_QueryOfMigratingVictim :
    ∀ f, (let c := { copying with phase := if f then .fenced else .copying }
      let s := migrating c (.outstanding (copyHeld 0))
      s.resetLow = false ∧ s.link.up = true ∧ s.arrivals = [] ∧ s.device = .running ∧
        (RowAddr.ofWord 7).row.toNat < s.config.rows ∧ s.poisonEntry (RowAddr.ofWord 7) = none ∧
        s.migration = some c ∧ c.victim = RowAddr.ofWord 7 ∧ (f = true → c.phase = .fenced) ∧
        (f = false → c.phase = .copying)) := by decide +kernel

theorem test_witness_QueryOfMappedOrUnmappedRow :
    (let s := up.putSlot 2 (.soft ⟨0, 7⟩)
     s.resetLow = false ∧ s.link.up = true ∧ s.arrivals = [] ∧ s.device = .running ∧
       (RowAddr.ofWord 7).row.toNat < s.config.rows ∧ s.poisonEntry (RowAddr.ofWord 7) = none ∧ s.migration = none ∧
       s.mapsAt (RowAddr.ofWord 7) 2 = true ∧ ∀ j, s.mapsAt (RowAddr.ofWord 7) j = true → j = 2) ∧
    (up.migration = none ∧ ∀ k, up.mapsAt (RowAddr.ofWord 7) k = false) := by decide +kernel

/-- A slot in each state, the last of its pool. -/
theorem test_witness_Query_slotStates :
    ∀ x ∈ [SlotRec.soft ⟨0, 7⟩, .committing ⟨0, 7⟩, .hard ⟨0, 7⟩ 95, .free, .reserved ⟨0, 7⟩, .draining ⟨0, 7⟩,
      .retired none none, .retired (some ⟨0, 7⟩) (some 0)], (up.putSlot 63 x).slot 63 = x := by decide +kernel

theorem test_witness_StaleErrNoteIsOnlyCounted :
    (let s : State := { up with device := .loading }; s.resetLow = false ∧ s.link.up = true ∧ s.device = .loading) ∧
    up.config.rows ≤ (RowAddr.ofWord 0x10000).row.toNat ∧
    Location.ofMark true 3 ≠ up.location (RowAddr.ofWord 7) ∧
    ((migrating copying .free).migration = some copying ∧ copying.victim = RowAddr.ofWord 7) ∧
    (let s := up.putSlot 2 (.soft ⟨0, 7⟩)
     s.migration = none ∧ s.mapsAt (RowAddr.ofWord 7) 2 = true ∧
       ∀ i, s.mapsAt (RowAddr.ofWord 7) i = true → i = 2) ∧
    (up.migration = none ∧ ∀ j, up.mapsAt (RowAddr.ofWord 7) j = false) := by decide +kernel

/-- The hypotheses common to the clauses, for a note at ROW for row 0. -/
theorem test_witness_AgreeingNote_common (m : RepairMode) (n : Nat) :
    let s := withMode m n
    s.resetLow = false ∧ s.link.up = true ∧ s.arrivals = [] ∧ s.device = .running ∧
      (RowAddr.ofWord 0).row.toNat < s.config.rows ∧ Location.ofMark false 0 = s.location (RowAddr.ofWord 0) :=
  ⟨rfl, rfl, rfl, rfl, (by decide : (RowAddr.ofWord 0).row.toNat < up.config.rows),
    (by cases m <;> decide +kernel : Location.ofMark false 0 = State.location (withMode m 0) (RowAddr.ofWord 0))⟩

/-- An entry one below T stays TRACKING; at T it is promoted, in a mode that permits it or not, with the queue full or
one short of full. A new entry takes a free position, or the evicted entry's. -/
theorem test_witness_AgreeingNoteIsRecordedAndTested :
    (∀ n ∈ [2, 3], ∀ m ∈ [(RepairMode.off, 8), (.spareOnly, 8), (.spareOnly, 7)],
      let s := (withMode m.1 m.2).putEntry 5 (some (entry n .tracking))
      s.findEntry (RowAddr.ofWord 0) = some (5, entry n .tracking) ∧ (entry n .tracking).state = .tracking ∧
        (entry n .tracking).uncorrectable = false ∧ s.tally.queue.length = m.2) ∧
    ((entry 3 .tracking).count < up.config.threshold.toNat ∧ up.config.threshold.toNat ≤ (entry 4 .tracking).count) ∧
    (RepairMode.permits .off .row = false ∧ RepairMode.permits .spareOnly .row = true) ∧
    (up.findEntry (row 0) = none ∧ up.freePosition = some 0) ∧
    (let s := fullTally .tracking
     s.findEntry (row 9) = none ∧ s.freePosition = none ∧ s.evictee = some 0) := by decide +kernel

theorem test_witness_NoteForCandidateOrFullTally :
    (let s := up.putEntry 5 (some (entry 15 .candidate))
     s.resetLow = false ∧ s.link.up = true ∧ s.arrivals = [] ∧ s.device = .running ∧
       (RowAddr.ofWord 0).row.toNat < s.config.rows ∧ Location.ofMark false 0 = s.location (RowAddr.ofWord 0) ∧
       s.findEntry (RowAddr.ofWord 0) = some (5, entry 15 .candidate) ∧ (entry 15 .candidate).state = .candidate) ∧
    (let s := fullTally .candidate
     s.resetLow = false ∧ s.link.up = true ∧ s.arrivals = [] ∧ s.device = .running ∧
       (RowAddr.ofWord 9).row.toNat < s.config.rows ∧ Location.ofMark false 0 = s.location (RowAddr.ofWord 9) ∧
       s.findEntry (RowAddr.ofWord 9) = none ∧ s.freePosition = none ∧ s.evictee = none) :=
  ⟨⟨rfl, rfl, rfl, rfl, by decide, by decide +kernel, by decide +kernel, rfl⟩,
    ⟨rfl, rfl, rfl, rfl, by decide, by decide +kernel, by decide +kernel, by decide +kernel,
      by decide +kernel⟩⟩

theorem test_witness_EvictionPicksTheWeakestTrackingEntry :
    (fullTally .tracking).evictee = some 0 ∧ (fullTally .candidate).evictee = none := by decide +kernel

theorem test_witness_StaleCompletionIsOnlyCounted :
    (up.resetLow = false ∧ up.link.up = true ∧ up.tag 3 = .free) ∧
    ((migrating copying (.outstanding (copyHeld 1))).tag 0 = .outstanding (copyHeld 1) ∧
      (copyHeld 1).attempt ≠ 0) := by decide +kernel

theorem test_witness_QuarantinedTagIsReleased :
    (let s := (up.putSlot 0 (.draining ⟨0, 7⟩)).putTag 0 (.quarantined (copyHeld 1))
     s.resetLow = false ∧ s.link.up = true ∧ s.tag 0 = .quarantined (copyHeld 1) ∧
       (copyHeld 1).op = .copy (row 7) .row (.slot 0) ∧ s.slot 0 = .draining ⟨0, 7⟩) ∧
    ((up.putTag 0 (.quarantined (verifyHeld 1))).tag 0 = .quarantined (verifyHeld 1) ∧
      ∀ r x k v, (verifyHeld 1).op = .copy r x (.slot k) → up.slot k ≠ .draining v) :=
  ⟨by decide +kernel, by decide +kernel, fun _ _ _ _ h => by cases h⟩

/-- FENCED; clean; dirty one below P; dirty at P; and both sorts of result. -/
theorem test_witness_PassCompletionFollowsTheTable :
    (∀ c ∈ [{ copying with phase := .fenced }, copying, { copying with dirty := true, pass := 2 },
        { copying with dirty := true, pass := 3 }],
      let s := migrating c (.outstanding (copyHeld 0))
      s.resetLow = false ∧ s.link.up = true ∧ s.tag 0 = .outstanding (copyHeld 0) ∧ (copyHeld 0).attempt = 0 ∧
        (copyHeld 0).owner = .migration ∧ s.migration = some c ∧ c.copyTag = some 0) ∧
    (2 < up.config.recopy.toNat ∧ up.config.recopy.toNat ≤ 3) ∧ ((0 : BitVec 4) ≠ 1 ∧ (3 : BitVec 4) ≠ 2) := by
  decide +kernel

theorem test_witness_VerifyCompletionIsNoted :
    (let s := up.putTag 2 (.outstanding (verifyHeld 0))
     s.resetLow = false ∧ s.link.up = true ∧ s.tag 2 = .outstanding (verifyHeld 0) ∧ (verifyHeld 0).attempt = 0 ∧
       (verifyHeld 0).owner = .scrub ∧ (verifyHeld 0).op = .verify (row 7) .row ∧
       (row 7).row.toNat < s.config.rows ∧ Location.row = s.location (row 7)) ∧
    up.config.rows ≤ (row 65536).row.toNat ∧
    (let s := up.putSlot 2 (.soft ⟨0, 7⟩); Location.row ≠ s.location (row 7)) := by decide +kernel

/-- An agreeing VERIFY of row 7 in a state that tag 2 is put into. -/
def verifying (s : State) : State := s.putTag 2 (.outstanding (verifyHeld 0))

/-- The hypotheses common to the clauses on an agreeing note. -/
theorem test_witness_Verify_agrees (m : RepairMode) (n : Nat) :
    let s := verifying (withMode m n)
    s.resetLow = false ∧ s.link.up = true ∧ s.tag 2 = .outstanding (verifyHeld 0) ∧ (verifyHeld 0).attempt = 0 ∧
      (verifyHeld 0).owner = .scrub ∧ (verifyHeld 0).op = .verify (row 7) .row ∧
      (row 7).row.toNat < s.config.rows ∧ Location.row = s.location (row 7) :=
  ⟨rfl, rfl, (by decide +kernel : (verifying up).tag 2 = .outstanding (verifyHeld 0)), rfl, rfl, rfl,
    (by decide : (row 7).row.toNat < up.config.rows),
    (by cases m <;> decide +kernel : Location.row = State.location (verifying (withMode m 0)) (row 7))⟩

/-- A TRACKING entry of the row one below T and at T, in a mode that permits it or not, with the queue full or one short
of full; a CANDIDATE entry; no entry, with a free position, an evicted entry, or neither. -/
theorem test_witness_Verify_notes :
    (∀ n ∈ [2, 3], ∀ m ∈ [(RepairMode.off, 8), (.spareOnly, 8), (.spareOnly, 7)],
      let e := { entry n .tracking with row := row 7 }
      let s := verifying ((withMode m.1 m.2).putEntry 5 (some e))
      s.findEntry (row 7) = some (5, e) ∧ e.state = .tracking ∧ e.uncorrectable = false ∧
        s.tally.queue.length = m.2 ∧ s.config.mode.permits e.loc = (m.1 == .spareOnly)) ∧
    (let e := { entry 15 .candidate with row := row 7 }
     (verifying (up.putEntry 5 (some e))).findEntry (row 7) = some (5, e) ∧ e.state = .candidate) ∧
    ((verifying up).findEntry (row 7) = none ∧ (verifying up).freePosition = some 0) ∧
    (let s := verifying (fullTally .tracking)
     s.findEntry (row 7) = none ∧ s.freePosition = none ∧ s.evictee = some 0) ∧
    (let s := verifying (fullTally .candidate)
     s.findEntry (row 7) = none ∧ s.freePosition = none ∧ s.evictee = none) := by decide +kernel

/-- An uncorrectable VERIFY of a row without an entry is reported with source SCRUB, before the CANDIDATE report (R97). -/
theorem test_scrub_note :
    (recordNote ⟨row 7, .row, .uncorrectable, .scrub⟩ up).arrivals =
      [⟨.errorTally, ⟨.uncorrectable (row 7) .row .scrub false, 0⟩⟩,
        ⟨.errorTally, ⟨.candidate (row 7) .row 1 true .neither .uncorrectable, 0⟩⟩] := by decide +kernel

theorem test_witness_OpTimeoutReissuesOnce :
    let s := migrating copying (.outstanding (copyHeld 0))
    s.resetLow = false ∧ s.tag 0 = .outstanding (copyHeld 0) ∧ (copyHeld 0).attempt = 0 := by decide +kernel

theorem test_witness_OpTimeoutGivesUpAfterTheSecond :
    (let s := up.putTag 3 (.outstanding (verifyHeld 1))
     s.resetLow = false ∧ s.tag 3 = .outstanding (verifyHeld 1) ∧ (verifyHeld 1).attempt = 1 ∧
       (verifyHeld 1).owner = .scrub ∧ s.scrub.waiting = false ∧ s.arrivals = [] ∧ TagsLaw s) ∧
    (let s := migrating copying (.outstanding (copyHeld 1))
     s.resetLow = false ∧ s.tag 0 = .outstanding (copyHeld 1) ∧ (copyHeld 1).attempt = 1 ∧
       (copyHeld 1).owner = .migration ∧ s.migration = some copying ∧ copying.copyTag = some 0) :=
  ⟨⟨rfl, by decide +kernel, rfl, rfl, rfl, rfl, tags_of_quiet rfl rfl⟩, by decide +kernel⟩

/-- `up` with the scrubber waiting, D at 1, and a VERIFY at attempt 1 on tag 3. -/
def atDepth : State := { (up.putTag 3 (.outstanding (verifyHeld 1))) with
  config := { up.config with depth := 1 }, scrub := { up.scrub with state := .running, waiting := true } }

/-- The give-up lowers the count below D, and the waiting scrubber is granted the FREE tag in that event (R74; log 14). -/
theorem test_give_up_grants_the_waiting_scrubber :
    let s := after (.opTimeout 3) atDepth
    atDepth.scrubOutstanding = 1 ∧ s.scrub.waiting = false ∧ s.scrubOutstanding = 1 ∧
      s.tag 3 = .quarantined { verifyHeld 1 with timer := .running 2000 } ∧
      s.link.outbound = [.opReq 0 0 (.verify (row 0) .row)] := by decide +kernel

/-- Counts 1 and 2 of TRACKING entries, a CANDIDATE entry, and a free position. -/
theorem test_witness_EpochExpiryDecaysTrackingEntries :
    let s := ((({ up with tally := { up.tally with epochTimer := .running 60000000 } } : State).putEntry 0
      (some (entry 1 .tracking))).putEntry 1 (some (entry 2 .tracking))).putEntry 2 (some (entry 5 .candidate))
    s.resetLow = false ∧ s.tally.epochTimer = .running 60000000 ∧ s.entry 0 = some (entry 1 .tracking) ∧
      s.entry 1 = some (entry 2 .tracking) ∧ s.entry 2 = some (entry 5 .candidate) ∧ s.entry 3 = none ∧
      s.tally.queue = [] := by decide +kernel

theorem test_witness_ScrubIntervalExpiryBeginsTheWait :
    (let s : State := { up with scrub := { up.scrub with state := .running, timer := .running 500 } }
     s.resetLow = false ∧ s.scrub.state = .running ∧ s.scrub.timer = .running 500) ∧
    (up.scrub.state ≠ .running ∧ up.scrub.timer = .stopped) := by decide

theorem test_witness_ProgrammingCompletionEndsByReadBack :
    (let s := fusing .map .promote 0 (.committing ⟨0, 77⟩)
     s.resetLow = false ∧ s.fuse.state = .programming 0 .map 0 ∧ s.slot 0 = .committing ⟨0, 77⟩ ∧
       (s.record 0 ||| 0x40).checkGood = true ∧ ((0 : FuseBytes) ||| 0xC0).checkGood = false) ∧
    (let s := fusing .condemn .condemn 1 (.retired none none)
     s.fuse.state = .programming 0 .condemn 1 ∧ s.slot 1 = .retired none none ∧
       (s.record 0 ||| 0x40).checkGood = true) ∧
    (State.restartHeld up = false ∧
      (let u : State := { up with engine := { up.engine with state := .restartPending ⟨.urgent, .promote, row 77⟩ } }
       u.engine.state = .restartPending ⟨.urgent, .promote, row 77⟩)) := by decide +kernel

theorem test_witness_FuseSupplyFallEndsProgramming :
    (State.reset.resetLow = true ∧ up.programming = false) ∧
    (let s := fusing .map .promote 0 (.committing ⟨0, 77⟩)
     s.resetLow = false ∧ s.fuse.state = .programming 0 .map 0 ∧ s.slot 0 = .committing ⟨0, 77⟩) ∧
    (fusing .condemn .condemn 1 (.retired none none)).fuse.state = .programming 0 .condemn 1 := by decide +kernel

theorem test_witness_AbortAndRestartActByEngineState :
    (let s := migrating copying (.outstanding (copyHeld 0))
     s.resetLow = false ∧ s.engine.state = .busy ⟨.urgent, .spare, row 7⟩ ∧ JobKind.migrates .spare = true ∧
       s.migration = some copying ∧ s.programming = false ∧ copying.copyTag ≠ none ∧ sparing.copyTag = none) ∧
    (let s := fusing .map .promote 0 (.committing ⟨0, 77⟩)
     s.engine.state = .busy ⟨.urgent, .promote, row 77⟩ ∧ JobKind.migrates .promote = false ∧ s.programming = true) ∧
    (let u : State := { up with engine := { up.engine with state := .restartPending ⟨.urgent, .promote, row 77⟩ } }
     u.engine.state = .restartPending ⟨.urgent, .promote, row 77⟩) ∧ up.engine.state = .stopped := by decide +kernel

theorem test_witness_RefusedWritesAreOnlyCounted :
    up.resetLow = false ∧ ((0 : Word) ≠ 1 ∧ (0 : Word) ≠ 2) ∧ alwaysRefused 0x004 .w8 = true ∧
      alwaysRefused 0x006 .w32 = true ∧ alwaysRefused 0x000 .w32 = true ∧ alwaysRefused 0x1000 .w32 = true ∧
      alwaysRefused 0x024 .w32 = true ∧ field 1 0 16 ≠ 0 ∧ field 0x30 4 2 = 3 ∧ field 0x00010000 0 4 = 0 ∧
      field 0x00000001 16 16 = 0 ∧ field 0x00110000 0 16 = 0 ∧ field 0x00100001 16 2 = 0 ∧ field 0x00010001 20 4 = 0 ∧
      field 0x00000100 0 8 = 0 ∧ field 0x00000001 8 3 = 0 ∧
      ({ up with engine := { up.engine with state := .idle } } : State).engine.state ≠ .stopped := by decide

theorem test_witness_ControlWriteSetsEveryField :
    up.resetLow = false ∧ RepairMode.ofCode (field 0x00000067 4 2) = some .spareAndRespare ∧
      RepairMode.ofCode (field 0x00000000 4 2) = some .off ∧ bit 0x00000067 0 ≠ up.config.engineEnable ∧
      bit 0x00000067 1 ≠ up.config.scrubEnable ∧ bit 0 0 = up.config.engineEnable ∧ Instr.engineEnable 0 ∈ ctrlWrites 0 := by
  decide

theorem test_witness_ModeWriteActsOnTheQueue :
    (RepairMode.spareOnly ≠ (withMode .off 8).config.mode ∧ (withMode .off 8).config.mode = .off) ∧
    (RepairMode.spareAndRespare ≠ (withMode .spareOnly 8).config.mode ∧
      (withMode .spareOnly 8).config.mode = .spareOnly) ∧
    (let s := (withMode .spareOnly 7).putEntry 0 (some (entry 5 .candidate))
     RepairMode.off ≠ s.config.mode ∧ s.config.mode ≠ .off ∧ RepairMode.off ≠ .spareAndRespare ∧
       s.tally.queue.length < 8 ∧ s.entry 0 = some (entry 5 .candidate) ∧ s.config.mode.permits .row = true) := by
  decide +kernel

/-- With room for one row, the lower of two positions joins the queue (R103). -/
theorem test_mode_write_order :
    let s := ((withMode .spareOnly 7).putEntry 4 (some { entry 5 .candidate with row := row 4 })).putEntry 3
      (some { entry 5 .candidate with row := row 3 })
    (applyMode .off s).tally.queue = s.tally.queue ++ [row 3] := by decide +kernel

theorem test_witness_TallyConfigWriteSetsThresholdAndEpoch :
    up.resetLow = false ∧ (field 0x02580004 0 4 ≠ 0 ∧ field 0x02580004 16 16 ≠ 0 ∧
      field 0x02580004 0 4 = up.config.threshold) ∧
    (field 0x00010001 0 4 ≠ 0 ∧ field 0x00010001 16 16 ≠ 0 ∧ field 0x00010001 0 4 ≠ up.config.threshold) ∧
    (let s := up.putEntry 0 (some (entry 1 .tracking))
     s.entry 0 = some (entry 1 .tracking) ∧ (field 0x00010001 0 4).toNat ≤ (entry 1 .tracking).count) ∧
    Instr.tallycfgT 1 ∈ tallyWrites 1 := by decide +kernel

/-- With room for one row, the lower of two promoted positions is queued and the higher auto skipped (R98, R99). -/
theorem test_threshold_write_order :
    let s := ((withMode .spareOnly 7).putEntry 4 (some { entry 2 .tracking with row := row 4 })).putEntry 3
      (some { entry 3 .tracking with row := row 3 })
    (rethreshold { s with config := { s.config with threshold := 2 } }).arrivals =
      [⟨.errorTally, ⟨.candidate (row 3) .row 3 false .queued .rethreshold, 0⟩⟩,
        ⟨.errorTally, ⟨.candidate (row 4) .row 2 false .autoSkipped .rethreshold, 0⟩⟩] := by decide +kernel

theorem test_witness_ScrubLinkAndGeomWritesSetTheirFields :
    (up.resetLow = false ∧ up.engine.state = .stopped ∧ up.scrub.state = .off) ∧
    (field 0x00110001 0 16 ≠ 0 ∧ field 0x00110001 16 2 ≠ 0 ∧ field 0x00110001 20 4 ≠ 0) ∧
    (field 0x00000101 0 8 ≠ 0 ∧ field 0x00000101 8 3 ≠ 0) ∧
    (up.config.depth.toNat < (field 0x00130001 16 2).toNat) ∧
    (field 0x00510001 20 4 ≠ up.config.channels ∧ (field 0x00510001 20 4).getLsbD (1 : BitVec 2).toNat = false) ∧
    ((5 : BitVec 4).getLsbD (2 : BitVec 2).toNat = true ∧
      ∀ x : BitVec 2, (1 : BitVec 2).toNat < x.toNat → x.toNat < (2 : BitVec 2).toNat →
        (5 : BitVec 4).getLsbD x.toNat = false) ∧
    ((∀ x : BitVec 2, (2 : BitVec 2).toNat < x.toNat → (5 : BitVec 4).getLsbD x.toNat = false) ∧
      (5 : BitVec 4).getLsbD (0 : BitVec 2).toNat = true ∧
      ∀ x : BitVec 2, x.toNat < (0 : BitVec 2).toNat → (5 : BitVec 4).getLsbD x.toNat = false) := by decide

/-- A mask of channels 0 and 2 moves a position in channel 1 to channel 2, and one in channel 3 to channel 0 (R116). -/
theorem test_mask_write_moves :
    ∀ x ∈ [((1 : BitVec 2), (2 : BitVec 2)), (3, 0)],
      (after (.scrubcfgChannelMask 0x00510001)
        { up with scrub := { up.scrub with position := ⟨x.1, 1, 2, 3⟩ } }).scrub.position = ⟨x.2, 0, 0, 0⟩ := by
  decide +kernel

theorem test_witness_InterruptAndCounterWrites :
    up.resetLow = false ∧ field 0 0 16 = 0 ∧ field 0xFFFF0000 0 16 = 0 := by decide

/-- The bits above 15:0 of a word written to a counter are ignored (R191; 11.1). -/
theorem test_counter_write :
    let s : State := { up with port := { up.port with refused := 5 } }
    (after (.counterClear .refused 0xFFFF0000) s).port.refused = 0 ∧
      (after (.counterClear .refused 0x00000001) s).port.refused = 6 := by decide +kernel

/-- Both owners; a hand-over at the fetch position; a revoke, and the descriptor in flight. -/
theorem test_witness_DescriptorWritesFollowTheOwner :
    (up.resetLow = false ∧ (up.desc (.urgent 7)).device = false ∧ up.atFetch (.urgent 7) = false ∧
      up.atFetch (.urgent 0) = true ∧ bit (0x10 : Word) 0 = false ∧ bit (0x11 : Word) 0 = true) ∧
    (let s := up.putDesc (.routine 23) ⟨0x11, 0, 0, 0⟩
     (s.desc (.routine 23)).device = true ∧ s.inFlight (.routine 23) = false) ∧
    (let s := (migrating sparing .free).putDesc (.urgent 0) ⟨0x11, 0, 0, 0⟩
     (s.desc (.urgent 0)).device = true ∧ s.inFlight (.urgent 0) = true) ∧
    Instr.handOver (descOffset (.routine 23) 0) 1 ∈ descriptorWrites 0x670 1 := by decide +kernel

theorem test_witness_ReportSlotWritesFollowTheOwner :
    up.resetLow = false ∧ ((up.putReportSlot 63 ⟨1, 0, 0, 0, 0, 0⟩).reportSlot 63).device = true ∧
      (up.reportSlot 0).device = false ∧ up.reports.held = [] := by decide +kernel

/-- `up` with 8 reports held, `n` lost, and report slot 1 as given. -/
def blocked (n : Nat) (k : ReportSlot) : State :=
  { up with reports := { (up.putReportSlot 1 k).reports with held := List.replicate 8 held, lost := n } }

/-- Nothing lost, or one report; the next slot SOFTWARE-owned, or DEVICE-owned. -/
theorem test_witness_HandBackDeliversTheOldestHeldReport :
    ∀ s ∈ [blocked 0 .zero, blocked 1 .zero, blocked 0 ⟨1, 0, 0, 0, 0, 0⟩],
      s.resetLow = false ∧ (s.reportSlot s.reports.writePos).device = false ∧ bit (1 : Word) 0 = true ∧
        s.reports.held ≠ [] ∧ s.reports.held.length ≤ 8 := by decide +kernel

/-- A drain into the slot handed back and one that is DEVICE-owned already; OVERRUN joins the queue's tail (R180, R181). -/
theorem test_drain :
    let s : State := { (up.putReportSlot 1 ⟨1, 0, 0, 0, 0, 0⟩) with
      reports := { (up.putReportSlot 1 ⟨1, 0, 0, 0, 0, 0⟩).reports with
        held := List.replicate 8 held, lost := 3, serial := 8 } }
    let t := after (.handBack 0x800 1) s
    t.reports.writePos = 2 ∧ t.reports.held = List.replicate 6 held ++ [⟨⟨.overrun 3, 0⟩, 8⟩] ∧ t.reports.lost = 0 ∧
      t.reports.serial = 9 ∧ (t.reportSlot 1).device = false := by decide +kernel

theorem test_witness_ViewReadReturnsTheAddressedBytes :
    up.resetLow = false ∧ (0x401 : BitVec 14).toNat % accessBytes .w16 ≠ 0 ∧
      (0x402 : BitVec 14).toNat % accessBytes .w16 = 0 := by decide

/-- Nothing held and the slot DEVICE-owned; nothing held and the slot SOFTWARE-owned; 7 held; 8 held. -/
theorem test_witness_ArrivalGoesToRingQueueOrLoss :
    (let s := up.putReportSlot 0 ⟨1, 0, 0, 0, 0, 0⟩
     s.reports.held = [] ∧ (s.reportSlot s.reports.writePos).device = true) ∧
    ((up.reportSlot up.reports.writePos).device = false ∧ up.reports.held.length < 8) ∧
    ((List.replicate 7 held).length < 8 ∧ List.replicate 7 held ≠ [] ∧ 8 ≤ (List.replicate 8 held).length) := by
  decide +kernel

theorem test_witness_JobCompletionWritesTheResult :
    (migrating copying .free).jobInFlight = some ⟨.urgent, .spare, row 7⟩ ∧
    (∀ j ∈ [(⟨.routine, .spare, row 7⟩ : Job), ⟨.selfRepair, .spare, row 7⟩],
      ({ up with engine := { up.engine with state := .busy j } } : State).jobInFlight = some j) ∧
    (up.putEntry 3 (some (entry 5 .candidate))).findEntry (row 0) = some (3, entry 5 .candidate) ∧
    up.findEntry (row 7) = none := by decide +kernel

theorem test_witness_SwitchMovesTheMapping :
    (copying.direction = .forward ∧ copying.target = .slot 0 ∧
      (migrating copying .free).slot 0 = .reserved ⟨0, 7⟩) ∧
    (∀ r ∈ [SlotRec.soft ⟨0, 7⟩, .hard ⟨0, 7⟩ 95],
      let c := Context.new .respare (row 7) (.slot 3) (.slot 0) true
      let s := (migrating c .free).putSlot 3 r
      c.direction = .respare ∧ c.source = .slot 3 ∧ c.target = .slot 0 ∧ (3 : SlotNum) ≠ 0 ∧
        s.slot 0 = .reserved ⟨0, 7⟩ ∧ s.slot 3 = r) ∧
    (let c := Context.new .revert (row 7) (.slot 3) .row true
     c.direction = .revert ∧ c.source = .slot 3 ∧ (up.putSlot 3 (.soft ⟨0, 7⟩)).slot 3 = .soft ⟨0, 7⟩) ∧
    (copying.badCopy = false ∧ ({ copying with badCopy := true } : Context).poisonOnBad = true) ∧
    (up.poisoned (row 7) = false ∧ up.query.poison.length < 16) ∧
    (let s : State := { up with query := { up.query with poison := listed 16 } }
     s.poisoned (row 7) = false ∧ 16 ≤ s.query.poison.length) ∧
    ((up.putEntry 3 (some (entry 5 .candidate))).findEntry (row 0) = some (3, entry 5 .candidate) ∧
      up.findEntry (row 7) = none) := by decide +kernel

theorem test_witness_AbortReleasesTheTarget :
    (let s := migrating copying (.outstanding (copyHeld 0))
     copying.copyTag = some 0 ∧ s.tag 0 = .outstanding (copyHeld 0) ∧ copying.direction ≠ .revert ∧
       copying.target = .slot 0 ∧ s.slot 0 = .reserved ⟨0, 7⟩ ∧ (copyHeld 0).op = .copy (row 7) .row (.slot 0)) ∧
    (let s := migrating sparing .free
     sparing.copyTag = none ∧ s.slot 0 = .reserved ⟨0, 7⟩ ∧
       ∀ t, s.tag t = .free) := by decide +kernel

/-- The descriptor of a migration in flight, its COPY held, and another descriptor handed over. -/
theorem test_witness_RestartEndsEveryHandedOverJob :
    let s := (migrating copying (.outstanding (copyHeld 0))).putDesc (.routine 23) ⟨0x11, 0, 0, 0⟩
    s.inFlight (.routine 23) = false ∧ (s.desc (.routine 23)).device = true ∧ s.inFlight (.routine 0) = false ∧
      (s.desc (.routine 0)).device = false ∧ s.tag 0 = .outstanding (copyHeld 0) ∧ 0 < s.deviceOwned ∧
      (s.inFlight (.urgent 0) = true ∧ s.migration = some copying ∧ copying.direction ≠ .revert ∧
        copying.target = .slot 0 ∧ s.slot 0 = .reserved ⟨0, 7⟩ ∧ (copyHeld 0).op = .copy (row 7) .row (.slot 0)) ∧
      (s.tag 1 = .free ∧ s.scrub.state ≠ .running) := by decide +kernel

/-- No COPY held; an UNSPARE in flight; a self-repair in flight, its entry found or not; nothing handed over; a RUNNING
scrubber. -/
theorem test_witness_Restart_otherCases :
    (let s := migrating sparing .free
     s.slot 0 = .reserved ⟨0, 7⟩ ∧ s.copyHeld 0 = false) ∧
    (let s : State := { migrating reverting .free with
       engine := { State.reset.engine with state := .busy ⟨.urgent, .unspare, row 7⟩ } }
     s.inFlight (.urgent 0) = true ∧ s.migration = some reverting ∧ reverting.direction = .revert ∧
       reverting.source = .slot 3) ∧
    (let s : State := { migrating sparing .free with
       engine := { State.reset.engine with state := .busy ⟨.selfRepair, .spare, row 7⟩ } }
     s.migration = some sparing ∧ s.jobInFlight = some ⟨.selfRepair, .spare, row 7⟩ ∧ s.findEntry (row 7) = none ∧
       (s.putEntry 3 (some { entry 5 .candidate with row := row 7 })).findEntry (row 7) =
         some (3, { entry 5 .candidate with row := row 7 })) ∧
    (up.deviceOwned = 0 ∧ up.jobInFlight = none ∧ up.migration = none) ∧
    (let s : State := { up with scrub := { up.scrub with state := .running } }
     s.scrub.state = .running) := by decide +kernel

theorem test_witness_ArbiterTakesTheFirstReadySource :
    ((up.putDesc (.urgent 0) ⟨0x91, 0, 0, 0⟩).urgentReady = true) ∧
    (let s := withMode .spareOnly 1
     s.urgentReady = false ∧ s.config.mode ≠ .off ∧ s.tally.queue = row 100 :: []) ∧
    (let s := up.putDesc (.routine 0) ⟨0x91, 0, 0, 0⟩
     s.urgentReady = false ∧ s.config.mode = .off ∧ s.routineReady = true) ∧
    (up.urgentReady = false ∧ up.tally.queue = [] ∧ up.routineReady = false ∧ up.engine.state ≠ .idle) ∧
    (let s : State := { up with engine := { up.engine with state := .idle } }
     (settleJobs s).engine.state = .idle) := by decide +kernel

/-- What a take leads to: `true` where the work starts. -/
def starts : TakeOutcome → Bool
  | .started _ => true
  | .done _ _ => false

/-- A job of each ring, and a self-repair job, that completes at its take, and one whose work starts. -/
theorem test_witness_Arbiter_takes :
    (∀ x ∈ [(JobKind.marker, (0x91 : Word)), (.spare, 0x111)],
      (let s := up.putDesc (.urgent 0) ⟨x.2, 7, 0, 0⟩
       field (s.desc s.urgentHead).w0 4 4 = BitVec.ofNat 4 x.1.code ∧
         starts (takeKind ((s.desc s.urgentHead).job x.1) s) = (x.1 == .spare)) ∧
      (let s := up.putDesc (.routine 0) ⟨x.2, 7, 0, 0⟩
       field (s.desc s.routineHead).w0 4 4 = BitVec.ofNat 4 x.1.code ∧
         starts (takeKind ((s.desc s.routineHead).job x.1) s) = (x.1 == .spare))) ∧
    (∀ l ∈ [Location.row, .slot 3],
      let e : TallyEntry := { entry 5 .candidate with row := row 100, loc := l, queued := true }
      let s := (withMode .spareAndRespare 1).putEntry 3 (some e)
      s.tally.queue = row 100 :: [] ∧ s.findEntry (row 100) = some (3, e) ∧
        starts (takeKind ⟨repairKind l, row 100, none, true, false, false⟩ (takeClaim (row 100) s)) = (l == .row)) := by
  decide +kernel

/-- One producer's reports; two producers'; a scrubber that stays, one that starts and one that stops. -/
theorem test_witness_EventEndDoesNothingWhereNoneWaits :
    up.engine.state ≠ .idle ∧ TagsLaw up ∧ ScrubServed up ∧ up.arrivals = [] ∧
      (let s : State := produce .arrayLink (.linkChange true) up
       s.arrivals ≠ [] ∧ (∀ a ∈ s.arrivals, a.producer = .arrayLink) ∧
         (produce .patrolScrubber (.scrubPass 1) s).arrivals.map (·.producer) = [.arrayLink, .patrolScrubber]) ∧
      up.scrub.state = up.scrubTarget ∧
      (let s : State := { up with config := { up.config with scrubEnable := true } }
       s.scrub.state ≠ s.scrubTarget ∧ s.scrubTarget = .running) ∧
      (let s : State := { up with scrub := { up.scrub with state := .running } }
       s.scrub.state ≠ s.scrubTarget ∧ s.scrubTarget ≠ .running) :=
  ⟨by decide, tags_of_quiet rfl rfl, (fun _ x => Bool.noConfusion x), rfl, by decide⟩

theorem test_witness_TagArbiterServesMigrationThenScrubber :
    (let s := migrating sparing .free
     s.link.up = true ∧ s.freeTag = some 0 ∧ s.migration = some sparing ∧ sparing.copyTag = none) ∧
    (let s : State := { (migrating sparing .free) with link := ⟨false, []⟩ }; s.link.up = false) ∧
    (let s : State := { up with scrub := { up.scrub with state := .running, waiting := true } }
     s.freeTag = some 0 ∧ s.scrub.waiting = true ∧ s.waitsForTag = false ∧
       s.scrubOutstanding < s.config.depth.toNat ∧ s.poisoned s.scrub.position = false ∧
       s.isVictim s.scrub.position = false ∧ s.mappedSlot s.scrub.position = none) ∧
    (let s : State := { up with query := { up.query with poison := [⟨row 0, .software, 0, false⟩] } }
     s.poisoned s.scrub.position = true) := by decide +kernel

/-- The last row of a bank, the last bank, the last bank group, the next channel of the mask, and the wrap. -/
theorem test_witness_ScrubPositionFollowsTheWalk :
    (65534 + 1 < 65536 ∧ 65536 ≤ (row 65535).row.toNat + 1 ∧ (row 65535).bank ≠ 3 ∧ (row 65535).group ≠ 3) ∧
    ((0 : BitVec 2).toNat < (2 : BitVec 2).toNat ∧ (4 : BitVec 4).getLsbD (2 : BitVec 2).toNat = true ∧
      ∀ d : BitVec 2, (0 : BitVec 2).toNat < d.toNat → d.toNat < (2 : BitVec 2).toNat →
        (4 : BitVec 4).getLsbD d.toNat = false) ∧
    ((∀ d : BitVec 2, (2 : BitVec 2).toNat < d.toNat → (4 : BitVec 4).getLsbD d.toNat = false) ∧
      ∀ d : BitVec 2, d.toNat < (2 : BitVec 2).toNat → (4 : BitVec 4).getLsbD d.toNat = false) := by decide

/-- Kinds 0, 10 and 15 in the urgent ring, and in the routine ring with no other source ready. -/
theorem test_witness_UndefinedKindCompletesBadKind :
    ∀ k ∈ [0, 10, 15],
      (let s := handedOver (.urgent 0) k
       s.engine.state = .idle ∧ s.urgentReady = true ∧
         ((s.desc s.urgentHead).kindCode = 0 ∨ 10 ≤ (s.desc s.urgentHead).kindCode.toNat)) ∧
      (let s := handedOver (.routine 0) k
       s.engine.state = .idle ∧ s.urgentReady = false ∧ s.config.mode = .off ∧ s.routineReady = true ∧
         ((s.desc s.routineHead).kindCode = 0 ∨ 10 ≤ (s.desc s.routineHead).kindCode.toNat)) := by decide +kernel

/-- A job of a kind for a row, from a descriptor with auto slot. -/
def auto (k : JobKind) (r : RowAddr) : JobFields := ⟨k, r, none, true, false, false⟩

theorem test_witness_MigrationJobsAreCheckedInOrder :
    (JobKind.spare = .spare ∧ up.config.rows ≤ (auto .spare (row 65536)).row.row.toNat) ∧
    ((auto .spare (row 65535)).row.row.toNat < up.config.rows ∧ (∀ k, up.mapsAt (row 65535) k = false) ∧
      up.choiceIs (auto .spare (row 65535)) 0) ∧
    (∀ x ∈ [SlotRec.soft ⟨0, 7⟩, .committing ⟨0, 7⟩, .hard ⟨0, 7⟩ 0],
      (up.putSlot 3 x).mapsAt (row 7) 3 = true ∧ (∀ n, (up.putSlot 3 x).mapsAt (row 7) n = true → n = 3) ∧
        (up.putSlot 3 x).slot 3 = x) ∧
    (up.choiceFails ⟨.spare, row 7, some 4, false, false, false⟩ .slotUnavailable) ∧
    ((up.putSlot 3 (.soft ⟨0, 7⟩)).choiceIs (auto .respare (row 7)) 0) ∧
    (up.rowCopyHeld (row 7) = false ∧
      (up.putTag 1 (.quarantined ⟨.migration, .copy (row 7) (.slot 3) .row, 1, .running 1⟩)).rowCopyHeld (row 7) = true) := by
  refine ⟨by decide, ⟨by decide, up_mapsAt _, 0, rfl, up_slot _, fun n h => absurd h (Nat.not_lt_zero _)⟩,
    by decide +kernel, ?_, ⟨0, rfl, by decide +kernel, fun n h => absurd h (Nat.not_lt_zero _)⟩, by decide +kernel⟩
  show _ ∧ _
  exact ⟨.inl (by decide), rfl⟩

/-- A pool with no FREE slot: the automatic choice of the statement above fails. -/
theorem test_witness_MigrationJobs_poolExhausted :
    let s := (((up.putSlot 0 (.soft ⟨0, 1⟩)).putSlot 1 (.soft ⟨0, 2⟩)).putSlot 2 (.soft ⟨0, 3⟩)).putSlot 3 (.soft ⟨0, 4⟩)
    s.choiceFails (auto .spare (row 7)) .poolExhausted ∧ ∀ k, s.mapsAt (row 7) k = false := by
  refine ⟨?_, by decide +kernel⟩
  show _ ∧ _
  exact ⟨by decide +kernel, rfl⟩

theorem test_witness_FuseJobsProgramTheNextRecord :
    (∀ k, up.mapsAt (row 77) k = false) ∧
    (∀ x ∈ [SlotRec.soft ⟨0, 77⟩, .hard ⟨0, 77⟩ 0],
      (up.putSlot 3 x).mapsAt (row 77) 3 = true ∧ (∀ n, (up.putSlot 3 x).mapsAt (row 77) n = true → n = 3)) ∧
    (let s : State := { up with config := { up.config with fuseEnable := true }, supplyOk := true,
                                fuse := { up.fuse with writePos := 95, nextSeq := 4095 } }
     s.config.fuseEnable = true ∧ s.supplyOk = true ∧ s.fuse.writePos < 96 ∧ s.fuse.nextSeq ≤ 4095 ∧
       (95 : Fin 96).val = s.fuse.writePos ∧ s.slot 3 = .free) ∧
    (up.config.fuseEnable = false ∧ up.supplyOk = false ∧ (96 : Nat) ≤ 96 ∧ 4095 < 4096) := by decide +kernel

theorem test_witness_ListJobsCompleteAtTheirTake :
    (up.config.rows ≤ (row 65536).row.toNat ∧ (row 65535).row.toNat < up.config.rows) ∧
    (∀ n ∈ [1, 15, 16],
      let s : State := { up with query := { up.query with poison := listed n } }
      s.query.poison[0]? = some ⟨row 100, .software, 0, false⟩ ∧ s.poisoned (row 7) = false ∧
        s.poisonEntry (row 100) = some ⟨row 100, .software, 0, false⟩ ∧ s.poisonEntry (row 7) = none ∧
        s.query.poison.length = n) ∧
    (up.findEntry (row 7) = none ∧
      (up.putEntry 3 (some (entry 5 .candidate))).findEntry (row 0) = some (3, entry 5 .candidate)) := by decide +kernel

theorem test_witness_LinkMessagesDecodeAsEncoded :
    ((Instr.query 0x2A 1 9).wellFormed = true ∧ encodeMessage (.query 0x2A 1 9) = some (0x00012A01, [9])) ∧
    ((4 : Word).extractLsb' 0 4 ≠ 1 ∧ (4 : Word).extractLsb' 0 4 ≠ 2 ∧ (4 : Word).extractLsb' 0 4 ≠ 3) := by decide

theorem up_entry (p : Fin 32) : up.entry p = none := by
  revert p; decide +kernel

theorem up_tally : TallyLaw up where
  single p q e f h := by rw [up_entry] at h; cases h
  count p e h := by rw [up_entry] at h; cases h
  tracking p e h := by rw [up_entry] at h; cases h
  room := by decide
  distinct := by decide
  candidate r h := absurd h List.not_mem_nil
  queued p e h := by rw [up_entry] at h; cases h

/-- The tally's law holds with an entry in the queue. -/
theorem test_witness_TallyLaw_queued :
    let e : TallyEntry := { entry 15 .candidate with row := row 100, queued := true }
    TallyLaw ((withMode .spareOnly 1).putEntry 31 (some e)) := by
  intro e
  have ent : ∀ p, ((withMode .spareOnly 1).putEntry 31 (some e)).entry p = if p = 31 then some e else none := by
    decide +kernel
  have one : ∀ {p f}, ((withMode .spareOnly 1).putEntry 31 (some e)).entry p = some f → p = 31 ∧ f = e := by
    intro p f h
    rw [ent] at h
    split at h
    · cases h; exact ⟨by assumption, rfl⟩
    · cases h
  refine ⟨fun p q a b h g _ => (one h).1.trans (one g).1.symm, fun p f h => ?_, fun p f h => ?_, by decide, by decide,
    fun r h => ⟨31, e, ent 31, ?_, rfl⟩, fun p f h => ?_⟩
  · rw [(one h).2]; decide
  · rw [(one h).2]; intro x; cases x
  · exact (List.mem_singleton.1 h).symm
  · rw [(one h).2]; exact ⟨fun _ => List.mem_singleton.2 rfl, fun _ => rfl⟩

/-- A scrubber that waits at its depth, and a step. -/
theorem test_witness_ScrubServed :
    ScrubServed atDepth ∧ TagsLaw atDepth ∧ atDepth.scrub.waiting = true ∧
      ∃ t, step { atDepth with pending := [.opTimeout 3] } = .next t := by
  refine ⟨fun _ _ _ h => absurd h (by decide +kernel), ⟨fun _ h => (Bool.noConfusion h), fun _ => ⟨rfl, rfl⟩⟩, rfl,
    _, rfl⟩

/-- The laws that events keep hold in a state that steps. -/
theorem test_witness_EveryStepKeeps :
    (∃ t, step { up with pending := [.linkDown] } = .next t) ∧ SettingsLaw up.config ∧ CountersLaw up ∧ PoisonLaw up ∧
      TallyLaw up ∧ ReportsLaw up ∧ TagsLaw up ∧ ScrubServed up ∧ FuseLaw up ∧ MappingLaw up :=
  ⟨⟨_, rfl⟩, ⟨by decide, by decide, by decide, by decide, by decide, by decide, by decide⟩,
    ⟨fun c => by cases c <;> decide, by decide⟩, ⟨by decide, by decide, fun e h => by cases h⟩, up_tally,
    ⟨by decide, .inl rfl, (fun h => absurd h (Nat.lt_irrefl 0)), rfl⟩, tags_of_quiet rfl rfl,
    (fun _ x => Bool.noConfusion x), up_fuse, up_mapping⟩

/-- A RETIRED slot and a command that is not FULL_RESET. -/
theorem test_witness_FuseArrayAndRetiredSlotsOnlyGrow :
    Instr.linkDown ≠ .fullReset ∧ (∃ t, exec .linkDown (up.putSlot 0 (.retired none none)) = .next t) ∧
      ((up.putSlot 0 (.retired none none)).slot 0).isRetired = true := ⟨by decide, ⟨_, rfl⟩, by decide +kernel⟩

end Sys2Proof.Tests
end

/-! The switch of a migration (R8 to R10, R55 to R57): what its claims do to the slot table, the poison list and
the tally, and what the state is when the job completes. -/

namespace Sys2Proof.Machine

/-! ### The claim on the slot table -/

theorem slot_of_slots {s t : State} (h : t.slots = s.slots) (k : SlotNum) : t.slot k = s.slot k :=
  congrArg (fun x : SlotTable => x.recs.get k) h

/-- Two slots are written; the second write stands where both name one slot. -/
theorem slot_putSlot_putSlot (s : State) (t k n : SlotNum) (a b : SlotRec) :
    ((s.putSlot t a).putSlot k b).slot n = if n = k then b else if n = t then a else s.slot n := by
  simp only [slot_putSlot, eq_comm (a := n)]

/-- FORWARD: the target goes from RESERVED to SOFT (R8). -/
theorem switchSlots_forward {c : Context} {s : State} {t : SlotNum} {v : Victim} (hd : c.direction = .forward)
    (ht : c.target = .slot t) (hs : s.slot t = .reserved v) : switchSlots c s = s.putSlot t (.soft v) := by
  simp only [switchSlots, hd, ht, switchTarget_reserved hs]

/-- RESPARE is the switch of the target, then the retirement of the source, which the first leaves as it was (R9). -/
theorem switchSlots_respare {c : Context} {s : State} {k t : SlotNum} {v : Victim} (hd : c.direction = .respare)
    (hk : c.source = .slot k) (ht : c.target = .slot t) (hs : s.slot t = .reserved v) :
    switchSlots c s = retireSource k (s.putSlot t (.soft v)) := by
  simp only [switchSlots, hd, hk, ht, switchTarget_reserved hs]

theorem switchSlots_respare_soft {c : Context} {s : State} {k t : SlotNum} {v x : Victim} (hd : c.direction = .respare)
    (hk : c.source = .slot k) (ht : c.target = .slot t) (hne : k ≠ t) (hs : s.slot t = .reserved v)
    (hx : s.slot k = .soft x) :
    switchSlots c s = (s.putSlot t (.soft v)).putSlot k (.retired (some x) none) := by
  have source : (s.putSlot t (.soft v)).slot k = .soft x := by rw [slot_putSlot, if_neg hne.symm, hx]
  rw [switchSlots_respare hd hk ht hs, retireSource_soft source]

theorem switchSlots_respare_hard {c : Context} {s : State} {k t : SlotNum} {v x : Victim} {i : Fin 96}
    (hd : c.direction = .respare) (hk : c.source = .slot k) (ht : c.target = .slot t) (hne : k ≠ t)
    (hs : s.slot t = .reserved v) (hx : s.slot k = .hard x i) :
    switchSlots c s = (s.putSlot t (.soft v)).putSlot k (.retired (some x) (some i)) := by
  have source : (s.putSlot t (.soft v)).slot k = .hard x i := by rw [slot_putSlot, if_neg hne.symm, hx]
  rw [switchSlots_respare hd hk ht hs, retireSource_hard source]

/-- REVERT: the source goes from SOFT to FREE (R10). -/
theorem switchSlots_revert {c : Context} {s : State} {k : SlotNum} {v : Victim} (hd : c.direction = .revert)
    (hk : c.source = .slot k) (hs : s.slot k = .soft v) : switchSlots c s = s.putSlot k .free := by
  simp only [switchSlots, hd, hk, freeSource_soft hs]

/-! ### The add claim on the poison list (R38) -/

theorem mappedAfter_eq (c : Context) :
    c.mappedAfter = if c.direction = .revert then none else c.target.slot? := by
  unfold Context.mappedAfter
  cases c.direction <;> rfl

/-- No claim is made where the last pass read good data, where the job does not ask for it, or where the row is poisoned
already. -/
theorem switchPoison_none {c : Context} {s : State}
    (h : c.badCopy = false ∨ c.poisonOnBad = false ∨ s.poisoned c.victim = true) : switchPoison c s = s := by
  unfold switchPoison
  rcases h with bad | asked | poisoned
  · simp [bad]
  · simp [asked]
  · simp [poisoned]

theorem switchPoison_add {c : Context} {s : State} (hb : c.badCopy = true) (hp : c.poisonOnBad = true)
    (hn : s.poisoned c.victim = false) (room : s.query.poison.length < 16) :
    switchPoison c s = addPoison c.victim .copy s := by
  simp [switchPoison, Config.poisonCapacity, hb, hp, hn, room]

theorem switchPoison_full {c : Context} {s : State} (hb : c.badCopy = true) (hp : c.poisonOnBad = true)
    (hn : s.poisoned c.victim = false) (full : 16 ≤ s.query.poison.length) :
    switchPoison c s = produce .queryResponder (.poisonFull c.victim c.mappedAfter 16) s := by
  simp [switchPoison, Config.poisonCapacity, hb, hp, hn, Nat.not_lt.2 full]

/-! ### The removal claim on the tally (R56, R105) -/

theorem findEntry_of_tally {s t : State} (h : t.tally = s.tally) (r : RowAddr) : t.findEntry r = s.findEntry r := by
  simp only [State.findEntry, State.entry, h]

theorem forgetRow_found {s : State} {r : RowAddr} {p : Fin 32} {e : TallyEntry} (h : s.findEntry r = some (p, e)) :
    forgetRow r s = removeAt p r s := by
  simp only [forgetRow, h]

theorem forgetRow_absent {s : State} {r : RowAddr} (h : s.findEntry r = none) : forgetRow r s = dequeue r s := by
  simp only [forgetRow, h]

theorem removeAt_entry (p q : Fin 32) (r : RowAddr) (s : State) :
    (removeAt p r s).entry q = if q = p then none else s.entry q := by
  refine (entry_putEntry s p q none).trans ?_
  simp only [eq_comm]

/-- The row leaves the candidate queue whether or not it has an entry (R56). -/
theorem forgetRow_queue (r : RowAddr) (s : State) :
    (forgetRow r s).tally.queue = s.tally.queue.filter (fun x => x ≠ r) := by
  cases h : s.findEntry r with
  | none => rw [forgetRow_absent h]; rfl
  | some pe => rw [forgetRow_found h]; rfl

/-! ### The state in which the job completes -/

/-- The state a switch hands to the completion of its job: every claim made, the context deleted. -/
def switched (c : Context) (s : State) : State :=
  (forgetRow c.victim (switchPoison c (switchSlots c s))).putContext none

theorem switch_eq (c : Context) (s : State) :
    switch c s = completeInFlight ⟨.ok, c.slotUsed, c.issued⟩ (switched c s) := rfl

theorem switched_same (c : Context) (s : State) :
    SameBut [.slots, .query, .tally, .arrivals, .migration] s (switched c s) :=
  (((switchSlots_same c s).comp (switchPoison_same _ _) (n := [.slots, .query, .arrivals])).comp
    (forgetRow_same _ _) (n := [.slots, .query, .arrivals, .tally])).comp (putContext_same _ _)

/-- The slots are those of the claim on the slot table. -/
theorem switched_slot (c : Context) (s : State) (k : SlotNum) : (switched c s).slot k = (switchSlots c s).slot k :=
  slot_of_slots (((switchPoison_same c (switchSlots c s)).comp (forgetRow_same c.victim _)
    (n := [.query, .arrivals, .tally])) .slots (by decide)) k

/-- The poison list and the reports are those of the add claim. -/
theorem switched_poison (c : Context) (s : State) :
    (switched c s).query = (switchPoison c (switchSlots c s)).query ∧
      (switched c s).arrivals = (switchPoison c (switchSlots c s)).arrivals :=
  ⟨forgetRow_same c.victim _ .query (by decide), forgetRow_same c.victim _ .arrivals (by decide)⟩

/-- The removal claim finds the tally the switch began with. -/
theorem switchPoison_tally (c : Context) (s : State) : (switchPoison c (switchSlots c s)).tally = s.tally :=
  ((switchSlots_same c s).comp (switchPoison_same c _) (n := [.slots, .query, .arrivals])) .tally (by decide)

theorem switchSlots_query (c : Context) (s : State) : (switchSlots c s).query = s.query :=
  switchSlots_same c s .query (by decide)

theorem switchSlots_arrivals (c : Context) (s : State) : (switchSlots c s).arrivals = s.arrivals :=
  switchSlots_same c s .arrivals (by decide)

theorem switchSlots_tally (c : Context) (s : State) : (switchSlots c s).tally = s.tally :=
  switchSlots_same c s .tally (by decide)

theorem switchSlots_poisoned (c : Context) (s : State) (r : RowAddr) : (switchSlots c s).poisoned r = s.poisoned r :=
  congrArg (fun q : QueryUnit => q.poison.any (fun e => e.row = r)) (switchSlots_query c s)

/-! ### The switch at the slots, by direction -/

/-- After a FORWARD the target is SOFT, every other slot as it was, and the victim is mapped to the target (R8). -/
theorem switched_forward {c : Context} {s : State} {t : SlotNum} {v : Victim} (hd : c.direction = .forward)
    (ht : c.target = .slot t) (hs : s.slot t = .reserved v) :
    (∀ k, (switched c s).slot k = if k = t then .soft v else s.slot k) ∧
      (switched c s).mapsAt (v.rowAt t) t = true := by
  have slots (k) : (switched c s).slot k = if k = t then .soft v else s.slot k := by
    rw [switched_slot, switchSlots_forward hd ht hs, slot_putSlot]
    simp only [eq_comm]
  have target : (switched c s).slot t = .soft v := (slots t).trans (if_pos rfl)
  exact ⟨slots, (mapsAt_victim (.inl target)).2 rfl⟩

/-- After a RESPARE from a SOFT slot the source is RETIRED and not fused (R9). -/
theorem switched_respare_soft {c : Context} {s : State} {k t : SlotNum} {v x : Victim} (hd : c.direction = .respare)
    (hk : c.source = .slot k) (ht : c.target = .slot t) (hne : k ≠ t) (hs : s.slot t = .reserved v)
    (hx : s.slot k = .soft x) (n : SlotNum) :
    (switched c s).slot n = if n = k then .retired (some x) none else if n = t then .soft v else s.slot n := by
  rw [switched_slot, switchSlots_respare_soft hd hk ht hne hs hx, slot_putSlot_putSlot]

/-- After a RESPARE from a HARD slot the source is RETIRED with its fused mark and record index (R9). -/
theorem switched_respare_hard {c : Context} {s : State} {k t : SlotNum} {v x : Victim} {i : Fin 96}
    (hd : c.direction = .respare) (hk : c.source = .slot k) (ht : c.target = .slot t) (hne : k ≠ t)
    (hs : s.slot t = .reserved v) (hx : s.slot k = .hard x i) (n : SlotNum) :
    (switched c s).slot n = if n = k then .retired (some x) (some i) else if n = t then .soft v else s.slot n := by
  rw [switched_slot, switchSlots_respare_hard hd hk ht hne hs hx, slot_putSlot_putSlot]

/-- After a REVERT the source is FREE (R10). -/
theorem switched_revert {c : Context} {s : State} {k : SlotNum} {v : Victim} (hd : c.direction = .revert)
    (hk : c.source = .slot k) (hs : s.slot k = .soft v) (n : SlotNum) :
    (switched c s).slot n = if n = k then .free else s.slot n := by
  rw [switched_slot, switchSlots_revert hd hk hs, slot_putSlot]
  simp only [eq_comm]

/-! ### The switch at the poison list (R38) -/

theorem switched_poison_none {c : Context} {s : State}
    (h : c.badCopy = false ∨ c.poisonOnBad = false ∨ s.poisoned c.victim = true) :
    (switched c s).query = s.query ∧ (switched c s).arrivals = s.arrivals := by
  obtain ⟨query, arrivals⟩ := switched_poison c s
  rw [query, arrivals, switchPoison_none (by rwa [switchSlots_poisoned])]
  exact ⟨switchSlots_query c s, switchSlots_arrivals c s⟩

theorem switched_poison_add {c : Context} {s : State} (hb : c.badCopy = true) (hp : c.poisonOnBad = true)
    (hn : s.poisoned c.victim = false) (room : s.query.poison.length < 16) :
    (switched c s).query = { s.query with poison := s.query.poison ++ [⟨c.victim, .copy, 0, false⟩] } ∧
      (switched c s).arrivals = s.arrivals := by
  obtain ⟨query, arrivals⟩ := switched_poison c s
  have add := switchPoison_add (s := switchSlots c s) hb hp (by rwa [switchSlots_poisoned])
    (by rwa [switchSlots_query])
  rw [query, arrivals, add, addPoison_query, switchSlots_query]
  exact ⟨rfl, switchSlots_arrivals c s⟩

theorem switched_poison_full {c : Context} {s : State} (hb : c.badCopy = true) (hp : c.poisonOnBad = true)
    (hn : s.poisoned c.victim = false) (full : 16 ≤ s.query.poison.length) :
    (switched c s).query = s.query ∧ (switched c s).arrivals = s.arrivals ++ [⟨.queryResponder, ⟨.poisonFull c.victim
      (if c.direction = .revert then none else c.target.slot?) 16, s.tally.epoch⟩⟩] := by
  obtain ⟨query, arrivals⟩ := switched_poison c s
  have report := switchPoison_full (s := switchSlots c s) hb hp (by rwa [switchSlots_poisoned])
    (by rwa [switchSlots_query])
  rw [query, arrivals, report, produce_arrivals, switchSlots_arrivals, switchSlots_tally, mappedAfter_eq]
  exact ⟨switchSlots_query c s, rfl⟩

/-! ### The switch at the tally (R56) -/

theorem switched_queue (c : Context) (s : State) :
    (switched c s).tally.queue = s.tally.queue.filter (fun r => r ≠ c.victim) := by
  rw [← switchPoison_tally c s]
  exact forgetRow_queue c.victim _

/-- The victim's entry goes, every other stays, and full-reported becomes no (R56, R105). -/
theorem switched_entry {c : Context} {s : State} {p : Fin 32} {e : TallyEntry}
    (h : s.findEntry c.victim = some (p, e)) : (switched c s).tally.fullReported = false ∧
      ∀ q, (switched c s).entry q = if q = p then none else s.entry q := by
  have tally := switchPoison_tally c s
  have same (q) : (switchPoison c (switchSlots c s)).entry q = s.entry q :=
    congrArg (fun x : Tally => x.entries.get q) tally
  have removed : switched c s = (removeAt p c.victim (switchPoison c (switchSlots c s))).putContext none :=
    congrArg (·.putContext none) (forgetRow_found ((findEntry_of_tally tally c.victim).trans h))
  rw [removed]
  refine ⟨rfl, fun q => ?_⟩
  rw [← same q]
  exact removeAt_entry p q c.victim _

theorem switched_entries {c : Context} {s : State} (h : s.findEntry c.victim = none) :
    (switched c s).tally.entries = s.tally.entries := by
  have tally := switchPoison_tally c s
  have kept : switched c s = (dequeue c.victim (switchPoison c (switchSlots c s))).putContext none :=
    congrArg (·.putContext none) (forgetRow_absent ((findEntry_of_tally tally c.victim).trans h))
  rw [kept]
  show (switchPoison c (switchSlots c s)).tally.entries = s.tally.entries
  rw [tally]

/-- Settles O44: the claims of the switch, read at the state in which its job completes. -/
theorem switchMovesTheMapping : Obligations.SwitchMovesTheMapping := by
  intro c s
  refine ⟨switched c s, switch_eq c s, fun _ => slotUsed_target, fun _ => slotUsed_source, rfl, switched_same c s,
    fun _ _ => switched_forward, ?respare, fun _ _ => switched_revert, switched_poison_none, switched_poison_add,
    switched_poison_full, switched_queue c s, fun _ _ => switched_entry, switched_entries⟩
  case respare =>
    intro k t v x hd hk ht hne hs
    exact ⟨switched_respare_soft hd hk ht hne hs, fun _ => switched_respare_hard hd hk ht hne hs⟩

end Sys2Proof.Machine

/-! The operation tracker: what an OP_DONE and an OP_TIMEOUT do by the state of the tag they name (R77, R80), and what the
check before a REVERT reads (R84). -/

namespace Sys2Proof.Machine

/-! ### The commands, outside a held reset -/

theorem exec_opDone {s : State} (t : TagNum) (a : Fin 2) (result bits : BitVec 4) (running : s.resetLow = false) :
    exec (.opDone t a result bits) s = .next (takeOpDone t a result bits s) := live_run running

theorem exec_opTimeout {s : State} (t : TagNum) (running : s.resetLow = false) :
    exec (.opTimeout t) s = .next (takeTimeout t s) := live_run running

/-! ### An OP_DONE on an UP link, by the tag's state -/

section Done

variable {s : State} {t : TagNum} {a : Fin 2} {h : HeldOp} (result bits : BitVec 4)

theorem takeOpDone_free (up : s.link.up = true) (tag : s.tag t = .free) :
    takeOpDone t a result bits s = countStaleDone s := by
  simp only [takeOpDone, up, tag, if_true]

theorem takeOpDone_otherAttempt (up : s.link.up = true) (tag : s.tag t = .outstanding h) (ne : h.attempt ≠ a) :
    takeOpDone t a result bits s = countStaleDone s := by
  simp only [takeOpDone, up, tag, if_true, if_neg ne]

end Done

/-- Settles O21: in both stale cases the tracker does nothing but count. -/
theorem staleCompletionIsOnlyCounted : Obligations.StaleCompletionIsOnlyCounted := by
  intro t a result bits s running up stale
  rw [exec_opDone t a result bits running]
  rcases stale with free | ⟨h, outstanding, ne⟩
  · rw [takeOpDone_free result bits up free]
    rfl
  · rw [takeOpDone_otherAttempt result bits up outstanding ne]
    rfl

/-! ### An OP_TIMEOUT at attempt 0 -/

theorem takeTimeout_first {s : State} {t : TagNum} {h : HeldOp} (tag : s.tag t = .outstanding h)
    (first : h.attempt = 0) : takeTimeout t s = reissue t h s := by
  simp only [takeTimeout, tag, if_pos first]

/-- Settles O25: the re-issue is the tag at attempt 1, its OP_REQ and one retry counted. -/
theorem opTimeoutReissuesOnce : Obligations.OpTimeoutReissuesOnce := by
  intro t s h running tag first
  rw [exec_opTimeout t running, takeTimeout_first tag first]
  rfl

/-! ### The check before a REVERT -/

theorem mem_tagNumbers (t : TagNum) : t ∈ tagNumbers := by
  fin_cases t <;> decide

/-- A tag counts where it is QUARANTINED with a COPY whose location B is ROW for the row (R44, R84). -/
theorem rowCopyHeld_iff (s : State) (r : RowAddr) : s.rowCopyHeld r = true ↔
    ∃ t h a, s.tag t = .quarantined h ∧ h.op = .copy r a .row := by
  unfold State.rowCopyHeld
  rw [List.any_eq_true]
  constructor
  · rintro ⟨t, -, counted⟩
    split at counted
    · cases counted
    · cases counted
    next h quarantined =>
      split at counted
      next q a copy => exact ⟨t, h, a, quarantined, of_decide_eq_true counted ▸ copy⟩
      · cases counted
      · cases counted
  · rintro ⟨t, h, a, quarantined, copy⟩
    refine ⟨t, mem_tagNumbers t, ?_⟩
    simp only [quarantined, copy, decide_true]

/-- Settles O52, by the tags and operations that the check passes over. -/
theorem rowCopyCheckReadsTheQuarantinedTags : Obligations.RowCopyCheckReadsTheQuarantinedTags := rowCopyHeld_iff

end Sys2Proof.Machine

/-! What one step can be: the events, each with the effect its meaning gives it. Every law that steps keep is proved once
over this list. -/

namespace Sys2Proof.Machine

/-! ### The events -/

/-- The events with RESET_N high, other than FULL_RESET. A write of the window is one by what it addresses, whatever row
of the table names it (log 8, log 18). -/
inductive Event (s : State) : State → Prop where
  | stays : Event s s
  | loadStep : Event s (loadStep s)
  | loadEnd : Event s (loadEnd s)
  | linkUp : Event s (takeLinkUp s)
  | linkDown : Event s (takeLinkDown s)
  | query (id : BitVec 8) (kind : BitVec 2) (w : Word) : Event s (takeQuery id kind w s)
  | errNote (a : Bool) (k : SlotNum) (u : Bool) (b : BitVec 4) (w : Word) : Event s (takeErrNote a k u b w s)
  | opDone (t : TagNum) (a : Fin 2) (r b : BitVec 4) : Event s (takeOpDone t a r b s)
  | opTimeout (t : TagNum) : Event s (takeTimeout t s)
  | quarantineExpiry (t : TagNum) : Event s (takeQuarantineExpiry t s)
  | epochExpiry : Event s (takeEpochExpiry s)
  | scrubExpiry : Event s (takeScrubExpiry s)
  | completion (r : Option (BitVec 64)) : Event s (takeCompletion r s)
  | supplyFall : Event s (takeSupplyFall s)
  | supplyRise : Event s (putSupply true s)
  | abort : Event s (commandAbort s)
  | restart : Event s (commandRestart s)
  | refused : Event s (refuseWrite s)
  | ctrl {v : Word} {c : Settings} (h : s.config.writeCtrl v = some c) : Event s (acceptCtrl c s)
  | tally {v : Word} {c : Settings} (h : s.config.writeTally v = some c) : Event s (acceptTally c s)
  | scrub {v : Word} {c : Settings} (h : s.config.writeScrub v = some c) : Event s (acceptScrub c s)
  | link {v : Word} {c : Settings} (h : s.config.writeLink v = some c) : Event s (putSettings c s)
  | geom (v : Word) : Event s (writeGeom v s)
  | irqf (v : Word) : Event s (writeIrqf v s)
  | irqm (v : Word) : Event s (writeIrqm v s)
  | counter (c : CounterId) : Event s (clearCounter c s)
  | descriptor (i : DescId) (d : Descriptor) : Event s (s.putDesc i d)
  | handOver (i : DescId) (d : Descriptor) : Event s (settle (s.putDesc i d))
  | report (k : Fin 64) (w : Fin 8) (v : Word) : Event s (writeReport k w v s)
  | read (a : BitVec 14) (w : Width) : Event s (portRead a w s)

/-! ### Writes of the window -/

section Writes

variable (s : State)

theorem writeCtrl_event (v : Word) : Event s (writeCtrl v s) := by
  unfold writeCtrl
  split
  · exact .refused
  next h => exact .ctrl h

theorem writeTally_event (v : Word) : Event s (writeTally v s) := by
  unfold writeTally
  split
  · exact .refused
  next h => exact .tally h

theorem writeScrub_event (v : Word) : Event s (writeScrub v s) := by
  unfold writeScrub
  split
  · exact .refused
  next h => exact .scrub h

theorem writeLink_event (v : Word) : Event s (writeLink v s) := by
  unfold writeLink
  split
  · exact .refused
  next h => exact .link h

theorem writeCmd_event (v : Word) : Event s (writeCmd v s) := by
  unfold writeCmd
  split
  · exact .abort
  · split
    · exact .restart
    · exact .refused

theorem writeCounter_event (c : CounterId) (v : Word) : Event s (writeCounter c v s) := by
  unfold writeCounter
  split
  · exact .counter c
  · exact .refused

theorem writeDescriptor_event (d : DescId) (w : Fin 4) (v : Word) : Event s (writeDescriptor d w v s) := by
  unfold writeDescriptor
  split
  · split
    · exact .descriptor _ _
    · exact .refused
  · dsimp only
    split
    · exact .handOver _ _
    · exact .descriptor _ _

theorem writeReg_event (r : Reg) (v : Word) : Event s (writeReg r v s) := by
  cases r with
  | ctrl => exact writeCtrl_event s v
  | cmd => exact writeCmd_event s v
  | irqf => exact .irqf v
  | irqm => exact .irqm v
  | geom => exact .geom v
  | tallycfg => exact writeTally_event s v
  | scrubcfg => exact writeScrub_event s v
  | linkcfg => exact writeLink_event s v
  | counter c => exact writeCounter_event s c v
  | _ => exact .refused

theorem portWrite_event (a : BitVec 14) (w : Width) (v : Word) : Event s (portWrite a w v s) := by
  unfold portWrite
  split
  · cases regionOf a.toNat with
    | reg r => exact writeReg_event s r v
    | desc d n => exact writeDescriptor_event s d n v
    | report k n => exact .report k n v
    | _ => exact .refused
  · exact .refused

end Writes

/-! ### The commands -/

/-- What a command other than FULL_RESET can do: with RESET_N low only the pins and a read act (R192). -/
inductive Taken (s : State) : State → Prop where
  | held (h : s.resetLow = true) : Taken s s
  | release (h : s.resetLow = true) : Taken s (beginLoad s)
  | heldRead (h : s.resetLow = true) : Taken s (putReadData 0 s)
  | heldSupply (h : s.resetLow = true) (level : Bool) : Taken s (putSupply level s)
  | event (h : s.resetLow = false) {t : State} (e : Event s t) : Taken s t

theorem live_taken {f : State → State} {s t : State} (e : Event s (f s)) (h : live f s = .next t) : Taken s t := by
  cases low : s.resetLow with
  | true =>
    rw [live_held low] at h
    cases h
    exact .held low
  | false =>
    rw [live_run low] at h
    cases h
    exact .event low e

/-- A command that acts in a way of its own while RESET_N is low. -/
theorem pin_taken {s t a b : State} (h : (if s.resetLow = true then a else b) = t) (low : s.resetLow = true → Taken s a)
    (high : s.resetLow = false → Event s b) : Taken s t := by
  subst h
  split
  · exact low ‹_›
  next n => exact .event (by simpa using n) (high (by simpa using n))

/-- Every command but FULL_RESET is an event, or acts as a held reset allows. -/
theorem exec_taken {c : Instr} {s t : State} (ne : c ≠ .fullReset) (h : exec c s = .next t) : Taken s t := by
  cases c with
  | fullReset => exact absurd rfl ne
  | resetRelease => exact pin_taken (Host.Outcome.next.inj h) .release fun _ => .stays
  | fuseSupplyFall => exact pin_taken (Host.Outcome.next.inj h) (.heldSupply · false) fun _ => .supplyFall
  | fuseSupplyRise =>
    cases h
    cases low : s.resetLow with
    | true => exact .heldSupply low true
    | false => exact .event low .supplyRise
  | viewRead a w => exact pin_taken (Host.Outcome.next.inj h) .heldRead fun _ => .read a w
  | unknownMessage _ =>
    cases h
    cases low : s.resetLow with
    | true => exact .held low
    | false => exact .event low .stays
  | loadStep => exact live_taken .loadStep h
  | loadEnd => exact live_taken .loadEnd h
  | linkUp => exact live_taken .linkUp h
  | linkDown => exact live_taken .linkDown h
  | query id kind w => exact live_taken (.query id kind w) h
  | errNote a k u b w => exact live_taken (.errNote a k u b w) h
  | opDone t a r b => exact live_taken (.opDone t a r b) h
  | opTimeout t => exact live_taken (.opTimeout t) h
  | quarantineExpiry t => exact live_taken (.quarantineExpiry t) h
  | epochExpiry => exact live_taken .epochExpiry h
  | scrubIntervalExpiry => exact live_taken .scrubExpiry h
  | programmingCompletion r => exact live_taken (.completion r) h
  | abort => exact live_taken .abort h
  | restart => exact live_taken .restart h
  | badCommand v => exact live_taken (writeCmd_event s v) h
  | engineEnable v => exact live_taken (writeCtrl_event s v) h
  | scrubEnable v => exact live_taken (writeCtrl_event s v) h
  | fuseEnable v => exact live_taken (writeCtrl_event s v) h
  | selfRepairMode v => exact live_taken (writeCtrl_event s v) h
  | poisonOnBadCopy v => exact live_taken (writeCtrl_event s v) h
  | tallycfgT v => exact live_taken (writeTally_event s v) h
  | tallycfgL v => exact live_taken (writeTally_event s v) h
  | scrubcfgI v => exact live_taken (writeScrub_event s v) h
  | scrubcfgD v => exact live_taken (writeScrub_event s v) h
  | scrubcfgChannelMask v => exact live_taken (writeScrub_event s v) h
  | linkcfgN v => exact live_taken (writeLink_event s v) h
  | linkcfgP v => exact live_taken (writeLink_event s v) h
  | geomWrite v => exact live_taken (.geom v) h
  | irqfWrite v => exact live_taken (.irqf v) h
  | irqmWrite v => exact live_taken (.irqm v) h
  | counterClear c v => exact live_taken (writeCounter_event s c v) h
  | descriptorWrite a v => exact live_taken (portWrite_event s a .w32 v) h
  | handOver a v => exact live_taken (portWrite_event s a .w32 v) h
  | revoke a v => exact live_taken (portWrite_event s a .w32 v) h
  | reportSlotWrite a v => exact live_taken (portWrite_event s a .w32 v) h
  | handBack a v => exact live_taken (portWrite_event s a .w32 v) h
  | writeRefused a w v => exact live_taken (portWrite_event s a w v) h

/-- A step idles, resets the block, or takes a command (log 4, R192). `u` is the state with the queue's rest. -/
theorem step_cases {s t : State} (h : step s = .next t) :
    t = idle s ∨ ∃ rest, t = fullResetState { s with pending := rest } ∨ Taken { s with pending := rest } t := by
  unfold step at h
  split at h
  · cases h; exact .inl rfl
  next c rest _ =>
    refine .inr ⟨rest, ?_⟩
    by_cases ne : c = .fullReset
    · subst ne; cases h; exact .inl rfl
    · exact .inr (exec_taken ne h)

end Sys2Proof.Machine

/-! What the shared operations keep of the laws that read one block each: the ranges of the counters, the poison list, the
tally, the fuse array, the retired slots, the held reports and the scrubber's request. `<op>_keeps` follows the frame
lemma `<op>_same`. -/

namespace Sys2Proof.Machine

/-! ### The relation -/

/-- The report unit's law but for the reports of the event being taken (R179, R180, R181). -/
structure HeldLaw (s : State) : Prop where
  room : s.reports.held.length ≤ 8
  drained : s.reports.held = [] ∨ (s.reportSlot s.reports.writePos).device = false
  lost : 0 < s.reports.lost → s.reports.held.length = 8

theorem ReportsLaw.held {s : State} (h : ReportsLaw s) : HeldLaw s := ⟨h.room, h.drained, h.lost⟩

theorem HeldLaw.reports {s : State} (h : HeldLaw s) (a : s.arrivals = []) : ReportsLaw s := ⟨h.room, h.drained, h.lost, a⟩

/-- The scrubber waits only while RUNNING and with its timer stopped (R110, R113). -/
def WaitLaw (s : State) : Prop := s.scrub.waiting = true → s.scrub.state = .running ∧ s.scrub.timer = .stopped

/-- A count that was in its range is in its range (R181, R191). -/
def Within (a b : Nat) : Prop := a ≤ 65535 → b ≤ 65535

theorem Within.refl (a : Nat) : Within a a := id

theorem Within.of_eq {a b : Nat} (h : b = a) : Within a b := h ▸ Within.refl a

theorem within_satInc (a : Nat) : Within a (satInc a) := by
  intro h
  unfold satInc Config.counterMax
  split <;> omega

theorem Within.of_le {a b : Nat} (h : b ≤ a) : Within a b := h.trans

/-- Whatever of these laws holds of `s` holds of `t`, the write position of the fuse array is no lower, and the slots
RETIRED in `s` are RETIRED. -/
structure Keeps (s t : State) : Prop where
  settings : SettingsLaw s.config → SettingsLaw t.config
  counters : CountersLaw s → CountersLaw t
  poison : PoisonLaw s → PoisonLaw t
  tally : TallyLaw s → TallyLaw t
  fuse : FuseLaw s → FuseLaw t ∧ s.fuse.writePos ≤ t.fuse.writePos
  retired : ∀ k, (s.slot k).isRetired = true → (t.slot k).isRetired = true
  held : HeldLaw s → HeldLaw t
  waiting : WaitLaw s → WaitLaw t

theorem Keeps.refl (s : State) : Keeps s s :=
  ⟨id, id, id, id, fun h => ⟨h, le_rfl⟩, fun _ => id, id, id⟩

theorem Keeps.trans {s t u : State} (h : Keeps s t) (k : Keeps t u) : Keeps s u where
  settings := k.settings ∘ h.settings
  counters := k.counters ∘ h.counters
  poison := k.poison ∘ h.poison
  tally := k.tally ∘ h.tally
  fuse l := ⟨(k.fuse (h.fuse l).1).1, (h.fuse l).2.trans (k.fuse (h.fuse l).1).2⟩
  retired n := k.retired n ∘ h.retired n
  held := k.held ∘ h.held
  waiting := k.waiting ∘ h.waiting

theorem ite_keeps {s a b : State} {c : Prop} [Decidable c] (ha : Keeps s a) (hb : Keeps s b) :
    Keeps s (if c then a else b) := by
  split
  · exact ha
  · exact hb

theorem foldl_keeps {α : Type} (f : α → State → State) (h : ∀ a s, Keeps s (f a s)) :
    ∀ (as : List α) (s : State), Keeps s (as.foldl (fun t a => f a t) s)
  | [], s => .refl s
  | a :: as, s => (h a s).trans (foldl_keeps f h as (f a s))

theorem PoisonLaw.of_same {s t : State} (h : PoisonLaw s) (e : t.query.poison = s.query.poison) : PoisonLaw t := by
  constructor
  · rw [e]; exact h.room
  · rw [e]; exact h.distinct
  · rw [e]; exact h.hits

theorem FuseLaw.of_same {s t : State} (h : FuseLaw s) (p : t.fuse.writePos = s.fuse.writePos)
    (r : t.fuse.records = s.fuse.records) (st : ∀ i k n, t.fuse.state = .programming i k n → s.fuse.state = .programming i k n)
    (q : 1 ≤ t.fuse.nextSeq ∧ t.fuse.nextSeq ≤ 4096) : FuseLaw t := by
  have record (i) : t.record i = s.record i := congrArg (fun x : Vector FuseBytes 96 => x.get i) r
  constructor
  · rw [p]; exact h.range
  · intro i; rw [p, record]; exact h.below i
  · intro i; rw [p, record]; exact h.above i
  · intro i k n e; rw [p]; exact h.programming i k n (st i k n e)
  · exact q

theorem HeldLaw.of_same {s t : State} (h : HeldLaw s) (e : t.reports = s.reports) : HeldLaw t := by
  constructor
  · rw [e]; exact h.room
  · unfold State.reportSlot; rw [e]; exact h.drained
  · rw [e]; exact h.lost

/-- What a part of the state has to show where it changes, for the laws that read it. -/
def Block.kept (s t : State) : Block → Prop
  | .config => (SettingsLaw s.config → SettingsLaw t.config) ∧ (TallyLaw s → TallyLaw t)
  | .slots => ∀ k, (s.slot k).isRetired = true → (t.slot k).isRetired = true
  | .query => Within s.query.outOfRange t.query.outOfRange ∧ Within s.query.waits t.query.waits ∧
      (PoisonLaw s → PoisonLaw t)
  | .tracker => Within s.tracker.staleDone t.tracker.staleDone ∧ Within s.tracker.retries t.tracker.retries
  | .tally => Within s.tally.staleNotes t.tally.staleNotes ∧ (TallyLaw s → TallyLaw t)
  | .scrub => WaitLaw s → WaitLaw t
  | .fuse => FuseLaw s → FuseLaw t ∧ s.fuse.writePos ≤ t.fuse.writePos
  | .reports => Within s.reports.lost t.reports.lost ∧ (HeldLaw s → HeldLaw t)
  | .port => Within s.port.refused t.port.refused
  | .resetLow | .supplyOk | .device | .migration | .link | .engine | .arrivals | .freeCount | .pending => True

/-- A part that the frame says is the same has nothing to show. -/
theorem SameBut.within {l : List Block} {s t : State} (h : SameBut l s t) (b : Block) {α : Type} (f : State → α)
    (n : α → Nat) (same : b.same s t → f t = f s) (k : b ∈ l → Within (n (f s)) (n (f t))) :
    Within (n (f s)) (n (f t)) := by
  by_cases x : b ∈ l
  · exact k x
  · exact .of_eq (congrArg n (same (h b x)))

/-- The laws follow the frame: only the parts that it lets change have anything to show. -/
theorem Keeps.of_same {l : List Block} {s t : State} (h : SameBut l s t) (k : ∀ b ∈ l, b.kept s t) : Keeps s t where
  settings := by
    by_cases x : Block.config ∈ l
    · exact (k _ x).1
    · have e : t.config = s.config := h _ x
      rw [e]
      exact id
  counters c := by
    refine ⟨fun i => ?_, h.within .reports (·.reports) (·.lost) id (fun x => (k _ x).1) c.2⟩
    cases i with
    | staleDone => exact h.within .tracker (·.tracker) (·.staleDone) id (fun x => (k _ x).1) (c.1 .staleDone)
    | retry => exact h.within .tracker (·.tracker) (·.retries) id (fun x => (k _ x).2) (c.1 .retry)
    | staleNote => exact h.within .tally (·.tally) (·.staleNotes) id (fun x => (k _ x).1) (c.1 .staleNote)
    | range => exact h.within .query (·.query) (·.outOfRange) id (fun x => (k _ x).1) (c.1 .range)
    | wait => exact h.within .query (·.query) (·.waits) id (fun x => (k _ x).2.1) (c.1 .wait)
    | refused => exact h.within .port (·.port) (·.refused) id (fun x => k _ x) (c.1 .refused)
  poison := by
    by_cases x : Block.query ∈ l
    · exact (k _ x).2.2
    · exact fun p => p.of_same (congrArg QueryUnit.poison (h _ x))
  tally := by
    by_cases x : Block.tally ∈ l
    · exact (k _ x).2
    · by_cases y : Block.config ∈ l
      · exact (k _ y).2
      · have e : t.tally = s.tally := h _ x
        exact fun p => p.of_same (congrArg Tally.entries e) (congrArg Tally.queue e) (congrArg Settings.threshold (h _ y))
  fuse := by
    by_cases x : Block.fuse ∈ l
    · exact k _ x
    · have e : t.fuse = s.fuse := h _ x
      exact fun p => ⟨p.of_same (by rw [e]) (by rw [e]) (by rw [e]; exact fun _ _ _ => id) (by rw [e]; exact p.sequence),
        by rw [e]⟩
  retired := by
    by_cases x : Block.slots ∈ l
    · exact k _ x
    · intro n
      rw [slot_of_slots (h _ x) n]
      exact id
  held := by
    by_cases x : Block.reports ∈ l
    · exact (k _ x).2
    · exact fun p => p.of_same (h _ x)
  waiting := by
    by_cases x : Block.scrub ∈ l
    · exact k _ x
    · have e : t.scrub = s.scrub := h _ x
      unfold WaitLaw
      rw [e]
      exact id

/-- Where one part changes, it alone has something to show. -/
theorem Keeps.of_block {b : Block} {s t : State} (h : SameBut [b] s t) (k : b.kept s t) : Keeps s t :=
  .of_same h (List.forall_mem_singleton.2 k)

theorem Keeps.of_blocks {a b : Block} {s t : State} (h : SameBut [a, b] s t) (ka : a.kept s t) (kb : b.kept s t) :
    Keeps s t :=
  .of_same h (List.forall_mem_cons.2 ⟨ka, List.forall_mem_singleton.2 kb⟩)

/-- A part of the state that none of the laws reads. -/
def Block.quiet (b : Block) : Bool :=
  b ∈ [Block.resetLow, .supplyOk, .device, .migration, .link, .engine, .arrivals, .freeCount, .pending]

theorem Block.quiet_kept {s t : State} {b : Block} (q : b.quiet = true) : b.kept s t := by
  cases b <;> first | exact trivial | exact absurd q (by decide)

theorem Keeps.quiet {l : List Block} {s t : State} (h : SameBut l s t) (q : ∀ b ∈ l, b.quiet = true) : Keeps s t :=
  .of_same h fun b hb => Block.quiet_kept (q b hb)

/-! ### Updates of one part -/

section Updates

variable (s : State)

/-- A slot rewritten: a RETIRED slot has to stay RETIRED (R18). -/
theorem putSlot_keeps {k : SlotNum} {r : SlotRec} (h : (s.slot k).isRetired = true → r.isRetired = true) :
    Keeps s (s.putSlot k r) := by
  refine .of_block (putSlot_same s k r) fun j => ?_
  rw [slot_putSlot]
  split
  next e => subst e; exact h
  · exact id

theorem putTag_keeps (t : TagNum) (r : Tag) : Keeps s (s.putTag t r) :=
  .of_block (putTag_same s t r) ⟨.refl _, .refl _⟩

theorem putDesc_keeps (i : DescId) (d : Descriptor) : Keeps s (s.putDesc i d) := .quiet (putDesc_same s i d) (by decide)

theorem produce_keeps (p : Producer) (x : ReportBody) : Keeps s (produce p x s) := .quiet (produce_same p x s) (by decide)

theorem send_keeps (m : OutMsg) : Keeps s (send m s) := .quiet (send_same m s) (by decide)

theorem putContext_keeps (c : Option Context) : Keeps s (s.putContext c) := .quiet (putContext_same s c) (by decide)

theorem putEngine_keeps (e : JobEngine) : Keeps s { s with engine := e } := .quiet (putEngine_same e s) (by decide)

theorem raiseJobDone_keeps : Keeps s (raiseJobDone s) := .of_block (raiseJobDone_same s) (Within.refl _)

theorem raiseLink_keeps : Keeps s (raiseLink s) := .of_block (raiseLink_same s) (Within.refl _)

theorem refuseWrite_keeps : Keeps s (refuseWrite s) := .of_block (refuseWrite_same s) (within_satInc _)

theorem putReadData_keeps (v : Word) : Keeps s (putReadData v s) :=
  .of_block (putReadData_same v s) (Within.refl _)

theorem countStaleDone_keeps : Keeps s (countStaleDone s) :=
  .of_block (countStaleDone_same s) ⟨within_satInc _, .refl _⟩

theorem countRetry_keeps : Keeps s (countRetry s) :=
  .of_block (countRetry_same s) ⟨.refl _, within_satInc _⟩

theorem countStaleNote_keeps : Keeps s (countStaleNote s) :=
  .of_block (countStaleNote_same s) ⟨within_satInc _, fun h => h.of_same rfl rfl rfl⟩

theorem countOutOfRange_keeps : Keeps s (countOutOfRange s) :=
  .of_block (countOutOfRange_same s) ⟨within_satInc _, .refl _, fun h => h.of_same rfl⟩

theorem countWait_keeps : Keeps s (countWait s) :=
  .of_block (countWait_same s) ⟨.refl _, within_satInc _, fun h => h.of_same rfl⟩

/-- Clearing a counter raises none (R191). -/
theorem clearCounter_keeps (c : CounterId) : Keeps s (clearCounter c s) := by
  refine .of_same (clearCounter_same c s) ?_
  simp only [List.forall_mem_cons, List.not_mem_nil, IsEmpty.forall_iff, implies_true, and_true]
  refine ⟨⟨.of_le ?done, .of_le ?retries⟩, ⟨.of_le ?notes, fun h => ?tally⟩, ⟨.of_le ?range, .of_le ?waits, fun h => ?poison⟩,
    Within.of_le ?refused⟩
  case tally => cases c <;> exact h.of_same rfl rfl rfl
  case poison => cases c <;> exact h.of_same rfl
  all_goals cases c <;> simp [clearCounter]

theorem startEpoch_keeps : Keeps s (startEpoch s) :=
  .of_block (startEpoch_same s) ⟨.refl _, fun h => h.of_same rfl rfl rfl⟩

theorem nextEpoch_keeps : Keeps s (nextEpoch s) :=
  .of_block (nextEpoch_same s) ⟨.refl _, fun h => h.of_same rfl rfl rfl⟩

theorem putPosition_keeps (p : RowAddr) : Keeps s (putPosition p s) :=
  .of_block (putPosition_same p s) fun h => h

/-- A scrubber that withdraws its request meets the law of its request. -/
theorem putScrub_keeps {x : Scrubber} (h : x.waiting = false) : Keeps s { s with scrub := x } :=
  .of_block (putScrub_same x s) fun _ w => Bool.noConfusion (h.symm.trans w)

end Updates

/-! ### Claims on the slot table -/

section Claims

variable (s : State) (k : SlotNum)

theorem reserve_keeps (r : RowAddr) : Keeps s (reserve k r s) := by
  unfold reserve
  split
  next h => exact putSlot_keeps s (by rw [h]; exact id)
  · exact .refl s

theorem switchTarget_keeps : Keeps s (switchTarget k s) := by
  unfold switchTarget
  split
  next h => exact putSlot_keeps s (by rw [h]; exact id)
  · exact .refl s

theorem retireSource_keeps : Keeps s (retireSource k s) := by
  unfold retireSource
  split
  · exact putSlot_keeps s fun _ => rfl
  · exact putSlot_keeps s fun _ => rfl
  · exact .refl s

theorem freeSource_keeps : Keeps s (freeSource k s) := by
  unfold freeSource
  split
  next h => exact putSlot_keeps s (by rw [h]; exact id)
  · exact .refl s

theorem abortRelease_keeps : Keeps s (abortRelease k s) := by
  unfold abortRelease
  split
  next h => exact putSlot_keeps s fun x => by rw [h] at x; cases x
  · exact .refl s

theorem drainRelease_keeps : Keeps s (drainRelease k s) := by
  unfold drainRelease
  split
  next h => exact putSlot_keeps s (by rw [h]; exact id)
  · exact .refl s

theorem beginCommit_keeps : Keeps s (beginCommit k s) := by
  unfold beginCommit
  split
  next h => exact putSlot_keeps s (by rw [h]; exact id)
  · exact .refl s

theorem commitGood_keeps (i : Fin 96) : Keeps s (commitGood k i s) := by
  unfold commitGood
  split
  next h => exact putSlot_keeps s (by rw [h]; exact id)
  · exact .refl s

theorem commitBad_keeps : Keeps s (commitBad k s) := by
  unfold commitBad
  split
  next h => exact putSlot_keeps s (by rw [h]; exact id)
  · exact .refl s

theorem condemn_keeps : Keeps s (condemn k s) := by
  unfold condemn
  split
  · exact putSlot_keeps s fun _ => rfl
  · exact .refl s

theorem condemnFused_keeps (i : Fin 96) : Keeps s (condemnFused k i s) := by
  unfold condemnFused
  split
  · exact putSlot_keeps s fun _ => rfl
  · exact .refl s

theorem installMap_keeps (v : Victim) (i : Fin 96) : Keeps s (installMap k v i s) := by
  unfold installMap
  split
  next h => exact putSlot_keeps s (by rw [h]; exact id)
  · exact .refl s

theorem installSupersede_keeps (i : Fin 96) : Keeps s (installSupersede k i s) := by
  unfold installSupersede
  split
  · exact putSlot_keeps s fun _ => rfl
  · exact .refl s

theorem installCondemn_keeps (i : Fin 96) : Keeps s (installCondemn k i s) := by
  unfold installCondemn
  split
  · exact putSlot_keeps s fun _ => rfl
  · exact .refl s

theorem switchSlots_keeps (c : Context) : Keeps s (switchSlots c s) := by
  unfold switchSlots
  split
  · exact switchTarget_keeps _ _
  · exact (switchTarget_keeps _ _).trans (retireSource_keeps _ _)
  · exact freeSource_keeps _ _
  · exact .refl s

theorem releaseTarget_keeps (c : Context) : Keeps s (releaseTarget c s) := by
  unfold releaseTarget
  split
  · exact abortRelease_keeps _ _
  · exact abortRelease_keeps _ _
  · exact .refl s

theorem programmingClaim_keeps (kind : RecordKind) (good : Bool) (i : Fin 96) :
    Keeps s (programmingClaim kind good k i s) := by
  unfold programmingClaim
  split
  · exact commitGood_keeps _ _ _
  · exact commitBad_keeps _ _
  · exact condemnFused_keeps _ _ _
  · exact .refl s

theorem supplyFallClaim_keeps (kind : RecordKind) : Keeps s (supplyFallClaim kind k s) := by
  cases kind with
  | map => exact commitBad_keeps _ _
  | condemn => exact .refl s

end Claims

/-! ### The poison list (R29, R36 to R39) -/

theorem addPoison_keeps {s : State} {r : RowAddr} (o : Origin) (new : s.poisoned r = false)
    (room : s.query.poison.length < 16) : Keeps s (addPoison r o s) := by
  refine .of_block (addPoison_same r o s) ⟨.refl _, .refl _, fun h => ?_⟩
  have fresh : ∀ e ∈ s.query.poison, e.row ≠ r := by simpa [State.poisoned] using new
  constructor
  · rw [addPoison_query, List.length_append]; exact room
  · rw [addPoison_query, List.map_append]
    refine List.nodup_append.2 ⟨h.distinct, List.nodup_singleton _, ?_⟩
    intro a ha b hb x
    obtain ⟨e, he, rfl⟩ := List.mem_map.1 ha
    exact fresh e he (x.trans (List.mem_singleton.1 hb))
  · intro e he
    rcases List.mem_append.1 he with he | he
    · exact h.hits e he
    · rw [List.mem_singleton.1 he]; exact Nat.zero_le _

theorem removePoison_keeps (r : RowAddr) (s : State) : Keeps s (removePoison r s) := by
  refine .of_block (removePoison_same r s) ⟨.refl _, .refl _, fun h => ?_⟩
  constructor
  · exact (List.length_filter_le _ _).trans h.room
  · exact h.distinct.sublist (List.filter_sublist.map _)
  · intro e he
    exact h.hits e (List.mem_of_mem_filter he)

/-- A hit keeps every entry's row, and its count saturates (R29). -/
theorem hitPoison_keeps (r : RowAddr) (s : State) : Keeps s (hitPoison r s) := by
  refine .of_block (hitPoison_same r s) ⟨.refl _, .refl _, fun h => ?_⟩
  have rows : (hitPoison r s).query.poison.map (·.row) = s.query.poison.map (·.row) := by
    show (s.query.poison.map fun e => if e.row = r then e.hit else e).map (·.row) = _
    rw [List.map_map]
    refine List.map_congr_left fun e _ => ?_
    show (if e.row = r then e.hit else e).row = e.row
    split <;> rfl
  constructor
  · rw [← List.length_map (·.row), rows, List.length_map]; exact h.room
  · rw [rows]; exact h.distinct
  · intro e he
    obtain ⟨f, hf, rfl⟩ := List.mem_map.1 he
    have := h.hits f hf
    split
    · show (if f.hits < 255 then f.hits + 1 else f.hits) ≤ 255
      split <;> omega
    · exact this

end Sys2Proof.Machine

/-! The laws of single blocks through the shared operations, part by part: the tally, the report unit, the tracker, the
completion of jobs, the migration, the fuse store, the taking of jobs, and the end of an event. -/

namespace Sys2Proof.Machine

/-! ### The error tally -/

theorem Keeps.of_tally {s t : State} (h : SameBut [.tally, .arrivals] s t) (n : t.tally.staleNotes = s.tally.staleNotes)
    (l : TallyLaw s → TallyLaw t) : Keeps s t :=
  .of_blocks h ⟨.of_eq n, l⟩ trivial

section Tally

variable (s : State)

theorem promotionTest_staleNotes (p : Fin 32) (e : TallyEntry) :
    (promotionTest p e s).tally.staleNotes = s.tally.staleNotes := by
  unfold promotionTest
  split
  · rw [promote_eq]
  · split
    · rw [promote_eq]
    · rfl

theorem countNote_staleNotes (p : Fin 32) (e : TallyEntry) (n : Note) :
    (countNote p e n s).tally.staleNotes = s.tally.staleNotes := by
  unfold countNote
  dsimp only
  split
  · rw [promotionTest_staleNotes]; split <;> rfl
  · split <;> rfl

theorem createEntry_staleNotes (p : Fin 32) (n : Note) :
    (createEntry p n s).tally.staleNotes = s.tally.staleNotes := by
  unfold createEntry
  dsimp only
  rw [promotionTest_staleNotes]
  split <;> rfl

theorem unrecorded_staleNotes (n : Note) : (unrecorded n s).tally.staleNotes = s.tally.staleNotes := by
  unfold unrecorded
  dsimp only
  split <;> split <;> rfl

theorem recordNote_staleNotes (n : Note) : (recordNote n s).tally.staleNotes = s.tally.staleNotes := by
  unfold recordNote
  split
  · exact countNote_staleNotes s _ _ n
  · split
    · exact createEntry_staleNotes s _ n
    · split
      · exact createEntry_staleNotes s _ n
      · exact unrecorded_staleNotes s n

theorem recordNote_keeps (n : Note) : Keeps s (recordNote n s) :=
  .of_tally (recordNote_same n s) (recordNote_staleNotes s n) fun h => recordNote_law h n

theorem takeNote_keeps (n : Note) : Keeps s (takeNote n s) :=
  ite_keeps (recordNote_keeps s n) (countStaleNote_keeps s)

theorem removeAt_keeps {p : Fin 32} {e : TallyEntry} (h : s.entry p = some e) : Keeps s (removeAt p e.row s) :=
  .of_tally ((removeAt_same p e.row s).mono (by decide)) rfl fun l => removeAt_law l h

theorem forgetRow_keeps (r : RowAddr) : Keeps s (forgetRow r s) := by
  refine .of_tally ((forgetRow_same r s).mono (by decide)) ?_ fun l => forgetRow_law l r
  unfold forgetRow
  split <;> rfl

theorem markAttempted_keeps (r : RowAddr) : Keeps s (markAttempted r s) := by
  refine .of_tally ((markAttempted_same r s).mono (by decide)) ?_ fun l => markAttempted_law l r
  unfold markAttempted
  split <;> rfl

theorem takeClaim_keeps {r : RowAddr} {q : List RowAddr} (h : s.tally.queue = r :: q) : Keeps s (takeClaim r s) := by
  refine .of_tally ((takeClaim_same r s).mono (by decide)) ?_ fun l => takeClaim_law l h
  unfold takeClaim
  dsimp only
  split <;> rfl

/-- Whatever every visit leaves, a walk over the positions leaves. -/
theorem walk_staleNotes {f : Fin 32 → State → State}
    (hf : ∀ p t, (f p t).tally.staleNotes = t.tally.staleNotes) :
    (positions.foldl (fun t p => f p t) s).tally.staleNotes = s.tally.staleNotes :=
  walk_keeps (I := fun t => t.tally.staleNotes = s.tally.staleNotes) (fun p t h => (hf p t).trans h) positions s rfl

theorem decay_staleNotes : (decay s).tally.staleNotes = s.tally.staleNotes := by
  unfold decay
  refine walk_staleNotes (f := decayAt) s fun p t => ?_
  unfold decayAt
  split
  · rfl
  · split
    · split <;> rfl
    · rfl

theorem decay_keeps : Keeps s (decay s) := .of_tally ((decay_same s).mono (by decide)) (decay_staleNotes s) decay_law

theorem trimQueue_staleNotes (keep : Location → Bool) : (trimQueue keep s).tally.staleNotes = s.tally.staleNotes := by
  unfold trimQueue
  refine walk_staleNotes (f := trimAt keep) s fun p t => ?_
  unfold trimAt
  split
  · rfl
  · split <;> rfl

theorem fillQueue_staleNotes : (fillQueue s).tally.staleNotes = s.tally.staleNotes := by
  unfold fillQueue
  refine walk_staleNotes (f := appendAt) s fun p t => ?_
  unfold appendAt
  split
  · rfl
  · split <;> rfl

theorem applyMode_staleNotes (old : RepairMode) : (applyMode old s).tally.staleNotes = s.tally.staleNotes := by
  unfold applyMode
  split
  · unfold emptyQueue
    dsimp only
    exact trimQueue_staleNotes s _
  · exact trimQueue_staleNotes s _
  · exact fillQueue_staleNotes s
  · exact fillQueue_staleNotes s

theorem applyMode_keeps (old : RepairMode) : Keeps s (applyMode old s) :=
  .of_tally ((applyMode_same old s).mono (by decide)) (applyMode_staleNotes s old) (applyMode_law old)

end Tally

/-! ### The report unit -/

section Reports

variable (s : State)

/-- A report that arrives is written, held or lost, each with the law kept (R179, R181). -/
theorem arrive_held (r : Report) (h : HeldLaw s) : HeldLaw (arrive r s) := by
  unfold arrive
  split
  next now =>
    exact ⟨h.room, .inl now.1, fun x => h.lost x⟩
  next later =>
    split
    next room =>
      refine ⟨?_, .inr ?_, fun x => ?_⟩
      · show (s.reports.held ++ [_]).length ≤ 8
        rw [List.length_append]; exact room
      · show (s.reportSlot s.reports.writePos).device = false
        rcases h.drained with e | e
        · by_contra n
          exact later ⟨e, by show (s.reportSlot s.reports.writePos).device = true; simpa using n⟩
        · exact e
      · have := h.lost x
        exact absurd room (by rw [this]; decide)
    next full =>
      have eight : s.reports.held.length = 8 := le_antisymm h.room (Nat.le_of_not_lt full)
      have law (t : State) (e : t.reports = { s.reports with lost := satInc s.reports.lost }) : HeldLaw t := by
        refine ⟨by rw [e]; exact h.room, ?_, fun _ => by rw [e]; exact eight⟩
        unfold State.reportSlot
        rw [e]
        exact h.drained
      unfold loseReport
      dsimp only
      split <;> exact law _ rfl

theorem arrive_keeps (r : Report) : Keeps s (arrive r s) := by
  refine .of_blocks (arrive_same r s) ⟨?lost, arrive_held s r⟩ (Within.of_eq ?port)
  case port =>
    unfold arrive loseReport
    split
    · rfl
    · split
      · rfl
      · dsimp only; split <;> rfl
  case lost =>
    unfold arrive loseReport
    split
    · exact .refl _
    · split
      · exact .refl _
      · dsimp only; split <;> exact within_satInc _

theorem arriveAll_keeps : ∀ (l : List Arrival) (s : State), Keeps s (arriveAll l s)
  | [], s => .refl s
  | a :: as, s => (arrive_keeps s a.report).trans (arriveAll_keeps as _)

theorem takeArrivals_keeps : Keeps s (takeArrivals s) :=
  (Keeps.quiet (clearArrivals_same _ s) (by decide)).trans (arriveAll_keeps _ _)

theorem decideScrub_keeps : Keeps s (decideScrub s) :=
  .of_block (decideScrub_same s) decideScrub_waiting

theorem settleReports_keeps : Keeps s (settleReports s) :=
  ite_keeps (.refl s) ((takeArrivals_keeps s).trans (decideScrub_keeps _))

/-- A drain that moved a report leaves the queue empty or the slot at the write position SOFTWARE-owned (R180). -/
theorem Moved.heldLaw {q : List HeldReport} {n : Nat} {s u : State} (m : Moved q n s u) (pos : 0 < n)
    (room : q.length ≤ 9) : HeldLaw u := by
  have bound := m.bound
  refine ⟨?_, ?_, fun x => absurd m.lost (Nat.ne_of_gt x)⟩
  · rw [m.held, List.length_drop]; omega
  · rw [m.held, m.writePos]
    rcases Nat.lt_or_ge n q.length with more | all
    · refine .inr ?_
      rw [m.kept]
      · exact m.stop more
      · intro i hi x
        have := congrArg Fin.val (add_left_cancel x)
        simp only [Fin.ofNat] at this
        omega
    · exact .inl (List.drop_eq_nil_of_le all)

theorem drain_held (r : s.slotReady = true) (ne : s.reports.held ≠ []) (room : s.reports.held.length ≤ 8) :
    HeldLaw (drain (drainFuel s) s) := by
  obtain ⟨n, pos, moved⟩ := drain_handed s r ne room
  refine moved.heldLaw pos ?_
  rw [List.length_append]
  split
  · exact room.trans (by decide)
  · exact Nat.succ_le_succ room

theorem drain_port : ∀ (n : Nat) (s : State), (drain n s).port.refused = s.port.refused
  | 0, _ => rfl
  | n + 1, s => by
      unfold drain
      split
      · rfl
      · split
        next h rest _ _ =>
          let t := writeRing h { s with reports := { s.reports with held := rest } }
          have overrun : (appendOverrun t).port = t.port := appendOverrun_same t .port (by decide)
          have moved : t.port.refused = s.port.refused := rfl
          exact ((drain_port n _).trans (congrArg Port.refused overrun)).trans moved
        · rfl

theorem drain_lost : ∀ (n : Nat) (s : State), Within s.reports.lost (drain n s).reports.lost
  | 0, _ => .refl _
  | n + 1, s => by
      unfold drain
      split
      · exact .refl _
      next h rest _ =>
        split
        · intro x
          refine drain_lost n _ ?_
          unfold appendOverrun
          split
          · exact Nat.zero_le _
          · exact x
        · exact .refl _

theorem setWord_device (r : ReportSlot) (w : Fin 8) (v : Word) :
    (r.setWord w v).device = if w = 0 then bit v 0 else r.device := by
  have word0 : bit (v &&& 0xFFFF03F1) 0 = bit v 0 := by simp [bit]
  fin_cases w
  · exact word0
  all_goals rfl

theorem putReportSlot_keeps {k : Fin 64} {r : ReportSlot}
    (h : k ≠ s.reports.writePos ∨ s.reports.held = [] ∨ r.device = false) : Keeps s (s.putReportSlot k r) := by
  refine .of_block (putReportSlot_same s k r) ⟨.refl _, fun l => ⟨l.room, ?_, l.lost⟩⟩
  show s.reports.held = [] ∨ ((s.putReportSlot k r).reportSlot s.reports.writePos).device = false
  rw [reportSlot_putReportSlot]
  split
  next e =>
    rcases h with h | h | h
    · exact absurd e h
    · exact .inl h
    · exact .inr h
  · exact l.drained

/-- A hand-back delivers what the queue holds, as far as slots are ready (R180). -/
theorem handBackSlot_keeps {k : Fin 64} {v : Word} (hv : bit v 0 = true) : Keeps s (handBackSlot k v s) := by
  unfold handBackSlot
  dsimp only
  split
  next h =>
    obtain ⟨rfl, ne⟩ := h
    let t := s.putReportSlot s.reports.writePos ((s.reportSlot s.reports.writePos).setWord 0 v)
    have ready : t.slotReady = true := by
      show (t.reportSlot s.reports.writePos).device = true
      rw [reportSlot_putReportSlot, if_pos rfl, setWord_device, if_pos rfl, hv]
    have frame : SameBut [.reports, .port] s (drain (drainFuel t) t) :=
      (putReportSlot_same s _ _).comp (drain_same _ _) (by decide) (by decide)
    refine Keeps.trans ?_ (decideScrub_keeps _)
    exact .of_blocks frame ⟨drain_lost _ t, fun l => drain_held t ready ne l.room⟩ (Within.of_eq (drain_port _ t))
  next h =>
    refine putReportSlot_keeps s ?_
    by_cases e : k = s.reports.writePos
    · exact .inr (.inl (by by_contra n; exact h ⟨e, n⟩))
    · exact .inl e

theorem writeReport_keeps (k : Fin 64) (w : Fin 8) (v : Word) : Keeps s (writeReport k w v s) := by
  unfold writeReport
  split
  · exact refuseWrite_keeps s
  next soft =>
    split
    next h => exact handBackSlot_keeps s h.2
    next h =>
      refine putReportSlot_keeps s (.inr (.inr ?_))
      rw [setWord_device]
      split
      next e => exact Bool.eq_false_iff.2 fun x => h ⟨e, x⟩
      · simpa using soft

end Reports

/-! ### The operation tracker and the scrubber -/

section Tracker

variable (s : State)

theorem grant_keeps (t : TagNum) (o : TagOwner) (op : Op) : Keeps s (grant t o op s) :=
  (putTag_keeps s _ _).trans (send_keeps _ _)

theorem reissue_keeps (t : TagNum) (h : HeldOp) : Keeps s (reissue t h s) :=
  ((putTag_keeps s _ _).trans (send_keeps _ _)).trans (countRetry_keeps _)

theorem abandon_keeps (t : TagNum) : Keeps s (abandon t s) := by
  unfold abandon
  split
  · exact putTag_keeps s _ _
  · exact .refl s
  · exact .refl s

theorem drainFor_keeps (op : Op) : Keeps s (drainFor op s) := by
  unfold drainFor
  split
  · exact drainRelease_keeps s _
  · exact .refl s
  · exact .refl s

theorem release_keeps (t : TagNum) (h : HeldOp) : Keeps s (release t h s) :=
  (putTag_keeps s _ _).trans (drainFor_keeps _ _)

theorem linkDownTag_keeps (t : TagNum) (s : State) : Keeps s (linkDownTag t s) := by
  unfold linkDownTag
  split
  · exact .refl s
  · exact putTag_keeps s _ _
  · exact release_keeps s _ _

theorem linkDownTags_keeps : Keeps s (linkDownTags s) := foldl_keeps linkDownTag linkDownTag_keeps tagNumbers s

theorem abandonAll_keeps : Keeps s (abandonAll s) := foldl_keeps abandon (fun t s => abandon_keeps s t) tagNumbers s

theorem advance_keeps : Keeps s (advance s) := by
  refine .of_blocks (advance_same s) (fun h => ?_) trivial
  unfold advance
  dsimp only
  split
  · exact h
  · exact h

theorem opportunity_keeps (t : TagNum) : Keeps s (opportunity t s) := by
  unfold opportunity
  dsimp only
  have issued : Keeps s (if s.skips s.scrub.position then s
      else grant t .scrub (.verify s.scrub.position (s.verifyLocation s.scrub.position)) s) :=
    ite_keeps (.refl s) (grant_keeps s _ _ _)
  exact (issued.trans (advance_keeps _)).trans (putScrub_keeps _ rfl)

theorem serveMigration_keeps : Keeps s (serveMigration s) := by
  unfold serveMigration
  split
  · exact .refl s
  · split
    · split
      · exact (grant_keeps s _ _ _).trans (putContext_keeps _ _)
      · exact .refl s
    · exact .refl s

theorem serveScrub_keeps : Keeps s (serveScrub s) := by
  unfold serveScrub
  split
  · split
    · exact opportunity_keeps s _
    · exact .refl s
  · exact .refl s

theorem settleTags_keeps : Keeps s (settleTags s) :=
  ite_keeps ((serveMigration_keeps s).trans (serveScrub_keeps _)) (.refl s)

theorem settleOps_keeps : Keeps s (settleOps s) := (settleTags_keeps s).trans (settleReports_keeps _)

end Tracker

/-! ### Completing a job, the migration engine -/

section Jobs

variable (s : State)

theorem completeUrgent_keeps (r : Result) : Keeps s (completeUrgent r s) :=
  (Keeps.quiet ((writeResult_same s.urgentHead r s).trans (stepUrgent_same _)) (by decide)).trans (raiseJobDone_keeps _)

theorem completeRoutine_keeps (r : Result) : Keeps s (completeRoutine r s) :=
  (Keeps.quiet ((writeResult_same s.routineHead r s).trans (stepRoutine_same _)) (by decide)).trans (raiseJobDone_keeps _)

theorem deliverResult_keeps (j : Job) (r : Result) : Keeps s (deliverResult j r s) := by
  unfold deliverResult
  split
  · exact completeUrgent_keeps s r
  · exact completeRoutine_keeps s r
  · exact (produce_keeps s _ _).trans (markAttempted_keeps _ _)

theorem completeInFlight_keeps (r : Result) : Keeps s (completeInFlight r s) := by
  unfold completeInFlight
  split
  · exact (deliverResult_keeps s _ r).trans (.quiet (leaveBusy_same _) (by decide))
  · exact .refl s

theorem switchPoison_keeps (c : Context) : Keeps s (switchPoison c s) := by
  unfold switchPoison
  split
  · split
    · exact .refl s
    next new =>
      split
      next room => exact addPoison_keeps _ (by simpa using new) room
      · exact produce_keeps s _ _
  · exact .refl s

theorem switch_keeps (c : Context) : Keeps s (switch c s) :=
  ((((switchSlots_keeps s c).trans (switchPoison_keeps _ c)).trans (forgetRow_keeps _ _)).trans
    (putContext_keeps _ _)).trans (completeInFlight_keeps _ _)

theorem abandonCopy_keeps (c : Context) : Keeps s (abandonCopy c s) := by
  unfold abandonCopy
  split
  · exact abandon_keeps s _
  · exact .refl s

theorem abortContext_keeps (st : Status) (c : Context) : Keeps s (abortContext st c s) :=
  (((abandonCopy_keeps s c).trans (releaseTarget_keeps _ c)).trans (putContext_keeps _ _)).trans
    (completeInFlight_keeps _ _)

theorem abortMigration_keeps (st : Status) : Keeps s (abortMigration st s) := by
  unfold abortMigration
  split
  · exact abortContext_keeps s st _
  · exact .refl s

theorem passCarried_keeps (bad : Bool) (c : Context) : Keeps s (passCarried bad c s) := by
  unfold passCarried
  dsimp only
  split
  · exact switch_keeps s _
  · exact ite_keeps (ite_keeps (putContext_keeps s _) (putContext_keeps s _)) (switch_keeps s _)

theorem passCompleted_keeps (r : BitVec 4) (c : Context) : Keeps s (passCompleted r c s) := by
  unfold passCompleted
  split
  · exact passCarried_keeps s _ c
  · exact passCarried_keeps s _ c
  · exact abortContext_keeps s _ _

theorem dirtyClaim_keeps : Keeps s (dirtyClaim s) := by
  unfold dirtyClaim
  split
  · exact putContext_keeps s _
  · exact .refl s

end Jobs

/-! ### The fuse store -/

section Fuse

variable (s : State)

/-- The fuse store's state, next sequence and counts are the load's business; the array and the write position stay. -/
theorem putFuse_keeps {f : FuseStore} (p : f.writePos = s.fuse.writePos) (r : f.records = s.fuse.records)
    (st : ∀ i k n, f.state = .programming i k n → s.fuse.state = .programming i k n)
    (q : (1 ≤ s.fuse.nextSeq ∧ s.fuse.nextSeq ≤ 4096) → 1 ≤ f.nextSeq ∧ f.nextSeq ≤ 4096) : Keeps s { s with fuse := f } :=
  .of_block (putFuse_same f s) fun h => ⟨h.of_same p r st (q h.sequence), p.ge⟩

theorem putCounts_keeps (c : LoadCounts) : Keeps s (putCounts c s) :=
  putFuse_keeps s rfl rfl (fun _ _ _ => id) id

theorem putLoading_keeps (k : Nat) : Keeps s (putLoading k s) :=
  putFuse_keeps s rfl rfl (fun _ _ _ x => FuseState.noConfusion x) id

theorem fuseIdle_keeps : Keeps s (fuseIdle s) := putFuse_keeps s rfl rfl (fun _ _ _ x => FuseState.noConfusion x) id

theorem raiseSequence_keeps (r : FuseBytes) : Keeps s (raiseSequence r s) := by
  have := r.sequence.isLt
  exact putFuse_keeps s rfl rfl (fun _ _ _ => id) fun h => by show 1 ≤ max _ _ ∧ max _ _ ≤ 4096; omega

theorem loadCondemn_keeps (r : FuseBytes) (i : Fin 96) : Keeps s (loadCondemn r i s) := by
  unfold loadCondemn
  split
  · exact (installCondemn_keeps s _ _).trans (putCounts_keeps _ _)
  · exact putCounts_keeps s _

theorem loadMap_keeps (r : FuseBytes) (i : Fin 96) : Keeps s (loadMap r i s) := by
  unfold loadMap
  split
  · split
    · exact ((installSupersede_keeps s _ _).trans (installMap_keeps _ _ _ _)).trans (putCounts_keeps _ _)
    · exact (installMap_keeps s _ _ _).trans (putCounts_keeps _ _)
  · exact putCounts_keeps s _

theorem loadRecord_keeps (i : Fin 96) : Keeps s (loadRecord i s) := by
  unfold loadRecord
  dsimp only
  refine ite_keeps (putCounts_keeps s _) (ite_keeps (putCounts_keeps s _) (ite_keeps ?_ ?_))
  · exact (raiseSequence_keeps s _).trans (loadCondemn_keeps _ _ _)
  · exact (raiseSequence_keeps s _).trans (loadMap_keeps _ _ _)

/-- A programmed record is not blank: its started bit stands (R131). -/
theorem bytes_started (q : FuseRequest) (seq : Nat) : (q.bytes seq).started = true := by
  unfold FuseRequest.bytes
  split <;> rw [program_layout] <;> exact fuseLayout_started _ _

theorem bytes_blank (q : FuseRequest) (seq : Nat) : (q.bytes seq).blank = false := by
  rw [FuseBytes.blank, bytes_started]; rfl

/-- What a record reads as once its programming completes is not blank: the finished bit stands (R132). -/
theorem readBack_blank (i : Fin 96) (r : Option (BitVec 64)) : (s.readBack i r).blank = false := by
  have finished : (s.readBack i r).finished = true := by
    cases r <;> simp [State.readBack, FuseBytes.finished, FuseBytes.finish, FuseBytes.asFinished]
  rw [FuseBytes.blank, finished, Bool.not_true, Bool.and_false]

theorem fuseRefusal_none {s : State} (h : s.fuseRefusal = none) :
    s.config.fuseEnable = true ∧ s.supplyOk = true ∧ s.fuse.writePos < 96 ∧ s.fuse.nextSeq ≤ 4095 := by
  unfold State.fuseRefusal at h
  split at h
  · cases h
  next enabled =>
    split at h
    · cases h
    next supplied =>
      split at h
      · cases h
      next room => exact ⟨by simpa using enabled, by simpa using supplied, by omega, by omega⟩

/-- An accepted request programs the first blank record, and the write position moves past it (R131). -/
theorem acceptRequest_keeps {s : State} (q : FuseRequest) (h : s.fuseRefusal = none) : Keeps s (acceptRequest q s) := by
  obtain ⟨_, _, room, seq⟩ := fuseRefusal_none h
  let i : Fin 96 := Fin.ofNat 96 s.fuse.writePos
  have hi : i.val = s.fuse.writePos := Nat.mod_eq_of_lt room
  let f : FuseStore := { s.fuse with
    records := s.fuse.records.set i (q.bytes s.fuse.nextSeq)
    writePos := s.fuse.writePos + 1
    nextSeq := s.fuse.nextSeq + 1
    state := .programming i q.kind q.slot }
  have programmed : Keeps s { s with fuse := f } := by
    refine .of_block (putFuse_same f s) fun l => ⟨?_, Nat.le_succ _⟩
    have record (j) : State.record { s with fuse := f } j = if i = j then q.bytes s.fuse.nextSeq else s.record j :=
      get_set _ _ _ _
    refine ⟨room, fun j hj => ?_, fun j hj => ?_, fun j k n e => ?_, ⟨Nat.succ_le_succ (Nat.zero_le _), Nat.succ_le_succ seq⟩⟩
    · rw [record]
      split
      · exact bytes_blank q _
      next ne =>
        refine l.below j (lt_of_le_of_ne (Nat.le_of_lt_succ hj) fun x => ne (Fin.ext (hi.trans x.symm)))
    · rw [record, if_neg]
      · exact l.above j ((Nat.le_succ _).trans hj)
      · rintro rfl
        exact absurd hj (by rw [hi]; exact Nat.not_succ_le_self _)
    · cases e
      show i.val < s.fuse.writePos + 1
      omega
  refine programmed.trans (t := { s with fuse := f }) ?_
  show Keeps _ (q.claim { s with fuse := f })
  unfold FuseRequest.claim
  split
  · exact beginCommit_keeps _ _
  · exact .refl _

/-- The record in programming is rewritten with what it reads back as (R132). -/
theorem putRecord_keeps {s : State} {i : Fin 96} {r : FuseBytes} {kind : RecordKind} {k : SlotNum}
    (h : s.fuse.state = .programming i kind k) (b : r.blank = false) : Keeps s (s.putRecord i r) := by
  refine .of_block (putRecord_same s i r) fun l => ⟨?_, le_rfl⟩
  refine ⟨l.range, fun j hj => ?_, fun j hj => ?_, l.programming, l.sequence⟩
  · rw [record_putRecord]
    split
    · exact b
    · exact l.below j hj
  · rw [record_putRecord, if_neg]
    · exact l.above j hj
    · rintro rfl
      exact absurd (l.programming _ _ _ h) (Nat.not_lt.2 hj)

end Fuse

/-! ### Taking a job -/

section Takes

variable (s : State)

theorem requestProgramming_keeps (q : FuseRequest) : Keeps s (requestProgramming q s).state := by
  unfold requestProgramming
  split
  · exact .refl s
  next h => exact acceptRequest_keeps q h

theorem startMigration_keeps (d : Direction) (j : JobFields) (l : Location) :
    Keeps s (startMigration d j l s).state := by
  unfold startMigration
  split
  · exact .refl s
  · exact (reserve_keeps s _ _).trans (putContext_keeps _ _)

theorem takePromote_keeps (j : JobFields) : Keeps s (takePromote j s).state := by
  unfold takePromote
  split
  · exact .refl s
  · split
    · exact requestProgramming_keeps s _
    · exact .refl s

theorem takeCondemn_keeps (j : JobFields) : Keeps s (takeCondemn j s).state := by
  unfold takeCondemn
  split
  · exact .refl s
  · split
    · split
      · exact (condemn_keeps s _).trans (requestProgramming_keeps _ _)
      · exact condemn_keeps s _
    · exact .refl s

theorem takePoison_keeps (j : JobFields) : Keeps s (takePoison j s).state := by
  unfold takePoison
  split
  · exact .refl s
  · split
    · exact .refl s
    next new =>
      split
      next room => exact addPoison_keeps _ (by simpa using new) room
      · exact .refl s

theorem takeSpare_keeps (j : JobFields) : Keeps s (takeSpare j s).state := by
  unfold takeSpare
  split
  · exact .refl s
  · split
    · exact .refl s
    · exact startMigration_keeps s _ _ _

theorem takeRespare_keeps (j : JobFields) : Keeps s (takeRespare j s).state := by
  unfold takeRespare
  split
  · exact .refl s
  · split
    · exact .refl s
    · split
      · exact .refl s
      · exact startMigration_keeps s _ _ _

theorem takeClearPoison_keeps (j : JobFields) : Keeps s (takeClearPoison j s).state := by
  unfold takeClearPoison
  split
  · exact removePoison_keeps _ s
  · exact .refl s

theorem takeDismiss_keeps (j : JobFields) : Keeps s (takeDismiss j s).state := by
  unfold takeDismiss
  split
  next p e h =>
    obtain ⟨he, hr⟩ := findEntry_some h
    rw [← hr]
    exact removeAt_keeps s he
  · exact .refl s

theorem takeKind_keeps (j : JobFields) : Keeps s (takeKind j s).state := by
  unfold takeKind
  split
  · exact takeSpare_keeps s j
  · exact takeRespare_keeps s j
  · exact .quiet (takeUnspare_same j s) (by decide)
  · exact takePromote_keeps s j
  · exact takeCondemn_keeps s j
  · exact takePoison_keeps s j
  · exact takeClearPoison_keeps s j
  · exact takeDismiss_keeps s j
  · exact .refl s

theorem runJob_keeps (src : JobSource) (j : JobFields) : Keeps s (runJob src j s) := by
  have h := takeKind_keeps s j
  unfold runJob
  split
  next e => rw [e] at h; exact h.trans (deliverResult_keeps _ _ _)
  next e => rw [e] at h; exact h.trans (putEngine_keeps _ _)

theorem takeUrgent_keeps : Keeps s (takeUrgent s) := by
  unfold takeUrgent
  dsimp only
  split
  · exact runJob_keeps s _ _
  · exact completeUrgent_keeps s _

theorem takeRoutine_keeps : Keeps s (takeRoutine s) := by
  unfold takeRoutine
  dsimp only
  split
  · exact runJob_keeps s _ _
  · exact completeRoutine_keeps s _

theorem candidateHead_some {s : State} {r : RowAddr} (h : s.candidateHead = some r) : ∃ q, s.tally.queue = r :: q := by
  unfold State.candidateHead at h
  split at h
  · cases h
  · exact List.head?_eq_some_iff.1 h
  · exact List.head?_eq_some_iff.1 h

theorem arbiterTake_keeps {s t : State} (h : arbiterTake s = some t) : Keeps s t := by
  unfold arbiterTake at h
  split at h
  · exact Option.some.inj h ▸ takeUrgent_keeps s
  · split at h
    next hc =>
      obtain ⟨_, hq⟩ := candidateHead_some hc
      exact Option.some.inj h ▸ (takeClaim_keeps s hq).trans (runJob_keeps _ _ _)
    · split at h
      · exact Option.some.inj h ▸ takeRoutine_keeps s
      · cases h

/-- Whatever every take keeps, the job arbiter keeps. -/
theorem runArbiter_induction {R : State → State → Prop} (refl : ∀ s, R s s)
    (take : ∀ s t u, s.engine.state = .idle → arbiterTake s = some t → R t u → R s u) :
    ∀ (n : Nat) (s : State), R s (runArbiter n s)
  | 0, s => refl s
  | n + 1, s => by
      unfold runArbiter
      split
      next idle =>
        split
        next t h => exact take s t _ idle h (runArbiter_induction refl take n t)
        · exact refl s
      · exact refl s
      · exact refl s
      · exact refl s

theorem settleJobs_keeps : Keeps s (settleJobs s) :=
  runArbiter_induction Keeps.refl (fun _ _ _ _ h k => (arbiterTake_keeps h).trans k) _ s

theorem settle_keeps : Keeps s (settle s) := (settleJobs_keeps s).trans (settleOps_keeps _)

theorem settleFrom_keeps (b : State) : Keeps s (settleFrom b s) := ite_keeps (settleReports_keeps s) (settle_keeps s)

theorem settleFreedFrom_keeps (b : State) : Keeps s (settleFreedFrom b s) :=
  ite_keeps (settleOps_keeps s) (settle_keeps s)

end Takes

/-! ### Restart -/

section Restart

variable (s : State)

theorem restartScrub_keeps : Keeps s (restartScrub s) := by
  unfold restartScrub
  dsimp only
  exact ite_keeps ((putPosition_keeps s _).trans (putScrub_keeps _ rfl)) (putPosition_keeps s _)

theorem raiseIfAny_keeps (n : Nat) : Keeps s (raiseIfAny n s) := ite_keeps (raiseJobDone_keeps s) (.refl s)

theorem restartBody_keeps (src : Option JobSource) (n : Nat) : Keeps s (restartBody src n s) :=
  ((((((Keeps.quiet (restartDescs_same s) (by decide)).trans (.quiet (zeroPositions_same _) (by decide))).trans (raiseIfAny_keeps _ n)).trans
    (abandonAll_keeps _)).trans (restartScrub_keeps _)).trans (produce_keeps _ _ _)).trans (.quiet (restartEngine_same _) (by decide))

theorem runRestart_keeps : Keeps s (runRestart s) := (abortMigration_keeps s _).trans (restartBody_keeps _ _ _)

theorem endProgramming_keeps (r : Result) : Keeps s (endProgramming r s) := by
  unfold endProgramming
  dsimp only
  exact ite_keeps ((completeInFlight_keeps s r).trans (runRestart_keeps _)) (completeInFlight_keeps s r)

end Restart

end Sys2Proof.Machine

/-! The laws of single blocks over the events, and two of the statements about every step: the ranges of the settings, the
counters, the poison list and the tally, and the growth of the fuse array. -/

namespace Sys2Proof.Machine

/-! ### Frames of what an event sets -/

theorem putLink_same (l : ArrayLink) (s : State) : SameBut [.link] s { s with link := l } :=
  .of fun b => by cases b <;> first | exact .inr rfl | exact .inl (by decide)

theorem putDevice_same (d : DeviceState) (s : State) : SameBut [.device] s { s with device := d } :=
  .of fun b => by cases b <;> first | exact .inr rfl | exact .inl (by decide)

theorem putPort_same (p : Port) (s : State) : SameBut [.port] s { s with port := p } :=
  .of fun b => by cases b <;> first | exact .inr rfl | exact .inl (by decide)

theorem putPending_same (l : List Instr) (s : State) : SameBut [.pending] s { s with pending := l } :=
  .of fun b => by cases b <;> first | exact .inr rfl | exact .inl (by decide)

theorem applyEngineEnable_same (s : State) : SameBut [.engine] s (applyEngineEnable s) := by
  unfold applyEngineEnable
  split
  · exact ite_same (putEngine_same _ s) (.refl _ s)
  · exact ite_same (.refl _ s) (putEngine_same _ s)
  · exact .refl _ s
  · exact .refl _ s

section Events

variable (s : State)

theorem putSettings_keeps {c : Settings} (l : SettingsLaw s.config → SettingsLaw c)
    (h : c.threshold = s.config.threshold) : Keeps s (putSettings c s) :=
  .of_block (putSettings_same c s) ⟨l, fun l => l.of_same rfl rfl h⟩

theorem putPort_keeps {p : Port} (h : p.refused = s.port.refused) : Keeps s { s with port := p } :=
  .of_block (putPort_same p s) (Within.of_eq h)

/-! ### The load -/

theorem endLoad_keeps : Keeps s (endLoad s) :=
  (((((Keeps.quiet (putDevice_same _ s) (by decide)).trans (fuseIdle_keeps _)).trans (produce_keeps _ _ _)).trans
    (.quiet (applyEngineEnable_same _) (by decide))).trans (decideScrub_keeps _)).trans (settle_keeps _)

theorem loadStep_keeps : Keeps s (loadStep s) := by
  unfold loadStep
  split
  · exact ite_keeps ((loadRecord_keeps s _).trans (putLoading_keeps _ _)) (.refl s)
  · exact .refl s
  · exact .refl s

theorem loadEnd_keeps : Keeps s (loadEnd s) := by
  unfold loadEnd
  split
  · exact ite_keeps (.refl s) (endLoad_keeps s)
  · exact .refl s
  · exact .refl s

/-! ### The link -/

theorem linkChange_keeps (up : Bool) : Keeps s (linkChange up s) := (produce_keeps s _ _).trans (raiseLink_keeps _)

theorem takeLinkUp_keeps : Keeps s (takeLinkUp s) :=
  ite_keeps (.refl s) ((((Keeps.quiet (putLink_same _ s) (by decide)).trans (linkChange_keeps _ _)).trans (decideScrub_keeps _)).trans
    (settleOps_keeps _))

theorem linkLost_keeps : Keeps s (linkLost s) :=
  (((Keeps.quiet (putLink_same _ s) (by decide)).trans (linkChange_keeps _ _)).trans (linkDownTags_keeps _)).trans
    (abortMigration_keeps _ _)

theorem takeLinkDown_keeps : Keeps s (takeLinkDown s) :=
  ite_keeps (((linkLost_keeps s).trans (decideScrub_keeps _)).trans
    (ite_keeps (settle_keeps _) (settleReports_keeps _))) (.refl s)

theorem effect_keeps (l : QueryLine) (r : RowAddr) (write : Bool) : Keeps s (l.effect r write s) := by
  cases l with
  | loading => exact countWait_keeps s
  | outOfRange => exact countOutOfRange_keeps s
  | poisoned e => exact (hitPoison_keeps r s).trans (ite_keeps (.refl _) (produce_keeps _ _ _))
  | fenced => exact countWait_keeps s
  | copying l => exact ite_keeps (dirtyClaim_keeps s) (.refl s)
  | mapped k => exact .refl s
  | unmapped => exact .refl s

theorem takeQuery_keeps (id : BitVec 8) (kind : BitVec 2) (w : Word) : Keeps s (takeQuery id kind w s) :=
  ite_keeps (((effect_keeps s _ _ _).trans (send_keeps _ _)).trans (settleReports_keeps _)) (.refl s)

theorem takeErrNote_keeps (a : Bool) (k : SlotNum) (u : Bool) (b : BitVec 4) (w : Word) :
    Keeps s (takeErrNote a k u b w s) :=
  ite_keeps (ite_keeps (countStaleNote_keeps s) (ite_keeps
    ((takeNote_keeps s _).trans (settleFrom_keeps _ _)) (countStaleNote_keeps s))) (.refl s)

theorem scrubNote_keeps (r : RowAddr) (l : Location) (c : Option NoteClass) : Keeps s (scrubNote r l c s) := by
  cases c with
  | none => exact .refl s
  | some cls => exact ite_keeps (countStaleNote_keeps s) (takeNote_keeps s _)

theorem validDone_keeps (t : TagNum) (h : HeldOp) (result bits : BitVec 4) : Keeps s (validDone t h result bits s) := by
  unfold validDone
  dsimp only
  split
  · split
    · exact ((putTag_keeps s t _).trans (passCompleted_keeps _ _ _)).trans (settle_keeps _)
    · exact (putTag_keeps s t _).trans (settleOps_keeps _)
  · split
    · exact ((putTag_keeps s t _).trans (scrubNote_keeps _ _ _ _)).trans (settleFreedFrom_keeps _ _)
    · exact (putTag_keeps s t _).trans (settleOps_keeps _)

theorem takeOpDone_keeps (t : TagNum) (a : Fin 2) (result bits : BitVec 4) :
    Keeps s (takeOpDone t a result bits s) := by
  unfold takeOpDone
  split
  · split
    · exact countStaleDone_keeps s
    · exact ite_keeps (validDone_keeps s t _ result bits) (countStaleDone_keeps s)
    · exact ((release_keeps s t _).trans (countStaleDone_keeps _)).trans (settleOps_keeps _)
  · exact .refl s

/-! ### The timers -/

theorem giveUp_keeps (t : TagNum) (h : HeldOp) : Keeps s (giveUp t h s) := by
  unfold giveUp
  dsimp only
  split
  · split
    · exact ((putTag_keeps s t _).trans (abortContext_keeps _ _ _)).trans (settle_keeps _)
    · exact (putTag_keeps s t _).trans (settleOps_keeps _)
  · exact (putTag_keeps s t _).trans (settleOps_keeps _)

theorem takeTimeout_keeps (t : TagNum) : Keeps s (takeTimeout t s) := by
  unfold takeTimeout
  split
  · exact ite_keeps (reissue_keeps s t _) (giveUp_keeps s t _)
  · exact .refl s
  · exact .refl s

theorem takeQuarantineExpiry_keeps (t : TagNum) : Keeps s (takeQuarantineExpiry t s) := by
  unfold takeQuarantineExpiry
  split
  · exact (release_keeps s t _).trans (settleOps_keeps _)
  · exact .refl s
  · exact .refl s

theorem takeEpochExpiry_keeps : Keeps s (takeEpochExpiry s) := by
  unfold takeEpochExpiry
  split
  · exact ((startEpoch_keeps s).trans (nextEpoch_keeps _)).trans (decay_keeps _)
  · exact .refl s

/-- A RUNNING scrubber begins its wait with its timer stopped (R113). -/
theorem takeScrubExpiry_keeps : Keeps s (takeScrubExpiry s) := by
  unfold takeScrubExpiry
  split
  next running _ =>
    let x : Scrubber := { s.scrub with waiting := true, timer := .stopped }
    have begun : Keeps s { s with scrub := x } := .of_block (putScrub_same x s) fun _ _ => ⟨running, rfl⟩
    exact begun.trans (settleOps_keeps _)
  · exact .refl s

/-! ### The fuse pins -/

theorem takeCompletion_keeps (r : Option (BitVec 64)) : Keeps s (takeCompletion r s) := by
  unfold takeCompletion
  split
  next programming =>
    exact ((((putRecord_keeps programming (readBack_blank s _ r)).trans (programmingClaim_keeps _ _ _ _ _)).trans
      (fuseIdle_keeps _)).trans (endProgramming_keeps _ _)).trans (settle_keeps _)
  · exact .refl s
  · exact .refl s

theorem putSupply_keeps (level : Bool) : Keeps s (putSupply level s) :=
  .quiet (putSupply_same level s) (by decide)

theorem takeSupplyFall_keeps : Keeps s (takeSupplyFall s) := by
  unfold takeSupplyFall
  split
  · exact ((((putSupply_keeps s _).trans (supplyFallClaim_keeps _ _ _)).trans (fuseIdle_keeps _)).trans
      (endProgramming_keeps _ _)).trans (settle_keeps _)
  · exact putSupply_keeps s _
  · exact putSupply_keeps s _

/-! ### CMD -/

theorem commandAbort_keeps : Keeps s (commandAbort s) := by
  unfold commandAbort
  split
  · exact .refl s
  · exact .refl s
  · exact ite_keeps ((abortMigration_keeps s _).trans (settle_keeps _)) (refuseWrite_keeps s)
  · exact refuseWrite_keeps s

theorem commandRestart_keeps : Keeps s (commandRestart s) := by
  have restart : Keeps s (settle (runRestart s)) := (runRestart_keeps s).trans (settle_keeps _)
  unfold commandRestart
  split
  · exact ite_keeps (putEngine_keeps s _) restart
  · exact .refl s
  · exact restart
  · exact restart

/-! ### The configuration registers -/

/-- Every write that is accepted leaves each field in its range (R189), and only TALLYCFG sets T. -/
theorem writeCtrl_law {c d : Settings} {v : Word} (h : c.writeCtrl v = some d) :
    (SettingsLaw c → SettingsLaw d) ∧ d.threshold = c.threshold := by
  unfold Settings.writeCtrl at h
  split at h
  · cases h
  · cases h; exact ⟨fun l => ⟨l.1, l.2, l.3, l.4, l.5, l.6, l.7⟩, rfl⟩

theorem writeTally_law {c d : Settings} {v : Word} (h : c.writeTally v = some d) (l : SettingsLaw c) : SettingsLaw d := by
  unfold Settings.writeTally at h
  split at h
  · cases h
  next n =>
    obtain ⟨t, e⟩ := not_or.1 n
    cases h
    exact { l with threshold := t, epochLength := e }

theorem writeScrub_law {c d : Settings} {v : Word} (h : c.writeScrub v = some d) :
    (SettingsLaw c → SettingsLaw d) ∧ d.threshold = c.threshold := by
  unfold Settings.writeScrub at h
  split at h
  · cases h
  next n =>
    obtain ⟨i, r⟩ := not_or.1 n
    obtain ⟨e, m⟩ := not_or.1 r
    cases h
    exact ⟨fun l => { l with interval := i, depth := e, channels := m }, rfl⟩

theorem writeLink_law {c d : Settings} {v : Word} (h : c.writeLink v = some d) :
    (SettingsLaw c → SettingsLaw d) ∧ d.threshold = c.threshold := by
  unfold Settings.writeLink at h
  split at h
  · cases h
  next n =>
    obtain ⟨t, r⟩ := not_or.1 n
    cases h
    exact ⟨fun l => { l with timeout := t, recopy := r }, rfl⟩

theorem acceptCtrl_keeps {c : Settings} (k : Keeps s (putSettings c s)) : Keeps s (acceptCtrl c s) := by
  have mode : Keeps s (if c.mode = s.config.mode then putSettings c s else applyMode s.config.mode (putSettings c s)) :=
    ite_keeps k (k.trans (applyMode_keeps _ _))
  have enabled : ∀ t, Keeps s t → Keeps s (if c.engineEnable = s.config.engineEnable then t else applyEngineEnable t) :=
    fun t k => ite_keeps k (k.trans (.quiet (applyEngineEnable_same t) (by decide)))
  have scrubbed : ∀ t, Keeps s t → Keeps s (if c.scrubEnable = s.config.scrubEnable then t else decideScrub t) :=
    fun t k => ite_keeps k (k.trans (decideScrub_keeps t))
  have all := scrubbed _ (enabled _ mode)
  exact ite_keeps all (all.trans (settle_keeps _))

theorem rethreshold_staleNotes : (rethreshold s).tally.staleNotes = s.tally.staleNotes := by
  rw [(rethreshold_closed s).rest]

/-- A changed T leaves a TRACKING entry at or above it only until the promotions of the write (R99). -/
theorem rethreshold_keeps {t : State} (same : SameBut [.config, .tally] s t) (stale : t.tally.staleNotes = s.tally.staleNotes)
    (entries : t.tally.entries = s.tally.entries) (queue : t.tally.queue = s.tally.queue)
    (law : SettingsLaw s.config → SettingsLaw t.config) : Keeps s (rethreshold t) := by
  have frame : SameBut [.config, .tally, .arrivals] s (rethreshold t) := same.comp (rethreshold_same t) (by decide) (by decide)
  have config : (rethreshold t).config = t.config := rethreshold_same t .config (by decide)
  have promoted : TallyLaw s → TallyLaw (rethreshold t) := by
    intro l
    refine rethreshold_law (l.shape.of_same entries queue) fun p e he tracking => ?_
    have old : s.entry p = some e := (congrArg (fun x : Vector (Option TallyEntry) 32 => x.get p) entries).symm.trans he
    obtain ⟨one, _, good⟩ := l.tracking p e old tracking
    exact ⟨one, good⟩
  refine .of_same frame ?_
  simp only [List.forall_mem_cons, List.not_mem_nil, IsEmpty.forall_iff, implies_true, and_true]
  exact ⟨⟨fun l => by rw [config]; exact law l, promoted⟩, ⟨.of_eq ((rethreshold_staleNotes t).trans stale), promoted⟩,
    trivial⟩

theorem acceptTally_keeps {c : Settings} (law : SettingsLaw s.config → SettingsLaw c) : Keeps s (acceptTally c s) := by
  unfold acceptTally
  dsimp only
  by_cases epoch : c.epochLength = s.config.epochLength
  · rw [if_pos epoch]
    split
    next h => exact putSettings_keeps s law h
    · exact (rethreshold_keeps s (t := putSettings c s) ((putSettings_same c s).mono (by decide)) rfl rfl rfl law).trans (settle_keeps _)
  · rw [if_neg epoch]
    split
    next h => exact (putSettings_keeps s law h).trans (startEpoch_keeps _)
    · exact (rethreshold_keeps s (t := startEpoch (putSettings c s))
        ((putSettings_same c s).comp (startEpoch_same _) (by decide) (by decide)) rfl rfl rfl law).trans (settle_keeps _)

theorem acceptScrub_keeps {c : Settings} (k : Keeps s (putSettings c s)) : Keeps s (acceptScrub c s) := by
  have masked : Keeps (putSettings c s) (applyMask (putSettings c s)) := ite_keeps (.refl _) (putPosition_keeps _ _)
  have moved : Keeps s (if c.channels = s.config.channels then putSettings c s else applyMask (putSettings c s)) :=
    ite_keeps k (k.trans masked)
  exact ite_keeps (moved.trans (settleOps_keeps _)) moved

theorem writeGeom_keeps (v : Word) : Keeps s (writeGeom v s) :=
  ite_keeps ((putSettings_keeps s (c := s.config.writeGeom v) (fun l => ⟨l.1, l.2, l.3, l.4, l.5, l.6, l.7⟩) rfl).trans (putPosition_keeps _ _)) (refuseWrite_keeps s)

/-! ### Reads -/

/-- A read changes no more than the latch of its view. -/
theorem readRegion_keeps (g : Region) (top : Bool) : Keeps s (readRegion g top s).2 := by
  cases g with
  | slotView i w =>
    exact .of_block (b := .slots) (.of fun b => by cases b <;> first | exact .inr rfl | exact .inl (by decide))
      fun _ => id
  | tallyView i w =>
    exact .of_tally (.of fun b => by cases b <;> first | exact .inr rfl | exact .inl (by decide)) rfl
      fun l => l.of_same rfl rfl rfl
  | poisonView i w =>
    exact .of_block (b := .query) (.of fun b => by cases b <;> first | exact .inr rfl | exact .inl (by decide))
      ⟨.refl _, .refl _, fun l => l.of_same rfl⟩
  | fuseView i w => exact putFuse_keeps s rfl rfl (fun _ _ _ => id) id
  | _ => exact .refl s

theorem portRead_keeps (a : BitVec 14) (w : Width) : Keeps s (portRead a w s) :=
  ite_keeps ((readRegion_keeps s _ _).trans (putReadData_keeps _ _)) (putReadData_keeps s _)

end Events

/-! ### Every event -/

theorem event_keeps {s t : State} (e : Event s t) : Keeps s t := by
  cases e with
  | stays => exact .refl s
  | loadStep => exact loadStep_keeps s
  | loadEnd => exact loadEnd_keeps s
  | linkUp => exact takeLinkUp_keeps s
  | linkDown => exact takeLinkDown_keeps s
  | query id kind w => exact takeQuery_keeps s id kind w
  | errNote a k u b w => exact takeErrNote_keeps s a k u b w
  | opDone t a r b => exact takeOpDone_keeps s t a r b
  | opTimeout t => exact takeTimeout_keeps s t
  | quarantineExpiry t => exact takeQuarantineExpiry_keeps s t
  | epochExpiry => exact takeEpochExpiry_keeps s
  | scrubExpiry => exact takeScrubExpiry_keeps s
  | completion r => exact takeCompletion_keeps s r
  | supplyFall => exact takeSupplyFall_keeps s
  | supplyRise => exact putSupply_keeps s true
  | abort => exact commandAbort_keeps s
  | restart => exact commandRestart_keeps s
  | refused => exact refuseWrite_keeps s
  | ctrl h => exact acceptCtrl_keeps s (putSettings_keeps s (writeCtrl_law h).1 (writeCtrl_law h).2)
  | tally h => exact acceptTally_keeps s (writeTally_law h)
  | scrub h => exact acceptScrub_keeps s (putSettings_keeps s (writeScrub_law h).1 (writeScrub_law h).2)
  | link h => exact putSettings_keeps s (writeLink_law h).1 (writeLink_law h).2
  | geom v => exact writeGeom_keeps s v
  | irqf v => exact putPort_keeps s rfl
  | irqm v => exact putPort_keeps s rfl
  | counter c => exact clearCounter_keeps s c
  | descriptor i d => exact putDesc_keeps s i d
  | handOver i d => exact (putDesc_keeps s i d).trans (settle_keeps _)
  | report k w v => exact writeReport_keeps s k w v
  | read a w => exact portRead_keeps s a w

/-! ### The write position that a reset finds -/

/-- The first blank index is where the blank records begin: below it none is blank, at it one is (R123). -/
theorem firstBlankIn_spec : ∀ l : List FuseBytes, firstBlankIn l ≤ l.length ∧
    (∀ i (h : i < l.length), i < firstBlankIn l → l[i].blank = false) ∧
    ∀ h : firstBlankIn l < l.length, l[firstBlankIn l].blank = true
  | [] => ⟨le_rfl, fun _ h => absurd h (Nat.not_lt_zero _), fun h => absurd h (Nat.not_lt_zero _)⟩
  | r :: rs => by
      obtain ⟨range, below, here⟩ := firstBlankIn_spec rs
      cases blank : r.blank with
      | true =>
        have zero : firstBlankIn (r :: rs) = 0 := by simp [firstBlankIn, blank]
        refine ⟨by omega, fun i _ h => absurd h (by omega), ?_⟩
        simp only [zero]
        exact fun _ => blank
      | false =>
        have succ : firstBlankIn (r :: rs) = firstBlankIn rs + 1 := by simp [firstBlankIn, blank]
        simp only [succ, List.length_cons, Nat.succ_le_succ_iff, Nat.succ_lt_succ_iff]
        refine ⟨range, fun i h hi => ?_, here⟩
        cases i with
        | zero => exact blank
        | succ i => exact below i (Nat.lt_of_succ_lt_succ h) (Nat.lt_of_succ_lt_succ hi)

theorem record_toList (s : State) (i : Fin 96) (h : i.val < s.fuse.records.toList.length) :
    s.fuse.records.toList[i.val] = s.record i := by
  simp [State.record, Vector.get]

theorem firstBlank_le (s : State) : s.firstBlank ≤ 96 :=
  (firstBlankIn_spec s.fuse.records.toList).1.trans (by simp)

theorem firstBlank_below {s : State} {i : Fin 96} (h : i.val < s.firstBlank) : (s.record i).blank = false := by
  have lt : i.val < s.fuse.records.toList.length := by simp
  rw [← record_toList s i lt]
  exact (firstBlankIn_spec _).2.1 i lt h

theorem firstBlank_here {s : State} {i : Fin 96} (h : i.val = s.firstBlank) : (s.record i).blank = true := by
  have lt : i.val < s.fuse.records.toList.length := by simp
  rw [← record_toList s i lt]
  have lt' : firstBlankIn s.fuse.records.toList < s.fuse.records.toList.length := by
    unfold State.firstBlank at h; omega
  have := (firstBlankIn_spec s.fuse.records.toList).2.2 lt'
  simpa only [h, State.firstBlank] using this

/-- Between events the write position is the first blank index already (R123). -/
theorem firstBlank_eq {s : State} (l : FuseLaw s) : s.firstBlank = s.fuse.writePos := by
  have range := l.range
  have range' := firstBlank_le s
  rcases Nat.lt_trichotomy s.firstBlank s.fuse.writePos with h | h | h
  · let i : Fin 96 := ⟨s.firstBlank, by omega⟩
    exact absurd (firstBlank_here (i := i) rfl) (by rw [l.below i h]; decide)
  · exact h
  · let i : Fin 96 := ⟨s.fuse.writePos, by omega⟩
    exact absurd (l.above i le_rfl) (by rw [firstBlank_below (i := i) h]; decide)

/-- A reset that finds the write position leaves it where it stands, for the load to begin or to wait for (R123). -/
theorem fuseLaw_reset {s t : State} (l : FuseLaw s) (p : t.fuse.writePos = s.firstBlank)
    (r : t.fuse.records = s.fuse.records) (st : ∃ n, t.fuse.state = .loading n) (q : t.fuse.nextSeq = 1) :
    FuseLaw t ∧ s.fuse.writePos ≤ t.fuse.writePos := by
  rw [firstBlank_eq l] at p
  obtain ⟨n, st⟩ := st
  refine ⟨l.of_same p r (fun i k n e => by rw [st] at e; cases e) (by rw [q]; decide), p.ge⟩

/-! ### A held reset -/

/-- The release of RESET_N writes only the fuse store's own state and the epoch timer, until the load ends (R124). -/
theorem beginLoad_keeps (s : State) : Keeps s (beginLoad s) := by
  let t : State := startEpoch { s with
    resetLow := false
    device := .loading
    fuse := { s.fuse with writePos := s.firstBlank, nextSeq := 1, counts := .zero, state := .loading 0 } }
  have begun : Keeps s t := by
    have frame : SameBut [.resetLow, .device, .fuse, .tally] s t :=
      .of fun b => by cases b <;> first | exact .inr rfl | exact .inl (by decide)
    refine .of_same frame ?_
    simp only [List.forall_mem_cons, List.not_mem_nil, IsEmpty.forall_iff, implies_true, and_true]
    exact ⟨trivial, trivial, fun l => fuseLaw_reset l rfl rfl ⟨0, rfl⟩ rfl, .refl _, fun l => l.of_same rfl rfl rfl⟩
  exact ite_keeps (begun.trans (endLoad_keeps t)) begun

theorem taken_keeps {s t : State} (h : Taken s t) : Keeps s t := by
  cases h with
  | held => exact .refl s
  | release => exact beginLoad_keeps s
  | heldRead => exact putReadData_keeps s 0
  | heldSupply _ level => exact putSupply_keeps s level
  | event _ e => exact event_keeps e

theorem pending_keeps (s : State) (rest : List Instr) : Keeps s { s with pending := rest } :=
  .quiet (putPending_same rest s) (by decide)

theorem idle_keeps (s : State) : Keeps s (idle s) := ite_keeps (.quiet (putLink_same _ s) (by decide)) (.refl s)

/-- But for FULL_RESET, a step keeps every law of a single block. -/
theorem step_keeps {s t : State} (h : step s = .next t) :
    (∃ rest, t = fullResetState { s with pending := rest }) ∨ Keeps s t := by
  rcases step_cases h with rfl | ⟨rest, reset | taken⟩
  · exact .inr (idle_keeps s)
  · exact .inl ⟨rest, reset⟩
  · exact .inr ((pending_keeps s rest).trans (taken_keeps taken))

/-! ### The state after a full reset -/

theorem get_replicate {α : Type} {n : Nat} (x : α) (k : Fin n) : (Vector.replicate n x).get k = x := by
  simp [Vector.get]

theorem reset_slot (k : SlotNum) : State.reset.slot k = .free := get_replicate _ k

theorem reset_tag (t : TagNum) : State.reset.tag t = .free := get_replicate _ t

theorem reset_entry (p : Fin 32) : State.reset.entry p = none := get_replicate _ p

theorem reset_desc (i : DescId) : State.reset.desc i = .zero := by
  cases i with
  | urgent k => exact get_replicate _ k
  | routine k => exact get_replicate _ k

theorem reset_reportSlot (k : Fin 64) : State.reset.reportSlot k = .zero := get_replicate _ k

theorem reset_record (i : Fin 96) : State.reset.record i = 0 := get_replicate _ i

theorem reset_settings : SettingsLaw State.reset.config := by
  constructor <;> decide

theorem reset_counters : CountersLaw State.reset := by
  refine ⟨fun c => ?_, by decide⟩
  cases c <;> decide

theorem reset_poison : PoisonLaw State.reset := ⟨by decide, List.nodup_nil, fun _ h => absurd h List.not_mem_nil⟩

theorem reset_tally : TallyLaw State.reset where
  single p _ e _ he _ _ := by rw [reset_entry] at he; cases he
  count p e he := by rw [reset_entry] at he; cases he
  tracking p e he _ := by rw [reset_entry] at he; cases he
  room := by decide
  distinct := List.nodup_nil
  candidate _ h := absurd h List.not_mem_nil
  queued p e he := by rw [reset_entry] at he; cases he

theorem reset_reports : ReportsLaw State.reset := ⟨by decide, .inl rfl, fun h => absurd h (by decide), rfl⟩

theorem reset_fuse : FuseLaw State.reset where
  range := by decide
  below _ h := absurd h (Nat.not_lt_zero _)
  above i _ := by rw [reset_record]; decide
  programming _ _ _ e := by cases e
  sequence := by decide

/-- A full reset finds the write position where the array's law has it (R123). -/
theorem fullReset_fuse {s : State} (l : FuseLaw s) :
    FuseLaw (fullResetState s) ∧ s.fuse.writePos ≤ (fullResetState s).fuse.writePos :=
  fuseLaw_reset l rfl rfl ⟨0, rfl⟩ rfl

/-- A full reset gives every block but the fuse store the value it has at reset (R192). -/
theorem fullReset_same (s : State) : SameBut [.supplyOk, .fuse, .freeCount, .pending] State.reset (fullResetState s) :=
  .of fun b => by cases b <;> first | exact .inr rfl | exact .inl (by decide)

theorem fullReset_counters (s : State) : CountersLaw (fullResetState s) := by
  refine ⟨fun c => ?_, reset_counters.2⟩
  cases c <;> exact Nat.zero_le _

/-- Settles O57: every event keeps the laws of one block, and a full reset starts them anew. -/
theorem settingsCountersAndPoisonStayInRange : Obligations.SettingsCountersAndPoisonStayInRange := by
  intro s t h
  rcases step_keeps h with ⟨rest, rfl⟩ | k
  · exact ⟨fun _ => reset_settings, fun _ => fullReset_counters _, fun _ => reset_poison.of_same rfl,
      fun _ => reset_tally.of_same rfl rfl rfl⟩
  · exact ⟨k.settings, k.counters, k.poison, k.tally⟩

/-- Settles O59: a programmed record stands where the array was blank, and no claim takes a slot out of RETIRED; a full
reset finds the write position where it stood. -/
theorem fuseArrayAndRetiredSlotsOnlyGrow : Obligations.FuseArrayAndRetiredSlotsOnlyGrow := by
  refine ⟨fun s t l h => ?_, fun c s t k ne h => (taken_keeps (exec_taken ne h)).retired k⟩
  rcases step_keeps h with ⟨rest, rfl⟩ | keeps
  · exact fullReset_fuse ((pending_keeps s rest).fuse l).1
  · exact keeps.fuse l

end Sys2Proof.Machine

/-! The report unit and the tag arbiter between events: no report is left over, and no event leaves a grant of a tag open
that was not open before it. -/

namespace Sys2Proof.Machine

/-! ### What is left open -/

/-- While the link is UP the migration engine waits only where no tag is FREE (R74). -/
def EngineServed (s : State) : Prop := s.link.up = true → s.waitsForTag = true → s.freeTag = none

theorem tagsLaw_iff {s : State} : TagsLaw s ↔ EngineServed s ∧ WaitLaw s :=
  ⟨fun h => ⟨h.engine, h.waiting⟩, fun ⟨e, w⟩ => ⟨e, w⟩⟩

/-- `t` leaves no grant open where `s` did not: not to the migration engine, not to the scrubber. -/
structure Serves (s t : State) : Prop where
  engine : EngineServed s → EngineServed t
  scrub : ScrubServed s → ScrubServed t

theorem Serves.refl (s : State) : Serves s s := ⟨id, id⟩

theorem Serves.trans {s t u : State} (h : Serves s t) (k : Serves t u) : Serves s u :=
  ⟨k.engine ∘ h.engine, k.scrub ∘ h.scrub⟩

theorem ite_serves {s a b : State} {c : Prop} [Decidable c] (ha : Serves s a) (hb : Serves s b) :
    Serves s (if c then a else b) := by
  split
  · exact ha
  · exact hb

/-- What a part of the state has to show where it changes: the arbiter's conditions are as they were, or further from a
grant. -/
def Block.serves (s t : State) : Block → Prop
  | .link => t.link.up = s.link.up
  | .migration => t.waitsForTag = s.waitsForTag
  | .tracker => t.freeTag = s.freeTag ∧ t.scrubOutstanding = s.scrubOutstanding
  | .scrub => t.scrub.waiting = true → s.scrub.waiting = true
  | .config => t.config.depth.toNat ≤ s.config.depth.toNat
  | .resetLow | .supplyOk | .device | .slots | .query | .tally | .fuse | .engine | .reports | .port | .arrivals
  | .freeCount | .pending => True

theorem Serves.of_same {l : List Block} {s t : State} (h : SameBut l s t) (k : ∀ b ∈ l, b.serves s t) : Serves s t := by
  have part (b : Block) (same : b.same s t → b.serves s t) : b.serves s t := by
    by_cases x : b ∈ l
    · exact k b x
    · exact same (h b x)
  have up : t.link.up = s.link.up := part .link fun e => congrArg ArrayLink.up e
  have waits : t.waitsForTag = s.waitsForTag := part .migration fun e => by
    show t.waitsForTag = s.waitsForTag
    unfold State.waitsForTag
    rw [show t.migration = s.migration from e]
  obtain ⟨free, out⟩ : t.freeTag = s.freeTag ∧ t.scrubOutstanding = s.scrubOutstanding := part .tracker fun e => by
    have tag (n) : t.tag n = s.tag n := congrArg (fun x : Tracker => x.tags.get n) e
    simp only [Block.serves, State.freeTag, State.scrubOutstanding, tag, and_self]
  have request : t.scrub.waiting = true → s.scrub.waiting = true := part .scrub fun e w => by
    rw [← show t.scrub = s.scrub from e]; exact w
  have depth : t.config.depth.toNat ≤ s.config.depth.toNat :=
    part .config fun e => (congrArg (fun c : Settings => c.depth.toNat) e).le
  refine ⟨fun l => ?_, fun l u w e d => ?_⟩
  · unfold EngineServed
    rw [up, waits, free]
    exact l
  · rw [free]
    exact l (up ▸ u) (request w) (waits ▸ e) (out ▸ lt_of_lt_of_le d depth)

/-- A part of the state that the tag arbiter does not read. -/
def Block.apart (b : Block) : Bool :=
  b ∈ [Block.resetLow, .supplyOk, .device, .slots, .query, .tally, .fuse, .engine, .reports, .port, .arrivals, .freeCount,
    .pending]

theorem Block.apart_serves {s t : State} {b : Block} (q : b.apart = true) : b.serves s t := by
  cases b <;> first | exact trivial | exact absurd q (by decide)

theorem Serves.apart {l : List Block} {s t : State} (h : SameBut l s t) (q : ∀ b ∈ l, b.apart = true) : Serves s t :=
  .of_same h fun b hb => Block.apart_serves (q b hb)

/-- Where one part changes that the tag arbiter reads, it alone has something to show. -/
theorem Serves.of_block {b : Block} {l : List Block} {s t : State} (h : SameBut (b :: l) s t) (k : b.serves s t)
    (q : ∀ a ∈ l, a.apart = true) : Serves s t :=
  .of_same h (List.forall_mem_cons.2 ⟨k, fun a ha => Block.apart_serves (q a ha)⟩)

/-- A DOWN link leaves nothing open. -/
theorem Serves.of_down {s t : State} (h : t.link.up = false) : Serves s t :=
  ⟨fun _ u => Bool.noConfusion (h.symm.trans u), fun _ u => Bool.noConfusion (h.symm.trans u)⟩

/-! ### The end of an event -/

theorem decideScrub_request (s : State) : (decideScrub s).scrub.waiting = true → s.scrub.waiting = true := by
  unfold decideScrub
  split
  · exact id
  · split
    · exact id
    · exact fun w => Bool.noConfusion w

theorem decideScrub_serves (s : State) : Serves s (decideScrub s) :=
  .of_block (decideScrub_same s) (decideScrub_request s) (by decide)

theorem settleReports_serves (s : State) : Serves s (settleReports s) :=
  ite_serves (.refl s) ((Serves.apart (takeArrivals_same s) (by decide)).trans (decideScrub_serves _))

/-- Once the tag arbiter has acted nothing is open, whatever was before. -/
theorem settleTags_serves (s u : State) : Serves s (settleTags u) := by
  have link : (settleTags u).link.up = true → u.link.up = true := by
    unfold settleTags
    split
    next up => exact fun _ => up
    · exact id
  exact ⟨fun _ up => settleTags_engine (link up), fun _ => settleTags_served u⟩

theorem settleOps_serves (s u : State) : Serves s (settleOps u) := (settleTags_serves s u).trans (settleReports_serves _)

theorem settle_serves (s u : State) : Serves s (settle u) := settleOps_serves s _

theorem settleFrom_serves {s u : State} (b : State) (h : Serves s u) : Serves s (settleFrom b u) :=
  ite_serves (h.trans (settleReports_serves u)) (settle_serves s u)

theorem settleFreedFrom_serves (s b u : State) : Serves s (settleFreedFrom b u) :=
  ite_serves (settleOps_serves s u) (settle_serves s u)

/-! ### The events -/

section Events

variable (s : State)

theorem loadStep_apart : SameBut [.slots, .fuse] s (loadStep s) := by
  unfold loadStep
  split
  · exact ite_same ((loadRecord_same _ s).comp (putLoading_same _ _) (by decide) (by decide)) (.refl _ s)
  · exact .refl _ s
  · exact .refl _ s

theorem loadEnd_serves : Serves s (loadEnd s) := by
  unfold loadEnd
  split
  · exact ite_serves (.refl s) (settle_serves s _)
  · exact .refl s
  · exact .refl s

theorem takeLinkUp_serves : Serves s (takeLinkUp s) := ite_serves (.refl s) (settleOps_serves s _)

theorem linkChange_same (up : Bool) : SameBut [.arrivals, .port] s (linkChange up s) :=
  (produce_same _ _ s).comp (raiseLink_same _) (by decide) (by decide)

/-- The link stays DOWN through what a link-down does (R68). -/
theorem linkLost_down : (linkLost s).link = ⟨false, []⟩ :=
  (((linkChange_same _ false).comp (linkDownTags_same _) (n := [.arrivals, .port, .tracker, .slots]) (by decide)
    (by decide)).comp (abortMigration_same .linkLost _)
    (n := [.arrivals, .port, .tracker, .slots, .migration, .engine, .tally]) (by decide) (by decide)) .link (by decide)

theorem takeLinkDown_serves : Serves s (takeLinkDown s) := by
  refine ite_serves (ite_serves (settle_serves s _) ?_) (.refl s)
  have frame := (decideScrub_same (linkLost s)).comp (settleReports_same _)
    (n := [.scrub, .reports, .port, .arrivals, .freeCount]) (by decide) (by decide)
  have link : (settleReports (decideScrub (linkLost s))).link = (linkLost s).link := frame .link (by decide)
  exact .of_down (by rw [link, linkLost_down])

theorem dirtyClaim_waits : (dirtyClaim s).waitsForTag = s.waitsForTag := by
  cases h : s.migration <;> simp [dirtyClaim, State.waitsForTag, h]

theorem effect_serves (l : QueryLine) (r : RowAddr) (write : Bool) : Serves s (l.effect r write s) := by
  cases l with
  | loading => exact .apart (countWait_same s) (by decide)
  | outOfRange => exact .apart (countOutOfRange_same s) (by decide)
  | poisoned e =>
    have hit : Serves s (hitPoison r s) := .apart (hitPoison_same r s) (by decide)
    exact hit.trans (ite_serves (.refl _) (.apart (produce_same _ _ _) (by decide)))
  | fenced => exact .apart (countWait_same s) (by decide)
  | copying l => exact ite_serves (.of_block (dirtyClaim_same s) (dirtyClaim_waits s) (by decide)) (.refl s)
  | mapped k => exact .refl s
  | unmapped => exact .refl s

theorem send_serves (m : OutMsg) : Serves s (send m s) := .of_block (send_same m s) (by rfl) (by decide)

theorem takeQuery_serves (id : BitVec 8) (kind : BitVec 2) (w : Word) : Serves s (takeQuery id kind w s) :=
  ite_serves (((effect_serves s _ _ _).trans (send_serves _ _)).trans (settleReports_serves _)) (.refl s)

theorem takeErrNote_serves (a : Bool) (k : SlotNum) (u : Bool) (b : BitVec 4) (w : Word) :
    Serves s (takeErrNote a k u b w s) := by
  have counted : Serves s (countStaleNote s) := .apart (countStaleNote_same s) (by decide)
  exact ite_serves (ite_serves counted (ite_serves
    (settleFrom_serves s (.apart (takeNote_same _ s) (by decide))) counted)) (.refl s)

theorem countStaleDone_serves : Serves s (countStaleDone s) := .of_block (countStaleDone_same s) ⟨rfl, rfl⟩ (by decide)

theorem validDone_serves (t : TagNum) (h : HeldOp) (result bits : BitVec 4) : Serves s (validDone t h result bits s) := by
  unfold validDone
  dsimp only
  split
  · split
    · exact settle_serves s _
    · exact settleOps_serves s _
  · split
    · exact settleFreedFrom_serves s _ _
    · exact settleOps_serves s _

theorem takeOpDone_serves (t : TagNum) (a : Fin 2) (result bits : BitVec 4) :
    Serves s (takeOpDone t a result bits s) := by
  unfold takeOpDone
  split
  · split
    · exact countStaleDone_serves s
    · exact ite_serves (validDone_serves s t _ result bits) (countStaleDone_serves s)
    · exact settleOps_serves s _
  · exact .refl s

/-- The same tags are FREE, and the same are OUTSTANDING for the scrubber. -/
theorem tags_serve {s t : State} (h : ∀ n, (t.tag n).isFree = (s.tag n).isFree ∧ (t.tag n).isScrubOut = (s.tag n).isScrubOut) :
    t.freeTag = s.freeTag ∧ t.scrubOutstanding = s.scrubOutstanding := by
  have free (n) := (h n).1
  have out (n) := (h n).2
  simp only [State.freeTag, State.scrubOutstanding, free, out, and_self]

/-- A re-issued tag stays OUTSTANDING with its owner (R77). -/
theorem reissue_serves {t : TagNum} {h : HeldOp} (o : s.tag t = .outstanding h) : Serves s (reissue t h s) := by
  have tags : (reissue t h s).freeTag = s.freeTag ∧ (reissue t h s).scrubOutstanding = s.scrubOutstanding := by
    refine tags_serve fun n => ?_
    have put : (reissue t h s).tag n = if t = n then .outstanding { h with attempt := 1, timer := s.opTimer } else s.tag n :=
      tag_putTag s t n _
    rw [put]
    split
    next e => subst e; rw [o]; exact ⟨rfl, rfl⟩
    · exact ⟨rfl, rfl⟩
  refine .of_same (reissue_same t h s) ?_
  simp only [List.forall_mem_cons, List.not_mem_nil, IsEmpty.forall_iff, implies_true, and_true]
  exact ⟨tags, rfl⟩

theorem takeTimeout_serves (t : TagNum) : Serves s (takeTimeout t s) := by
  have given (h : HeldOp) : Serves s (giveUp t h s) := by
    unfold giveUp
    dsimp only
    split
    · split
      · exact settle_serves s _
      · exact settleOps_serves s _
    · exact settleOps_serves s _
  unfold takeTimeout
  split
  next h o => exact ite_serves (reissue_serves s o) (given h)
  · exact .refl s
  · exact .refl s

theorem takeQuarantineExpiry_serves (t : TagNum) : Serves s (takeQuarantineExpiry t s) := by
  unfold takeQuarantineExpiry
  split
  · exact settleOps_serves s _
  · exact .refl s
  · exact .refl s

theorem takeEpochExpiry_same : SameBut [.tally] s (takeEpochExpiry s) := by
  unfold takeEpochExpiry
  split
  · exact ((startEpoch_same s).trans (nextEpoch_same _)).trans (decay_same _)
  · exact .refl _ s

theorem takeScrubExpiry_serves : Serves s (takeScrubExpiry s) := by
  unfold takeScrubExpiry
  split
  · exact settleOps_serves s _
  · exact .refl s

theorem takeCompletion_serves (r : Option (BitVec 64)) : Serves s (takeCompletion r s) := by
  unfold takeCompletion
  split
  · exact settle_serves s _
  · exact .refl s
  · exact .refl s

theorem putSupply_serves (level : Bool) : Serves s (putSupply level s) := .apart (putSupply_same level s) (by decide)

theorem takeSupplyFall_serves : Serves s (takeSupplyFall s) := by
  unfold takeSupplyFall
  split
  · exact settle_serves s _
  · exact putSupply_serves s _
  · exact putSupply_serves s _

theorem refuseWrite_serves : Serves s (refuseWrite s) := .apart (refuseWrite_same s) (by decide)

theorem commandAbort_serves : Serves s (commandAbort s) := by
  unfold commandAbort
  split
  · exact .refl s
  · exact .refl s
  · exact ite_serves (settle_serves s _) (refuseWrite_serves s)
  · exact refuseWrite_serves s

theorem commandRestart_serves : Serves s (commandRestart s) := by
  unfold commandRestart
  split
  · exact ite_serves (.apart (putEngine_same _ s) (by decide)) (settle_serves s _)
  · exact .refl s
  · exact settle_serves s _
  · exact settle_serves s _

theorem putSettings_serves {c : Settings} (h : c.depth.toNat ≤ s.config.depth.toNat) : Serves s (putSettings c s) :=
  .of_block (putSettings_same c s) h (by decide)

theorem acceptCtrl_serves {c : Settings} (put : Serves s (putSettings c s)) : Serves s (acceptCtrl c s) := by
  have mode : Serves s (if c.mode = s.config.mode then putSettings c s else applyMode s.config.mode (putSettings c s)) :=
    ite_serves put (put.trans (.apart (applyMode_same _ _) (by decide)))
  have enabled : ∀ t, Serves s t → Serves s (if c.engineEnable = s.config.engineEnable then t else applyEngineEnable t) :=
    fun t k => ite_serves k (k.trans (.apart (applyEngineEnable_same t) (by decide)))
  have scrubbed : ∀ t, Serves s t → Serves s (if c.scrubEnable = s.config.scrubEnable then t else decideScrub t) :=
    fun t k => ite_serves k (k.trans (decideScrub_serves t))
  exact ite_serves (scrubbed _ (enabled _ mode)) (settle_serves s _)

theorem acceptTally_serves {c : Settings} (put : Serves s (putSettings c s)) : Serves s (acceptTally c s) :=
  ite_serves (ite_serves put (put.trans (.apart (startEpoch_same _) (by decide)))) (settle_serves s _)

theorem putPosition_serves (p : RowAddr) : Serves s (putPosition p s) := .of_block (putPosition_same p s) id (by decide)

/-- A raised D lets the tag arbiter act; any other leaves less to grant (R75). -/
theorem acceptScrub_serves (c : Settings) : Serves s (acceptScrub c s) := by
  unfold acceptScrub
  dsimp only
  by_cases deeper : s.config.depth < c.depth
  · rw [if_pos deeper]
    exact settleOps_serves s _
  · rw [if_neg deeper]
    have put := putSettings_serves s (c := c) (BitVec.le_def.1 (BitVec.not_lt.1 deeper))
    exact ite_serves put (put.trans (ite_serves (.refl _) (putPosition_serves _ _)))

theorem writeGeom_serves (v : Word) : Serves s (writeGeom v s) :=
  ite_serves ((putSettings_serves s (c := s.config.writeGeom v) le_rfl).trans (putPosition_serves _ _))
    (refuseWrite_serves s)

theorem clearCounter_serves (c : CounterId) : Serves s (clearCounter c s) := by
  refine .of_block (clearCounter_same c s) ?_ (by decide)
  cases c <;> exact ⟨rfl, rfl⟩

theorem handBackSlot_serves (k : Fin 64) (v : Word) : Serves s (handBackSlot k v s) := by
  have put : Serves s (s.putReportSlot k ((s.reportSlot k).setWord 0 v)) := .apart (putReportSlot_same s _ _) (by decide)
  exact ite_serves ((put.trans (.apart (drain_same _ _) (by decide))).trans (decideScrub_serves _)) put

theorem writeReport_serves (k : Fin 64) (w : Fin 8) (v : Word) : Serves s (writeReport k w v s) :=
  ite_serves (refuseWrite_serves s)
    (ite_serves (handBackSlot_serves s k v) (.apart (putReportSlot_same s _ _) (by decide)))

theorem readRegion_same (g : Region) (top : Bool) : SameBut [.slots, .tally, .query, .fuse] s (readRegion g top s).2 := by
  cases g <;> exact .of fun b => by cases b <;> first | exact .inr rfl | exact .inl (by decide)

theorem portRead_same (a : BitVec 14) (w : Width) : SameBut [.slots, .tally, .query, .fuse, .port] s (portRead a w s) :=
  ite_same ((readRegion_same s _ _).comp (putReadData_same _ _) (by decide) (by decide))
    ((putReadData_same _ s).mono (by decide))

end Events

/-! ### Every event -/

theorem writeCtrl_depth {c d : Settings} {v : Word} (h : c.writeCtrl v = some d) : d.depth.toNat ≤ c.depth.toNat := by
  unfold Settings.writeCtrl at h
  split at h
  · cases h
  · cases h; exact le_rfl

theorem writeTally_depth {c d : Settings} {v : Word} (h : c.writeTally v = some d) : d.depth.toNat ≤ c.depth.toNat := by
  unfold Settings.writeTally at h
  split at h
  · cases h
  · cases h; exact le_rfl

theorem writeLink_depth {c d : Settings} {v : Word} (h : c.writeLink v = some d) : d.depth.toNat ≤ c.depth.toNat := by
  unfold Settings.writeLink at h
  split at h
  · cases h
  · cases h; exact le_rfl

theorem event_serves {s t : State} (e : Event s t) : Serves s t := by
  cases e with
  | stays => exact .refl s
  | loadStep => exact .apart (loadStep_apart s) (by decide)
  | loadEnd => exact loadEnd_serves s
  | linkUp => exact takeLinkUp_serves s
  | linkDown => exact takeLinkDown_serves s
  | query id kind w => exact takeQuery_serves s id kind w
  | errNote a k u b w => exact takeErrNote_serves s a k u b w
  | opDone t a r b => exact takeOpDone_serves s t a r b
  | opTimeout t => exact takeTimeout_serves s t
  | quarantineExpiry t => exact takeQuarantineExpiry_serves s t
  | epochExpiry => exact .apart (takeEpochExpiry_same s) (by decide)
  | scrubExpiry => exact takeScrubExpiry_serves s
  | completion r => exact takeCompletion_serves s r
  | supplyFall => exact takeSupplyFall_serves s
  | supplyRise => exact putSupply_serves s true
  | abort => exact commandAbort_serves s
  | restart => exact commandRestart_serves s
  | refused => exact refuseWrite_serves s
  | ctrl h => exact acceptCtrl_serves s (putSettings_serves s (writeCtrl_depth h))
  | tally h => exact acceptTally_serves s (putSettings_serves s (writeTally_depth h))
  | scrub _ => exact acceptScrub_serves s _
  | link h => exact putSettings_serves s (writeLink_depth h)
  | geom v => exact writeGeom_serves s v
  | irqf v => exact .apart (putPort_same _ s) (by decide)
  | irqm v => exact .apart (putPort_same _ s) (by decide)
  | counter c => exact clearCounter_serves s c
  | descriptor i d => exact .apart (putDesc_same s i d) (by decide)
  | handOver i d => exact settle_serves s _
  | report k w v => exact writeReport_serves s k w v
  | read a w => exact .apart (portRead_same s a w) (by decide)

/-- The release of RESET_N begins the load outside the tag arbiter's reach, or ends it at once. -/
theorem beginLoad_serves (s : State) : Serves s (beginLoad s) := by
  have begun : SameBut [.resetLow, .device, .fuse, .tally] s (startEpoch { s with
      resetLow := false
      device := .loading
      fuse := { s.fuse with writePos := s.firstBlank, nextSeq := 1, counts := .zero, state := .loading 0 } }) :=
    .of fun b => by cases b <;> first | exact .inr rfl | exact .inl (by decide)
  exact ite_serves (settle_serves s _) (.apart begun (by decide))

theorem taken_serves {s t : State} (h : Taken s t) : Serves s t := by
  cases h with
  | held => exact .refl s
  | release => exact beginLoad_serves s
  | heldRead => exact .apart (putReadData_same 0 s) (by decide)
  | heldSupply _ level => exact putSupply_serves s level
  | event _ e => exact event_serves e

theorem idle_serves (s : State) : Serves s (idle s) := by
  unfold idle
  split
  · exact .of_block (putLink_same _ s) (by rfl) (by decide)
  · exact .refl s

theorem step_serves {s t : State} (h : step s = .next t) : Serves s t := by
  rcases step_cases h with rfl | ⟨rest, rfl | taken⟩
  · exact idle_serves s
  · exact .of_down rfl
  · exact (Serves.apart (putPending_same rest s) (by decide)).trans (taken_serves taken)

/-! ### No report is left over -/

theorem settleOps_arrivals (s : State) : (settleOps s).arrivals = [] := settleReports_arrivals _

theorem settle_arrivals (s : State) : (settle s).arrivals = [] := settleOps_arrivals _

/-- The reports of the event have been taken, or it produced none. -/
def Handed (s t : State) : Prop := t.arrivals = [] ∨ t.arrivals = s.arrivals

theorem Handed.of_same {l : List Block} {s t : State} (h : SameBut l s t) (q : .arrivals ∉ l) : Handed s t :=
  .inr (h .arrivals q)

theorem Handed.refl (s : State) : Handed s s := .inr rfl

theorem Handed.reports (s u : State) : Handed s (settleReports u) := .inl (settleReports_arrivals u)

theorem Handed.ops (s u : State) : Handed s (settleOps u) := .inl (settleOps_arrivals u)

theorem Handed.jobs (s u : State) : Handed s (settle u) := .inl (settle_arrivals u)

theorem ite_handed {s a b : State} {c : Prop} [Decidable c] (ha : Handed s a) (hb : Handed s b) :
    Handed s (if c then a else b) := by
  split
  · exact ha
  · exact hb

theorem settleFrom_handed (s b u : State) : Handed s (settleFrom b u) := ite_handed (.reports s u) (.jobs s u)

theorem settleFreedFrom_handed (s b u : State) : Handed s (settleFreedFrom b u) := ite_handed (.ops s u) (.jobs s u)

section Handed

variable (s : State)

theorem loadEnd_handed : Handed s (loadEnd s) := by
  unfold loadEnd
  split
  · exact ite_handed (.refl s) (.jobs s _)
  · exact .refl s
  · exact .refl s

theorem takeErrNote_handed (a : Bool) (k : SlotNum) (u : Bool) (b : BitVec 4) (w : Word) :
    Handed s (takeErrNote a k u b w s) := by
  have counted : Handed s (countStaleNote s) := .of_same (countStaleNote_same s) (by decide)
  exact ite_handed (ite_handed counted (ite_handed (settleFrom_handed s _ _) counted)) (.refl s)

theorem validDone_handed (t : TagNum) (h : HeldOp) (result bits : BitVec 4) : Handed s (validDone t h result bits s) := by
  unfold validDone
  dsimp only
  split
  · split
    · exact .jobs s _
    · exact .ops s _
  · split
    · exact settleFreedFrom_handed s _ _
    · exact .ops s _

theorem takeOpDone_handed (t : TagNum) (a : Fin 2) (result bits : BitVec 4) : Handed s (takeOpDone t a result bits s) := by
  have counted : Handed s (countStaleDone s) := .of_same (countStaleDone_same s) (by decide)
  unfold takeOpDone
  split
  · split
    · exact counted
    · exact ite_handed (validDone_handed s t _ result bits) counted
    · exact .ops s _
  · exact .refl s

theorem takeTimeout_handed (t : TagNum) : Handed s (takeTimeout t s) := by
  have given (h : HeldOp) : Handed s (giveUp t h s) := by
    unfold giveUp
    dsimp only
    split
    · split
      · exact .jobs s _
      · exact .ops s _
    · exact .ops s _
  unfold takeTimeout
  split
  next h _ => exact ite_handed (.of_same (reissue_same t h s) (by decide)) (given h)
  · exact .refl s
  · exact .refl s

theorem takeQuarantineExpiry_handed (t : TagNum) : Handed s (takeQuarantineExpiry t s) := by
  unfold takeQuarantineExpiry
  split
  · exact .ops s _
  · exact .refl s
  · exact .refl s

theorem takeScrubExpiry_handed : Handed s (takeScrubExpiry s) := by
  unfold takeScrubExpiry
  split
  · exact .ops s _
  · exact .refl s

theorem takeCompletion_handed (r : Option (BitVec 64)) : Handed s (takeCompletion r s) := by
  unfold takeCompletion
  split
  · exact .jobs s _
  · exact .refl s
  · exact .refl s

theorem takeSupplyFall_handed : Handed s (takeSupplyFall s) := by
  unfold takeSupplyFall
  split
  · exact .jobs s _
  · exact .refl s
  · exact .refl s

theorem commandAbort_handed : Handed s (commandAbort s) := by
  unfold commandAbort
  split
  · exact .refl s
  · exact .refl s
  · exact ite_handed (.jobs s _) (.refl s)
  · exact .refl s

theorem commandRestart_handed : Handed s (commandRestart s) := by
  unfold commandRestart
  split
  · exact ite_handed (.refl s) (.jobs s _)
  · exact .refl s
  · exact .jobs s _
  · exact .jobs s _

theorem acceptCtrl_handed (c : Settings) : Handed s (acceptCtrl c s) := by
  have mode : SameBut [.config, .tally] s
      (if c.mode = s.config.mode then putSettings c s else applyMode s.config.mode (putSettings c s)) :=
    ite_same ((putSettings_same c s).mono (by decide))
      ((putSettings_same c s).comp (applyMode_same _ _) (by decide) (by decide))
  have enabled (t : State) : SameBut [.engine] t
      (if c.engineEnable = s.config.engineEnable then t else applyEngineEnable t) :=
    ite_same (.refl _ t) (applyEngineEnable_same t)
  have scrubbed (t : State) : SameBut [.scrub] t (if c.scrubEnable = s.config.scrubEnable then t else decideScrub t) :=
    ite_same (.refl _ t) (decideScrub_same t)
  have all := (mode.comp (enabled _) (n := [.config, .tally, .engine]) (by decide) (by decide)).comp (scrubbed _)
    (n := [.config, .tally, .engine, .scrub]) (by decide) (by decide)
  exact ite_handed (.of_same all (by decide)) (.jobs s _)

theorem acceptTally_handed (c : Settings) : Handed s (acceptTally c s) :=
  ite_handed (ite_handed (.refl s) (.refl s)) (.jobs s _)

theorem acceptScrub_handed (c : Settings) : Handed s (acceptScrub c s) := by
  have masked : Handed s (applyMask (putSettings c s)) := ite_handed (.refl s) (.refl s)
  exact ite_handed (.ops s _) (ite_handed (.refl s) masked)

theorem writeReport_handed (k : Fin 64) (w : Fin 8) (v : Word) : Handed s (writeReport k w v s) := by
  have drained (n : Nat) (t : State) : SameBut [.reports, .port, .scrub] t (decideScrub (drain n t)) :=
    (drain_same n t).comp (decideScrub_same _) (by decide) (by decide)
  have put := putReportSlot_same s k ((s.reportSlot k).setWord 0 v)
  refine ite_handed (.refl s) (ite_handed (ite_handed ?_ (.refl s)) (.refl s))
  exact .of_same (put.comp (drained _ _) (n := [.reports, .port, .scrub]) (by decide) (by decide)) (by decide)

end Handed

theorem event_handed {s t : State} (e : Event s t) : Handed s t := by
  cases e with
  | stays => exact .refl s
  | loadStep => exact .of_same (loadStep_apart s) (by decide)
  | loadEnd => exact loadEnd_handed s
  | linkUp => exact ite_handed (.refl s) (.ops s _)
  | linkDown => exact ite_handed (ite_handed (.jobs s _) (.reports s _)) (.refl s)
  | query id kind w => exact ite_handed (.reports s _) (.refl s)
  | errNote a k u b w => exact takeErrNote_handed s a k u b w
  | opDone t a r b => exact takeOpDone_handed s t a r b
  | opTimeout t => exact takeTimeout_handed s t
  | quarantineExpiry t => exact takeQuarantineExpiry_handed s t
  | epochExpiry => exact .of_same (takeEpochExpiry_same s) (by decide)
  | scrubExpiry => exact takeScrubExpiry_handed s
  | completion r => exact takeCompletion_handed s r
  | supplyFall => exact takeSupplyFall_handed s
  | supplyRise => exact .refl s
  | abort => exact commandAbort_handed s
  | restart => exact commandRestart_handed s
  | refused => exact .refl s
  | ctrl _ => exact acceptCtrl_handed s _
  | tally _ => exact acceptTally_handed s _
  | scrub _ => exact acceptScrub_handed s _
  | link _ => exact .refl s
  | geom v => exact ite_handed (.refl s) (.refl s)
  | irqf v => exact .refl s
  | irqm v => exact .refl s
  | counter c => exact .of_same (clearCounter_same c s) (by decide)
  | descriptor i d => exact .of_same (putDesc_same s i d) (by decide)
  | handOver i d => exact .jobs s _
  | report k w v => exact writeReport_handed s k w v
  | read a w => exact .of_same (portRead_same s a w) (by decide)

theorem taken_handed {s t : State} (h : Taken s t) : Handed s t := by
  cases h with
  | held => exact .refl s
  | release => exact ite_handed (.jobs s _) (.refl s)
  | heldRead => exact .refl s
  | heldSupply _ level => exact .refl s
  | event _ e => exact event_handed e

theorem step_arrivals {s t : State} (h : step s = .next t) (a : s.arrivals = []) : t.arrivals = [] := by
  rcases step_cases h with rfl | ⟨rest, rfl | taken⟩
  · have idled : Handed s (idle s) := ite_handed (.refl s) (.refl s)
    exact idled.elim id fun e => e.trans a
  · rfl
  · exact (taken_handed taken).elim id fun e => e.trans a

/-- Settles O58: an event that could leave a report, or a tag for somebody who waits, ends with the arbiter and the report
unit; every other leaves their conditions as they were. -/
theorem reportUnitAndTagArbiterStaySettled : Obligations.ReportUnitAndTagArbiterStaySettled := by
  intro s t h
  have serves := step_serves h
  refine ⟨fun l => ?_, fun l => ?_, fun _ _ => serves.scrub⟩
  · rcases step_keeps h with ⟨rest, rfl⟩ | keeps
    · exact HeldLaw.reports (reset_reports.held.of_same rfl) rfl
    · exact (keeps.held l.held).reports (step_arrivals h l.taken)
  · obtain ⟨engine, waiting⟩ := tagsLaw_iff.1 l
    refine tagsLaw_iff.2 ⟨serves.engine engine, ?_⟩
    rcases step_keeps h with ⟨rest, rfl⟩ | keeps
    · exact fun w => Bool.noConfusion w
    · exact keeps.waiting waiting

end Sys2Proof.Machine

/-! The laws between the slot table, the migration context, the tags, the engine and the fuse store. `Bare m` is what they
say of the tables for a context `m` that holds no copy tag, whatever the engine's state: an event takes the context's tag
from it, changes the tables, and gives the engine its new state. -/

namespace Sys2Proof.Machine

/-! ### The two halves of the law -/

/-- What the law says of slots, tags, link and device where only the scrubber's tags are OUTSTANDING and `m` is the
context. It reads neither the context of the state nor its engine. -/
structure Bare (m : Option Context) (s : State) : Prop where
  unique : ∀ r k j, s.mapsAt r k = true → s.mapsAt r j = true → k = j
  committing : ∀ k v, s.slot k = .committing v → ∃ i, s.fuse.state = .programming i .map k
  draining : ∀ k v, s.slot k = .draining v → ∃ t h r a, s.tag t = .quarantined h ∧ h.op = .copy r a (.slot k)
  down : s.link.up = false → ∀ t, s.tag t = .free
  loading : s.device = .loading → (∃ n, s.fuse.state = .loading n) ∧
    ∀ k, s.slot k = .free ∨ (∃ v i, s.slot k = .hard v i) ∨ ∃ v f, s.slot k = .retired v f
  fuseLoading : ∀ n, s.fuse.state = .loading n → s.device = .loading
  held : s.resetLow = true → s.device = .loading
  reserved : ∀ k v, s.slot k = .reserved v → ∃ c, m = some c ∧ c.target = .slot k
  context : ∀ c, m = some c → ContextSlots s c
  outstanding : ∀ t h, s.tag t = .outstanding h → h.owner = .scrub ∧ ∃ r l, h.op = .verify r l

/-- What the law says of the engine (R42, R130, R144, R146). -/
structure EngineLaw (s : State) : Prop where
  migrating : s.migration.isSome = true ↔ ∃ j, s.engine.state = .busy j ∧ j.kind.migrates = true
  fusing : s.programming = true ↔ ∃ j, s.jobInFlight = some j ∧ j.kind.migrates = false
  stopped : s.device = .loading → s.engine.state = .stopped

theorem MappingLaw.engine {s : State} (l : MappingLaw s) : EngineLaw s :=
  ⟨l.migrating, l.fusing, fun h => (l.loading h).1⟩

/-- The context holds no copy tag. -/
def State.untagged (s : State) : Prop := ∀ c, s.migration = some c → c.copyTag = none

theorem untagged_none {s : State} (h : s.migration = none) : s.untagged := fun c hc => by rw [h] at hc; cases hc

theorem Bare.law {s : State} (b : Bare s.migration s) (u : s.untagged) (e : EngineLaw s) : MappingLaw s where
  unique := b.unique
  reserved := b.reserved
  context := b.context
  migrating := e.migrating
  fusing := e.fusing
  committing := b.committing
  draining := b.draining
  outstanding t h ht := .inr (b.outstanding t h ht)
  copyTag c t hc ht := by rw [u c hc] at ht; cases ht
  down := b.down
  loading h := ⟨e.stopped h, b.loading h⟩
  fuseLoading := b.fuseLoading
  held := b.held

theorem MappingLaw.bare {s : State} (l : MappingLaw s) (u : s.untagged) : Bare s.migration s where
  unique := l.unique
  committing := l.committing
  draining := l.draining
  down := l.down
  loading h := (l.loading h).2
  fuseLoading := l.fuseLoading
  held := l.held
  reserved := l.reserved
  context := l.context
  outstanding t h ht := by
    rcases l.outstanding t h ht with ⟨_, c, hc, tagged, _⟩ | scrub
    · rw [u c hc] at tagged; cases tagged
    · exact scrub

/-! ### States that the law does not tell apart -/

/-- What `Bare` reads is the same. -/
structure SameTables (s t : State) : Prop where
  slot : ∀ k, t.slot k = s.slot k
  fuse : t.fuse.state = s.fuse.state
  tag : ∀ n, t.tag n = s.tag n
  up : t.link.up = s.link.up
  device : t.device = s.device
  resetLow : t.resetLow = s.resetLow

theorem mapsAt_of_slot {s t : State} {k : SlotNum} (h : t.slot k = s.slot k) (r : RowAddr) : t.mapsAt r k = s.mapsAt r k := by
  unfold State.mapsAt
  rw [h]

theorem contextSlots_of_slots {s t : State} (h : ∀ k, t.slot k = s.slot k) (c : Context) :
    ContextSlots t c = ContextSlots s c := by
  have maps (r k) : t.mapsAt r k = s.mapsAt r k := mapsAt_of_slot (h k) r
  simp only [ContextSlots, maps, h]

theorem Bare.of_tables {m : Option Context} {s t : State} (v : SameTables s t) (b : Bare m s) : Bare m t where
  unique r k j := by simp only [mapsAt_of_slot (v.slot _)]; exact b.unique r k j
  committing := by simp only [v.slot, v.fuse]; exact b.committing
  draining := by simp only [v.slot, v.tag]; exact b.draining
  down := by simp only [v.up, v.tag]; exact b.down
  loading := by simp only [v.device, v.fuse, v.slot]; exact b.loading
  fuseLoading := by simp only [v.device, v.fuse]; exact b.fuseLoading
  held := by simp only [v.device, v.resetLow]; exact b.held
  reserved := by simp only [v.slot]; exact b.reserved
  context c hc := by rw [contextSlots_of_slots v.slot]; exact b.context c hc
  outstanding := by simp only [v.tag]; exact b.outstanding

/-- What the law reads of the engine is the same. -/
structure SameEngine (s t : State) : Prop where
  migration : t.migration.isSome = s.migration.isSome
  engine : t.engine.state = s.engine.state
  fuse : t.fuse.state = s.fuse.state
  device : t.device = s.device

theorem SameEngine.programming {s t : State} (v : SameEngine s t) : t.programming = s.programming := by
  unfold State.programming
  rw [v.fuse]

theorem SameEngine.job {s t : State} (v : SameEngine s t) : t.jobInFlight = s.jobInFlight := by
  unfold State.jobInFlight
  rw [v.engine]

theorem EngineLaw.of_same {s t : State} (v : SameEngine s t) (e : EngineLaw s) : EngineLaw t where
  migrating := by rw [v.migration, v.engine]; exact e.migrating
  fusing := by rw [v.programming, v.job]; exact e.fusing
  stopped := by rw [v.device, v.engine]; exact e.stopped

theorem MappingLaw.of_same {s t : State} (l : MappingLaw s) (v : SameTables s t) (m : t.migration = s.migration)
    (e : t.engine.state = s.engine.state) : MappingLaw t := by
  have engine := l.engine.of_same (t := t) ⟨by rw [m], e, v.fuse, v.device⟩
  exact {
    unique := fun r k j => by simp only [mapsAt_of_slot (v.slot _)]; exact l.unique r k j
    reserved := by simp only [v.slot, m]; exact l.reserved
    context := fun c hc => by rw [contextSlots_of_slots v.slot]; exact l.context c (m ▸ hc)
    migrating := engine.migrating
    fusing := engine.fusing
    committing := by simp only [v.slot, v.fuse]; exact l.committing
    draining := by simp only [v.slot, v.tag]; exact l.draining
    outstanding := by simp only [v.tag, m]; exact l.outstanding
    copyTag := by simp only [v.tag, m]; exact l.copyTag
    down := by simp only [v.up, v.tag]; exact l.down
    loading := by simp only [v.device, v.fuse, v.slot, e]; exact l.loading
    fuseLoading := by simp only [v.device, v.fuse]; exact l.fuseLoading
    held := by simp only [v.device, v.resetLow]; exact l.held }

/-- What a part has to show for the tables to read the same. -/
def Block.tables (s t : State) : Block → Prop
  | .slots => ∀ k, t.slot k = s.slot k
  | .fuse => t.fuse.state = s.fuse.state
  | .tracker => ∀ n, t.tag n = s.tag n
  | .link => t.link.up = s.link.up
  | .device => t.device = s.device
  | .resetLow => t.resetLow = s.resetLow
  | .supplyOk | .config | .query | .migration | .tally | .scrub | .engine | .reports | .port | .arrivals | .freeCount
  | .pending => True

theorem SameTables.of_same {l : List Block} {s t : State} (h : SameBut l s t) (k : ∀ b ∈ l, b.tables s t) :
    SameTables s t := by
  have part (b : Block) (same : b.same s t → b.tables s t) : b.tables s t := by
    by_cases x : b ∈ l
    · exact k b x
    · exact same (h b x)
  exact ⟨part .slots fun e => slot_of_slots e, part .fuse fun e => congrArg FuseStore.state e,
    part .tracker fun e n => congrArg (fun x : Tracker => x.tags.get n) e, part .link fun e => congrArg ArrayLink.up e,
    part .device id, part .resetLow id⟩

/-- A part that the tables' laws do not read. -/
def Block.unread (b : Block) : Bool :=
  b ∈ [Block.supplyOk, .config, .query, .migration, .tally, .scrub, .engine, .reports, .port, .arrivals, .freeCount,
    .pending]

theorem Block.unread_tables {s t : State} {b : Block} (q : b.unread = true) : b.tables s t := by
  cases b <;> first | exact trivial | exact absurd q (by decide)

theorem SameTables.unread {l : List Block} {s t : State} (h : SameBut l s t) (q : ∀ b ∈ l, b.unread = true) :
    SameTables s t :=
  .of_same h fun b hb => Block.unread_tables (q b hb)

theorem SameTables.of_block {b : Block} {l : List Block} {s t : State} (h : SameBut (b :: l) s t) (k : b.tables s t)
    (q : ∀ a ∈ l, a.unread = true) : SameTables s t :=
  .of_same h (List.forall_mem_cons.2 ⟨k, fun a ha => Block.unread_tables (q a ha)⟩)

/-- The law follows a frame that spares what it reads. -/
theorem MappingLaw.frame {l : List Block} {s t : State} (m : MappingLaw s) (h : SameBut l s t)
    (q : ∀ b ∈ l, b.unread = true ∧ b ≠ .migration ∧ b ≠ .engine) : MappingLaw t :=
  m.of_same (.unread h fun b hb => (q b hb).1) (h .migration fun x => (q _ x).2.1 rfl)
    (congrArg JobEngine.state (h .engine fun x => (q _ x).2.2 rfl))

/-! ### One slot changed -/

/-- Slot `k` has become `r`; the rest of the tables is as it was. -/
structure SlotPut (k : SlotNum) (r : SlotRec) (s t : State) : Prop where
  slot : ∀ j, t.slot j = if k = j then r else s.slot j
  fuse : t.fuse.state = s.fuse.state
  tag : ∀ n, t.tag n = s.tag n
  up : t.link.up = s.link.up
  device : t.device = s.device
  resetLow : t.resetLow = s.resetLow

theorem putSlot_put (k : SlotNum) (r : SlotRec) (s : State) : SlotPut k r s (s.putSlot k r) :=
  ⟨fun j => slot_putSlot s k j r, rfl, fun _ => rfl, rfl, rfl, rfl⟩

theorem SlotPut.self {k : SlotNum} {r : SlotRec} {s t : State} (p : SlotPut k r s t) : t.slot k = r :=
  (p.slot k).trans (if_pos rfl)

theorem SlotPut.ne {k j : SlotNum} {r : SlotRec} {s t : State} (p : SlotPut k r s t) (h : k ≠ j) : t.slot j = s.slot j :=
  (p.slot j).trans (if_neg h)

/-- A slot maps a row by its own record only. -/
theorem mapsAt_self {s : State} {k : SlotNum} {r : RowAddr} {x : SlotRec} (h : s.slot k = x) :
    s.mapsAt r k = true ↔ ∃ v, x.mapped = some v ∧ v.rowAt k = r := by
  rw [mapsAt_iff, h]

theorem mapsAt_unmapped {s : State} {k : SlotNum} {x : SlotRec} (h : s.slot k = x) (n : x.mapped = none) (r : RowAddr) :
    s.mapsAt r k = false := by
  rw [Bool.eq_false_iff, ne_eq, mapsAt_self h, n]
  rintro ⟨v, hv, _⟩
  cases hv

/-- Where no context stands, none has slots to agree with. -/
theorem contextSlots_none {s : State} : ∀ c, (none : Option Context) = some c → ContextSlots s c :=
  fun _ h => absurd h.symm (Option.some_ne_none _)

/-- One slot changed: it maps nothing that another slot maps, and each state it can take has what that state calls for. -/
theorem Bare.put {m n : Option Context} {s t : State} {k : SlotNum} {r : SlotRec} (b : Bare m s) (p : SlotPut k r s t)
    (maps : ∀ v, r.mapped = some v → ∀ j, k ≠ j → s.mapsAt (v.rowAt k) j = false)
    (committing : ∀ v, r = .committing v → ∃ i, s.fuse.state = .programming i .map k)
    (draining : ∀ v, r = .draining v → ∃ t h q a, s.tag t = .quarantined h ∧ h.op = .copy q a (.slot k))
    (loading : s.device = .loading → r = .free ∨ (∃ v i, r = .hard v i) ∨ ∃ v f, r = .retired v f)
    (reserved : ∀ j v, t.slot j = .reserved v → ∃ c, n = some c ∧ c.target = .slot j)
    (context : ∀ c, n = some c → ContextSlots t c) : Bare n t where
  unique q i j hi hj := by
    by_cases ei : k = i
    · by_cases ej : k = j
      · exact ei.symm.trans ej
      · subst ei
        obtain ⟨v, hv, rfl⟩ := (mapsAt_self p.self).1 hi
        rw [mapsAt_of_slot (p.ne ej), maps v hv j ej] at hj
        cases hj
    · by_cases ej : k = j
      · subst ej
        obtain ⟨v, hv, rfl⟩ := (mapsAt_self p.self).1 hj
        rw [mapsAt_of_slot (p.ne ei), maps v hv i ei] at hi
        cases hi
      · rw [mapsAt_of_slot (p.ne ei)] at hi
        rw [mapsAt_of_slot (p.ne ej)] at hj
        exact b.unique q i j hi hj
  committing j v h := by
    rw [p.fuse]
    by_cases e : k = j
    · subst e; exact committing v (p.self.symm.trans h)
    · exact b.committing j v ((p.ne e).symm.trans h)
  draining j v h := by
    simp only [p.tag]
    by_cases e : k = j
    · subst e; exact draining v (p.self.symm.trans h)
    · exact b.draining j v ((p.ne e).symm.trans h)
  down := by simp only [p.up, p.tag]; exact b.down
  loading h := by
    rw [p.device] at h
    rw [p.fuse]
    refine ⟨(b.loading h).1, fun j => ?_⟩
    by_cases e : k = j
    · subst e; rw [p.self]; exact loading h
    · rw [p.ne e]; exact (b.loading h).2 j
  fuseLoading := by rw [p.fuse, p.device]; exact b.fuseLoading
  held := by rw [p.resetLow, p.device]; exact b.held
  reserved := reserved
  context := context
  outstanding := by simp only [p.tag]; exact b.outstanding

/-- No slot is RESERVED where no context reserves it. -/
theorem Bare.unreserved {s : State} (b : Bare none s) (k : SlotNum) (v : Victim) : s.slot k ≠ .reserved v := by
  intro h
  obtain ⟨c, hc, _⟩ := b.reserved k v h
  cases hc

/-- Nothing else is RESERVED than what the record says, where nothing else was. -/
theorem SlotPut.unreserved {s t : State} {k : SlotNum} {r : SlotRec} (p : SlotPut k r s t)
    (old : ∀ j, k ≠ j → ∀ v, s.slot j ≠ .reserved v) (new : ∀ v, r ≠ .reserved v) {n : Option Context} :
    ∀ j v, t.slot j = .reserved v → ∃ c, n = some c ∧ c.target = .slot j := by
  intro j v h
  by_cases e : k = j
  · subst e; exact absurd (p.self.symm.trans h) (new v)
  · exact absurd ((p.ne e).symm.trans h) (old j e v)

/-- Without a context: a record that maps what the slot mapped, or nothing, and is neither RESERVED, COMMITTING nor
DRAINING. -/
theorem Bare.settleSlot {s t : State} {k : SlotNum} {r : SlotRec} (b : Bare none s) (p : SlotPut k r s t)
    (maps : r.mapped = none ∨ r.mapped = (s.slot k).mapped) (plain : ∀ v, r ≠ .reserved v ∧ r ≠ .committing v ∧ r ≠ .draining v)
    (loading : s.device = .loading → r = .free ∨ (∃ v i, r = .hard v i) ∨ ∃ v f, r = .retired v f) : Bare none t := by
  refine b.put p (fun v hv j ne => ?_) (fun v h => absurd h (plain v).2.1) (fun v h => absurd h (plain v).2.2) loading
    (p.unreserved (fun j _ => b.unreserved j) fun v => (plain v).1) fun c hc => by cases hc
  rcases maps with none | same
  · rw [none] at hv; cases hv
  · rw [Bool.eq_false_iff]
    intro other
    exact ne (b.unique _ _ _ (mapsAt_iff.2 ⟨v, same.symm.trans hv, rfl⟩) other)

end Sys2Proof.Machine

/-! The law through the taking of jobs, the completion of a job, the end of a migration and the tracker. -/

namespace Sys2Proof.Machine

/-! ### No job in flight -/

/-- Nothing is under way: no context, no programming, the load over. -/
structure Quiet (s : State) : Prop where
  bare : Bare none s
  migration : s.migration = none
  programming : s.programming = false
  running : s.device ≠ .loading

theorem jobInFlight_none {s : State} (h : s.jobInFlight = none) : s.engine.state = .stopped ∨ s.engine.state = .idle := by
  unfold State.jobInFlight at h
  split at h
  next e => exact .inl e
  next e => exact .inr e
  · cases h
  · cases h

theorem jobInFlight_busy {s : State} {j : Job} (h : s.engine.state = .busy j) : s.jobInFlight = some j := by
  simp only [State.jobInFlight, h]

/-- With no job in flight nothing is under way. -/
theorem EngineLaw.idle {s : State} (e : EngineLaw s) (h : s.jobInFlight = none) :
    s.migration = none ∧ s.programming = false := by
  constructor
  · rw [← Option.not_isSome_iff_eq_none, e.migrating]
    rintro ⟨j, hj, _⟩
    rw [jobInFlight_busy hj] at h
    cases h
  · rw [Bool.eq_false_iff, ne_eq, e.fusing]
    rintro ⟨j, hj, _⟩
    rw [hj] at h
    cases h

theorem MappingLaw.quiet {s : State} (l : MappingLaw s) (h : s.jobInFlight = none) (d : s.device ≠ .loading) : Quiet s := by
  obtain ⟨m, p⟩ := l.engine.idle h
  exact ⟨m ▸ l.bare (untagged_none m), m, p, d⟩

/-- With nothing under way and no job in flight, the engine agrees. -/
theorem engineLaw_free {s : State} (m : s.migration = none) (p : s.programming = false)
    (d : s.device = .loading → s.engine.state = .stopped) (h : s.jobInFlight = none) : EngineLaw s where
  migrating := by
    rw [m]
    refine ⟨fun x => Bool.noConfusion x, ?_⟩
    rintro ⟨j, hj, _⟩
    rw [jobInFlight_busy hj] at h
    cases h
  fusing := by
    rw [p, h]
    refine ⟨fun x => Bool.noConfusion x, ?_⟩
    rintro ⟨j, hj, _⟩
    cases hj
  stopped := d

theorem Quiet.law {s : State} (q : Quiet s) (h : s.jobInFlight = none) : MappingLaw s :=
  Bare.law (q.migration.symm ▸ q.bare) (untagged_none q.migration)
    (engineLaw_free q.migration q.programming (fun x => absurd x q.running) h)

theorem Quiet.of_same {s t : State} (q : Quiet s) (v : SameTables s t) (m : t.migration = s.migration) : Quiet t where
  bare := q.bare.of_tables v
  migration := m.trans q.migration
  programming := by
    have p := q.programming
    unfold State.programming at p ⊢
    rw [v.fuse]
    exact p
  running := by rw [v.device]; exact q.running

theorem Quiet.frame {l : List Block} {s t : State} (q : Quiet s) (h : SameBut l s t)
    (u : ∀ b ∈ l, b.unread = true ∧ b ≠ .migration) : Quiet t :=
  q.of_same (.unread h fun b hb => (u b hb).1) (h .migration fun x => (u _ x).2 rfl)

/-! ### The completion of a job -/

/-- Delivering a result leaves the engine's state for `leaveBusy` (R148). -/
theorem deliverResult_state (j : Job) (r : Result) (s : State) :
    (deliverResult j r s).engine.state = s.engine.state := by
  have put (i : DescId) (d : Descriptor) : (s.putDesc i d).engine.state = s.engine.state := by cases i <;> rfl
  unfold deliverResult
  split
  · exact put _ _
  · exact put _ _
  · exact congrArg JobEngine.state (completeSelfRepair_same _ _ _ _ .engine (by decide))

theorem leaveBusy_job (s : State) : (leaveBusy s).jobInFlight = none := by
  show (match (if s.config.engineEnable then EngineState.idle else .stopped) with
    | .stopped => none | .idle => none | .busy j => some j | .restartPending j => some j) = none
  split <;> rename_i h <;> revert h <;> split <;> intro h <;> cases h <;> rfl

/-- The job in flight completes where its work is over, and the engine is free again. -/
theorem Quiet.complete {s : State} (q : Quiet s) (r : Result) : Quiet (completeInFlight r s) :=
  q.frame (completeInFlight_same r s) (by decide)

theorem completeInFlight_job (r : Result) (s : State) : (completeInFlight r s).jobInFlight = none := by
  unfold completeInFlight
  split
  · exact leaveBusy_job _
  · assumption

theorem Quiet.completed {s : State} (q : Quiet s) (r : Result) : MappingLaw (completeInFlight r s) :=
  (q.complete r).law (completeInFlight_job r s)

/-! ### The start of a job -/

theorem State.programming_iff (s : State) : s.programming = true ↔ ∃ i kind k, s.fuse.state = .programming i kind k := by
  unfold State.programming
  split
  next i kind k h => exact ⟨fun _ => ⟨i, kind, k, h⟩, fun _ => rfl⟩
  next h => rw [h]; exact ⟨fun x => Bool.noConfusion x, fun ⟨_, _, _, x⟩ => by cases x⟩
  next h => rw [h]; exact ⟨fun x => Bool.noConfusion x, fun ⟨_, _, _, x⟩ => by cases x⟩

/-- Outside programming no slot is COMMITTING. -/
theorem Quiet.uncommitted {s : State} (q : Quiet s) (k : SlotNum) (v : Victim) : s.slot k ≠ .committing v := by
  intro h
  obtain ⟨i, hi⟩ := q.bare.committing k v h
  have p := s.programming_iff.2 ⟨i, .map, k, hi⟩
  rw [q.programming] at p
  cases p

/-- What a take of a job of this kind leads to: the work done, or under way as its kind says. -/
def TakeOutcome.Lawful (kind : JobKind) : TakeOutcome → Prop
  | .done _ t => Quiet t
  | .started t => Bare t.migration t ∧ t.untagged ∧ t.migration.isSome = kind.migrates ∧
      t.programming = !kind.migrates ∧ t.device ≠ .loading

/-- The tables with a new context: what `Bare` says for it is what the law needs. -/
theorem startMigration_lawful {s : State} (q : Quiet s) {d : Direction} {j : JobFields} {source : Location} {kind : JobKind}
    (migrates : kind.migrates = true)
    (slots : ∀ k t, s.slot k = .free → k.val / 4 = j.row.pool → SlotPut k (.reserved j.row.victim) s t →
      ContextSlots t (.new d j.row source (.slot k) j.poisonOnBad)) :
    (startMigration d j source s).Lawful kind := by
  have choice : ∀ k, s.chooseSlot j = .ok k → s.slot k = .free ∧ k.val / 4 = j.row.pool := by
    intro k h
    unfold State.chooseSlot at h
    split at h
    · split at h
      next ok =>
        cases h
        simp only [State.explicitOk, Bool.and_eq_true, decide_eq_true_eq] at ok
        exact ⟨ok.2, ok.1⟩
      · cases h
    · split at h
      next found =>
        cases h
        exact ⟨of_decide_eq_true (List.find?_some (p := fun k => decide (s.slot k = .free)) found),
          mem_poolSlots.1 (List.mem_of_find?_eq_some found)⟩
      · cases h
  unfold startMigration
  split
  · exact q
  next k h =>
    obtain ⟨free, pool⟩ := choice k h
    rw [reserve_free _ free]
    let c : Context := .new d j.row source (.slot k) j.poisonOnBad
    let t := s.putSlot k (.reserved j.row.victim)
    have put := putSlot_put k (.reserved j.row.victim) s
    have bare : Bare (some c) t := by
      refine q.bare.put put (fun _ h => by cases h) (fun _ h => by cases h) (fun _ h => by cases h)
        (fun h => absurd h q.running) (fun i v h => ?_) (fun c' h => ?_)
      · by_cases e : k = i
        · exact ⟨c, rfl, e ▸ rfl⟩
        · exact absurd ((put.ne e).symm.trans h) (q.bare.unreserved i v)
      · cases h; exact slots k t free pool put
    refine ⟨bare.of_tables (.unread (putContext_same t (some c)) (by decide)), fun c' h => ?_, migrates.symm, ?_, q.running⟩
    · cases h; rfl
    · rw [migrates]; exact q.programming

/-- A reserve claim changes no mapping. -/
theorem reserved_mapsAt {s t : State} {k : SlotNum} {v : Victim} (free : s.slot k = .free)
    (p : SlotPut k (.reserved v) s t) (r : RowAddr) (j : SlotNum) : t.mapsAt r j = s.mapsAt r j := by
  by_cases e : k = j
  · subst e
    rw [mapsAt_unmapped p.self rfl, mapsAt_unmapped free rfl]
  · exact mapsAt_of_slot (p.ne e) r

theorem takeSpare_lawful {s : State} (q : Quiet s) (j : JobFields) {kind : JobKind} (m : kind.migrates = true) :
    (takeSpare j s).Lawful kind := by
  unfold takeSpare
  split
  · exact q
  · split
    · exact q
    next none =>
      refine startMigration_lawful q m fun k t free pool put => ?_
      refine ⟨rfl, fun n => ?_, k, rfl, put.self, pool⟩
      exact (reserved_mapsAt free put _ n).trans (mappedSlot_none.1 none n)

theorem takeRespare_lawful {s : State} (q : Quiet s) (j : JobFields) {kind : JobKind} (m : kind.migrates = true) :
    (takeRespare j s).Lawful kind := by
  unfold takeRespare
  split
  · exact q
  · split
    · exact q
    next k mapped =>
      have maps := mappedSlot_mapsAt mapped
      split
      · exact q
      · refine startMigration_lawful q m fun i t free pool put => ?_
        have ne : i ≠ k := by
          rintro rfl
          rw [mapsAt_unmapped free rfl] at maps
          cases maps
        refine ⟨k, i, rfl, rfl, ne.symm, (reserved_mapsAt free put _ k).trans maps, fun v h => ?_, put.self, pool⟩
        exact q.uncommitted k v ((put.ne ne).symm.trans h)

/-- A slot that maps a row is SOFT where it is neither HARD nor COMMITTING. -/
theorem soft_of_maps {s : State} {r : RowAddr} {k : SlotNum} (maps : s.mapsAt r k = true)
    (hard : ∀ v i, s.slot k ≠ .hard v i) (committing : ∀ v, s.slot k ≠ .committing v) : ∃ v, s.slot k = .soft v := by
  obtain ⟨v, hv, _⟩ := mapsAt_iff.1 maps
  cases h : s.slot k with
  | soft x => exact ⟨x, rfl⟩
  | committing x => exact absurd h (committing x)
  | hard x i => exact absurd h (hard x i)
  | _ => rw [h] at hv; cases hv

theorem takeUnspare_lawful {s : State} (q : Quiet s) (j : JobFields) {kind : JobKind} (m : kind.migrates = true) :
    (takeUnspare j s).Lawful kind := by
  unfold takeUnspare
  split
  · exact q
  · split
    · exact q
    next k mapped =>
      split
      · exact q
      · exact q
      next hard committing =>
        split
        · exact q
        · have maps := mappedSlot_mapsAt mapped
          obtain ⟨v, soft⟩ := soft_of_maps maps hard committing
          let c : Context := .new .revert j.row (.slot k) .row j.poisonOnBad
          have bare : Bare (some c) s := { q.bare with
            reserved := fun i v h => absurd h (q.bare.unreserved i v)
            context := fun c' h => by cases h; exact ⟨rfl, k, v, rfl, maps, soft⟩ }
          refine ⟨bare.of_tables (.unread (putContext_same s (some c)) (by decide)), fun c' h => ?_, m.symm, ?_, q.running⟩
          · cases h; rfl
          · rw [m]; exact q.programming

/-- The tables with another state of the fuse store, where no slot is COMMITTING and the load is over. -/
theorem Bare.putFuse {m : Option Context} {s : State} (b : Bare m s) (nc : ∀ k v, s.slot k ≠ .committing v)
    (d : s.device ≠ .loading) {f : FuseStore} (n : ∀ i, f.state ≠ .loading i) : Bare m { s with fuse := f } := { b with
  committing := fun k v h => absurd h (nc k v)
  loading := fun h => absurd h d
  fuseLoading := fun i h => absurd h (n i)
  context := b.context }

/-- An accepted request is under way: the fuse store programs, and a MAP's slot is COMMITTING (R130, R131). -/
theorem requestProgramming_lawful {s : State} (q : Quiet s) {r : FuseRequest} {kind : JobKind} (m : kind.migrates = false)
    (soft : r.kind = .map → s.slot r.slot = .soft r.victim) : (requestProgramming r s).Lawful kind := by
  unfold requestProgramming
  split
  · exact q
  · let i : Fin 96 := Fin.ofNat 96 s.fuse.writePos
    let f : FuseStore := { s.fuse with
      records := s.fuse.records.set i (r.bytes s.fuse.nextSeq)
      writePos := s.fuse.writePos + 1
      nextSeq := s.fuse.nextSeq + 1
      state := .programming i r.kind r.slot }
    let t : State := { s with fuse := f }
    have base : Bare none t := q.bare.putFuse q.uncommitted q.running fun n h => by cases h
    have claimed : Bare none (r.claim t) := by
      unfold FuseRequest.claim
      split
      next map =>
        have here : t.slot r.slot = .soft r.victim := soft map
        rw [beginCommit_soft here]
        have put := putSlot_put r.slot (.committing r.victim) t
        refine base.put put (fun v hv j ne => ?_) (fun v _ => ⟨i, ?_⟩) (fun _ h => by cases h)
          (fun h => absurd h q.running) (put.unreserved (fun n _ => base.unreserved n) fun v h => by cases h)
          (fun c h => by cases h)
        · cases hv
          rw [Bool.eq_false_iff]
          intro other
          exact ne (base.unique _ _ _ ((mapsAt_self here).2 ⟨_, rfl, rfl⟩) other)
        · show FuseState.programming i r.kind r.slot = _
          rw [map]
      · exact base
    have frame : SameBut [.slots] t (r.claim t) := claim_same r t
    have migration : (r.claim t).migration = none := (frame .migration (by decide)).trans q.migration
    have fuse : (r.claim t).fuse = f := frame .fuse (by decide)
    have device : (r.claim t).device = s.device := frame .device (by decide)
    show Bare (r.claim t).migration (r.claim t) ∧ (r.claim t).untagged ∧ (r.claim t).migration.isSome = kind.migrates ∧
      (r.claim t).programming = !kind.migrates ∧ (r.claim t).device ≠ .loading
    rw [m, migration, device]
    refine ⟨claimed, untagged_none migration, rfl, ?_, q.running⟩
    exact (State.programming_iff _).2 ⟨i, r.kind, r.slot, by rw [fuse]⟩

theorem takePromote_lawful {s : State} (q : Quiet s) (j : JobFields) {kind : JobKind} (m : kind.migrates = false) :
    (takePromote j s).Lawful kind := by
  unfold takePromote
  split
  · exact q
  · split
    next soft => exact requestProgramming_lawful q m fun _ => soft
    · exact q

/-- A condemned slot is RETIRED and maps nothing (R17). -/
theorem Quiet.condemn {s : State} (q : Quiet s) {k : SlotNum} (free : s.slot k = .free) : Quiet (condemn k s) := by
  rw [condemn_free free]
  have plain : ∀ v, SlotRec.retired none none ≠ .reserved v ∧ SlotRec.retired none none ≠ .committing v ∧
      SlotRec.retired none none ≠ .draining v := fun v => ⟨nofun, nofun, nofun⟩
  exact ⟨q.bare.settleSlot (putSlot_put k _ s) (.inl rfl) plain fun h => absurd h q.running, q.migration, q.programming,
    q.running⟩

theorem takeCondemn_lawful {s : State} (q : Quiet s) (j : JobFields) {kind : JobKind} (m : kind.migrates = false) :
    (takeCondemn j s).Lawful kind := by
  unfold takeCondemn
  split
  · exact q
  next k _ =>
    split
    next free =>
      split
      · exact requestProgramming_lawful (q.condemn free) m nofun
      · exact q.condemn free
    · exact q

theorem takeKind_lawful {s : State} (q : Quiet s) (j : JobFields) : (takeKind j s).Lawful j.kind := by
  unfold takeKind
  split
  next h => exact takeSpare_lawful q j (by rw [h]; rfl)
  next h => exact takeRespare_lawful q j (by rw [h]; rfl)
  next h => exact takeUnspare_lawful q j (by rw [h]; rfl)
  next h => exact takePromote_lawful q j (by rw [h]; rfl)
  next h => exact takeCondemn_lawful q j (by rw [h]; rfl)
  · unfold takePoison
    split
    · exact q
    · split
      · exact q
      · split
        · exact q.frame (addPoison_same _ _ s) (by decide)
        · exact q
  · unfold takeClearPoison
    split
    · exact q.frame (removePoison_same _ s) (by decide)
    · exact q
  · unfold takeDismiss
    split
    · exact q.frame (removeAt_same _ _ s) (by decide)
    · exact q
  · exact q

/-- A job taken by an IDLE engine is done, or the engine is BUSY with work of its kind under way (R146). -/
theorem runJob_law {s : State} (q : Quiet s) (idle : s.engine.state = .idle) (src : JobSource) (j : JobFields) :
    MappingLaw (runJob src j s) := by
  have lawful := takeKind_lawful q j
  have engine : (takeKind j s).state.engine = s.engine := takeKind_same j s .engine (by decide)
  unfold runJob
  split
  next r t e =>
    rw [e] at lawful engine
    have delivered : Quiet (deliverResult ⟨src, j.kind, j.row⟩ r t) :=
      Quiet.frame lawful (deliverResult_same _ r t) (by decide)
    refine delivered.law ?_
    have state : t.engine.state = .idle := (congrArg JobEngine.state engine).trans idle
    simp only [State.jobInFlight, deliverResult_state, state]
  next t e =>
    rw [e] at lawful
    obtain ⟨bare, untagged, migration, programming, device⟩ := lawful
    let u : State := { t with engine := { t.engine with state := .busy ⟨src, j.kind, j.row⟩ } }
    have same : SameTables t u := .unread (putEngine_same _ t) (by decide)
    refine Bare.law (s := u) (bare.of_tables same) untagged ⟨?_, ?_, fun h => absurd h device⟩
    · show t.migration.isSome = true ↔ ∃ x, EngineState.busy ⟨src, j.kind, j.row⟩ = .busy x ∧ x.kind.migrates = true
      rw [migration]
      exact ⟨fun h => ⟨_, rfl, h⟩, fun ⟨_, hx, h⟩ => by cases hx; exact h⟩
    · show t.programming = true ↔ ∃ x, some (⟨src, j.kind, j.row⟩ : Job) = some x ∧ x.kind.migrates = false
      rw [programming, Bool.not_eq_true']
      exact ⟨fun h => ⟨_, rfl, h⟩, fun ⟨_, hx, h⟩ => by cases hx; exact h⟩

/-! ### The job arbiter -/

theorem idle_job {s : State} (h : s.engine.state = .idle) : s.jobInFlight = none := by
  simp only [State.jobInFlight, h]

/-- An IDLE engine has nothing under way: the load is over (R144). -/
theorem MappingLaw.quiet_idle {s : State} (l : MappingLaw s) (idle : s.engine.state = .idle) : Quiet s := by
  refine l.quiet (idle_job idle) fun d => ?_
  have stopped := l.engine.stopped d
  rw [idle] at stopped
  cases stopped

theorem arbiterTake_law {s t : State} (l : MappingLaw s) (idle : s.engine.state = .idle) (h : arbiterTake s = some t) :
    MappingLaw t := by
  have q := l.quiet_idle idle
  have badKind (j : Job) : MappingLaw (deliverResult j .badKind s) :=
    (q.frame (deliverResult_same j .badKind s) (by decide)).law (idle_job ((deliverResult_state j _ s).trans idle))
  unfold arbiterTake at h
  split at h
  · cases h
    unfold takeUrgent
    dsimp only
    split
    · exact runJob_law q idle _ _
    · exact badKind ⟨.urgent, .marker, .zero⟩
  · split at h
    next r _ =>
      cases h
      have claim := takeClaim_same r s
      exact runJob_law (q.frame claim (by decide)) ((congrArg JobEngine.state (claim .engine (by decide))).trans idle) _ _
    · split at h
      · cases h
        unfold takeRoutine
        dsimp only
        split
        · exact runJob_law q idle _ _
        · exact badKind ⟨.routine, .marker, .zero⟩
      · cases h

theorem settleJobs_law {s : State} (l : MappingLaw s) : MappingLaw (settleJobs s) :=
  runArbiter_induction (R := fun s t => MappingLaw s → MappingLaw t) (fun _ => id)
    (fun _ _ _ idle h k l => k (arbiterTake_law l idle h)) _ s l

end Sys2Proof.Machine

/-! The law through the end of a migration, the tracker's releases and grants, the restart, the end of programming and the
load; then every event. -/

namespace Sys2Proof.Machine

/-! ### The end of a migration -/

/-- A migration's job is in flight, nothing programs and the load is over (R42, R146). -/
theorem EngineLaw.migration {s : State} (e : EngineLaw s) (m : s.migration.isSome = true) :
    s.programming = false ∧ s.device ≠ .loading := by
  obtain ⟨j, busy, migrates⟩ := e.migrating.1 m
  constructor
  · rw [Bool.eq_false_iff, ne_eq, e.fusing]
    rintro ⟨i, hi, other⟩
    rw [jobInFlight_busy busy] at hi
    cases hi
    rw [migrates] at other
    cases other
  · intro d
    rw [e.stopped d] at busy
    cases busy

/-- The job of a migration completes once the tables have let its context go. -/
theorem migration_ends {s t : State} (e : EngineLaw s) (m : s.migration.isSome = true) (b : Bare none t)
    (none : t.migration = none) (fuse : t.fuse = s.fuse) (device : t.device = s.device) (r : Result) :
    MappingLaw (completeInFlight r t) := by
  obtain ⟨programming, running⟩ := e.migration m
  refine Quiet.completed ⟨b, none, ?_, device ▸ running⟩ r
  unfold State.programming
  rw [fuse]
  exact programming

/-- A slot that is neither RESERVED nor the context's target is as the context found it. -/
theorem Bare.target {s : State} {c : Context} (b : Bare (some c) s) {k : SlotNum} {v : Victim} (h : s.slot k = .reserved v) :
    c.target = .slot k := by
  obtain ⟨_, hc, target⟩ := b.reserved k v h
  cases hc
  exact target

/-- Once a context's own target is RESERVED no more, no slot is. -/
theorem Bare.released {s t : State} {c : Context} {k : SlotNum} {r : SlotRec} (b : Bare (some c) s) (target : c.target = .slot k)
    (p : SlotPut k r s t) (new : ∀ v, r ≠ .reserved v) : ∀ j v, t.slot j = .reserved v →
      ∃ x : Context, none = some x ∧ x.target = .slot j := by
  refine p.unreserved (fun j ne v h => ?_) new
  have := target.symm.trans (b.target h)
  exact ne (Location.slot.inj this)

/-- The abort release takes the target out of RESERVED: to DRAINING where a COPY into it is held, which is QUARANTINED by
then, to FREE otherwise (R11). -/
theorem Bare.releaseTarget {s : State} {c : Context} (b : Bare (some c) s) (running : s.device ≠ .loading) :
    Bare none (releaseTarget c s) := by
  have free (k : SlotNum) (v : Victim) (target : c.target = .slot k) (reserved : s.slot k = .reserved v) :
      Bare none (abortRelease k s) := by
    cases held : s.copyHeld k with
    | true =>
      rw [abortRelease_held reserved held]
      refine b.put (putSlot_put k _ s) nofun nofun (fun w _ => ?_) (fun h => absurd h running)
        (b.released target (putSlot_put k _ s) nofun) contextSlots_none
      obtain ⟨t, h, r, a, out | quarantined, op⟩ := (copyHeld_iff s k).1 held
      · obtain ⟨_, q, l, verify⟩ := b.outstanding t h out
        rw [op] at verify
        cases verify
      · exact ⟨t, h, r, a, quarantined, op⟩
    | false =>
      rw [abortRelease_notHeld reserved held]
      exact b.put (putSlot_put k _ s) nofun nofun nofun (fun h => absurd h running)
        (b.released target (putSlot_put k _ s) nofun) contextSlots_none
  have slots := b.context c rfl
  unfold ContextSlots at slots
  cases d : c.direction with
  | forward =>
    rw [d] at slots
    obtain ⟨_, _, k, target, reserved, _⟩ := slots
    rw [releaseTarget_slot (by rw [d]; decide) target]
    exact free k _ target reserved
  | respare =>
    rw [d] at slots
    obtain ⟨_, k, _, target, _, _, _, reserved, _⟩ := slots
    rw [releaseTarget_slot (by rw [d]; decide) target]
    exact free k _ target reserved
  | revert =>
    rw [d] at slots
    obtain ⟨target, _⟩ := slots
    rw [releaseTarget_other fun _ => .inl d]
    exact { b with
      reserved := fun k v h => by rw [b.target h] at target; cases target
      context := contextSlots_none }

/-- The switch claim moves the victim to its target and retires or frees its source, in one event (R43). -/
theorem Bare.switchSlots {s : State} {c : Context} (b : Bare (some c) s) (running : s.device ≠ .loading) :
    Bare none (switchSlots c s) := by
  have slots := b.context c rfl
  unfold ContextSlots at slots
  cases d : c.direction with
  | forward =>
    rw [d] at slots
    obtain ⟨_, unmapped, t, target, reserved, pool⟩ := slots
    rw [switchSlots_forward d target reserved]
    refine b.put (putSlot_put t _ s) (fun v hv j _ => ?_) nofun nofun (fun h => absurd h running)
      (b.released target (putSlot_put t _ s) nofun) contextSlots_none
    cases hv
    rw [rowAt_victim pool]
    exact unmapped j
  | respare =>
    rw [d] at slots
    obtain ⟨k, t, source, target, ne, maps, uncommitted, reserved, pool⟩ := slots
    have retired (r : SlotRec) (plain : r.mapped = none ∧ (∀ v, r ≠ .reserved v ∧ r ≠ .committing v ∧ r ≠ .draining v))
        (u : State) (hu : u = (s.putSlot t (.soft c.victim.victim)).putSlot k r) : Bare none u := by
      have first := putSlot_put k r s
      have gone : Bare (some { c with source := .row, target := .slot t, direction := .forward }) (s.putSlot k r) := by
        refine b.put first (fun v hv => by rw [plain.1] at hv; cases hv) (fun v h => absurd h (plain.2 v).2.1)
          (fun v h => absurd h (plain.2 v).2.2) (fun h => absurd h running) (fun j v h => ?_) (fun x hx => ?_)
        · refine ⟨_, rfl, ?_⟩
          by_cases e : k = j
          · subst e; exact absurd (first.self.symm.trans h) (plain.2 v).1
          · exact target ▸ b.target ((first.ne e).symm.trans h)
        · cases hx
          refine ⟨rfl, fun j => ?_, t, rfl, (first.ne ne).trans reserved, pool⟩
          by_cases e : k = j
          · subst e; exact mapsAt_unmapped first.self plain.1 _
          · rw [mapsAt_of_slot (first.ne e), Bool.eq_false_iff]
            exact fun other => e (b.unique _ _ _ maps other)
      have second : SlotPut t (.soft c.victim.victim) (s.putSlot k r) u := by
        subst hu
        refine ⟨fun j => ?_, rfl, fun _ => rfl, rfl, rfl, rfl⟩
        simp only [slot_putSlot]
        by_cases ej : k = j
        · subst ej; rw [if_pos rfl, if_neg ne.symm, if_pos rfl]
        · simp only [if_neg ej]
      refine gone.put second (fun v hv j _ => ?_) nofun nofun (fun h => absurd h running)
        (gone.released rfl second nofun) contextSlots_none
      cases hv
      rw [rowAt_victim pool]
      exact (gone.context _ rfl).2.1 j
    obtain ⟨x, hx, _⟩ := mapsAt_iff.1 maps
    cases state : s.slot k with
    | soft y =>
      exact retired (.retired (some y) none) ⟨rfl, fun v => ⟨nofun, nofun, nofun⟩⟩ _ (switchSlots_respare_soft d source target ne reserved state)
    | hard y i =>
      exact retired (.retired (some y) (some i)) ⟨rfl, fun v => ⟨nofun, nofun, nofun⟩⟩ _ (switchSlots_respare_hard d source target ne reserved state)
    | committing y => exact absurd state (uncommitted y)
    | _ => rw [state] at hx; cases hx
  | revert =>
    rw [d] at slots
    obtain ⟨target, k, v, source, _, soft⟩ := slots
    rw [switchSlots_revert d source soft]
    refine b.put (putSlot_put k _ s) nofun nofun nofun (fun h => absurd h running) (fun j v h => ?_) contextSlots_none
    by_cases e : k = j
    · subst e
      rw [(putSlot_put k .free s).self] at h
      cases h
    · rw [b.target (((putSlot_put k .free s).ne e).symm.trans h)] at target
      cases target

theorem switch_law {s : State} {c : Context} (e : EngineLaw s) (m : s.migration.isSome = true) (b : Bare (some c) s)
    : MappingLaw (switch c s) := by
  have frame : SameBut [.query, .arrivals, .tally, .migration] (switchSlots c s) (switched c s) :=
    ((switchPoison_same c _).comp (forgetRow_same _ _) (n := [.query, .arrivals, .tally]) (by decide) (by decide)).comp
      (putContext_same _ _) (by decide) (by decide)
  have claimed := (b.switchSlots (e.migration m).2).of_tables (.unread frame (by decide))
  have all := switched_same c s
  exact migration_ends e m claimed rfl (all .fuse (by decide)) (all .device (by decide)) _

theorem abort_law {s : State} {c : Context} (e : EngineLaw s) (m : s.migration.isSome = true)
    (b : Bare (some c) (abandonCopy c s)) (st : Status) : MappingLaw (abortContext st c s) := by
  have abandoned := abandonCopy_same c s
  have released := releaseTarget_same c (abandonCopy c s)
  have running : (abandonCopy c s).device ≠ .loading := by
    rw [show (abandonCopy c s).device = s.device from abandoned .device (by decide)]
    exact (e.migration m).2
  have frame : SameBut [.tracker, .slots, .migration] s ((releaseTarget c (abandonCopy c s)).putContext none) :=
    (abandoned.comp released (n := [.tracker, .slots]) (by decide) (by decide)).comp (putContext_same _ _) (by decide)
      (by decide)
  have claimed := (b.releaseTarget running).of_tables (.unread (putContext_same _ none) (by decide))
  exact migration_ends e m claimed rfl (frame .fuse (by decide)) (frame .device (by decide)) _

/-! ### The copy tag leaves its context -/

/-- The copy tag of a context has left OUTSTANDING: the tables know the context no more by its tag. -/
theorem MappingLaw.detach {s t : State} {c : Context} {n : TagNum} {x : Tag} (l : MappingLaw s) (m : s.migration = some c)
    (tagged : c.copyTag = some n) (frame : SameBut [.tracker] s t) (tag : ∀ i, t.tag i = if n = i then x else s.tag i)
    (left : ∀ h, x ≠ .outstanding h) : Bare (some c) t := by
  obtain ⟨h, out, _⟩ := l.copyTag c n m tagged
  have slot : ∀ k, t.slot k = s.slot k := slot_of_slots (frame .slots (by decide))
  have fuse : t.fuse = s.fuse := frame .fuse (by decide)
  have device : t.device = s.device := frame .device (by decide)
  have link : t.link = s.link := frame .link (by decide)
  exact {
    unique := fun r k j => by simp only [mapsAt_of_slot (slot _)]; exact l.unique r k j
    committing := by simp only [slot, fuse]; exact l.committing
    draining := fun k v hk => by
      rw [slot] at hk
      obtain ⟨i, g, r, a, quarantined, op⟩ := l.draining k v hk
      refine ⟨i, g, r, a, ?_, op⟩
      rw [tag, if_neg]
      · exact quarantined
      · rintro rfl
        rw [out] at quarantined
        cases quarantined
    down := fun d i => by
      rw [link] at d
      rw [l.down d n] at out
      cases out
    loading := by simp only [device, fuse, slot]; exact fun d => (l.loading d).2
    fuseLoading := by simp only [device, fuse]; exact l.fuseLoading
    held := by rw [device, show t.resetLow = s.resetLow from frame .resetLow (by decide)]; exact l.held
    reserved := by simp only [slot, ← m]; exact l.reserved
    context := fun c' hc => by rw [contextSlots_of_slots slot]; exact l.context c' (m.trans hc)
    outstanding := fun i g hi => by
      rw [tag] at hi
      split at hi
      · exact absurd hi (left g)
      next ne =>
        rcases l.outstanding i g hi with ⟨_, c', hc, tagged', _⟩ | scrub
        · rw [m] at hc
          cases hc
          rw [tagged] at tagged'
          exact absurd (Option.some.inj tagged') ne
        · exact scrub }

/-- A context that differs in nothing the slots are judged by. -/
theorem Bare.congr {s : State} {c d : Context} (b : Bare (some c) s) (direction : d.direction = c.direction)
    (victim : d.victim = c.victim) (source : d.source = c.source) (target : d.target = c.target) : Bare (some d) s := { b with
  reserved := fun k v h => ⟨d, rfl, target.trans (b.target h)⟩
  context := fun x hx => by
    cases hx
    have slots := b.context c rfl
    unfold ContextSlots at slots ⊢
    rw [direction, victim, source, target]
    exact slots }

/-- The abort of the migration in flight, its copy abandoned (R58, R83). -/
theorem abortMigration_law {s : State} (l : MappingLaw s) (st : Status) : MappingLaw (abortMigration st s) := by
  unfold abortMigration
  split
  next c m =>
    refine abort_law l.engine (by rw [m]; rfl) ?_ st
    cases tagged : c.copyTag with
    | none =>
      have untagged : s.untagged := fun c' hc => by rw [m] at hc; cases hc; exact tagged
      have bare := l.bare untagged
      rw [m] at bare
      unfold abandonCopy
      rw [tagged]
      exact bare
    | some n =>
      obtain ⟨h, out, _⟩ := l.copyTag c n m tagged
      refine l.detach (x := (s.tag n).abandoned s.opTimer) m tagged (abandonCopy_same c s) (fun i => ?_) fun g hg => ?_
      · rw [abandonCopy_tag, tagged]
        by_cases e : n = i
        · rw [if_pos (congrArg some e), if_pos e, e]
        · rw [if_neg fun x => e (Option.some.inj x), if_neg e]
      · rw [out] at hg; cases hg
  · exact l

theorem abortMigration_migration (st : Status) (s : State) : (abortMigration st s).migration = none := by
  unfold abortMigration
  split
  · exact completeInFlight_same _ _ .migration (by decide)
  · assumption

/-! ### The completion of a pass -/

theorem passCarried_law {s : State} {c : Context} (e : EngineLaw s) (m : s.migration.isSome = true) (b : Bare (some c) s)
    (bad : Bool) : MappingLaw (passCarried bad c s) := by
  have next (d : Context) (tag : d.copyTag = none) (bare : Bare (some d) s) : MappingLaw (s.putContext (some d)) := by
    have tables : SameTables s (s.putContext (some d)) := .unread (putContext_same s _) (by decide)
    refine Bare.law (bare.of_tables tables) (fun x hx => by cases hx; exact tag) (e.of_same ⟨m.symm, rfl, rfl, rfl⟩)
  have switches : MappingLaw (switch { c with copyTag := none, badCopy := bad } s) :=
    switch_law e m (b.congr rfl rfl rfl rfl)
  unfold passCarried
  dsimp only
  split
  · exact switches
  · split
    · split
      · exact next _ rfl (b.congr rfl rfl rfl rfl)
      · exact next _ rfl (b.congr rfl rfl rfl rfl)
    · exact switches

theorem passCompleted_law {s : State} {c : Context} (e : EngineLaw s) (m : s.migration.isSome = true) (b : Bare (some c) s)
    (r : BitVec 4) : MappingLaw (passCompleted r c s) := by
  unfold passCompleted
  split
  · exact passCarried_law e m b _
  · exact passCarried_law e m b _
  · exact abort_law e m (b.congr (d := { c with copyTag := none }) rfl rfl rfl rfl) _

/-! ### Grants -/

/-- A FREE tag becomes OUTSTANDING, on an UP link, with an operation that the law allows (R73). -/
theorem MappingLaw.granted {s t : State} {n : TagNum} {g : HeldOp} (l : MappingLaw s) (free : s.tag n = .free)
    (up : s.link.up = true) (frame : SameBut [.tracker, .link, .migration] s t) (link : t.link.up = s.link.up)
    (tag : ∀ i, t.tag i = if n = i then .outstanding g else s.tag i)
    (context : ∀ c, t.migration = some c → ∃ d, s.migration = some d ∧ c.direction = d.direction ∧ c.victim = d.victim ∧
      c.source = d.source ∧ c.target = d.target ∧
      (c.copyTag = d.copyTag ∨ (d.copyTag = none ∧ c.copyTag = some n ∧ g.owner = .migration)))
    (kept : ∀ d, s.migration = some d → ∃ c, t.migration = some c ∧ c.target = d.target ∧ c.op = d.op ∧
      (d.copyTag = none ∨ c.copyTag = d.copyTag))
    (allowed : (g.owner = .migration ∧ ∃ c, t.migration = some c ∧ c.copyTag = some n ∧ g.op = c.op) ∨
      (g.owner = .scrub ∧ ∃ r a, g.op = .verify r a)) : MappingLaw t := by
  have slot : ∀ k, t.slot k = s.slot k := slot_of_slots (frame .slots (by decide))
  have fuse : t.fuse = s.fuse := frame .fuse (by decide)
  have device : t.device = s.device := frame .device (by decide)
  have engineSame : t.engine = s.engine := frame .engine (by decide)
  have some_iff : t.migration.isSome = s.migration.isSome := by
    rw [Bool.eq_iff_iff, Option.isSome_iff_exists, Option.isSome_iff_exists]
    exact ⟨fun ⟨c, hc⟩ => let ⟨d, hd, _⟩ := context c hc; ⟨d, hd⟩, fun ⟨d, hd⟩ => let ⟨c, hc, _⟩ := kept d hd; ⟨c, hc⟩⟩
  have engine : EngineLaw t := l.engine.of_same ⟨some_iff, by rw [engineSame], by rw [fuse], device⟩
  have other {i : TagNum} (h : s.tag i ≠ .free) : t.tag i = s.tag i := by
    rw [tag, if_neg]
    rintro rfl
    exact h free
  exact {
    unique := fun r k j => by simp only [mapsAt_of_slot (slot _)]; exact l.unique r k j
    reserved := fun k v hk => by
      obtain ⟨d, hd, target⟩ := l.reserved k v ((slot k).symm.trans hk)
      obtain ⟨c, hc, same, _⟩ := kept d hd
      exact ⟨c, hc, same.trans target⟩
    context := fun c hc => by
      obtain ⟨d, hd, direction, victim, source, target, _⟩ := context c hc
      have slots := l.context d hd
      rw [contextSlots_of_slots slot]
      unfold ContextSlots at slots ⊢
      rw [direction, victim, source, target]
      exact slots
    migrating := engine.migrating
    fusing := engine.fusing
    committing := by simp only [slot, fuse]; exact l.committing
    draining := fun k v hk => by
      obtain ⟨i, h, r, a, quarantined, op⟩ := l.draining k v ((slot k).symm.trans hk)
      exact ⟨i, h, r, a, (other (by rw [quarantined]; nofun)).trans quarantined, op⟩
    outstanding := fun i h hi => by
      rw [tag] at hi
      split at hi
      next e =>
        subst e
        cases hi
        exact allowed
      · rcases l.outstanding i h hi with ⟨owner, d, hd, tagged, op⟩ | scrub
        · obtain ⟨c, hc, _, same, copy⟩ := kept d hd
          refine .inl ⟨owner, c, hc, ?_, op.trans same.symm⟩
          rcases copy with none | copy
          · rw [none] at tagged; cases tagged
          · exact copy.trans tagged
        · exact .inr scrub
    copyTag := fun c i hc tagged => by
      obtain ⟨d, hd, _, _, _, _, copy | ⟨_, mine, owner⟩⟩ := context c hc
      · obtain ⟨h, out, owner⟩ := l.copyTag d i hd (copy.symm.trans tagged)
        exact ⟨h, (other (by rw [out]; nofun)).trans out, owner⟩
      · rw [mine] at tagged
        cases tagged
        exact ⟨g, (tag n).trans (if_pos rfl), owner⟩
    down := fun d => by rw [link, up] at d; cases d
    loading := by simp only [device, fuse, slot, engineSame]; exact l.loading
    fuseLoading := by simp only [device, fuse]; exact l.fuseLoading
    held := by rw [device, show t.resetLow = s.resetLow from frame .resetLow (by decide)]; exact l.held }

theorem freeTag_free {s : State} {n : TagNum} (h : s.freeTag = some n) : s.tag n = .free :=
  of_decide_eq_true (List.find?_some (p := fun t => decide (s.tag t = .free)) h)

theorem serveMigration_law {s : State} (l : MappingLaw s) (up : s.link.up = true) : MappingLaw (serveMigration s) := by
  unfold serveMigration
  split
  · exact l
  next d hd =>
    split
    next untagged =>
      split
      next n free =>
        refine l.granted (n := n) (g := ⟨.migration, d.op, 0, s.opTimer⟩) (freeTag_free free) up (grantMigration_same n d s)
          rfl (fun i => tag_putTag s n i _) (fun c hc => ?_) (fun d' hd' => ?_) (.inl ⟨rfl, _, rfl, rfl, rfl⟩)
        · cases hc; exact ⟨d, hd, rfl, rfl, rfl, rfl, .inr ⟨untagged, rfl, rfl⟩⟩
        · rw [hd] at hd'; cases hd'; exact ⟨_, rfl, rfl, rfl, .inl untagged⟩
      · exact l
    · exact l

theorem opportunity_law {s : State} {n : TagNum} (l : MappingLaw s) (up : s.link.up = true) (free : s.tag n = .free) :
    MappingLaw (opportunity n s) := by
  have issued : MappingLaw (if s.skips s.scrub.position then s
      else grant n .scrub (.verify s.scrub.position (s.verifyLocation s.scrub.position)) s) := by
    split
    · exact l
    · refine l.granted (n := n) (g := ⟨.scrub, .verify s.scrub.position (s.verifyLocation s.scrub.position), 0, s.opTimer⟩)
        free up ((grant_same _ _ _ s).mono (by decide)) rfl (fun i => tag_putTag s n i _) (fun c hc => ?_) (fun d hd => ?_)
        (.inr ⟨rfl, _, _, rfl⟩)
      · exact ⟨c, hc, rfl, rfl, rfl, rfl, .inl rfl⟩
      · exact ⟨d, hd, rfl, rfl, .inr rfl⟩
  exact (issued.frame (advance_same _) (by decide)).frame (putScrub_same _ _) (by decide)

theorem settleTags_law {s : State} (l : MappingLaw s) : MappingLaw (settleTags s) := by
  unfold settleTags
  split
  next up =>
    have served := serveMigration_law l up
    unfold serveScrub
    split
    · split
      next n free =>
        refine opportunity_law served ?_ (freeTag_free free)
        unfold serveMigration
        split
        · exact up
        · split
          · split
            · exact up
            · exact up
          · exact up
      · exact served
    · exact served
  · exact l

theorem settleReports_law {s : State} (l : MappingLaw s) : MappingLaw (settleReports s) :=
  l.frame (settleReports_same s) (by decide)

theorem settleOps_law {s : State} (l : MappingLaw s) : MappingLaw (settleOps s) := settleReports_law (settleTags_law l)

theorem settle_law {s : State} (l : MappingLaw s) : MappingLaw (settle s) := settleOps_law (settleJobs_law l)

end Sys2Proof.Machine

/-! The law through the restart, the end of programming, the tracker's releases, a link-down and the load; then every
event. -/

namespace Sys2Proof.Machine

/-! ### The engine restart (R152) -/

theorem abandonAll_outstanding {s : State} (t : TagNum) (h : HeldOp) : (abandonAll s).tag t ≠ .outstanding h := by
  rw [abandonAll_tag]
  cases s.tag t <;> nofun

/-- Where no context holds a tag, every operation may be abandoned (R87). -/
theorem Bare.abandonAll {s : State} (b : Bare none s) : Bare none (abandonAll s) := by
  have frame := abandonAll_same s
  have slot : ∀ k, (Machine.abandonAll s).slot k = s.slot k := slot_of_slots (frame .slots (by decide))
  have fuse : (Machine.abandonAll s).fuse = s.fuse := frame .fuse (by decide)
  have device : (Machine.abandonAll s).device = s.device := frame .device (by decide)
  have low : (Machine.abandonAll s).resetLow = s.resetLow := frame .resetLow (by decide)
  exact {
    unique := fun r k j => by simp only [mapsAt_of_slot (slot _)]; exact b.unique r k j
    committing := by simp only [slot, fuse]; exact b.committing
    draining := fun k v hk => by
      obtain ⟨t, h, r, a, quarantined, op⟩ := b.draining k v ((slot k).symm.trans hk)
      exact ⟨t, h, r, a, by rw [abandonAll_tag, quarantined]; rfl, op⟩
    down := fun d t => by
      have free := b.down ((congrArg ArrayLink.up (frame .link (by decide))).symm.trans d) t
      rw [abandonAll_tag, free]
      rfl
    loading := by simp only [device, fuse, slot]; exact b.loading
    fuseLoading := by simp only [device, fuse]; exact b.fuseLoading
    held := by rw [device, low]; exact b.held
    reserved := fun k v hk => absurd ((slot k).symm.trans hk) (b.unreserved k v)
    context := contextSlots_none
    outstanding := fun t h ht => absurd ht (abandonAll_outstanding t h) }

/-- The engine set anew agrees with a block in which nothing is under way (R152 step 7). -/
theorem engineLaw_restarted {s : State} (m : s.migration = none) (p : s.programming = false) :
    EngineLaw (restartEngine s) := by
  have state : (restartEngine s).engine.state = .idle ∧ s.device = .running ∨ (restartEngine s).engine.state = .stopped := by
    show (if s.config.engineEnable = true ∧ s.device = .running then EngineState.idle else .stopped) = .idle ∧ _ ∨
      (if s.config.engineEnable = true ∧ s.device = .running then EngineState.idle else .stopped) = .stopped
    split
    next h => exact .inl ⟨rfl, h.2⟩
    · exact .inr rfl
  refine engineLaw_free m p (fun d => ?_) ?_
  · rcases state with ⟨_, running⟩ | e
    · rw [show s.device = .loading from d] at running
      cases running
    · exact e
  · unfold State.jobInFlight
    rcases state with ⟨e, _⟩ | e <;> rw [e]

theorem programming_of_fuse {s t : State} (h : t.fuse = s.fuse) : t.programming = s.programming := by
  unfold State.programming
  rw [h]

/-- A restart before it sets the engine anew: every handed-over job ended, every operation abandoned, the scrubber at its
start, the report produced (R152 steps 2 to 6). -/
def restartCleared (src : Option JobSource) (n : Nat) (s : State) : State :=
  produce .jobEngine (.restartDone n src) (restartScrub (abandonAll (raiseIfAny n (zeroPositions (restartDescs s)))))

theorem restartBody_eq (src : Option JobSource) (n : Nat) (s : State) :
    restartBody src n s = restartEngine (restartCleared src n s) := rfl

theorem restartJobs_same (n : Nat) (s : State) : SameBut [.engine, .port] s (raiseIfAny n (zeroPositions (restartDescs s))) :=
  ((restartDescs_same s).trans (zeroPositions_same _)).comp (raiseIfAny_same n _) (by decide) (by decide)

theorem restartReport_same (src : Option JobSource) (n : Nat) (s : State) :
    SameBut [.scrub, .arrivals] s (produce .jobEngine (.restartDone n src) (restartScrub s)) :=
  (restartScrub_same s).comp (produce_same _ _ _) (by decide) (by decide)

theorem restartCleared_same (src : Option JobSource) (n : Nat) (s : State) :
    SameBut [.engine, .port, .tracker, .scrub, .arrivals] s (restartCleared src n s) :=
  ((restartJobs_same n s).comp (abandonAll_same _) (n := [.engine, .port, .tracker]) (by decide) (by decide)).comp
    (restartReport_same src n _) (by decide) (by decide)

theorem Bare.restartCleared {s : State} (b : Bare none s) (src : Option JobSource) (n : Nat) :
    Bare none (restartCleared src n s) := by
  have abandoned := (b.of_tables (.unread (restartJobs_same n s) (by decide))).abandonAll
  exact abandoned.of_tables (.unread (restartReport_same src n _) (by decide))

/-- While nothing programs, no work is under way once the migration is aborted: the restart may set the engine anew. -/
theorem restartBody_law {s : State} (l : MappingLaw s) (m : s.migration = none) (p : s.programming = false)
    (src : Option JobSource) (n : Nat) : MappingLaw (restartBody src n s) := by
  rw [restartBody_eq]
  have frame := restartCleared_same src n s
  have bare : Bare none s := m ▸ l.bare (untagged_none m)
  have migration : (restartCleared src n s).migration = none := (frame .migration (by decide)).trans m
  have programming : (restartCleared src n s).programming = false :=
    (programming_of_fuse (frame .fuse (by decide))).trans p
  have engine := restartEngine_same (restartCleared src n s)
  have last := (bare.restartCleared src n).of_tables (.unread engine (by decide))
  have context : (restartEngine (restartCleared src n s)).migration = none :=
    (engine .migration (by decide)).trans migration
  refine Bare.law ?_ (untagged_none context) (engineLaw_restarted migration programming)
  rw [context]
  exact last

theorem runRestart_law {s : State} (l : MappingLaw s) (p : s.programming = false) : MappingLaw (runRestart s) := by
  have fuse : (abortMigration .restarted s).fuse = s.fuse := abortMigration_same .restarted s .fuse (by decide)
  exact restartBody_law (abortMigration_law l .restarted) (abortMigration_migration .restarted s)
    ((programming_of_fuse fuse).trans p) _ _

/-! ### The end of programming (R132, R133) -/

/-- While a record is in programming no migration runs, and the load is over. -/
theorem MappingLaw.programming {s : State} (l : MappingLaw s) (p : s.programming = true) :
    s.migration = none ∧ s.device ≠ .loading ∧ Bare none s := by
  have m : s.migration = none := by
    rw [← Option.not_isSome_iff_eq_none]
    intro x
    rw [(l.engine.migration x).1] at p
    cases p
  refine ⟨m, fun d => ?_, m ▸ l.bare (untagged_none m)⟩
  obtain ⟨i, kind, k, h⟩ := s.programming_iff.1 p
  obtain ⟨n, loading⟩ := (l.loading d).2.1
  rw [h] at loading
  cases loading

theorem commitGood_other {s : State} {k : SlotNum} {i : Fin 96} (h : ∀ v, s.slot k ≠ .committing v) :
    commitGood k i s = s := by
  unfold commitGood
  split
  next v hv => exact absurd hv (h v)
  · rfl

theorem commitBad_other {s : State} {k : SlotNum} (h : ∀ v, s.slot k ≠ .committing v) : commitBad k s = s := by
  unfold commitBad
  split
  next v hv => exact absurd hv (h v)
  · rfl

theorem condemnFused_other {s : State} {k : SlotNum} {i : Fin 96} (h : ∀ v f, s.slot k ≠ .retired v f) :
    condemnFused k i s = s := by
  unfold condemnFused
  split
  next v f hv => exact absurd hv (h v f)
  · rfl

/-- The claim of a COMMITTING slot's outcome leaves the slot HARD or SOFT with its victim (R15, R16). -/
theorem Bare.committed {s t : State} {k : SlotNum} {v : Victim} {r : SlotRec} (b : Bare none s) (running : s.device ≠ .loading)
    (here : s.slot k = .committing v) (maps : r.mapped = some v) (new : ∀ w, r ≠ .committing w)
    (put : SlotPut k r s t) : Bare none t ∧ ∀ w, t.slot k ≠ .committing w := by
  refine ⟨b.settleSlot put (.inr ?_) (fun w => ⟨?_, new w, ?_⟩) (fun h => absurd h running), fun w => ?_⟩
  · rw [maps, here]; rfl
  · rintro rfl; cases maps
  · rintro rfl; cases maps
  · rw [put.self]; exact new w

/-- The claim at the end of programming ends the commit of the record's slot; no other slot is COMMITTING. -/
theorem programmingClaim_bare {s : State} (b : Bare none s) (running : s.device ≠ .loading) {kind : RecordKind} {k : SlotNum}
    {i : Fin 96} (h : s.fuse.state = .programming i kind k) (good : Bool) :
    Bare none (programmingClaim kind good k i s) ∧ ∀ j w, (programmingClaim kind good k i s).slot j ≠ .committing w := by
  have others (j : SlotNum) (w : Victim) (hj : s.slot j = .committing w) : kind = .map ∧ j = k := by
    obtain ⟨_, h'⟩ := b.committing j w hj
    rw [h] at h'
    cases h'
    exact ⟨rfl, rfl⟩
  have elsewhere {r : SlotRec} {t : State} (put : SlotPut k r s t) (self : ∀ w, t.slot k ≠ .committing w) (j : SlotNum)
      (w : Victim) : t.slot j ≠ .committing w := by
    intro hj
    by_cases e : k = j
    · subst e; exact self w hj
    · exact e (others j w ((put.ne e).symm.trans hj)).2.symm
  have untouched (t : State) (same : t = s) (self : ∀ w, kind = .map → s.slot k ≠ .committing w) :
      Bare none t ∧ ∀ j w, t.slot j ≠ .committing w := by
    subst same
    refine ⟨b, fun j w hj => ?_⟩
    obtain ⟨map, e⟩ := others j w hj
    exact self w map (e ▸ hj)
  cases kind with
  | map =>
    by_cases here : ∃ v, s.slot k = .committing v
    · obtain ⟨v, here⟩ := here
      cases good with
      | true =>
        rw [show programmingClaim .map true k i s = s.putSlot k (.hard v i) from commitGood_committing i here]
        obtain ⟨bare, self⟩ := b.committed running here (r := .hard v i) rfl nofun (putSlot_put k _ s)
        exact ⟨bare, elsewhere (putSlot_put k _ s) self⟩
      | false =>
        rw [show programmingClaim .map false k i s = s.putSlot k (.soft v) from commitBad_committing here]
        obtain ⟨bare, self⟩ := b.committed running here (r := .soft v) rfl nofun (putSlot_put k _ s)
        exact ⟨bare, elsewhere (putSlot_put k _ s) self⟩
    · have ne : ∀ w, s.slot k ≠ .committing w := fun w hw => here ⟨w, hw⟩
      refine untouched _ ?_ fun w _ => ne w
      cases good with
      | true => exact commitGood_other ne
      | false => exact commitBad_other ne
  | condemn =>
    have none : ∀ w, RecordKind.condemn = .map → s.slot k ≠ .committing w := nofun
    cases good with
    | true =>
      by_cases here : ∃ v f, s.slot k = .retired v f
      · obtain ⟨v, f, here⟩ := here
        rw [show programmingClaim .condemn true k i s = s.putSlot k (.retired v (some i)) from condemnFused_retired i here]
        have put := putSlot_put k (.retired v (some i)) s
        refine ⟨b.settleSlot put (.inl rfl) (fun w => ⟨nofun, nofun, nofun⟩) (fun h => absurd h running), ?_⟩
        exact elsewhere put fun w hw => by rw [put.self] at hw; cases hw
      · exact untouched _ (condemnFused_other fun v f hf => here ⟨v, f, hf⟩) none
    | false => exact untouched _ rfl none

theorem endProgramming_law {s : State} (q : Quiet s) (r : Result) : MappingLaw (endProgramming r s) := by
  have completed := q.completed r
  unfold endProgramming
  dsimp only
  split
  · exact runRestart_law completed (q.complete r).programming
  · exact completed

/-- Programming ends: the claim made and the fuse store IDLE, nothing is under way but the job that completes. -/
theorem Bare.programmed {s : State} (b : Bare none s) (m : s.migration = none) (running : s.device ≠ .loading)
    (nc : ∀ j w, s.slot j ≠ .committing w) : Quiet (fuseIdle s) :=
  ⟨b.putFuse nc running nofun, m, rfl, running⟩

theorem takeCompletion_law {s : State} (l : MappingLaw s) (r : Option (BitVec 64)) : MappingLaw (takeCompletion r s) := by
  unfold takeCompletion
  split
  next i kind k h =>
    obtain ⟨m, running, bare⟩ := l.programming (s.programming_iff.2 ⟨i, kind, k, h⟩)
    let t := s.putRecord i (s.readBack i r)
    have tables : SameTables s t := .of_block (putRecord_same s i _) (by rfl) (by decide)
    obtain ⟨claimed, nc⟩ := programmingClaim_bare (s := t) (bare.of_tables tables) running h (s.readBack i r).checkGood
    have frame := programmingClaim_same kind (s.readBack i r).checkGood k i t
    have migration : (programmingClaim kind (s.readBack i r).checkGood k i t).migration = none :=
      (frame .migration (by decide)).trans m
    refine settle_law (endProgramming_law (claimed.programmed migration ?_ nc) _)
    rw [show (programmingClaim kind (s.readBack i r).checkGood k i t).device = s.device from frame .device (by decide)]
    exact running
  · exact l
  · exact l

theorem takeSupplyFall_law {s : State} (l : MappingLaw s) : MappingLaw (takeSupplyFall s) := by
  have fallen : MappingLaw (putSupply false s) := l.frame (putSupply_same false s) (by decide)
  unfold takeSupplyFall
  split
  next i kind k h =>
    obtain ⟨m, running, bare⟩ := fallen.programming ((putSupply false s).programming_iff.2 ⟨i, kind, k, h⟩)
    have same : supplyFallClaim kind k (putSupply false s) = programmingClaim kind false k i (putSupply false s) := by
      cases kind <;> rfl
    obtain ⟨claimed, nc⟩ := programmingClaim_bare bare running h false
    have frame := programmingClaim_same kind false k i (putSupply false s)
    have migration : (programmingClaim kind false k i (putSupply false s)).migration = none :=
      (frame .migration (by decide)).trans m
    rw [same]
    refine settle_law (endProgramming_law (claimed.programmed migration ?_ nc) _)
    rw [show (programmingClaim kind false k i (putSupply false s)).device = s.device from frame .device (by decide)]
    exact running
  · exact fallen
  · exact fallen

/-! ### Releases (R85, R86) -/

/-- Slots of `s` may have been drained: DRAINING to FREE, and nothing else. -/
def Drained (s t : State) : Prop := ∀ k, t.slot k = s.slot k ∨ (∃ v, s.slot k = .draining v) ∧ t.slot k = .free

theorem Drained.refl (s : State) : Drained s s := fun _ => .inl rfl

theorem Drained.trans {s t u : State} (h : Drained s t) (k : Drained t u) : Drained s u := by
  intro n
  rcases k n with same | ⟨⟨v, d⟩, free⟩
  · rcases h n with e | ⟨d, f⟩
    · exact .inl (same.trans e)
    · exact .inr ⟨d, same.trans f⟩
  · rcases h n with e | ⟨_, f⟩
    · exact .inr ⟨⟨v, e.symm.trans d⟩, free⟩
    · rw [f] at d; cases d

theorem Drained.mapsAt {s t : State} (h : Drained s t) (r : RowAddr) (k : SlotNum) : t.mapsAt r k = s.mapsAt r k := by
  rcases h k with same | ⟨⟨v, draining⟩, free⟩
  · exact mapsAt_of_slot same r
  · rw [mapsAt_unmapped free rfl, mapsAt_unmapped draining rfl]

/-- A slot in any state but FREE has it from before. -/
theorem Drained.back {s t : State} (h : Drained s t) {k : SlotNum} {r : SlotRec} (ht : t.slot k = r) (ne : r ≠ .free) :
    s.slot k = r := by
  rcases h k with same | ⟨_, free⟩
  · exact same.symm.trans ht
  · exact absurd (ht.symm.trans free) ne

theorem Drained.on {s t : State} (h : Drained s t) {k : SlotNum} {r : SlotRec} (hs : s.slot k = r)
    (ne : ∀ v, r ≠ .draining v) : t.slot k = r := by
  rcases h k with same | ⟨⟨v, draining⟩, _⟩
  · exact same.trans hs
  · exact absurd (hs.symm.trans draining) (ne v)

theorem Drained.context {s t : State} (h : Drained s t) {c : Context} (l : ContextSlots s c) : ContextSlots t c := by
  unfold ContextSlots at l ⊢
  cases d : c.direction with
  | forward =>
    rw [d] at l
    obtain ⟨source, unmapped, k, target, reserved, pool⟩ := l
    exact ⟨source, fun j => (h.mapsAt _ j).trans (unmapped j), k, target, h.on reserved nofun, pool⟩
  | respare =>
    rw [d] at l
    obtain ⟨k, t, source, target, ne, maps, uncommitted, reserved, pool⟩ := l
    exact ⟨k, t, source, target, ne, (h.mapsAt _ k).trans maps, fun v hv => uncommitted v (h.back hv nofun),
      h.on reserved nofun, pool⟩
  | revert =>
    rw [d] at l
    obtain ⟨target, k, v, source, maps, soft⟩ := l
    exact ⟨target, k, v, source, (h.mapsAt _ k).trans maps, h.on soft nofun⟩

theorem drainRelease_drained (k : SlotNum) (s : State) : Drained s (drainRelease k s) := by
  by_cases here : ∃ v, s.slot k = .draining v
  · obtain ⟨v, here⟩ := here
    rw [drainRelease_draining here]
    intro j
    rw [slot_putSlot]
    split
    next e => subst e; exact .inr ⟨⟨v, here⟩, rfl⟩
    · exact .inl rfl
  · rw [drainRelease_other fun v hv => here ⟨v, hv⟩]
    exact .refl s

theorem drainRelease_here (k : SlotNum) (s : State) (v : Victim) : (drainRelease k s).slot k ≠ .draining v := by
  by_cases here : ∃ v, s.slot k = .draining v
  · obtain ⟨w, here⟩ := here
    rw [drainRelease_draining here, slot_putSlot, if_pos rfl]
    nofun
  · rw [drainRelease_other fun w hw => here ⟨w, hw⟩]
    exact fun hv => here ⟨v, hv⟩

theorem drainFor_drained (op : Op) (s : State) : Drained s (drainFor op s) := by
  unfold drainFor
  split
  · exact drainRelease_drained _ s
  · exact .refl s
  · exact .refl s

theorem release_drained (t : TagNum) (h : HeldOp) (s : State) : Drained s (release t h s) := by
  intro k
  exact drainFor_drained h.op (s.putTag t .free) k

/-- The slot that the released operation's COPY went into is DRAINING no more (R85). -/
theorem release_here {t : TagNum} {h : HeldOp} {r : RowAddr} {a : Location} {k : SlotNum} (op : h.op = .copy r a (.slot k))
    (s : State) (v : Victim) : (release t h s).slot k ≠ .draining v := by
  unfold release drainFor
  rw [op]
  exact drainRelease_here k _ v

theorem release_tag (t i : TagNum) (h : HeldOp) (s : State) : (release t h s).tag i = if t = i then .free else s.tag i := by
  rw [← tag_putTag s t i .free]
  exact congrArg (fun x : Tracker => x.tags.get i) (drainFor_same h.op (s.putTag t .free) .tracker (by decide))

/-- The release of a QUARANTINED tag keeps the law: a slot it leaves DRAINING has another tag's COPY to wait for. -/
theorem release_law {s : State} (l : MappingLaw s) {t : TagNum} {h : HeldOp} (quarantined : s.tag t = .quarantined h) :
    MappingLaw (release t h s) := by
  have frame := release_same t h s
  have drained := release_drained t h s
  have fuse : (release t h s).fuse = s.fuse := frame .fuse (by decide)
  have device : (release t h s).device = s.device := frame .device (by decide)
  have engineSame : (release t h s).engine = s.engine := frame .engine (by decide)
  have migration : (release t h s).migration = s.migration := frame .migration (by decide)
  have link : (release t h s).link = s.link := frame .link (by decide)
  have engine : EngineLaw (release t h s) :=
    l.engine.of_same ⟨by rw [migration], by rw [engineSame], by rw [fuse], device⟩
  have outstanding {i : TagNum} {g : HeldOp} : (release t h s).tag i = .outstanding g ↔ s.tag i = .outstanding g := by
    rw [release_tag]
    split
    next e => subst e; rw [quarantined]; exact ⟨nofun, nofun⟩
    · rfl
  exact {
    unique := fun r k j => by simp only [drained.mapsAt]; exact l.unique r k j
    reserved := fun k v hk => by rw [migration]; exact l.reserved k v (drained.back hk nofun)
    context := fun c hc => drained.context (l.context c (migration ▸ hc))
    migrating := engine.migrating
    fusing := engine.fusing
    committing := fun k v hk => by rw [fuse]; exact l.committing k v (drained.back hk nofun)
    draining := fun k v hk => by
      obtain ⟨i, g, r, a, hi, op⟩ := l.draining k v (drained.back hk nofun)
      refine ⟨i, g, r, a, ?_, op⟩
      rw [release_tag, if_neg]
      · exact hi
      · rintro rfl
        rw [quarantined] at hi
        cases hi
        exact release_here op s v hk
    outstanding := fun i g hi => by rw [migration]; exact l.outstanding i g (outstanding.1 hi)
    copyTag := fun c i hc tagged => by
      obtain ⟨g, out, owner⟩ := l.copyTag c i (migration ▸ hc) tagged
      exact ⟨g, outstanding.2 out, owner⟩
    down := fun d i => by
      rw [release_tag]
      split
      · rfl
      · exact l.down (link ▸ d) i
    loading := fun d => by
      obtain ⟨stopped, loading, slots⟩ := l.loading (device ▸ d)
      rw [engineSame, fuse]
      refine ⟨stopped, loading, fun k => ?_⟩
      rcases drained k with same | ⟨_, free⟩
      · rw [same]; exact slots k
      · exact .inl free
    fuseLoading := by simp only [device, fuse]; exact l.fuseLoading
    held := by rw [device, show (release t h s).resetLow = s.resetLow from frame .resetLow (by decide)]; exact l.held }

/-! ### A link-down -/

theorem linkDownTag_drained (t : TagNum) (s : State) : Drained s (linkDownTag t s) := by
  unfold linkDownTag
  split
  · exact .refl s
  · exact fun _ => .inl rfl
  · exact release_drained t _ s

theorem linkDownTag_tag (t i : TagNum) (s : State) : (linkDownTag t s).tag i = if t = i then .free else s.tag i := by
  unfold linkDownTag
  split
  next free =>
    split
    next e => exact e ▸ free
    · rfl
  · exact tag_putTag s t i _
  · exact release_tag t i _ s

/-- Every slot that a QUARANTINED tag's COPY went into is drained (R86). -/
theorem linkDownTag_here {t : TagNum} {h : HeldOp} {r : RowAddr} {a : Location} {k : SlotNum} {s : State}
    (quarantined : s.tag t = .quarantined h) (op : h.op = .copy r a (.slot k)) (v : Victim) :
    (linkDownTag t s).slot k ≠ .draining v := by
  unfold linkDownTag
  rw [quarantined]
  exact release_here op s v

theorem linkDownTags_walk : ∀ (l : List TagNum) (s : State), Drained s (l.foldl (fun u t => linkDownTag t u) s) ∧
    (∀ i, (l.foldl (fun u t => linkDownTag t u) s).tag i = if i ∈ l then .free else s.tag i) ∧
    ∀ t h r a k v, t ∈ l → s.tag t = .quarantined h → h.op = .copy r a (.slot k) →
      (l.foldl (fun u t => linkDownTag t u) s).slot k ≠ .draining v
  | [], s => ⟨.refl s, fun i => by simp, fun t h r a k v mem => absurd mem List.not_mem_nil⟩
  | n :: l, s => by
      obtain ⟨drained, tags, here⟩ := linkDownTags_walk l (linkDownTag n s)
      have first := linkDownTag_drained n s
      refine ⟨first.trans drained, fun i => ?_, fun t h r a k v mem quarantined op hk => ?_⟩
      · show (l.foldl (fun u t => linkDownTag t u) (linkDownTag n s)).tag i = _
        rw [tags, linkDownTag_tag]
        by_cases e : n = i
        · simp [e]
        · simp [e, Ne.symm e]
      · by_cases e : n = t
        · subst e
          exact linkDownTag_here quarantined op v (drained.back hk nofun)
        · rcases List.mem_cons.1 mem with rfl | mem
          · exact e rfl
          · exact here t h r a k v mem (by rw [linkDownTag_tag, if_neg e]; exact quarantined) op hk

theorem linkDownTags_drained (s : State) : Drained s (linkDownTags s) := (linkDownTags_walk tagNumbers s).1

theorem linkDownTags_tag (s : State) (t : TagNum) : (linkDownTags s).tag t = .free :=
  ((linkDownTags_walk tagNumbers s).2.1 t).trans (if_pos (mem_tagNumbers t))

theorem linkDownTags_here {s : State} {t : TagNum} {h : HeldOp} {r : RowAddr} {a : Location} {k : SlotNum}
    (quarantined : s.tag t = .quarantined h) (op : h.op = .copy r a (.slot k)) (v : Victim) :
    (linkDownTags s).slot k ≠ .draining v :=
  (linkDownTags_walk tagNumbers s).2.2 t h r a k v (mem_tagNumbers t) quarantined op

/-- A link-down releases every tag, then ends the migration (R68, R86, R61). -/
theorem linkLost_law {s : State} (l : MappingLaw s) : MappingLaw (linkLost s) := by
  let t := linkChange false { s with link := ⟨false, []⟩ }
  let u := linkDownTags t
  have changed : SameBut [.link, .arrivals, .port] s t :=
    (putLink_same _ s).comp (linkChange_same _ false) (by decide) (by decide)
  have released := linkDownTags_same t
  have drained : Drained s u := linkDownTags_drained t
  have frame : SameBut [.link, .arrivals, .port, .tracker, .slots] s u := changed.comp released (by decide) (by decide)
  have fuse : u.fuse = s.fuse := frame .fuse (by decide)
  have device : u.device = s.device := frame .device (by decide)
  have engineSame : u.engine = s.engine := frame .engine (by decide)
  have migration : u.migration = s.migration := frame .migration (by decide)
  have engine : EngineLaw u := l.engine.of_same ⟨by rw [migration], by rw [engineSame], by rw [fuse], device⟩
  have tags : ∀ i, u.tag i = .free := linkDownTags_tag t
  have bare : Bare s.migration u := {
    unique := fun r k j => by simp only [drained.mapsAt]; exact l.unique r k j
    committing := fun k v hk => by rw [fuse]; exact l.committing k v (drained.back hk nofun)
    draining := fun k v hk => by
      obtain ⟨i, h, r, a, quarantined, op⟩ := l.draining k v (drained.back hk nofun)
      exact absurd hk (linkDownTags_here (s := t) quarantined op v)
    down := fun _ => tags
    loading := fun d => by
      obtain ⟨_, loading, slots⟩ := l.loading (device ▸ d)
      rw [fuse]
      refine ⟨loading, fun k => ?_⟩
      rcases drained k with same | ⟨_, free⟩
      · rw [same]; exact slots k
      · exact .inl free
    fuseLoading := by simp only [device, fuse]; exact l.fuseLoading
    held := by rw [device, show u.resetLow = s.resetLow from frame .resetLow (by decide)]; exact l.held
    reserved := fun k v hk => l.reserved k v (drained.back hk nofun)
    context := fun c hc => drained.context (l.context c hc)
    outstanding := fun i h hi => by rw [tags] at hi; cases hi }
  show MappingLaw (abortMigration .linkLost u)
  unfold abortMigration
  split
  next c hc =>
    refine abort_law engine (by rw [hc]; rfl) ?_ _
    have same : abandonCopy c u = u := by
      unfold abandonCopy
      split
      next n _ => unfold abandon; rw [tags n]
      · rfl
    rw [same]
    exact (migration.symm.trans hc) ▸ bare
  next none =>
    exact Bare.law (migration ▸ bare) (untagged_none none) engine

end Sys2Proof.Machine

/-! The law through the load and the events of the link, the timers and the port; every event. -/

namespace Sys2Proof.Machine

theorem ite_law {a b : State} {c : Prop} [Decidable c] (ha : MappingLaw a) (hb : MappingLaw b) :
    MappingLaw (if c then a else b) := by
  split
  · exact ha
  · exact hb

/-! ### The load (R124 to R129) -/

/-- While LOADING no migration, no programming and no job is under way. -/
theorem MappingLaw.load {s : State} (l : MappingLaw s) (d : s.device = .loading) :
    s.engine.state = .stopped ∧ s.jobInFlight = none ∧ s.migration = none ∧ Bare none s := by
  have stopped := l.engine.stopped d
  have job : s.jobInFlight = none := by simp only [State.jobInFlight, stopped]
  obtain ⟨m, _⟩ := l.engine.idle job
  exact ⟨stopped, job, m, m ▸ l.bare (untagged_none m)⟩

/-- While LOADING a slot maps a row only where it is HARD. -/
theorem Bare.hard_of_maps {m : Option Context} {s : State} (b : Bare m s) (d : s.device = .loading) {r : RowAddr} {k : SlotNum}
    (maps : s.mapsAt r k = true) : s.hardAt r k = true := by
  obtain ⟨v, hv, row⟩ := mapsAt_iff.1 maps
  rcases (b.loading d).2 k with free | ⟨w, i, hard⟩ | ⟨w, f, retired⟩
  · rw [free] at hv; cases hv
  · rw [hard] at hv
    cases hv
    simp only [State.hardAt, hard, decide_eq_true_eq]
    exact row
  · rw [retired] at hv; cases hv

theorem hardAt_iff {s : State} {r : RowAddr} {k : SlotNum} :
    s.hardAt r k = true ↔ ∃ v i, s.slot k = .hard v i ∧ v.rowAt k = r := by
  unfold State.hardAt
  constructor
  · intro h
    split at h
    next v i hard => exact ⟨v, i, hard, of_decide_eq_true h⟩
    · cases h
  · rintro ⟨v, i, hard, row⟩
    rw [hard]
    exact decide_eq_true row

theorem Bare.putCounts {s : State} (b : Bare none s) (c : LoadCounts) : Bare none (putCounts c s) :=
  b.of_tables (.of_block (putCounts_same c s) (by rfl) (by decide))

/-- An installed slot maps a row that no other slot maps (R19). -/
theorem Bare.installMap {s : State} (b : Bare none s) {k : SlotNum} {v : Victim} (i : Fin 96) (free : s.slot k = .free)
    (new : ∀ j, s.mapsAt (v.rowAt k) j = false) : Bare none (installMap k v i s) := by
  rw [installMap_free v i free]
  have put := putSlot_put k (.hard v i) s
  exact b.put put (fun w hw j _ => by cases hw; exact new j) nofun nofun (fun _ => .inr (.inl ⟨v, i, rfl⟩))
    (put.unreserved (fun j _ => b.unreserved j) nofun) contextSlots_none

theorem Bare.loadMap {s : State} (b : Bare none s) (d : s.device = .loading) (r : FuseBytes) (i : Fin 96) :
    Bare none (loadMap r i s) := by
  unfold Machine.loadMap
  split
  next free =>
    split
    next k found =>
      obtain ⟨v, m, hard, row⟩ := hardAt_iff.1 (hardSlot_hardAt found)
      have put := putSlot_put k (.retired (some v) (some i)) s
      have retired : Bare none (installSupersede k i s) := by
        rw [installSupersede_hard i hard]
        exact b.settleSlot put (.inl rfl) (fun w => ⟨nofun, nofun, nofun⟩) fun _ => .inr (.inr ⟨_, _, rfl⟩)
      have ne : k ≠ r.slotNum := by
        rintro rfl
        rw [hard] at free
        cases free
      refine Bare.putCounts (retired.installMap i ?_ fun j => ?_) _
      · rw [installSupersede_hard i hard, put.ne ne]
        exact free
      · rw [installSupersede_hard i hard]
        by_cases e : k = j
        · subst e; exact mapsAt_unmapped put.self rfl _
        · rw [mapsAt_of_slot (put.ne e), Bool.eq_false_iff]
          intro other
          have mine : s.mapsAt (r.victim.rowAt r.slotNum) k = true := mapsAt_iff.2 ⟨v, by rw [hard]; rfl, row⟩
          exact e (b.unique _ _ _ mine other)
    next none =>
      refine Bare.putCounts (b.installMap i free fun j => ?_) _
      rw [Bool.eq_false_iff]
      intro maps
      have hard := b.hard_of_maps d maps
      rw [hardSlot_none.1 none j] at hard
      cases hard
  · exact b.putCounts _

theorem Bare.loadCondemn {s : State} (b : Bare none s) (r : FuseBytes) (i : Fin 96) : Bare none (loadCondemn r i s) := by
  unfold Machine.loadCondemn
  split
  next free =>
    rw [installCondemn_free i free]
    exact Bare.putCounts (b.settleSlot (r := .retired none (some i)) (putSlot_put r.slotNum _ s) (.inl rfl)
      (fun w => ⟨nofun, nofun, nofun⟩) fun _ => .inr (.inr ⟨_, _, rfl⟩)) _
  · exact b.putCounts _

theorem Bare.loadRecord {s : State} (b : Bare none s) (d : s.device = .loading) (i : Fin 96) :
    Bare none (loadRecord i s) := by
  have raised (r : FuseBytes) : Bare none (raiseSequence r s) :=
    b.of_tables (.of_block (raiseSequence_same r s) (by rfl) (by decide))
  unfold Machine.loadRecord
  dsimp only
  split
  · exact b.putCounts _
  · split
    · exact b.putCounts _
    · split
      · exact (raised _).loadCondemn _ _
      · exact (raised _).loadMap d _ _

/-- While LOADING no slot is COMMITTING. -/
theorem Bare.uncommitted {m : Option Context} {s : State} (b : Bare m s) (d : s.device = .loading) (k : SlotNum) (v : Victim) :
    s.slot k ≠ .committing v := by
  intro h
  rcases (b.loading d).2 k with free | ⟨w, i, hard⟩ | ⟨w, f, retired⟩
  · rw [h] at free; cases free
  · rw [h] at hard; cases hard
  · rw [h] at retired; cases retired

/-- The tables of a load whose next record is another. -/
theorem Bare.putLoading {s : State} (b : Bare none s) (d : s.device = .loading) (k : Nat) : Bare none (putLoading k s) := { b with
  committing := fun n v h => absurd h (b.uncommitted d n v)
  loading := fun h => ⟨⟨k, rfl⟩, (b.loading h).2⟩
  fuseLoading := fun _ _ => d
  context := contextSlots_none }

theorem loadStep_law {s : State} (l : MappingLaw s) : MappingLaw (loadStep s) := by
  unfold loadStep
  split
  next k loading =>
    split
    · have d := l.fuseLoading k loading
      obtain ⟨stopped, job, m, bare⟩ := l.load d
      generalize Fin.ofNat 96 k = i
      have frame : SameBut [.slots, .fuse] s (putLoading (k + 1) (loadRecord i s)) :=
        (loadRecord_same i s).comp (putLoading_same _ _) (by decide) (by decide)
      have device : (loadRecord i s).device = .loading := (loadRecord_same i s .device (by decide)).trans d
      have loaded := (bare.loadRecord d i).putLoading device (k + 1)
      have migration : (putLoading (k + 1) (loadRecord i s)).migration = none := (frame .migration (by decide)).trans m
      have engine : (putLoading (k + 1) (loadRecord i s)).engine = s.engine := frame .engine (by decide)
      have state : (putLoading (k + 1) (loadRecord i s)).engine.state = .stopped := by rw [engine]; exact stopped
      refine Bare.law (by rw [migration]; exact loaded) (untagged_none migration)
        (engineLaw_free migration rfl (fun _ => state) ?_)
      simp only [State.jobInFlight, state]
    · exact l
  · exact l
  · exact l

theorem applyEngineEnable_law {s : State} (l : MappingLaw s) : MappingLaw (applyEngineEnable s) := by
  have put (e : EngineState) (h : e = .stopped ∨ e = .idle) (q : Quiet s) :
      MappingLaw { s with engine := { s.engine with state := e } } := by
    refine (q.frame (putEngine_same _ s) (by decide)).law ?_
    rcases h with rfl | rfl <;> rfl
  unfold applyEngineEnable
  split
  next stopped =>
    split
    next go =>
      have job : s.jobInFlight = none := by simp only [State.jobInFlight, stopped]
      exact put .idle (.inr rfl) (l.quiet job (by rw [go.2]; decide))
    · exact l
  next idle =>
    split
    · exact l
    · exact put .stopped (.inl rfl) (l.quiet_idle idle)
  · exact l
  · exact l

/-- The load's end: the device RUNNING and the fuse store IDLE, nothing under way (R129). -/
theorem endLoad_law {s : State} (l : MappingLaw s) (d : s.device = .loading) (low : s.resetLow = false) :
    MappingLaw (endLoad s) := by
  obtain ⟨stopped, job, m, bare⟩ := l.load d
  let t := fuseIdle { s with device := .running }
  have running : Bare none t := { bare with
    committing := fun k v h => absurd h (bare.uncommitted d k v)
    loading := nofun
    fuseLoading := nofun
    held := fun h => by rw [show s.resetLow = true from h] at low; cases low
    context := contextSlots_none }
  have quiet : Quiet t := ⟨running, m, rfl, nofun⟩
  have produced := (quiet.frame (produce_same .fuseStore (.fuseLoad s.fuse.counts s.fuse.writePos) t) (by decide)).law job
  exact settle_law ((applyEngineEnable_law produced).frame (decideScrub_same _) (by decide))

/-- The release of RESET_N begins the load on tables that the reset left loadable (R124). -/
theorem beginLoad_law {s : State} (l : MappingLaw s) (low : s.resetLow = true) : MappingLaw (beginLoad s) := by
  have d := l.held low
  obtain ⟨stopped, job, m, bare⟩ := l.load d
  let t : State := startEpoch { s with
    resetLow := false
    device := .loading
    fuse := { s.fuse with writePos := s.firstBlank, nextSeq := 1, counts := .zero, state := .loading 0 } }
  have begun : Bare none t := { bare.putLoading d 0 with
    loading := fun _ => ⟨⟨0, rfl⟩, (bare.loading d).2⟩
    fuseLoading := fun _ _ => rfl
    held := nofun
    context := contextSlots_none }
  have law : MappingLaw t := by
    have migration : t.migration = none := m
    refine Bare.law (by rw [migration]; exact begun) (untagged_none migration)
      (engineLaw_free migration rfl (fun _ => stopped) job)
  exact ite_law (endLoad_law law rfl rfl) law

/-! ### The link and the tracker -/

theorem settleFrom_law {s : State} (b : State) (l : MappingLaw s) : MappingLaw (settleFrom b s) :=
  ite_law (settleReports_law l) (settle_law l)

theorem settleFreedFrom_law {s : State} (b : State) (l : MappingLaw s) : MappingLaw (settleFreedFrom b s) :=
  ite_law (settleOps_law l) (settle_law l)

theorem takeLinkUp_law {s : State} (l : MappingLaw s) : MappingLaw (takeLinkUp s) := by
  have up : MappingLaw { s with link := { s.link with up := true } } := { l with
    context := l.context
    down := nofun }
  exact ite_law l (settleOps_law ((up.frame (linkChange_same _ true) (by decide)).frame (decideScrub_same _) (by decide)))

theorem takeLinkDown_law {s : State} (l : MappingLaw s) : MappingLaw (takeLinkDown s) := by
  have lost := (linkLost_law l).frame (decideScrub_same _) (by decide)
  exact ite_law (ite_law (settle_law lost) (settleReports_law lost)) l

/-- The dirty claim changes nothing that the law reads of the context (R47). -/
theorem dirtyClaim_law {s : State} (l : MappingLaw s) : MappingLaw (dirtyClaim s) := by
  unfold dirtyClaim
  split
  next c hc =>
    have engine : EngineLaw (s.putContext (some { c with dirty := true })) :=
      EngineLaw.of_same (s := s) ⟨by rw [hc]; rfl, rfl, rfl, rfl⟩ l.engine
    exact { l with
      reserved := fun k v hk => by
        obtain ⟨d, hd, target⟩ := l.reserved k v hk
        rw [hc] at hd
        cases hd
        exact ⟨_, rfl, target⟩
      context := fun d hd => by cases hd; exact l.context c hc
      migrating := engine.migrating
      fusing := engine.fusing
      outstanding := fun t h ht => by
        rcases l.outstanding t h ht with ⟨owner, d, hd, tagged, op⟩ | scrub
        · rw [hc] at hd
          cases hd
          exact .inl ⟨owner, _, rfl, tagged, op⟩
        · exact .inr scrub
      copyTag := fun d t hd tagged => by cases hd; exact l.copyTag c t hc tagged }
  · exact l

theorem effect_law {s : State} (l : MappingLaw s) (q : QueryLine) (r : RowAddr) (write : Bool) :
    MappingLaw (q.effect r write s) := by
  cases q with
  | loading => exact l.frame (countWait_same s) (by decide)
  | outOfRange => exact l.frame (countOutOfRange_same s) (by decide)
  | poisoned e =>
    have hit := l.frame (hitPoison_same r s) (by decide)
    exact ite_law hit (hit.frame (produce_same _ _ _) (by decide))
  | fenced => exact l.frame (countWait_same s) (by decide)
  | copying a => exact ite_law (dirtyClaim_law l) l
  | mapped k => exact l
  | unmapped => exact l

theorem send_law {s : State} (l : MappingLaw s) (m : OutMsg) : MappingLaw (send m s) :=
  l.of_same (.of_block (send_same m s) (by rfl) (by decide)) rfl rfl

theorem countStaleDone_law {s : State} (l : MappingLaw s) : MappingLaw (countStaleDone s) :=
  l.of_same (.of_block (countStaleDone_same s) (fun _ => rfl) (by decide)) rfl rfl

/-- An OUTSTANDING tag is rewritten: as OUTSTANDING with its owner and operation, or a VERIFY's as no longer OUTSTANDING. -/
theorem MappingLaw.retag {s t : State} {n : TagNum} {h : HeldOp} {x : Tag} (l : MappingLaw s) (old : s.tag n = .outstanding h)
    (frame : SameBut [.tracker, .link] s t) (up : t.link.up = s.link.up) (tag : ∀ i, t.tag i = if n = i then x else s.tag i)
    (new : (∃ g, x = .outstanding g ∧ g.owner = h.owner ∧ g.op = h.op) ∨ (h.owner = .scrub ∧ ∀ g, x ≠ .outstanding g)) :
    MappingLaw t := by
  have slot : ∀ k, t.slot k = s.slot k := slot_of_slots (frame .slots (by decide))
  have fuse : t.fuse = s.fuse := frame .fuse (by decide)
  have device : t.device = s.device := frame .device (by decide)
  have engineSame : t.engine = s.engine := frame .engine (by decide)
  have migration : t.migration = s.migration := frame .migration (by decide)
  have engine : EngineLaw t := l.engine.of_same ⟨by rw [migration], by rw [engineSame], by rw [fuse], device⟩
  exact {
    unique := fun r k j => by simp only [mapsAt_of_slot (slot _)]; exact l.unique r k j
    reserved := by simp only [slot, migration]; exact l.reserved
    context := fun c hc => by rw [contextSlots_of_slots slot]; exact l.context c (migration ▸ hc)
    migrating := engine.migrating
    fusing := engine.fusing
    committing := by simp only [slot, fuse]; exact l.committing
    draining := fun k v hk => by
      obtain ⟨i, g, r, a, quarantined, op⟩ := l.draining k v ((slot k).symm.trans hk)
      refine ⟨i, g, r, a, ?_, op⟩
      rw [tag, if_neg]
      · exact quarantined
      · rintro rfl
        rw [old] at quarantined
        cases quarantined
    outstanding := fun i g hi => by
      rw [tag] at hi
      rw [migration]
      split at hi
      next e =>
        subst e
        rcases new with ⟨g', hx, owner, op⟩ | ⟨_, left⟩
        · rw [hx] at hi
          cases hi
          rw [owner, op]
          exact l.outstanding n h old
        · exact absurd hi (left g)
      · exact l.outstanding i g hi
    copyTag := fun c i hc tagged => by
      obtain ⟨g, out, owner⟩ := l.copyTag c i (migration ▸ hc) tagged
      rw [tag]
      by_cases e : n = i
      · subst e
        rw [old] at out
        cases out
        rcases new with ⟨g', hx, owner', _⟩ | ⟨scrub, _⟩
        · exact ⟨g', (if_pos rfl).trans hx, owner'.trans owner⟩
        · rw [owner] at scrub; cases scrub
      · exact ⟨g, (if_neg e).trans out, owner⟩
    down := fun d => by
      rw [l.down (up ▸ d) n] at old
      cases old
    loading := by simp only [device, fuse, slot, engineSame]; exact l.loading
    fuseLoading := by simp only [device, fuse]; exact l.fuseLoading
    held := by rw [device, show t.resetLow = s.resetLow from frame .resetLow (by decide)]; exact l.held }

/-- A migration's OUTSTANDING tag is its context's copy tag (R73). -/
theorem MappingLaw.contextOf {s t : State} {n : TagNum} {h : HeldOp} (l : MappingLaw s) (old : s.tag n = .outstanding h)
    (owner : h.owner = .migration) (same : t.migration = s.migration) :
    ∃ c, t.contextOf n = some c ∧ s.migration = some c ∧ c.copyTag = some n := by
  rcases l.outstanding n h old with ⟨_, c, hc, tagged, _⟩ | ⟨scrub, _⟩
  · exact ⟨c, by simp only [State.contextOf, same, hc, if_pos tagged], hc, tagged⟩
  · rw [owner] at scrub; cases scrub

theorem putTag_tracker_law {s : State} {n : TagNum} {h : HeldOp} {x : Tag} (l : MappingLaw s) (old : s.tag n = .outstanding h)
    (owner : h.owner = .scrub) (left : ∀ g, x ≠ .outstanding g) : MappingLaw (s.putTag n x) :=
  l.retag old ((putTag_same s n x).mono (by decide)) rfl (fun i => tag_putTag s n i x) (.inr ⟨owner, left⟩)

theorem scrubNote_same (r : RowAddr) (a : Location) (c : Option NoteClass) (s : State) :
    SameBut [.tally, .arrivals] s (scrubNote r a c s) := by
  cases c with
  | none => exact .refl _ s
  | some cls => exact ite_same ((countStaleNote_same s).mono (by decide)) (takeNote_same _ s)

theorem validDone_law {s : State} (l : MappingLaw s) {n : TagNum} {h : HeldOp} (old : s.tag n = .outstanding h)
    (result bits : BitVec 4) : MappingLaw (validDone n h result bits s) := by
  unfold validDone
  dsimp only
  split
  next owner =>
    obtain ⟨c, found, hc, tagged⟩ := l.contextOf (t := s.putTag n .free) old owner rfl
    rw [found]
    have bare : Bare (some c) (s.putTag n .free) :=
      l.detach hc tagged (putTag_same s n _) (fun i => tag_putTag s n i _) nofun
    have engine : EngineLaw (s.putTag n .free) := EngineLaw.of_same (s := s) ⟨rfl, rfl, rfl, rfl⟩ l.engine
    have some : (s.putTag n .free).migration.isSome = true := congrArg Option.isSome hc
    exact settle_law (passCompleted_law engine some bare result)
  next owner =>
    have freed := putTag_tracker_law (x := .free) l old owner nofun
    split
    · exact settleFreedFrom_law _ (freed.frame (scrubNote_same _ _ _ _) (by decide))
    · exact settleOps_law freed

theorem takeOpDone_law {s : State} (l : MappingLaw s) (t : TagNum) (a : Fin 2) (result bits : BitVec 4) :
    MappingLaw (takeOpDone t a result bits s) := by
  unfold takeOpDone
  split
  · split
    · exact countStaleDone_law l
    next old => exact ite_law (validDone_law l old result bits) (countStaleDone_law l)
    next old => exact settleOps_law (countStaleDone_law (release_law l old))
  · exact l

theorem giveUp_law {s : State} (l : MappingLaw s) {n : TagNum} {h : HeldOp} (old : s.tag n = .outstanding h) :
    MappingLaw (giveUp n h s) := by
  let x : Tag := .quarantined { h with timer := s.opTimer }
  unfold giveUp
  dsimp only
  split
  next owner =>
    obtain ⟨c, found, hc, tagged⟩ := l.contextOf (t := quarantine n h s) old owner rfl
    rw [found]
    have bare : Bare (some c) (quarantine n h s) :=
      l.detach (x := x) hc tagged (quarantine_same n h s) (fun i => tag_putTag s n i x) nofun
    have engine : EngineLaw (quarantine n h s) := EngineLaw.of_same (s := s) ⟨rfl, rfl, rfl, rfl⟩ l.engine
    have some : (quarantine n h s).migration.isSome = true := congrArg Option.isSome hc
    have same : abandonCopy c (quarantine n h s) = quarantine n h s := by
      have quarantined : (quarantine n h s).tag n = x := (tag_putTag s n n x).trans (if_pos rfl)
      unfold abandonCopy
      rw [tagged]
      dsimp only
      unfold abandon
      rw [quarantined]
    exact settle_law (abort_law engine some (by rw [same]; exact bare) _)
  next owner => exact settleOps_law (putTag_tracker_law (x := x) l old owner nofun)

theorem takeTimeout_law {s : State} (l : MappingLaw s) (t : TagNum) : MappingLaw (takeTimeout t s) := by
  unfold takeTimeout
  split
  next h old =>
    refine ite_law ?_ (giveUp_law l old)
    exact l.retag old (reissue_same t h s) rfl (fun i => tag_putTag s t i _) (.inl ⟨_, rfl, rfl, rfl⟩)
  · exact l
  · exact l

theorem takeQuarantineExpiry_law {s : State} (l : MappingLaw s) (t : TagNum) : MappingLaw (takeQuarantineExpiry t s) := by
  unfold takeQuarantineExpiry
  split
  next old => exact settleOps_law (release_law l old)
  · exact l
  · exact l

theorem takeScrubExpiry_law {s : State} (l : MappingLaw s) : MappingLaw (takeScrubExpiry s) := by
  unfold takeScrubExpiry
  split
  · exact settleOps_law (l.frame (putScrub_same _ s) (by decide))
  · exact l

/-! ### The port -/

theorem refuseWrite_law {s : State} (l : MappingLaw s) : MappingLaw (refuseWrite s) :=
  l.frame (refuseWrite_same s) (by decide)

theorem commandAbort_law {s : State} (l : MappingLaw s) : MappingLaw (commandAbort s) := by
  unfold commandAbort
  split
  · exact l
  · exact l
  · exact ite_law (settle_law (abortMigration_law l _)) (refuseWrite_law l)
  · exact refuseWrite_law l

/-- A restart that has to wait for the end of programming leaves the job in flight (R151). -/
theorem restartPending_law {s : State} (l : MappingLaw s) {j : Job} (busy : s.engine.state = .busy j)
    (p : s.programming = true) : MappingLaw { s with engine := { s.engine with state := .restartPending j } } := by
  obtain ⟨m, running, bare⟩ := l.programming p
  let t : State := { s with engine := { s.engine with state := .restartPending j } }
  have migration : t.migration = none := m
  have tables : SameTables s t := .unread (putEngine_same _ s) (by decide)
  refine Bare.law (s := t) (by rw [migration]; exact bare.of_tables tables) (untagged_none migration) ⟨?_, ?_, ?_⟩
  · rw [migration]
    exact ⟨fun x => Bool.noConfusion x, fun ⟨_, x, _⟩ => by cases x⟩
  · have fusing := l.engine.fusing
    rw [jobInFlight_busy busy] at fusing
    exact fusing
  · exact fun d => absurd d running

theorem commandRestart_law {s : State} (l : MappingLaw s) : MappingLaw (commandRestart s) := by
  have restart (p : s.programming = false) : MappingLaw (settle (runRestart s)) := settle_law (runRestart_law l p)
  unfold commandRestart
  split
  next j busy =>
    split
    next p => exact restartPending_law l busy p
    next p => exact restart (Bool.eq_false_iff.2 p)
  · exact l
  next stopped => exact restart (l.engine.idle (by simp only [State.jobInFlight, stopped])).2
  next idle => exact restart (l.engine.idle (idle_job idle)).2

theorem putSettings_law {s : State} (l : MappingLaw s) (c : Settings) : MappingLaw (putSettings c s) :=
  l.frame (putSettings_same c s) (by decide)

theorem acceptCtrl_law {s : State} (l : MappingLaw s) (c : Settings) : MappingLaw (acceptCtrl c s) := by
  have put := putSettings_law l c
  have mode : MappingLaw (if c.mode = s.config.mode then putSettings c s else applyMode s.config.mode (putSettings c s)) :=
    ite_law put (put.frame (applyMode_same _ _) (by decide))
  have enabled (t : State) (k : MappingLaw t) :
      MappingLaw (if c.engineEnable = s.config.engineEnable then t else applyEngineEnable t) :=
    ite_law k (applyEngineEnable_law k)
  have scrubbed (t : State) (k : MappingLaw t) :
      MappingLaw (if c.scrubEnable = s.config.scrubEnable then t else decideScrub t) :=
    ite_law k (k.frame (decideScrub_same t) (by decide))
  have all := scrubbed _ (enabled _ mode)
  exact ite_law all (settle_law all)

theorem acceptTally_law {s : State} (l : MappingLaw s) (c : Settings) : MappingLaw (acceptTally c s) := by
  have put := putSettings_law l c
  have epoch : MappingLaw (if c.epochLength = s.config.epochLength then putSettings c s else startEpoch (putSettings c s)) :=
    ite_law put (put.frame (startEpoch_same _) (by decide))
  exact ite_law epoch (settle_law (epoch.frame (rethreshold_same _) (by decide)))

theorem acceptScrub_law {s : State} (l : MappingLaw s) (c : Settings) : MappingLaw (acceptScrub c s) := by
  have put := putSettings_law l c
  have masked : MappingLaw (applyMask (putSettings c s)) := ite_law put (put.frame (putPosition_same _ _) (by decide))
  have moved : MappingLaw (if c.channels = s.config.channels then putSettings c s else applyMask (putSettings c s)) :=
    ite_law put masked
  exact ite_law (settleOps_law moved) moved

theorem writeGeom_law {s : State} (l : MappingLaw s) (v : Word) : MappingLaw (writeGeom v s) :=
  ite_law ((putSettings_law l (s.config.writeGeom v)).frame (putPosition_same _ _) (by decide)) (refuseWrite_law l)

theorem clearCounter_law {s : State} (l : MappingLaw s) (c : CounterId) : MappingLaw (clearCounter c s) := by
  have frame := clearCounter_same c s
  refine l.of_same (.of_block frame (fun n => ?_) (by decide)) (frame .migration (by decide))
    (congrArg JobEngine.state (frame .engine (by decide)))
  cases c <;> rfl

theorem putDesc_law {s : State} (l : MappingLaw s) (i : DescId) (d : Descriptor) : MappingLaw (s.putDesc i d) := by
  refine l.of_same (.unread (putDesc_same s i d) (by decide)) (putDesc_same s i d .migration (by decide)) ?_
  cases i <;> rfl

theorem writeReport_law {s : State} (l : MappingLaw s) (k : Fin 64) (w : Fin 8) (v : Word) : MappingLaw (writeReport k w v s) := by
  have put (x : ReportSlot) : MappingLaw (s.putReportSlot k x) := l.frame (putReportSlot_same s k x) (by decide)
  have back : MappingLaw (handBackSlot k v s) :=
    ite_law (((put _).frame (drain_same _ _) (by decide)).frame (decideScrub_same _) (by decide)) (put _)
  exact ite_law (refuseWrite_law l) (ite_law back (put _))

/-- A read moves no more than a latch. -/
theorem readRegion_tables (g : Region) (top : Bool) (s : State) : SameTables s (readRegion g top s).2 := by
  cases g <;> exact ⟨fun _ => rfl, rfl, fun _ => rfl, rfl, rfl, rfl⟩

theorem portRead_law {s : State} (l : MappingLaw s) (a : BitVec 14) (w : Width) : MappingLaw (portRead a w s) := by
  have read (top : Bool) : MappingLaw (readRegion (regionOf a.toNat) top s).2 :=
    l.of_same (readRegion_tables _ top s) (readRegion_same s _ top .migration (by decide))
      (congrArg JobEngine.state (readRegion_same s _ top .engine (by decide)))
  exact ite_law ((read _).frame (putReadData_same _ _) (by decide)) (l.frame (putReadData_same _ s) (by decide))

/-! ### Every event -/

theorem event_law {s t : State} (low : s.resetLow = false) (e : Event s t) (l : MappingLaw s) : MappingLaw t := by
  cases e with
  | stays => exact l
  | loadStep => exact loadStep_law l
  | loadEnd =>
    unfold loadEnd
    split
    next n loading => exact ite_law l (endLoad_law l (l.fuseLoading n loading) low)
    · exact l
    · exact l
  | linkUp => exact takeLinkUp_law l
  | linkDown => exact takeLinkDown_law l
  | query id kind w => exact ite_law (settleReports_law (send_law (effect_law l _ _ _) _)) l
  | errNote a k u b w =>
    have counted := l.frame (countStaleNote_same s) (by decide)
    exact ite_law (ite_law counted (ite_law (settleFrom_law s (l.frame (takeNote_same _ s) (by decide))) counted)) l
  | opDone t a r b => exact takeOpDone_law l t a r b
  | opTimeout t => exact takeTimeout_law l t
  | quarantineExpiry t => exact takeQuarantineExpiry_law l t
  | epochExpiry => exact l.frame (takeEpochExpiry_same s) (by decide)
  | scrubExpiry => exact takeScrubExpiry_law l
  | completion r => exact takeCompletion_law l r
  | supplyFall => exact takeSupplyFall_law l
  | supplyRise => exact l.frame (putSupply_same true s) (by decide)
  | abort => exact commandAbort_law l
  | restart => exact commandRestart_law l
  | refused => exact refuseWrite_law l
  | ctrl _ => exact acceptCtrl_law l _
  | tally _ => exact acceptTally_law l _
  | scrub _ => exact acceptScrub_law l _
  | link _ => exact putSettings_law l _
  | geom v => exact writeGeom_law l v
  | irqf v => exact l.frame (putPort_same _ s) (by decide)
  | irqm v => exact l.frame (putPort_same _ s) (by decide)
  | counter c => exact clearCounter_law l c
  | descriptor i d => exact putDesc_law l i d
  | handOver i d => exact settle_law (putDesc_law l i d)
  | report k w v => exact writeReport_law l k w v
  | read a w => exact portRead_law l a w

theorem taken_law {s t : State} (h : Taken s t) (l : MappingLaw s) : MappingLaw t := by
  cases h with
  | held => exact l
  | release low => exact beginLoad_law l low
  | heldRead => exact l.frame (putReadData_same 0 s) (by decide)
  | heldSupply _ level => exact l.frame (putSupply_same level s) (by decide)
  | event low e => exact event_law low e l

theorem idle_law {s : State} (l : MappingLaw s) : MappingLaw (idle s) :=
  ite_law (l.of_same (.of_block (putLink_same _ s) (by rfl) (by decide)) rfl rfl) l

/-- At reset every table is empty, and the load has yet to begin. -/
theorem reset_mapping : MappingLaw State.reset := by
  have slot {k : SlotNum} {r : SlotRec} (h : State.reset.slot k = r) : r = .free := h.symm.trans (reset_slot k)
  have tag {t : TagNum} {x : Tag} (h : State.reset.tag t = x) : x = .free := h.symm.trans (reset_tag t)
  have bare : Bare none State.reset := {
    unique := fun r k j h => by rw [mapsAt_unmapped (reset_slot k) rfl] at h; cases h
    committing := fun k v h => nomatch slot h
    draining := fun k v h => nomatch slot h
    down := fun _ => reset_tag
    loading := fun _ => ⟨⟨0, rfl⟩, fun k => .inl (reset_slot k)⟩
    fuseLoading := fun _ _ => rfl
    held := fun _ => rfl
    reserved := fun k v h => nomatch slot h
    context := contextSlots_none
    outstanding := fun t h ht => nomatch tag ht }
  exact Bare.law (s := State.reset) bare (untagged_none rfl) (engineLaw_free rfl rfl (fun _ => rfl) rfl)

theorem fullReset_mapping (s : State) : MappingLaw (fullResetState s) :=
  reset_mapping.of_same (.of_same (fullReset_same s)
    (by simp only [List.forall_mem_cons, List.not_mem_nil, IsEmpty.forall_iff, implies_true, and_true]
        exact ⟨trivial, rfl, trivial, trivial⟩)) rfl rfl

/-- Settles O60: the law is proved over the events, each built of operations that keep it. -/
theorem everyStepKeepsTheMappingLaw : Obligations.EveryStepKeepsTheMappingLaw := by
  intro s t l h
  rcases step_cases h with rfl | ⟨rest, rfl | taken⟩
  · exact idle_law l
  · exact fullReset_mapping _
  · exact taken_law taken (l.frame (putPending_same rest s) (by decide))

end Sys2Proof.Machine

namespace Sys2Proof.Machine

/-! ## The queue and the reset -/

theorem step_none {s : State} (h : s.pending = []) : step s = .next (idle s) := by
  unfold step
  rw [h]

/-- Settles O1. -/
theorem stepTakesFrontCommand : Obligations.StepTakesFrontCommand := by
  refine ⟨fun c rest s h => ?_, fun s h => ⟨fun up => ?_, fun down => ?_⟩⟩
  · unfold step
    rw [h]
  · rw [step_none h]
    unfold idle
    rw [if_pos up, ← up]
  · rw [step_none h]
    unfold idle
    rw [if_neg (by simp [down])]

/-- Settles O2: every value is a closed term. -/
theorem resetRegistersReadTheirValues : Obligations.ResetRegistersReadTheirValues := by
  have counters (c : CounterId) : State.reset.regValue (.counter c) = 0 := by
    cases c <;> rfl
  exact ⟨by decide, by decide, by decide, by decide, by decide, by decide, by decide, by decide, by decide, by decide,
    by decide, by decide, by decide, by decide, by decide, by decide, by decide, by decide, by decide, by decide, counters,
    by decide⟩

/-- Settles O3. -/
theorem resetHasEmptyTablesAndEveryLaw : Obligations.ResetHasEmptyTablesAndEveryLaw :=
  ⟨reset_slot, reset_tag, reset_entry, reset_desc, reset_reportSlot, rfl, rfl, rfl, rfl, rfl, rfl, rfl, reset_settings,
    reset_counters, reset_reports, ⟨fun h => absurd h (by decide), fun h => absurd h (by decide)⟩, reset_poison,
    reset_tally, reset_fuse, reset_mapping⟩

/-- Settles O4. -/
theorem fullResetKeepsOnlyTheFuseArray : Obligations.FullResetKeepsOnlyTheFuseArray :=
  ⟨fun s => ⟨firstBlank_le s, fun _ => ⟨firstBlank_below, firstBlank_here⟩⟩, fun s => ⟨fullResetState s, rfl, rfl, rfl⟩⟩

/-- Settles O5: every event but the pins' and a read is `live`. -/
theorem heldResetTakesNoCommand : Obligations.HeldResetTakesNoCommand := by
  refine fun s low => ⟨fun c other => ?_, fun a w => congrArg Host.Outcome.next (if_pos low)⟩
  cases c with
  | fullReset => exact Bool.noConfusion other
  | resetRelease => exact Bool.noConfusion other
  | fuseSupplyFall => exact Bool.noConfusion other
  | fuseSupplyRise => exact Bool.noConfusion other
  | viewRead => exact Bool.noConfusion other
  | unknownMessage => rfl
  | _ => exact live_held low

/-- Settles O11. -/
theorem unknownMessageChangesNothing : Obligations.UnknownMessageChangesNothing := fun _ _ => rfl

/-! ## The end of an event in which a party does nothing -/

theorem settleJobs_notIdle {s : State} (h : s.engine.state ≠ .idle) : settleJobs s = s := by
  unfold settleJobs arbiterFuel
  rw [Nat.add_comm, Nat.add_succ]
  unfold runArbiter
  split
  · next idle => exact absurd idle h
  · rfl
  · rfl
  · rfl

theorem settleTags_down {s : State} (h : s.link.up = false) : settleTags s = s := if_neg (by simp [h])

theorem settle_unserved {s : State} (engine : s.engine.state ≠ .idle) (down : s.link.up = false) :
    settle s = settleReports s := by
  unfold settle settleOps
  rw [settleJobs_notIdle engine, settleTags_down down]

theorem scrubTarget_off {s : State} (h : s.device = .loading ∨ s.config.scrubEnable = false) : s.scrubTarget = .off :=
  if_pos h

/-! ### The arrival of a report -/

theorem arrive_ring {r : Report} {s : State} (empty : s.reports.held = []) (ready : s.slotReady = true) :
    arrive r s = nextSerial (writeRing ⟨r, s.reports.serial⟩ s) := if_pos ⟨empty, ready⟩

theorem arrive_hold {r : Report} {s : State} (later : s.reports.held ≠ [] ∨ s.slotReady = false)
    (room : s.reports.held.length < 8) : arrive r s = hold r s := by
  have straight : ¬(s.reports.held = [] ∧ s.slotReady = true) := fun ⟨empty, ready⟩ =>
    later.elim (absurd empty) fun busy => Bool.noConfusion (busy.symm.trans ready)
  exact (if_neg straight).trans (if_pos room)

theorem arrive_lose {r : Report} {s : State} (full : 8 ≤ s.reports.held.length) : arrive r s = loseReport s := by
  have straight : ¬(s.reports.held = [] ∧ s.slotReady = true) := fun ⟨empty, _⟩ => by
    rw [empty] at full
    exact absurd full (by decide)
  exact (if_neg straight).trans (if_neg (Nat.not_lt.2 full))

/-! ## The release of RESET_N -/

theorem fullResetState_firstBlank (s : State) : (fullResetState s).firstBlank = s.firstBlank := rfl

/-- The load of an empty array ends in the event that began it (R129). -/
theorem beginLoad_empty {s : State} (blank : s.firstBlank = 0) : beginLoad s = endLoad (startEpoch { s with
    resetLow := false
    device := .loading
    fuse := { s.fuse with writePos := 0, nextSeq := 1, counts := .zero, state := .loading 0 } }) := by
  unfold beginLoad
  rw [blank]
  exact if_pos rfl

/-- The FUSE_LOAD report of an empty load is held: the device owns no report slot yet. -/
theorem endLoad_reset {s : State} (down : s.link.up = false) (stopped : s.engine.state = .stopped)
    (config : s.config = .reset) (scrub : s.scrub.state = .off) (taken : s.arrivals = []) (held : s.reports.held = [])
    (busy : s.slotReady = false) : endLoad s = { s with
      device := .running
      fuse := { s.fuse with state := .idle }
      reports := { s.reports with
        held := [⟨⟨.fuseLoad s.fuse.counts s.fuse.writePos, s.tally.epoch⟩, s.reports.serial⟩]
        serial := s.reports.serial + 1 } } := by
  let r : Report := ⟨.fuseLoad s.fuse.counts s.fuse.writePos, s.tally.epoch⟩
  let u : State := { s with device := .running, fuse := { s.fuse with state := .idle } }
  let t : State := { u with arrivals := [⟨.fuseStore, r⟩] }
  have off {x : State} (c : x.config = .reset) (h : x.scrub.state = .off) : decideScrub x = x :=
    decideScrub_of_eq (h.trans (scrubTarget_off (.inr (by rw [c]; rfl))).symm)
  have produced : produce .fuseStore r.body (fuseIdle { s with device := .running }) = t := by
    show ({ u with arrivals := s.arrivals ++ _ } : State) = _
    rw [taken]
    rfl
  have engine : applyEngineEnable t = t := by
    unfold applyEngineEnable
    rw [show t.engine.state = .stopped from stopped, show t.config = .reset from config]
    exact if_neg fun h => Bool.noConfusion h.1
  have settled : settle t = decideScrub (arrive r u) := by
    rw [settle_unserved (s := t) (by rw [show t.engine.state = .stopped from stopped]; decide) down,
      settleReports_one (s := t) rfl]
    show decideScrub (arrive r { u with arrivals := [] }) = _
    rw [← taken]
  show settle (decideScrub (applyEngineEnable (produce .fuseStore r.body (fuseIdle { s with device := .running })))) = _
  rw [produced, engine, off (x := t) config scrub, settled,
    arrive_hold (s := u) (.inr busy) (by rw [show u.reports.held = [] from held]; decide),
    off (x := hold r u) config scrub]
  unfold hold nextSerial
  rw [show u.reports.held = [] from held]
  rfl

/-- Settles O6. -/
theorem resetReleaseBeginsTheLoad : Obligations.ResetReleaseBeginsTheLoad := by
  refine fun s => ⟨rfl, fun low some => ?_, fun blank => ?_⟩
  · exact congrArg Host.Outcome.next ((if_pos low).trans (if_neg (Nat.pos_iff_ne_zero.1 some)))
  · have fuse : (fullResetState s).fuse = ⟨s.fuse.records, 0, 1, .zero, .loading 0, none⟩ :=
      congrArg (FuseStore.mk s.fuse.records · 1 .zero (.loading 0) none) blank
    have micros : (fullResetState s).config.epochMicros = 60000000 := show Settings.reset.epochMicros = _ by decide
    refine congrArg Host.Outcome.next ?_
    show beginLoad (fullResetState s) = _
    rw [beginLoad_empty (s := fullResetState s) blank, endLoad_reset rfl rfl rfl rfl rfl rfl, fuse, startEpoch, micros]
    · rfl
    · exact congrArg ReportSlot.device (reset_reportSlot _)

end Sys2Proof.Machine

namespace Sys2Proof.Machine

/-! ## The load -/

theorem loadStep_next {s : State} {i : Fin 96} (h : s.fuse.state = .loading i.val) (left : i.val < s.fuse.writePos) :
    loadStep s = putLoading (i.val + 1) (loadRecord i s) := by
  unfold loadStep
  rw [h]
  dsimp only
  rw [if_pos left, ofNat_record]

theorem checkValid_iff {r : FuseBytes} : r.checkValid = true ↔
    r.finished = true ∧ r.checkGood = true ∧ (r.kindCode = 1 ∨ r.kindCode = 2) ∧ r.sequence ≠ 0 := by
  simp [FuseBytes.checkValid, and_assoc]

theorem loadRecord_torn {s : State} {i : Fin 96} (h : (s.record i).finished = false) :
    loadRecord i s = countTorn s := by
  unfold loadRecord
  simp [h]

theorem loadRecord_corrupt {s : State} {i : Fin 96} (h : (s.record i).finished = true)
    (bad : (s.record i).checkValid = false) : loadRecord i s = countCorrupt s := by
  unfold loadRecord
  simp [h, bad]

theorem loadRecord_condemn {s : State} {i : Fin 96} (h : (s.record i).checkValid = true)
    (kind : (s.record i).kindCode = 2) : loadRecord i s = loadCondemn (s.record i) i (raiseSequence (s.record i) s) := by
  unfold loadRecord
  simp [(checkValid_iff.1 h).1, h, kind]

theorem loadRecord_map {s : State} {i : Fin 96} (h : (s.record i).checkValid = true)
    (kind : (s.record i).kindCode = 1) : loadRecord i s = loadMap (s.record i) i (raiseSequence (s.record i) s) := by
  unfold loadRecord
  simp [(checkValid_iff.1 h).1, h, kind]

theorem loadCondemn_taken {s : State} {r : FuseBytes} (i : Fin 96) (h : s.slot r.slotNum ≠ .free) :
    loadCondemn r i s = countConflict s := by
  unfold loadCondemn
  split
  · next free => exact absurd free h
  · rfl

theorem loadMap_taken {s : State} {r : FuseBytes} (i : Fin 96) (h : s.slot r.slotNum ≠ .free) :
    loadMap r i s = countConflict s := by
  unfold loadMap
  split
  · next free => exact absurd free h
  · rfl

/-- A record for a slot that is not FREE is a CONFLICT, whatever its kind (R127, R128). -/
theorem loadRecord_taken {s : State} {i : Fin 96} (h : (s.record i).checkValid = true)
    (taken : s.slot (s.record i).slotNum ≠ .free) : loadRecord i s = countConflict (raiseSequence (s.record i) s) := by
  obtain ⟨_, _, map | condemn, _⟩ := checkValid_iff.1 h
  · exact (loadRecord_map h map).trans (loadMap_taken i taken)
  · exact (loadRecord_condemn h condemn).trans (loadCondemn_taken i taken)

theorem loadCondemn_free {s : State} {r : FuseBytes} (i : Fin 96) (free : s.slot r.slotNum = .free) :
    loadCondemn r i s = countCondemned (s.putSlot r.slotNum (.retired none (some i))) := by
  unfold loadCondemn
  rw [free, ← installCondemn_free i free]

theorem loadMap_new {s : State} {r : FuseBytes} (i : Fin 96) (free : s.slot r.slotNum = .free)
    (new : ∀ j, s.hardAt (r.victim.rowAt r.slotNum) j = false) :
    loadMap r i s = countInstalled (s.putSlot r.slotNum (.hard r.victim i)) := by
  unfold loadMap
  rw [free, hardSlot_none.2 new, ← installMap_free r.victim i free]

theorem loadMap_supersedes {s : State} {r : FuseBytes} {j : SlotNum} {m : Fin 96} (i : Fin 96)
    (free : s.slot r.slotNum = .free) (old : s.slot j = .hard r.victim m)
    (found : s.hardSlot (r.victim.rowAt r.slotNum) = some j) : loadMap r i s =
      countSuperseded ((s.putSlot j (.retired (some r.victim) (some i))).putSlot r.slotNum (.hard r.victim i)) := by
  have ne : j ≠ r.slotNum := by
    rintro rfl
    rw [free] at old
    cases old
  unfold loadMap
  rw [free, found]
  dsimp only
  rw [installSupersede_hard i old, installMap_free _ _ (by rw [slot_putSlot, if_neg ne, free])]

/-- Slots of one pool store the victims of the same rows (R1). -/
theorem rowAt_congr (v : Victim) {j k : SlotNum} (pool : j.val / 4 = k.val / 4) : v.rowAt j = v.rowAt k := by
  unfold Victim.rowAt
  rw [show j.val / 16 = k.val / 16 by omega, pool]

/-- Settles O7. -/
theorem loadStepAppliesTheRecord : Obligations.LoadStepAppliesTheRecord := by
  refine ⟨fuseRecordsShown, fun _ _ => rfl, fun s r k => hardAt_iff, fun s i low state left => ?_⟩
  have next {t : State} (h : loadRecord i s = t) : exec .loadStep s = .next (putLoading (i.val + 1) t) := by
    rw [← h, ← loadStep_next state left]
    exact live_run low
  refine ⟨fun torn => ?_, fun fin bad => ?_, fun valid taken => ?_, fun valid free kind => ?_,
    fun valid free kind new => ?_, fun j m valid free kind old only pool => ?_⟩
  · exact next (loadRecord_torn torn)
  · exact next (loadRecord_corrupt fin bad)
  · exact next (loadRecord_taken valid taken)
  · exact next ((loadRecord_condemn valid kind).trans (loadCondemn_free i free))
  · exact next ((loadRecord_map valid kind).trans (loadMap_new i free new))
  · have found : s.hardSlot ((s.record i).victim.rowAt (s.record i).slotNum) = some j :=
      hardSlot_unique (hardAt_iff.2 ⟨_, m, old, rowAt_congr _ pool⟩) only
    exact next ((loadRecord_map valid kind).trans (loadMap_supersedes i free old found))

/-- What the enable does to the engine while the device runs (R144). -/
theorem applyEngineEnable_stopped {s : State} (stopped : s.engine.state = .stopped) (running : s.device = .running) :
    applyEngineEnable s =
      { s with engine := { s.engine with state := if s.config.engineEnable then .idle else .stopped } } := by
  unfold applyEngineEnable
  rw [stopped]
  dsimp only
  cases enable : s.config.engineEnable with
  | true => rw [if_pos ⟨rfl, running⟩, if_pos rfl]
  | false => rw [if_neg fun h => Bool.noConfusion h.1, if_neg Bool.false_ne_true, ← stopped]

/-- What a decision of R109 leaves the scrubber as (R110). -/
theorem decideScrub_scrub {s : State} {target : ScrubState} (h : s.scrubTarget = target) : (decideScrub s).scrub =
    if s.scrub.state = target then s.scrub
    else if target = .running then { s.scrub with state := .running, timer := .running s.config.interval.toNat }
    else { s.scrub with state := target, timer := .stopped, waiting := false } := by
  subst h
  split
  · next e => rw [decideScrub_of_eq e]
  · next ne =>
    split
    · next run => rw [decideScrub_start ne run]
    · next stop => rw [decideScrub_stop ne stop]

/-- The state of an ended load that the scrubber judges (R129). -/
def loadEnded (s : State) : State := { s with
  device := .running
  fuse := { s.fuse with state := .idle }
  arrivals := s.arrivals ++ [⟨.fuseStore, ⟨.fuseLoad s.fuse.counts s.fuse.writePos, s.tally.epoch⟩⟩]
  engine := { s.engine with state := if s.config.engineEnable then .idle else .stopped } }

theorem loadEnded_same (s : State) : SameBut [.device, .fuse, .arrivals, .engine] s (loadEnded s) :=
  .of fun b => by cases b <;> first | exact .inr rfl | exact .inl (by decide)

theorem loadEnd_ended {s : State} {n : Nat} (state : s.fuse.state = .loading n) (ended : s.fuse.writePos ≤ n)
    (stopped : s.engine.state = .stopped) : loadEnd s = settle (decideScrub (loadEnded s)) := by
  unfold loadEnd
  rw [state]
  dsimp only
  rw [if_neg (Nat.not_lt.2 ended)]
  exact congrArg (fun t => settle (decideScrub t)) (applyEngineEnable_stopped
    (s := produce .fuseStore (.fuseLoad s.fuse.counts s.fuse.writePos) (fuseIdle { s with device := .running }))
    stopped rfl)

/-- Settles O8. -/
theorem loadEndStartsTheDevice : Obligations.LoadEndStartsTheDevice := by
  intro s n low state ended stopped target
  have keeps := decideScrub_same (loadEnded s)
  have targets : (loadEnded s).scrubTarget = target := by
    unfold State.scrubTarget
    rw [show (loadEnded s).device = .running from rfl]
    simp only [reduceCtorEq, false_or]
    rfl
  refine ⟨decideScrub (loadEnded s), (live_run low).trans (congrArg Host.Outcome.next (loadEnd_ended state ended stopped)),
    keeps .device (by decide), keeps .fuse (by decide), keeps .arrivals (by decide), keeps .engine (by decide),
    decideScrub_scrub targets, (loadEnded_same s).comp keeps (by decide) (by decide)⟩

/-! ## Link-up -/

/-- The state of a raised link that the scrubber judges (R67). -/
def linkRaised (s : State) : State := { s with
  link := ⟨true, s.link.outbound⟩
  arrivals := s.arrivals ++ [⟨.arrayLink, ⟨.linkChange true, s.tally.epoch⟩⟩]
  port := { s.port with flags := { s.port.flags with link := true } } }

theorem linkRaised_same (s : State) : SameBut [.link, .arrivals, .port] s (linkRaised s) :=
  .of fun b => by cases b <;> first | exact .inr rfl | exact .inl (by decide)

theorem takeLinkUp_down {s : State} (down : s.link.up = false) :
    takeLinkUp s = settleOps (decideScrub (linkRaised s)) := if_neg (by simp [down])

/-- Settles O9. -/
theorem linkUpIsReportedAndServesWaiters : Obligations.LinkUpIsReportedAndServesWaiters := by
  intro s low target
  refine ⟨fun up => (live_run low).trans (congrArg Host.Outcome.next (if_pos up)), fun down => ?_⟩
  have keeps := decideScrub_same (linkRaised s)
  have targets : (linkRaised s).scrubTarget = target := by
    unfold State.scrubTarget
    rw [show (linkRaised s).link.up = true from rfl]
    simp only [Bool.true_eq_false, if_false]
    rfl
  exact ⟨decideScrub (linkRaised s), (live_run low).trans (congrArg Host.Outcome.next (takeLinkUp_down down)),
    keeps .link (by decide), keeps .arrivals (by decide), keeps .port (by decide), decideScrub_scrub targets,
    (linkRaised_same s).comp keeps (by decide) (by decide)⟩

end Sys2Proof.Machine

namespace Sys2Proof.Machine

/-! ## Link-down -/

theorem linkDownTag_counts (t : TagNum) (s : State) : (linkDownTag t s).tracker.staleDone = s.tracker.staleDone ∧
    (linkDownTag t s).tracker.retries = s.tracker.retries := by
  unfold linkDownTag
  split
  · exact ⟨rfl, rfl⟩
  · exact ⟨rfl, rfl⟩
  · next h _ =>
    have : (release t h s).tracker = (s.putTag t .free).tracker := drainFor_same h.op _ .tracker (by decide)
    rw [this]
    exact ⟨rfl, rfl⟩

theorem linkDownTags_counts (s : State) : (linkDownTags s).tracker.staleDone = s.tracker.staleDone ∧
    (linkDownTags s).tracker.retries = s.tracker.retries := by
  have walk : ∀ (l : List TagNum) (t : State),
      (l.foldl (fun u n => linkDownTag n u) t).tracker.staleDone = t.tracker.staleDone ∧
        (l.foldl (fun u n => linkDownTag n u) t).tracker.retries = t.tracker.retries := by
    intro l
    induction l with
    | nil => exact fun _ => ⟨rfl, rfl⟩
    | cons n l ih =>
      intro t
      obtain ⟨stale, retries⟩ := ih (linkDownTag n t)
      exact ⟨stale.trans (linkDownTag_counts n t).1, retries.trans (linkDownTag_counts n t).2⟩
  exact walk tagNumbers s

/-- The link, the tags and the reports once a link-down has released the tags (R68, R86). -/
def linkFallen (s : State) : State := linkDownTags (linkChange false { s with link := ⟨false, []⟩ })

theorem linkFallen_same (s : State) : SameBut [.link, .tracker, .slots, .arrivals, .port] s (linkFallen s) :=
  ((putLink_same _ s).comp (linkChange_same _ false) (n := [.link, .arrivals, .port]) (by decide) (by decide)).comp
    (linkDownTags_same _) (by decide) (by decide)

theorem linkFallen_drained (s : State) : Drained s (linkFallen s) := linkDownTags_drained _

theorem linkFallen_tag (s : State) (t : TagNum) : (linkFallen s).tag t = .free := linkDownTags_tag _ t

theorem copyHeld_free {s : State} (h : ∀ t, s.tag t = .free) (k : SlotNum) : s.copyHeld k = false := by
  by_contra held
  obtain ⟨t, _, _, _, out | quarantined, _⟩ := (copyHeld_iff s k).1 (Bool.eq_true_of_not_eq_false held)
  · rw [h] at out
    cases out
  · rw [h] at quarantined
    cases quarantined

theorem abandonCopy_free {s : State} (h : ∀ t, s.tag t = .free) (c : Context) : abandonCopy c s = s := by
  unfold abandonCopy
  split
  · next t _ =>
    unfold abandon
    rw [h]
  · rfl

/-- The state of a lost link before the migration's job completes (R61). -/
def linkEnded (s : State) : State :=
  match s.migration with
  | some c => (releaseTarget c (linkFallen s)).putContext none
  | none => linkFallen s

theorem linkEnded_some {s : State} {c : Context} (m : s.migration = some c) :
    linkEnded s = (releaseTarget c (linkFallen s)).putContext none := by
  unfold linkEnded
  rw [m]

theorem linkEnded_none {s : State} (m : s.migration = none) : linkEnded s = linkFallen s := by
  unfold linkEnded
  rw [m]

theorem linkEnded_apart (s : State) : SameBut [.slots, .migration] (linkFallen s) (linkEnded s) := by
  cases m : s.migration with
  | none =>
    rw [linkEnded_none m]
    exact .refl _ _
  | some c =>
    rw [linkEnded_some m]
    exact (releaseTarget_same c _).comp (putContext_same _ _) (by decide) (by decide)

theorem linkEnded_migration (s : State) : (linkEnded s).migration = none := by
  cases m : s.migration with
  | none =>
    rw [linkEnded_none m]
    exact (linkFallen_same s .migration (by decide)).trans m
  | some c =>
    rw [linkEnded_some m]
    rfl

theorem linkEnded_kept {s : State} {k : SlotNum} (h : ∀ v, (linkFallen s).slot k ≠ .reserved v) :
    (linkEnded s).slot k = (linkFallen s).slot k := by
  cases m : s.migration with
  | none => rw [linkEnded_none m]
  | some c =>
    rw [linkEnded_some m]
    exact (releaseTarget_slots c (linkFallen s) k).2 (.inr (.inr h))

theorem linkEnded_target {s : State} {c : Context} {k : SlotNum} {v : Victim} (m : s.migration = some c)
    (direction : c.direction ≠ .revert) (target : c.target = .slot k) (reserved : s.slot k = .reserved v) :
    (linkEnded s).slot k = .free := by
  rw [linkEnded_some m]
  have still : (linkFallen s).slot k = .reserved v := (linkFallen_drained s).on reserved (by simp)
  refine ((releaseTarget_slots c (linkFallen s) k).1 v direction target still).trans (if_neg ?_)
  rw [copyHeld_free (linkFallen_tag s)]
  decide

theorem linkLost_none {s : State} (m : s.migration = none) : linkLost s = linkEnded s := by
  have kept : (linkFallen s).migration = none := (linkFallen_same s .migration (by decide)).trans m
  rw [linkEnded_none m]
  show abortMigration .linkLost (linkFallen s) = _
  unfold abortMigration
  rw [kept]

theorem linkLost_some {s : State} {c : Context} (m : s.migration = some c) :
    linkLost s = completeInFlight ⟨.linkLost, c.slotUsed, c.issued⟩ (linkEnded s) := by
  have kept : (linkFallen s).migration = some c := (linkFallen_same s .migration (by decide)).trans m
  rw [linkEnded_some m]
  show abortMigration .linkLost (linkFallen s) = _
  unfold abortMigration abortContext
  rw [kept]
  dsimp only
  rw [abandonCopy_free (linkFallen_tag s)]

theorem takeLinkDown_none {s : State} (up : s.link.up = true) (m : s.migration = none) :
    takeLinkDown s = settleReports (decideScrub (linkEnded s)) := by
  unfold takeLinkDown
  rw [if_pos up, linkLost_none m, m]
  exact if_neg Bool.false_ne_true

theorem takeLinkDown_some {s : State} {c : Context} (up : s.link.up = true) (m : s.migration = some c) : takeLinkDown s =
    settle (decideScrub (completeInFlight ⟨.linkLost, c.slotUsed, c.issued⟩ (linkEnded s))) := by
  unfold takeLinkDown
  rw [if_pos up, linkLost_some m, m]
  exact if_pos rfl

/-- A QUARANTINED tag's COPY no longer holds its DRAINING slot (R85). -/
theorem linkFallen_draining {s : State} {k : SlotNum} {v : Victim} {t : TagNum} {h : HeldOp} {r : RowAddr} {a : Location}
    (draining : s.slot k = .draining v) (quarantined : s.tag t = .quarantined h) (op : h.op = .copy r a (.slot k)) :
    (linkFallen s).slot k = .free := by
  rcases linkFallen_drained s k with same | ⟨_, free⟩
  · exact absurd (same.trans draining) (linkDownTags_here
      (s := linkChange false { s with link := ⟨false, []⟩ }) quarantined op v)
  · exact free

/-- Settles O10: the migration's target is released after the tags, so no COPY into it is held. -/
theorem linkDownReleasesTagsAndMigration : Obligations.LinkDownReleasesTagsAndMigration := by
  intro s low
  refine ⟨fun down => (live_run low).trans (congrArg Host.Outcome.next (if_neg (by simp [down]))),
    fun _ _ => slotUsed_target, fun _ _ => slotUsed_source, fun up => ?_⟩
  have apart := linkEnded_apart s
  have frame := (linkFallen_same s).comp apart (n := [.link, .tracker, .slots, .arrivals, .port, .migration])
    (by decide) (by decide)
  have tags := linkDownTags_same (linkChange false { s with link := ⟨false, []⟩ })
  have counts := linkDownTags_counts (linkChange false { s with link := ⟨false, []⟩ })
  have tracker : (linkEnded s).tracker = (linkFallen s).tracker := apart .tracker (by decide)
  refine ⟨linkEnded s, fun m => (live_run low).trans (congrArg Host.Outcome.next (takeLinkDown_none up m)),
    fun c m => (live_run low).trans (congrArg Host.Outcome.next (takeLinkDown_some up m)),
    (apart .link (by decide)).trans (tags .link (by decide)), fun t => ?_, ?_, ?_, linkEnded_migration s,
    (apart .arrivals (by decide)).trans (tags .arrivals (by decide)),
    (apart .port (by decide)).trans (tags .port (by decide)),
    fun k v t h r a draining quarantined op => ?_, fun c k v m direction target reserved => ?_,
    fun k draining reserved => ?_, frame⟩
  · exact (congrArg (fun x : Tracker => x.tags.get t) tracker).trans (linkFallen_tag s t)
  · exact (congrArg Tracker.staleDone tracker).trans counts.1
  · exact (congrArg Tracker.retries tracker).trans counts.2
  · have free := linkFallen_draining draining quarantined op
    exact (linkEnded_kept (by simp [free])).trans free
  · exact linkEnded_target m direction target reserved
  · have kept : (linkFallen s).slot k = s.slot k :=
      (linkFallen_drained s k).resolve_right fun ⟨⟨v, h⟩, _⟩ => draining v h
    exact (linkEnded_kept fun v h => reserved v (kept.symm.trans h)).trans kept

end Sys2Proof.Machine

namespace Sys2Proof.Machine

/-! ## Queries -/

theorem arrivals_cleared {s : State} (h : s.arrivals = []) : { s with arrivals := [] } = s := by
  rw [← h]

theorem takeQuery_up {s : State} (up : s.link.up = true) (id : BitVec 8) (kind : BitVec 2) (w : Word) :
    takeQuery id kind w s = settleReports (send (.answer id (s.queryLine (.ofWord w)).verdict)
      ((s.queryLine (.ofWord w)).effect (.ofWord w) (isWrite kind) s)) := if_pos up

/-- A query whose line produces no report ends with its ANSWER. -/
theorem exec_query_quiet {s t : State} {w : Word} {l : QueryLine} (low : s.resetLow = false) (up : s.link.up = true)
    (id : BitVec 8) (kind : BitVec 2) (line : s.queryLine (.ofWord w) = l)
    (effect : l.effect (.ofWord w) (isWrite kind) s = t) (quiet : t.arrivals = []) :
    exec (.query id kind w) s = .next (send (.answer id l.verdict) t) := by
  refine (live_run low).trans (congrArg Host.Outcome.next ?_)
  rw [takeQuery_up up, line, effect]
  exact settleReports_nil quiet

/-! ### The line that decides -/

section
variable {s : State} {r : RowAddr}

theorem queryLine_loading (h : s.device = .loading) : s.queryLine r = .loading := if_pos h

theorem queryLine_outOfRange (running : s.device = .running) (beyond : s.config.rows ≤ r.row.toNat) :
    s.queryLine r = .outOfRange := by
  unfold State.queryLine
  rw [if_neg (by rw [running]; decide), if_pos (outOfRange_of_le beyond)]

theorem queryLine_poisoned (running : s.device = .running) (inside : r.row.toNat < s.config.rows) {e : PoisonEntry}
    (poison : s.poisonEntry r = some e) : s.queryLine r = .poisoned e := by
  unfold State.queryLine
  rw [if_neg (by rw [running]; decide), if_neg (by rw [outOfRange_of_lt inside]; decide), poison]

theorem queryLine_clean (running : s.device = .running) (inside : r.row.toNat < s.config.rows)
    (clean : s.poisonEntry r = none) : s.queryLine r = s.contextLine r := by
  unfold State.queryLine
  rw [if_neg (by rw [running]; decide), if_neg (by rw [outOfRange_of_lt inside]; decide), clean]

theorem contextLine_fenced {c : Context} (m : s.migration = some c) (victim : c.victim = r) (phase : c.phase = .fenced) :
    s.contextLine r = .fenced := by
  unfold State.contextLine
  rw [m]
  dsimp only
  rw [if_pos victim, phase]

theorem contextLine_copying {c : Context} (m : s.migration = some c) (victim : c.victim = r)
    (phase : c.phase = .copying) : s.contextLine r = .copying c.source := by
  unfold State.contextLine
  rw [m]
  dsimp only
  rw [if_pos victim, phase]

theorem contextLine_other (other : ∀ c, s.migration = some c → c.victim ≠ r) : s.contextLine r = s.mappingLine r := by
  unfold State.contextLine
  cases m : s.migration with
  | none => rfl
  | some c => exact if_neg (other c m)

theorem mappingLine_mapped {k : SlotNum} (h : s.mappedSlot r = some k) : s.mappingLine r = .mapped k := by
  unfold State.mappingLine
  rw [h]

theorem mappingLine_unmapped (h : s.mappedSlot r = none) : s.mappingLine r = .unmapped := by
  unfold State.mappingLine
  rw [h]

end

/-! ### A SPARE verdict names a slot that maps the row -/

theorem mappingLine_spare {s : State} {r : RowAddr} {k : SlotNum} (h : (s.mappingLine r).verdict = .spare k) :
    s.mapsAt r k = true := by
  cases maps : s.mappedSlot r with
  | none =>
    rw [mappingLine_unmapped maps] at h
    cases h
  | some j =>
    rw [mappingLine_mapped maps] at h
    cases h
    exact mappedSlot_mapsAt maps

/-- The source of a migration from a slot maps the victim (R43). -/
theorem ContextSlots.source_maps {s : State} {c : Context} (l : ContextSlots s c) {k : SlotNum} (h : c.source = .slot k) :
    s.mapsAt c.victim k = true := by
  unfold ContextSlots at l
  cases d : c.direction with
  | forward =>
    rw [d] at l
    rw [l.1] at h
    cases h
  | respare =>
    rw [d] at l
    obtain ⟨j, _, source, _, _, maps, _⟩ := l
    rw [source] at h
    cases h
    exact maps
  | revert =>
    rw [d] at l
    obtain ⟨_, j, _, source, maps, _⟩ := l
    rw [source] at h
    cases h
    exact maps

theorem contextLine_spare {s : State} (l : MappingLaw s) {r : RowAddr} {k : SlotNum}
    (h : (s.contextLine r).verdict = .spare k) : s.mapsAt r k = true := by
  by_cases other : ∀ c, s.migration = some c → c.victim ≠ r
  · rw [contextLine_other other] at h
    exact mappingLine_spare h
  · simp only [not_forall, not_not] at other
    obtain ⟨c, m, victim⟩ := other
    cases phase : c.phase with
    | fenced =>
      rw [contextLine_fenced m victim phase] at h
      cases h
    | copying =>
      rw [contextLine_copying m victim phase] at h
      cases source : c.source with
      | row =>
        rw [source] at h
        cases h
      | slot j =>
        rw [source] at h
        cases h
        exact victim ▸ (l.context c m).source_maps source

theorem queryLine_spare {s : State} (l : MappingLaw s) {r : RowAddr} {k : SlotNum}
    (h : (s.queryLine r).verdict = .spare k) : s.mapsAt r k = true := by
  unfold State.queryLine at h
  split at h
  · cases h
  · split at h
    · cases h
    · split at h
      · cases h
      · exact contextLine_spare l h

theorem effect_link (l : QueryLine) (r : RowAddr) (write : Bool) (s : State) : (l.effect r write s).link = s.link := by
  cases l with
  | poisoned e =>
    unfold QueryLine.effect
    dsimp only
    split
    · rfl
    · rfl
  | copying source =>
    cases write with
    | false => rfl
    | true => exact dirtyClaim_same s .link (by decide)
  | _ => rfl

/-- Settles O12. -/
theorem everyQueryGetsOneTrueAnswer : Obligations.EveryQueryGetsOneTrueAnswer := by
  intro id kind w s low up law
  refine ⟨_, (s.queryLine (.ofWord w)).verdict, live_run low, ?_, fun k h => queryLine_spare law h⟩
  rw [takeQuery_up up, settleReports_same _ .link (by decide), send_link, effect_link, up]

/-- Settles O13. -/
theorem queryWhileLoadingOrBeyondR : Obligations.QueryWhileLoadingOrBeyondR :=
  fun id kind _ _ low up taken =>
    ⟨fun loading => exec_query_quiet low up id kind (queryLine_loading loading) rfl taken,
      fun running beyond => exec_query_quiet low up id kind (queryLine_outOfRange running beyond) rfl taken⟩

/-! ### Poisoned rows -/

theorem poisoned_iff {s : State} {r : RowAddr} : s.poisoned r = true ↔ ∃ e ∈ s.query.poison, e.row = r := by
  simp [State.poisoned]

theorem poisonEntry_none {s : State} {r : RowAddr} : s.poisonEntry r = none ↔ ∀ e ∈ s.query.poison, e.row ≠ r := by
  simp [State.poisonEntry]

theorem poisonEntry_iff {s : State} {r : RowAddr} {e : PoisonEntry} : s.poisonEntry r = some e ↔
    ∃ n, s.query.poison[n]? = some e ∧ e.row = r ∧
      ∀ (m : Nat) (f : PoisonEntry), m < n → s.query.poison[m]? = some f → f.row ≠ r := by
  unfold State.poisonEntry
  rw [List.find?_eq_some_iff_getElem]
  simp only [decide_eq_true_eq, Bool.not_eq_eq_eq_not, Bool.not_true, decide_eq_false_iff_not]
  constructor
  · rintro ⟨row, n, len, here, first⟩
    refine ⟨n, List.getElem?_eq_some_iff.2 ⟨len, here⟩, row, fun m f lt at? => ?_⟩
    obtain ⟨_, rfl⟩ := List.getElem?_eq_some_iff.1 at?
    exact first m lt
  · rintro ⟨n, at?, row, first⟩
    obtain ⟨len, here⟩ := List.getElem?_eq_some_iff.1 at?
    exact ⟨row, n, len, here, fun m lt => first m _ lt (List.getElem?_eq_some_iff.2 ⟨lt.trans len, rfl⟩)⟩

/-- Settles O14. -/
theorem queryOfPoisonedRow : Obligations.QueryOfPoisonedRow := by
  refine ⟨fun s r => ⟨poisoned_iff, poisonEntry_none, fun e => poisonEntry_iff⟩,
    fun id kind w s e low up taken running inside poison => ?_⟩
  have line := queryLine_poisoned running inside poison
  refine ⟨fun reported => exec_query_quiet low up id kind line (if_pos reported) taken, fun unreported => ?_⟩
  let u := send (.answer id .poison) (hitPoison (.ofWord w) s)
  let a : Arrival := ⟨.queryResponder, ⟨.poisonHit (.ofWord w) e.origin, s.tally.epoch⟩⟩
  have effect : (QueryLine.poisoned e).effect (.ofWord w) (isWrite kind) s =
      produce .queryResponder (.poisonHit (.ofWord w) e.origin) (hitPoison (.ofWord w) s) :=
    if_neg (by simp [unreported])
  refine (live_run low).trans (congrArg Host.Outcome.next ?_)
  rw [takeQuery_up up, line, effect]
  have one : s.arrivals ++ [a] = [a] := by
    rw [taken]
    rfl
  refine (settleReports_one (s := { u with arrivals := s.arrivals ++ [a] }) one).trans ?_
  exact congrArg (fun t => decideScrub (arrive a.report t)) (arrivals_cleared (s := u) taken)

/-! ### The other rows -/

theorem dirtyClaim_some {s : State} {c : Context} (m : s.migration = some c) :
    dirtyClaim s = s.putContext (some { c with dirty := true }) := by
  unfold dirtyClaim
  rw [m]

/-- Settles O15. -/
theorem queryOfMigratingVictim : Obligations.QueryOfMigratingVictim := by
  intro id kind w s c low up taken running inside clean m victim
  have line := queryLine_clean running inside clean
  refine ⟨fun phase => exec_query_quiet low up id kind (line.trans (contextLine_fenced m victim phase)) rfl taken,
    fun phase => ?_⟩
  have effect : (QueryLine.copying c.source).effect (.ofWord w) (isWrite kind) s =
      { s with migration := some { c with dirty := c.dirty || kind != 1 } } := by
    unfold QueryLine.effect isWrite
    dsimp only
    cases kind != 1 with
    | true =>
      rw [if_pos rfl, dirtyClaim_some m, Bool.or_true]
      rfl
    | false => rw [if_neg Bool.false_ne_true, Bool.or_false, ← m]
  exact exec_query_quiet low up id kind (line.trans (contextLine_copying m victim phase)) effect taken

/-- Settles O16. -/
theorem queryOfMappedOrUnmappedRow : Obligations.QueryOfMappedOrUnmappedRow := by
  refine ⟨fun s r k v => ⟨mapsAt_victim, mapsAt_none⟩, fun s r => ⟨mappedSlot_none, fun k => mappedSlot_mapsAt⟩,
    fun id kind w s low up taken running inside clean other => ?_⟩
  have line := (queryLine_clean running inside clean).trans (contextLine_other other)
  exact ⟨fun k maps only => exec_query_quiet low up id kind
      (line.trans (mappingLine_mapped (mappedSlot_unique maps only))) rfl taken,
    fun unmapped => exec_query_quiet low up id kind
      (line.trans (mappingLine_unmapped (mappedSlot_none.2 unmapped))) rfl taken⟩

end Sys2Proof.Machine

namespace Sys2Proof.Machine

/-! ## The current location of a row (R92) -/

section
variable {s : State} {r : RowAddr}

theorem location_victim {c : Context} (m : s.migration = some c) (victim : c.victim = r) : s.location r = c.source := by
  unfold State.location
  rw [m]
  exact if_pos victim

theorem location_mapped {k : SlotNum} (other : ∀ c, s.migration = some c → c.victim ≠ r) (h : s.mappedSlot r = some k) :
    s.location r = .slot k := by
  unfold State.location
  rw [h]
  cases m : s.migration with
  | none => rfl
  | some c => exact if_neg (other c m)

theorem location_unmapped (other : ∀ c, s.migration = some c → c.victim ≠ r) (h : s.mappedSlot r = none) :
    s.location r = .row := by
  unfold State.location
  rw [h]
  cases m : s.migration with
  | none => rfl
  | some c => exact if_neg (other c m)

end

/-! ## Stale notes -/

theorem agrees_iff {s : State} {n : Note} : s.agrees n = true ↔ n.loc = s.location n.row := decide_eq_true_iff

/-- Settles O17. -/
theorem staleErrNoteIsOnlyCounted : Obligations.StaleErrNoteIsOnlyCounted := by
  intro atSlot k unc bits w s low up r
  refine ⟨fun stale => (live_run low).trans (congrArg Host.Outcome.next ((if_pos up).trans ?_)),
    fun _ => location_victim, fun other j maps only => location_mapped other (mappedSlot_unique maps only),
    fun other unmapped => location_unmapped other (mappedSlot_none.2 unmapped)⟩
  dsimp only
  by_cases beyond : s.device = .loading ∨ s.outOfRange r = true
  · exact if_pos beyond
  · have elsewhere : Location.ofMark atSlot k ≠ s.location r := by
      rcases stale with loading | out | elsewhere
      · exact absurd (.inl loading) beyond
      · exact absurd (.inr (outOfRange_of_le out)) beyond
      · exact elsewhere
    exact (if_neg beyond).trans (if_neg fun agrees => elsewhere (agrees_iff.1 agrees))

/-! ## What an agreeing note does, by the queue decision -/

/-- The reports of a note that promotes its entry (R97, R98). -/
def Note.promotion (n : Note) (e : TallyEntry) (o : QueueOutcome) (epoch : BitVec 32) : List Arrival :=
  n.reports false epoch ++ [⟨.errorTally, ⟨.candidate e.row e.loc e.count n.bad o
    (if n.bad then .uncorrectable else .threshold), epoch⟩⟩]

section
variable {s : State} {n : Note} {p : Fin 32} {e : TallyEntry} (h : s.noted n p e)
  (due : n.bad = true ∨ s.config.threshold.toNat ≤ e.count)
include h due

/-- A promoted entry whose row does not join the candidate queue. -/
theorem recordNote_unqueued {o : QueueOutcome} (outcome : s.queueOutcome e.loc = o) (ne : o ≠ .queued) :
    recordNote n s = { s.putEntry p (some { e with state := .candidate }) with
      arrivals := s.arrivals ++ n.promotion e o s.tally.epoch } := by
  have off : (o == QueueOutcome.queued) = false := beq_eq_false_iff_ne.2 ne
  rw [recordNote_promoted h due, outcome, off, if_neg ne, List.append_nil, Bool.or_false, List.append_assoc]
  rfl

/-- A promoted entry whose row joins the candidate queue. -/
theorem recordNote_queued (outcome : s.queueOutcome e.loc = .queued) : recordNote n s = { s with
    tally := { s.tally with
      entries := s.tally.entries.set p (some { e with state := .candidate, queued := true })
      queue := s.tally.queue ++ [e.row] }
    arrivals := s.arrivals ++ n.promotion e .queued s.tally.epoch } := by
  rw [recordNote_promoted h due, outcome, if_pos rfl, List.append_assoc, beq_self_eq_true, Bool.or_true]
  rfl

end

theorem settleFrom_kept {a b : State} (h : b.tally.queue = a.tally.queue) : settleFrom a b = settleReports b := if_pos h

theorem settleFrom_grown {a b : State} (h : b.tally.queue ≠ a.tally.queue) : settleFrom a b = settle b := if_neg h

theorem classOf_bad {r : RowAddr} {l : Location} {src : NoteSource} (unc : Bool) (bits : BitVec 4) :
    Note.bad ⟨r, l, classOf unc bits, src⟩ = unc := by
  cases unc <;> rfl

theorem append_ne_self {α : Type} (l : List α) (x : α) : l ++ [x] ≠ l := by
  simp

section
variable {s : State} {atSlot : Bool} {k : SlotNum} {unc : Bool} {bits : BitVec 4} {w : Word}

/-- The note an ERR_NOTE carries (R70). -/
def linkNote (atSlot : Bool) (k : SlotNum) (unc : Bool) (bits : BitVec 4) (w : Word) : Note :=
  ⟨.ofWord w, .ofMark atSlot k, classOf unc bits, .link⟩

theorem exec_errNote_agreeing (low : s.resetLow = false) (up : s.link.up = true) (running : s.device = .running)
    (inside : (RowAddr.ofWord w).row.toNat < s.config.rows) (here : Location.ofMark atSlot k = s.location (.ofWord w)) :
    exec (.errNote atSlot k unc bits w) s =
      .next (settleFrom s (recordNote (linkNote atSlot k unc bits w) s)) := by
  have agrees : s.agrees (linkNote atSlot k unc bits w) = true := agrees_iff.2 here
  have taken : ¬(s.device = .loading ∨ s.outOfRange (.ofWord w) = true) := by
    rw [running, outOfRange_of_lt inside]
    decide
  refine (live_run low).trans (congrArg Host.Outcome.next ?_)
  refine (if_pos up).trans ((if_neg taken).trans ((if_pos agrees).trans ?_))
  exact congrArg (settleFrom s) (if_pos agrees)

theorem linkNote_reports (untracked : Bool) (epoch : BitVec 32) : (linkNote atSlot k unc bits w).reports untracked epoch =
    if unc then [⟨.errorTally, ⟨.uncorrectable (.ofWord w) (.ofMark atSlot k) .link untracked, epoch⟩⟩] else [] := by
  unfold Note.reports
  rw [show (linkNote atSlot k unc bits w).bad = unc from classOf_bad unc bits]
  rfl

theorem linkNote_promotion (e : TallyEntry) (o : QueueOutcome) (epoch : BitVec 32) :
    (linkNote atSlot k unc bits w).promotion e o epoch =
      (if unc then [⟨.errorTally, ⟨.uncorrectable (.ofWord w) (.ofMark atSlot k) .link false, epoch⟩⟩] else []) ++
        [⟨.errorTally, ⟨.candidate e.row e.loc e.count unc o (if unc then .uncorrectable else .threshold), epoch⟩⟩] := by
  unfold Note.promotion
  rw [linkNote_reports, show (linkNote atSlot k unc bits w).bad = unc from classOf_bad unc bits]

end

/-- Settles O18. -/
theorem agreeingNoteIsRecordedAndTested : Obligations.AgreeingNoteIsRecordedAndTested := by
  refine ⟨fun s => ⟨freePosition_none, fun p => freePosition_iff⟩,
    fun s r => ⟨findEntry_none_iff, fun p e => findEntry_iff⟩,
    ?_⟩
  intro atSlot k unc bits w s p e low up taken running r l inside here found
  let n := linkNote atSlot k unc bits w
  have bad : n.bad = unc := classOf_bad unc bits
  have noted : s.noted n p e := by
    unfold State.noted
    rw [bad]
    exact found
  have note {t u : State} (h : recordNote n s = t) (ends : settleFrom s t = u) :
      exec (.errNote atSlot k unc bits w) s = .next u := by
    rw [exec_errNote_agreeing low up running inside here, ← ends, ← h]
  have reports (o : QueueOutcome) : s.arrivals ++ n.promotion e o s.tally.epoch =
      (if unc then [⟨.errorTally, ⟨.uncorrectable r l .link false, s.tally.epoch⟩⟩] else []) ++
        [⟨.errorTally, ⟨.candidate e.row e.loc e.count unc o (if unc then .uncorrectable else .threshold),
          s.tally.epoch⟩⟩] := by
    rw [taken, List.nil_append]
    exact linkNote_promotion e o s.tally.epoch
  have unqueued {o : QueueOutcome} (due : unc = true ∨ s.config.threshold.toNat ≤ e.count)
      (outcome : s.queueOutcome e.loc = o) (ne : o ≠ .queued) := note (recordNote_unqueued noted (bad ▸ due) outcome ne)
        (settleFrom_kept rfl)
  simp only [reports] at unqueued
  refine ⟨fun good below => ?_, fun due permits => unqueued due (queueOutcome_no permits) (by decide),
    fun due permits full => unqueued due (queueOutcome_full permits full) (by decide), fun due permits room => ?_⟩
  · exact note (recordNote_counted noted (bad.trans good) below) ((settleFrom_kept rfl).trans (settleReports_nil taken))
  · refine note ((recordNote_queued noted (bad ▸ due) (queueOutcome_room permits room)).trans ?_)
      (settleFrom_grown (append_ne_self s.tally.queue e.row))
    rw [reports]

/-- Settles O19. -/
theorem noteForCandidateOrFullTally : Obligations.NoteForCandidateOrFullTally := by
  intro atSlot k unc bits w s low up taken running r l inside here
  let n := linkNote atSlot k unc bits w
  have note {t : State} (h : recordNote n s = t) (queue : t.tally.queue = s.tally.queue) :
      exec (.errNote atSlot k unc bits w) s = .next (settleReports t) := by
    rw [exec_errNote_agreeing low up running inside here, ← settleFrom_kept queue, ← h]
  refine ⟨fun p e found candidate => ?_, fun absent full evictee => ?_⟩
  · let u : State := s.putEntry p (some { e with
      count := if e.count < 15 then e.count + 1 else e.count
      lastEpoch := s.tally.epoch
      uncorrectable := e.uncorrectable || unc })
    have recorded := recordNote_candidate (n := n) found candidate
    rw [show n.bad = unc from classOf_bad unc bits] at recorded
    refine (note recorded rfl).trans (congrArg Host.Outcome.next ?_)
    show settleReports { u with arrivals := s.arrivals ++ if e.uncorrectable then [] else n.reports false s.tally.epoch } =
      if unc = true ∧ e.uncorrectable = false then
        decideScrub (arrive ⟨.uncorrectable r l .link false, s.tally.epoch⟩ u) else u
    rw [taken, List.nil_append, linkNote_reports]
    have quiet : settleReports { u with arrivals := [] } = u :=
      (settleReports_nil rfl).trans (arrivals_cleared taken)
    cases e.uncorrectable with
    | true => exact quiet.trans (if_neg fun h => Bool.noConfusion h.2).symm
    | false =>
      cases unc with
      | false => exact quiet.trans (if_neg fun h => Bool.noConfusion h.1).symm
      | true =>
        refine ((settleReports_one rfl).trans ?_).trans (if_pos ⟨rfl, rfl⟩).symm
        exact congrArg (fun t => decideScrub (arrive ⟨.uncorrectable r l .link false, s.tally.epoch⟩ t))
          (arrivals_cleared (s := u) taken)
  · refine (note (recordNote_full absent full evictee) rfl).trans ?_
    rw [taken, linkNote_reports]
    rfl

/-! ## The entry evicted (R95) -/

/-- The entry `e` at `p` is evicted before `f` at `q`, or is the same one. -/
def State.evictedBefore (s : State) (p : Fin 32) (e : TallyEntry) (q : Fin 32) (f : TallyEntry) : Prop :=
  e.count < f.count ∨ (e.count = f.count ∧ f.age s.tally.epoch < e.age s.tally.epoch) ∨
    (e.count = f.count ∧ f.age s.tally.epoch = e.age s.tally.epoch ∧ p ≤ q)

/-- `best` is the entry of the positions `pre` that is evicted before every other. -/
def State.Weakest (s : State) (pre : List (Fin 32)) : Option (Fin 32 × TallyEntry) → Prop
  | some (p, e) => s.entry p = some e ∧ e.state = .tracking ∧
      ∀ q ∈ pre, ∀ f, s.entry q = some f → f.state = .tracking → s.evictedBefore p e q f
  | none => ∀ q ∈ pre, ∀ f, s.entry q = some f → f.state = .candidate

section
variable {s : State} {pre : List (Fin 32)} {p : Fin 32}

theorem State.Weakest.skip {best : Option (Fin 32 × TallyEntry)} (w : s.Weakest pre best)
    (h : ∀ e, s.entry p = some e → e.state = .candidate) : s.Weakest (pre ++ [p]) best := by
  cases best with
  | none =>
    intro q mem f entry
    rcases List.mem_append.1 mem with mem | mem
    · exact w q mem f entry
    · rw [List.mem_singleton.1 mem] at entry
      exact h f entry
  | some x =>
    obtain ⟨here, tracking, first⟩ := w
    refine ⟨here, tracking, fun q mem f entry ft => ?_⟩
    rcases List.mem_append.1 mem with mem | mem
    · exact first q mem f entry ft
    · rw [List.mem_singleton.1 mem] at entry
      rw [h f entry] at ft
      cases ft

theorem State.Weakest.first {e : TallyEntry} (w : s.Weakest pre none) (entry : s.entry p = some e) (tracking : e.state = .tracking) :
    s.Weakest (pre ++ [p]) (some (p, e)) := by
  refine ⟨entry, tracking, fun q mem f at? ft => ?_⟩
  rcases List.mem_append.1 mem with mem | mem
  · rw [w q mem f at?] at ft
    cases ft
  · rw [List.mem_singleton.1 mem, entry] at at?
    cases at?
    exact .inr (.inr ⟨rfl, rfl, (List.mem_singleton.1 mem).ge⟩)

theorem weaker_iff {epoch : BitVec 32} {e f : TallyEntry} : e.weaker epoch f = true ↔
    e.count < f.count ∨ (e.count = f.count ∧ f.age epoch < e.age epoch) := by
  simp [TallyEntry.weaker]

/-- The weaker of the best so far and the entry at the next position is the best of both. -/
theorem State.Weakest.next {q : Fin 32} {e f : TallyEntry} (w : s.Weakest pre (some (q, f))) (below : ∀ n ∈ pre, n < p)
    (mem : q ∈ pre) (entry : s.entry p = some e) (tracking : e.state = .tracking) :
    s.Weakest (pre ++ [p]) (if e.weaker s.tally.epoch f then some (p, e) else some (q, f)) := by
  obtain ⟨here, ft, first⟩ := w
  split
  · next weaker =>
    have strict := weaker_iff.1 weaker
    refine ⟨entry, tracking, fun n mem g at? gt => ?_⟩
    rcases List.mem_append.1 mem with mem | mem
    · have := first n mem g at? gt
      unfold State.evictedBefore at this ⊢
      omega
    · rw [List.mem_singleton.1 mem, entry] at at?
      cases at?
      exact .inr (.inr ⟨rfl, rfl, (List.mem_singleton.1 mem).ge⟩)
  · next stronger =>
    have lt := below q mem
    refine ⟨here, ft, fun n mem g at? gt => ?_⟩
    rcases List.mem_append.1 mem with mem | mem
    · exact first n mem g at? gt
    · rw [List.mem_singleton.1 mem, entry] at at?
      cases at?
      rw [weaker_iff] at stronger
      rw [List.mem_singleton.1 mem]
      unfold State.evictedBefore
      omega

end

/-- The walk over the positions ends with the weakest entry of them all. -/
theorem evictFrom_weakest {s : State} : ∀ (l pre : List (Fin 32)) (best : Option (Fin 32 × TallyEntry)),
    pre ++ l = positions → s.Weakest pre best → (∀ x, best = some x → x.1 ∈ pre) →
    ∃ last, s.Weakest positions last ∧ evictFrom s l best = last.map (·.1)
  | [], pre, best, split, w, _ => ⟨best, by rwa [← split, List.append_nil], rfl⟩
  | p :: l, pre, best, split, w, mem => by
    have split' : (pre ++ [p]) ++ l = positions := by rw [List.append_assoc]; exact split
    have kept {x : Fin 32 × TallyEntry} (h : best = some x) : x.1 ∈ pre ++ [p] := List.mem_append_left _ (mem x h)
    have new : p ∈ pre ++ [p] := List.mem_append_right _ (List.mem_singleton_self p)
    unfold evictFrom
    cases entry : s.entry p with
    | none =>
      exact evictFrom_weakest l _ best split' (State.Weakest.skip w fun e h => by rw [entry] at h; cases h) fun x h => kept h
    | some e =>
      dsimp only
      by_cases tracking : e.tracking = true
      · rw [if_pos tracking]
        have ht : e.state = .tracking := of_decide_eq_true tracking
        cases best with
        | none => exact evictFrom_weakest l _ _ split' (State.Weakest.first w entry ht) fun x h => by cases h; exact new
        | some x =>
          refine evictFrom_weakest l _ _ split'
            (State.Weakest.next w (fun n h => (positions_split split).1 n h) (mem x rfl) entry ht) fun y h => ?_
          split at h
          · cases h
            exact new
          · cases h
            exact kept rfl
      · rw [if_neg tracking]
        refine evictFrom_weakest l _ best split' (State.Weakest.skip w fun f h => ?_) fun x h => kept h
        rw [entry] at h
        cases h
        cases state : e.state with
        | candidate => rfl
        | tracking => exact absurd (decide_eq_true state) tracking

/-- Settles O20. -/
theorem evictionPicksTheWeakestTrackingEntry : Obligations.EvictionPicksTheWeakestTrackingEntry := by
  intro s
  obtain ⟨last, weakest, evicted⟩ := evictFrom_weakest (s := s) positions [] none rfl
    (fun _ h => absurd h List.not_mem_nil) fun _ h => by cases h
  have evictee : s.evictee = last.map (·.1) := evicted
  rw [evictee]
  cases last with
  | none => exact ⟨fun _ h => (by cases h), fun _ q f entry => weakest q (mem_positions q) f entry⟩
  | some x =>
    obtain ⟨entry, tracking, first⟩ := weakest
    refine ⟨fun p h => ?_, fun h => by cases h⟩
    cases h
    exact ⟨x.2, entry, tracking, fun q f at? ft => first q (mem_positions q) f at? ft⟩

end Sys2Proof.Machine

namespace Sys2Proof.Machine

/-! ## Completions by the state of their tag -/

section
variable {s : State} {t : TagNum} {h : HeldOp} {a : Fin 2} {result bits : BitVec 4}

theorem takeOpDone_valid (up : s.link.up = true) (tag : s.tag t = .outstanding h) (attempt : h.attempt = a) :
    takeOpDone t a result bits s = validDone t h result bits s := by
  unfold takeOpDone
  rw [if_pos up, tag]
  exact if_pos attempt

theorem takeOpDone_quarantined (up : s.link.up = true) (tag : s.tag t = .quarantined h) :
    takeOpDone t a result bits s = settleOps (countStaleDone (release t h s)) := by
  unfold takeOpDone
  rw [if_pos up, tag]

theorem takeQuarantineExpiry_quarantined (tag : s.tag t = .quarantined h) :
    takeQuarantineExpiry t s = settleOps (release t h s) := by
  unfold takeQuarantineExpiry
  rw [tag]

theorem release_draining {r : RowAddr} {x : Location} {k : SlotNum} {v : Victim} (op : h.op = .copy r x (.slot k))
    (draining : s.slot k = .draining v) : release t h s = (s.putTag t .free).putSlot k .free := by
  unfold release
  rw [op]
  exact drainRelease_draining (s := s.putTag t .free) draining

theorem release_plain (plain : ∀ r x k v, h.op = .copy r x (.slot k) → s.slot k ≠ .draining v) :
    release t h s = s.putTag t .free := by
  unfold release
  cases op : h.op with
  | verify => rfl
  | copy r x b =>
    cases b with
    | row => rfl
    | slot k =>
      rw [op] at plain
      exact drainRelease_other (s := s.putTag t .free) fun v => plain r x k v rfl

end

theorem release_staleDone (t : TagNum) (h : HeldOp) (s : State) :
    (release t h s).tracker.staleDone = s.tracker.staleDone := by
  have same : (release t h s).tracker = (s.putTag t .free).tracker :=
    drainFor_same h.op (s.putTag t .free) .tracker (by decide)
  rw [same]
  rfl

/-- Settles O22. -/
theorem quarantinedTagIsReleased : Obligations.QuarantinedTagIsReleased := by
  intro t a result bits s h low tag
  refine ⟨release t h s, (live_run low).trans (congrArg Host.Outcome.next (takeQuarantineExpiry_quarantined tag)),
    fun up => ?_, fun _ _ _ _ => release_draining, release_plain⟩
  rw [exec_opDone t a result bits low, takeOpDone_quarantined up tag, ← release_staleDone t h s]
  rfl

/-! ## The completion of a pass (R49) -/

theorem passCompleted_carried {result : BitVec 4} (h : result = 1 ∨ result = 2) (c : Context) (s : State) :
    passCompleted result c s = passCarried (result == 2) c s := by
  rcases h with rfl | rfl
  · rfl
  · rfl

theorem passCompleted_failed {result : BitVec 4} (h : result ≠ 1) (k : result ≠ 2) (c : Context) (s : State) :
    passCompleted result c s = abortContext .copyFailed { c with copyTag := none } s := by
  have code : CopyResult.ofCode result = .failed := by
    unfold CopyResult.ofCode
    split
    · next e => exact absurd (BitVec.eq_of_toNat_eq e) h
    · next e => exact absurd (BitVec.eq_of_toNat_eq e) k
    · rfl
  unfold passCompleted
  rw [code]

section
variable {c : Context} (bad : Bool) (s : State)

theorem passCarried_switch (h : c.phase = .fenced ∨ c.dirty = false) :
    passCarried bad c s = switch { c with copyTag := none, badCopy := bad } s := by
  unfold passCarried
  cases phase : c.phase with
  | fenced => rfl
  | copying =>
    have clean : c.dirty = false := h.resolve_left (by rw [phase]; decide)
    exact if_neg (by simp [clean])

theorem passCarried_again (phase : c.phase = .copying) (dirty : c.dirty = true)
    (more : c.pass < s.config.recopy.toNat) : passCarried bad c s = { s with
      migration := some { c with copyTag := none, badCopy := bad, pass := c.pass + 1, dirty := false } } := by
  unfold passCarried
  rw [phase]
  exact (if_pos dirty).trans (if_pos more)

theorem passCarried_fence (phase : c.phase = .copying) (dirty : c.dirty = true)
    (last : s.config.recopy.toNat ≤ c.pass) : passCarried bad c s = { s with
      migration := some { c with copyTag := none, badCopy := bad, phase := .fenced, pass := c.pass + 1,
                                 dirty := false } } := by
  unfold passCarried
  rw [phase]
  exact (if_pos dirty).trans (if_neg (Nat.not_lt.2 last))

end

theorem contextOf_some {s : State} {t : TagNum} {c : Context} (m : s.migration = some c) (tagged : c.copyTag = some t) :
    s.contextOf t = some c := by
  unfold State.contextOf
  rw [m]
  exact if_pos tagged

theorem validDone_pass {s : State} {t : TagNum} {h : HeldOp} {c : Context} (owner : h.owner = .migration)
    (m : s.migration = some c) (tagged : c.copyTag = some t) (result bits : BitVec 4) :
    validDone t h result bits s = settle (passCompleted result c (s.putTag t .free)) := by
  unfold validDone
  rw [owner]
  dsimp only
  rw [contextOf_some (s := s.putTag t .free) m tagged]

/-- Settles O23. -/
theorem passCompletionFollowsTheTable : Obligations.PassCompletionFollowsTheTable := by
  intro t a result bits s h c low up tag attempt owner m tagged u d
  have done {x : State} (e : passCompleted result c u = x) : exec (.opDone t a result bits) s = .next (settle x) := by
    rw [exec_opDone t a result bits low, takeOpDone_valid up tag attempt, validDone_pass owner m tagged, ← e]
  exact ⟨fun code clean => done ((passCompleted_carried code c u).trans (passCarried_switch _ u clean)),
    fun code phase dirty more => done ((passCompleted_carried code c u).trans (passCarried_again _ u phase dirty more)),
    fun code phase dirty last => done ((passCompleted_carried code c u).trans (passCarried_fence _ u phase dirty last)),
    fun failed other => done (passCompleted_failed failed other c u)⟩

/-! ## The completion of a VERIFY -/

section
variable {s : State} {t : TagNum} {h : HeldOp} {r : RowAddr} {l : Location} {result bits : BitVec 4}

theorem validDone_verify (owner : h.owner = .scrub) (op : h.op = .verify r l) : validDone t h result bits s =
    settleFreedFrom (s.putTag t .free) (scrubNote r l (verifyClass result bits) (s.putTag t .free)) := by
  unfold validDone
  rw [owner, op]

theorem verifyClass_clean (two : result ≠ 2) (three : result ≠ 3) : verifyClass result bits = none := by
  unfold verifyClass
  split
  · next e => exact absurd (BitVec.eq_of_toNat_eq e) two
  · next e => exact absurd (BitVec.eq_of_toNat_eq e) three
  · rfl

/-- The note a VERIFY that found an error makes (R71, R91). -/
def verifyNote (result bits : BitVec 4) (r : RowAddr) (l : Location) : Note :=
  ⟨r, l, if result = 3 then .uncorrectable else
    .corrected (if bits.toNat = 0 ∨ 8 < bits.toNat then 8 else bits.toNat), .scrub⟩

theorem verifyClass_bad (code : result = 2 ∨ result = 3) :
    verifyClass result bits = some (verifyNote result bits r l).cls := by
  rcases code with rfl | rfl
  · rfl
  · rfl

theorem verifyNote_bad : (verifyNote result bits r l).bad = decide (result = 3) := by
  unfold verifyNote Note.bad
  by_cases e : result = 3
  · rw [if_pos e, decide_eq_true e]
  · rw [if_neg e, decide_eq_false e]

theorem scrubNote_stale {c : NoteClass} (stale : s.config.rows ≤ r.row.toNat ∨ l ≠ s.location r) :
    scrubNote r l (some c) s = countStaleNote s := by
  unfold scrubNote
  dsimp only
  by_cases out : s.config.rows ≤ r.row.toNat
  · rw [outOfRange_of_le out, if_pos rfl]
  · rw [outOfRange_of_lt (Nat.lt_of_not_le out), if_neg Bool.false_ne_true]
    exact if_neg fun agrees => stale.resolve_left out (agrees_iff.1 agrees)

theorem scrubNote_agreeing {c : NoteClass} (inside : r.row.toNat < s.config.rows) (here : l = s.location r) :
    scrubNote r l (some c) s = recordNote ⟨r, l, c, .scrub⟩ s := by
  unfold scrubNote
  dsimp only
  rw [outOfRange_of_lt inside, if_neg Bool.false_ne_true]
  exact if_pos (agrees_iff.2 here)

theorem freePosition_of_tally {u : State} (same : u.tally = s.tally) : u.freePosition = s.freePosition := by
  unfold State.freePosition State.entry
  rw [same]

theorem noted_of_tally {u : State} {n : Note} {p : Fin 32} {e : TallyEntry} (same : u.tally = s.tally) (found : s.noted n p e) :
    u.noted n p e := by
  unfold State.noted
  rw [findEntry_of_tally same, freePosition_of_tally same, evictee_same same, same]
  exact found

end

theorem verifyNote_reports {result bits : BitVec 4} {r : RowAddr} {l : Location} (untracked : Bool) (epoch : BitVec 32) :
    (verifyNote result bits r l).reports untracked epoch = if decide (result = 3) then
      [⟨.errorTally, ⟨.uncorrectable r l .scrub untracked, epoch⟩⟩] else [] := by
  unfold Note.reports
  rw [verifyNote_bad]
  rfl

/-- Settles O24: the note is counted, makes an entry, promotes it or finds the tally full as any agreeing note does. -/
theorem verifyCompletionIsNoted : Obligations.VerifyCompletionIsNoted := by
  intro t a result bits s h r l low up tag attempt owner op u
  let n := verifyNote result bits r l
  have done {x y : State} (e : scrubNote r l (verifyClass result bits) u = x) (ends : settleFreedFrom u x = y) :
      exec (.opDone t a result bits) s = .next y := by
    rw [exec_opDone t a result bits low, takeOpDone_valid up tag attempt, validDone_verify owner op, ← ends, ← e]
  have note (code : result = 2 ∨ result = 3) (inside : r.row.toNat < s.config.rows) (here : l = s.location r) :
      scrubNote r l (verifyClass result bits) u = recordNote n u := by
    rw [verifyClass_bad (r := r) (l := l) code]
    exact scrubNote_agreeing (s := u) inside here
  refine ⟨fun two three => ?_, fun code stale => ?_, fun code inside here => done (note code inside here) rfl,
    fun code inside here => ?_⟩
  · refine done (x := u) ?_ (settleFreedFrom_kept rfl)
    rw [verifyClass_clean two three]
    rfl
  · refine done ?_ (settleFreedFrom_kept rfl)
    rw [verifyClass_bad (r := r) (l := l) code]
    exact scrubNote_stale (s := u) stale
  intro unc
  refine ⟨fun p e found => ?_, fun p e found candidate => ?_, fun absent full evictee => ?_⟩
  · intro cause reports candidate
    have noted : u.noted n p e := by
      refine noted_of_tally (s := s) rfl ?_
      unfold State.noted
      rw [show n.bad = unc from verifyNote_bad]
      exact found
    have bad : n.bad = unc := verifyNote_bad
    have told (o : QueueOutcome) : u.arrivals ++ n.promotion e o u.tally.epoch = reports o := by
      unfold Note.promotion
      rw [verifyNote_reports, bad, ← List.append_assoc]
      rfl
    have unqueued {o : QueueOutcome} (due : unc = true ∨ s.config.threshold.toNat ≤ e.count)
        (outcome : u.queueOutcome e.loc = o) (ne : o ≠ .queued) := done
          ((note code inside here).trans (recordNote_unqueued noted (bad ▸ due) outcome ne)) (settleFreedFrom_kept rfl)
    simp only [told] at unqueued
    refine ⟨fun good below => ?_, fun due permits => unqueued due (queueOutcome_no (s := u) permits) (by decide),
      fun due permits full => unqueued due (queueOutcome_full (s := u) permits full) (by decide),
      fun due permits room => ?_⟩
    · exact done ((note code inside here).trans (recordNote_counted noted (bad.trans good) below))
        (settleFreedFrom_kept rfl)
    · refine done ((note code inside here).trans ((recordNote_queued noted (bad ▸ due)
        (queueOutcome_room (s := u) permits room)).trans ?_)) (settleFreedFrom_grown (append_ne_self s.tally.queue e.row))
      rw [told]
      rfl
  · refine done ((note code inside here).trans ((recordNote_candidate (s := u) (n := n)
      ((findEntry_of_tally (s := s) (t := u) rfl r).trans found) candidate).trans ?_)) (settleFreedFrom_kept rfl)
    have told : (if e.uncorrectable then [] else n.reports false u.tally.epoch) =
        if unc = true ∧ e.uncorrectable = false then
          [⟨.errorTally, ⟨.uncorrectable r l .scrub false, s.tally.epoch⟩⟩] else [] := by
      rw [verifyNote_reports]
      cases e.uncorrectable with
      | true => exact (if_neg fun h => Bool.noConfusion h.2).symm
      | false =>
        refine (if_neg Bool.false_ne_true).trans ?_
        simp only [and_true]
        rfl
    rw [told, show n.bad = unc from verifyNote_bad]
    rfl
  · refine done ((note code inside here).trans ((recordNote_full (s := u) (n := n)
      ((findEntry_of_tally (s := s) (t := u) rfl r).trans absent)
      ((freePosition_of_tally (s := s) (u := u) rfl).trans full)
      ((evictee_same (s := s) (t := u) rfl).trans evictee)).trans ?_))
      (settleFreedFrom_kept rfl)
    rw [verifyNote_reports]
    rfl

/-! ## Timers -/

theorem takeTimeout_second {s : State} {t : TagNum} {h : HeldOp} (tag : s.tag t = .outstanding h) (second : h.attempt = 1) :
    takeTimeout t s = giveUp t h s := by
  unfold takeTimeout
  rw [tag]
  exact if_neg (by rw [second]; decide)

theorem giveUp_scrub {h : HeldOp} (owner : h.owner = .scrub) (t : TagNum) (s : State) :
    giveUp t h s = settleOps (quarantine t h s) := by
  obtain ⟨_, _, _, _⟩ := h
  subst owner
  rfl

theorem giveUp_migration {s : State} {t : TagNum} {h : HeldOp} {c : Context} (owner : h.owner = .migration)
    (m : s.migration = some c) (tagged : c.copyTag = some t) :
    giveUp t h s = settle (abortContext .linkTimeout c (quarantine t h s)) := by
  obtain ⟨_, _, _, _⟩ := h
  subst owner
  unfold giveUp
  dsimp only
  rw [contextOf_some (s := quarantine t _ s) m tagged]

theorem quarantine_second {h : HeldOp} (second : h.attempt = 1) (t : TagNum) (s : State) : quarantine t h s =
    s.putTag t (.quarantined ⟨h.owner, h.op, 1, .running (s.config.timeout.toNat * 100)⟩) := by
  rw [← second]
  rfl

/-- A tag given up leaves none FREE that was not. -/
theorem freeTag_quarantined {s : State} {t : TagNum} {h g : HeldOp} (tag : s.tag t = .outstanding h) :
    (s.putTag t (.quarantined g)).freeTag = s.freeTag := by
  have free (n : TagNum) : ((s.putTag t (.quarantined g)).tag n).isFree = (s.tag n).isFree := by
    rw [tag_putTag]
    split
    · next e =>
      rw [← e, tag]
      rfl
    · rfl
  simp only [State.freeTag, free]

/-- Settles O26. -/
theorem opTimeoutGivesUpAfterTheSecond : Obligations.OpTimeoutGivesUpAfterTheSecond := by
  intro t s h low tag second u
  have given : exec (.opTimeout t) s = .next (giveUp t h s) := by
    rw [exec_opTimeout t low, takeTimeout_second tag second]
  have verify (owner : h.owner = .scrub) : exec (.opTimeout t) s = .next (settleOps u) := by
    rw [given, giveUp_scrub owner, quarantine_second second]
  refine ⟨verify, fun owner still taken law => ?_, fun c owner m tagged => ?_⟩
  · have free : u.freeTag = s.freeTag := freeTag_quarantined tag
    have lawful : TagsLaw u := ⟨fun up waits => free.trans (law.engine up waits), law.waiting⟩
    have served : ScrubServed u := fun _ waits => Bool.noConfusion (still.symm.trans waits)
    rw [verify owner]
    unfold settleOps
    rw [settleTags_of_law lawful served, settleReports_nil (s := u) taken]
  · rw [given, giveUp_migration owner m tagged, quarantine_second second]

/-- Settles O28. -/
theorem scrubIntervalExpiryBeginsTheWait : Obligations.ScrubIntervalExpiryBeginsTheWait := by
  intro s n low
  refine ⟨fun running timer => (live_run low).trans (congrArg Host.Outcome.next ?_),
    fun still => (live_run low).trans (congrArg Host.Outcome.next ?_)⟩
  · unfold takeScrubExpiry
    rw [running, timer]
  · unfold takeScrubExpiry
    split
    · next running timer =>
      rcases still with other | stopped
      · exact absurd running other
      · rw [stopped] at timer
        cases timer
    · rfl

/-! ## The decay of an epoch (R101) -/

/-- What the decay of the positions `pre` leaves as it was, and what it changes beside the entries. -/
structure Decayed (s : State) (pre : List (Fin 32)) (t : State) : Prop where
  later : ∀ q, q ∉ pre → t.entry q = s.entry q
  rest : t.tally =
    { s.tally with entries := t.tally.entries, queue := t.tally.queue, fullReported := t.tally.fullReported }
  queue : (∀ p e, s.entry p = some e → e.state = .tracking → e.row ∉ s.tally.queue) → t.tally.queue = s.tally.queue
  freed : (∃ p ∈ pre, ∃ e, s.entry p = some e ∧ e.state = .tracking ∧ e.count ≤ 1) → t.tally.fullReported = false
  kept : (∀ p e, s.entry p = some e → e.state = .tracking → 1 < e.count) → t.tally.fullReported = s.tally.fullReported

theorem Decayed.unchanged {s t u : State} {pre : List (Fin 32)} {p : Fin 32} (d : Decayed s pre t)
    (entry : ∀ q, p ≠ q → u.entry q = t.entry q)
    (rest : u.tally = { t.tally with entries := u.tally.entries })
    (safe : ∀ e, s.entry p = some e → e.state = .tracking → 1 < e.count) : Decayed s (pre ++ [p]) u where
  later q h := by
    simp only [List.mem_append, List.mem_singleton, not_or] at h
    exact (entry q fun x => h.2 x.symm).trans (d.later q h.1)
  rest := by rw [rest, d.rest]
  queue h := by rw [rest]; exact d.queue h
  freed := by
    rintro ⟨q, mem, e, at?, tracking, low⟩
    rw [rest]
    rcases List.mem_append.1 mem with mem | mem
    · exact d.freed ⟨q, mem, e, at?, tracking, low⟩
    · rw [List.mem_singleton.1 mem] at at?
      exact absurd low (Nat.not_le.2 (safe e at? tracking))
  kept h := by rw [rest]; exact d.kept h

theorem tracking_iff {e : TallyEntry} : e.tracking = true ↔ e.state = .tracking := decide_eq_true_iff

theorem decayAt_decayed {s : State} {pre l : List (Fin 32)} {p : Fin 32} {t : State} (split : pre ++ p :: l = positions)
    (d : Decayed s pre t) : Decayed s (pre ++ [p]) (decayAt p t) := by
  have fresh : p ∉ pre := fun h => absurd ((mem_before split p).1 h) (lt_irrefl p)
  have here : t.entry p = s.entry p := d.later p fresh
  unfold decayAt
  cases entry : t.entry p with
  | none => exact d.unchanged (fun _ _ => rfl) rfl fun e h => by rw [← here, entry] at h; cases h
  | some e =>
    have own {f : TallyEntry} (h : s.entry p = some f) : f = e := by
      rw [← here, entry] at h
      exact (Option.some.inj h).symm
    dsimp only
    by_cases tracking : e.tracking = true
    · rw [if_pos tracking]
      by_cases low : e.count ≤ 1
      · rw [if_pos low]
        have found : s.entry p = some e := here.symm.trans entry
        refine ⟨fun q h => ?_, by rw [show (removeAt p e.row t).tally = { t.tally with
            entries := (removeAt p e.row t).tally.entries, queue := (removeAt p e.row t).tally.queue,
            fullReported := false } from rfl, d.rest], fun h => ?_, fun _ => rfl, fun h => ?_⟩
        · simp only [List.mem_append, List.mem_singleton, not_or] at h
          exact ((removeAt_entry p q e.row t).trans (if_neg h.2)).trans (d.later q h.1)
        · have out := h p e found (tracking_iff.1 tracking)
          show t.tally.queue.filter (fun x => x ≠ e.row) = _
          rw [d.queue h, List.filter_eq_self]
          exact fun x mem => decide_eq_true fun same => out (same ▸ mem)
        · exact absurd (h p e found (tracking_iff.1 tracking)) (Nat.not_lt.2 low)
      · rw [if_neg low]
        exact d.unchanged (fun q ne => entry_putEntry_ne ne) rfl fun f h _ => by
          rw [own h]
          exact Nat.not_le.1 low
    · rw [if_neg tracking]
      exact d.unchanged (fun _ _ => rfl) rfl fun f h ft => by
        rw [own h] at ft
        exact absurd (tracking_iff.2 ft) tracking

theorem decay_decayed (s : State) : Decayed s positions (decay s) :=
  walk_induction (Decayed s) (fun _ _ _ _ split d => decayAt_decayed split d)
    ⟨fun _ _ => rfl, rfl, fun _ => rfl, fun ⟨_, h, _⟩ => absurd h List.not_mem_nil, fun _ => rfl⟩

theorem takeEpochExpiry_running {s : State} {n : Nat} (timer : s.tally.epochTimer = .running n) :
    takeEpochExpiry s = decay (nextEpoch (startEpoch s)) := by
  unfold takeEpochExpiry
  rw [timer]

/-- Settles O27. -/
theorem epochExpiryDecaysTrackingEntries : Obligations.EpochExpiryDecaysTrackingEntries := by
  intro s n low timer
  let u := nextEpoch (startEpoch s)
  have d := decay_decayed u
  have entry (p : Fin 32) : (decay u).entry p = (s.entry p).bind TallyEntry.decayed := decay_entry p u
  have tracking {p : Fin 32} {e : TallyEntry} (at? : s.entry p = some e) (state : e.state = .tracking) :
      (decay u).entry p = if e.count ≤ 1 then none else some { e with count := e.count - 1 } := by
    rw [entry, at?]
    exact if_pos (tracking_iff.2 state)
  have rest := d.rest
  refine ⟨decay u, (live_run low).trans (congrArg Host.Outcome.next (takeEpochExpiry_running timer)),
    by rw [rest]; rfl, by rw [rest]; rfl, fun p h => ?_, fun p e h candidate => ?_, fun p e h state least => ?_,
    fun p e h state more => ?_, d.queue, fun ⟨p, h⟩ => d.freed ⟨p, mem_positions p, h⟩, d.kept, by rw [rest]; rfl,
    by rw [rest]; rfl, ((startEpoch_same s).trans (nextEpoch_same _)).trans (decay_same u)⟩
  · rw [entry, h]
    rfl
  · rw [entry, h]
    exact if_neg fun x => by rw [tracking_iff.1 x] at candidate; cases candidate
  · exact (tracking h state).trans (if_pos least)
  · exact (tracking h state).trans (if_neg (Nat.not_le.2 more))

end Sys2Proof.Machine

namespace Sys2Proof.Machine

/-! ## The end of programming -/

theorem readBack_eq (s : State) (i : Fin 96) (reading : Option (BitVec 64)) :
    s.readBack i reading = reading.elim (s.record i ||| 0x40) fun x => x ||| 0xC0 := by
  cases reading with
  | none => rfl
  | some x => rfl

theorem takeCompletion_programming {s : State} {i : Fin 96} {kind : RecordKind} {k : SlotNum} {r : FuseBytes}
    {reading : Option (BitVec 64)} (state : s.fuse.state = .programming i kind k) (read : s.readBack i reading = r) :
    takeCompletion reading s = settle (endProgramming ⟨completionStatus r.checkGood, some k, i.val⟩
      (fuseIdle (programmingClaim kind r.checkGood k i (s.putRecord i r)))) := by
  unfold takeCompletion
  rw [state]
  dsimp only
  rw [read]

theorem restartHeld_iff {s : State} : s.restartHeld = true ↔ ∃ j, s.engine.state = .restartPending j := by
  unfold State.restartHeld
  cases s.engine.state <;> simp

theorem endProgramming_plain {r : Result} {s : State} (h : ∀ j, s.engine.state ≠ .restartPending j) :
    endProgramming r s = completeInFlight r s :=
  if_neg fun held => (restartHeld_iff.1 held).elim h

theorem endProgramming_held {r : Result} {s : State} {j : Job} (h : s.engine.state = .restartPending j) :
    endProgramming r s = runRestart (completeInFlight r s) := if_pos (restartHeld_iff.2 ⟨j, h⟩)

/-- Settles O29. -/
theorem programmingCompletionEndsByReadBack : Obligations.ProgrammingCompletionEndsByReadBack := by
  intro s i k v old reading low r f
  have read : s.readBack i reading = r := readBack_eq s i reading
  have done {kind : RecordKind} {good : Bool} {status : Status} {x : State}
      (state : s.fuse.state = .programming i kind k) (check : r.checkGood = good) (code : completionStatus good = status)
      (claim : fuseIdle (programmingClaim kind good k i (s.putRecord i r)) = x) :
      exec (.programmingCompletion reading) s = .next (settle (endProgramming ⟨status, some k, i.val⟩ x)) := by
    refine (live_run low).trans (congrArg Host.Outcome.next ?_)
    rw [takeCompletion_programming state read, check, claim, code]
  refine ⟨fun state here good => done state good rfl ?_, fun state here bad => done state bad rfl ?_,
    fun state here good => done state good rfl ?_, fun state bad => done state bad rfl rfl, fun _ _ => endProgramming_plain,
    fun _ _ _ => endProgramming_held⟩
  · exact congrArg fuseIdle (commitGood_committing (s := s.putRecord i r) i here)
  · exact congrArg fuseIdle (commitBad_committing (s := s.putRecord i r) here)
  · exact congrArg fuseIdle (condemnFused_retired (s := s.putRecord i r) i here)

theorem takeSupplyFall_programming {s : State} {i : Fin 96} {kind : RecordKind} {k : SlotNum}
    (state : s.fuse.state = .programming i kind k) : takeSupplyFall s =
      settle (endProgramming ⟨.fuseAborted, some k, i.val⟩ (fuseIdle (supplyFallClaim kind k (putSupply false s)))) := by
  unfold takeSupplyFall
  rw [state]

theorem takeSupplyFall_other {s : State} (h : s.programming = false) : takeSupplyFall s = putSupply false s := by
  unfold takeSupplyFall
  unfold State.programming at h
  cases state : s.fuse.state with
  | loading n => rfl
  | idle => rfl
  | programming i kind k =>
    rw [state] at h
    cases h

theorem exec_supplyFall {s : State} (low : s.resetLow = false) : exec .fuseSupplyFall s = .next (takeSupplyFall s) :=
  congrArg Host.Outcome.next (if_neg (by simp [low]))

/-- Settles O30. -/
theorem fuseSupplyFallEndsProgramming : Obligations.FuseSupplyFallEndsProgramming := by
  intro s i k v
  have ends {kind : RecordKind} {x : State} (low : s.resetLow = false) (state : s.fuse.state = .programming i kind k)
      (claim : fuseIdle (supplyFallClaim kind k (putSupply false s)) = x) :
      exec .fuseSupplyFall s = .next (settle (endProgramming ⟨.fuseAborted, some k, i.val⟩ x)) := by
    rw [exec_supplyFall low, takeSupplyFall_programming state, claim]
  refine ⟨rfl, fun quiet => ?_, fun low state here => ends low state ?_, fun low state => ends low state rfl⟩
  · by_cases low : s.resetLow = true
    · exact congrArg Host.Outcome.next (if_pos low)
    · rw [exec_supplyFall (Bool.eq_false_of_not_eq_true low), takeSupplyFall_other (quiet.resolve_left low)]
      rfl
  · exact congrArg fuseIdle (commitBad_committing (s := putSupply false s) here)

/-! ## ABORT and RESTART -/

section
variable {s : State} {j : Job}

theorem commandAbort_migrating {c : Context} (busy : s.engine.state = .busy j) (migrates : j.kind.migrates = true)
    (m : s.migration = some c) : commandAbort s = settle (abortContext .aborted c s) := by
  unfold commandAbort
  rw [busy]
  refine (if_pos migrates).trans ?_
  unfold abortInFlight abortMigration
  rw [m]

theorem commandAbort_fusing (busy : s.engine.state = .busy j) (fuse : j.kind.migrates = false) :
    commandAbort s = refuseWrite s := by
  unfold commandAbort
  rw [busy]
  exact if_neg (by simp [fuse])

theorem commandAbort_held (held : s.engine.state = .restartPending j) : commandAbort s = refuseWrite s := by
  unfold commandAbort
  rw [held]

theorem commandAbort_free (free : s.engine.state = .idle ∨ s.engine.state = .stopped) : commandAbort s = s := by
  unfold commandAbort
  rcases free with idle | stopped
  · rw [idle]
  · rw [stopped]

theorem commandRestart_held (held : s.engine.state = .restartPending j) : commandRestart s = s := by
  unfold commandRestart
  rw [held]

theorem commandRestart_free (free : s.engine.state = .idle ∨ s.engine.state = .stopped) :
    commandRestart s = settle (runRestart s) := by
  unfold commandRestart
  rcases free with idle | stopped
  · rw [idle]
  · rw [stopped]

theorem commandRestart_programming (busy : s.engine.state = .busy j) (p : s.programming = true) :
    commandRestart s = { s with engine := { s.engine with state := .restartPending j } } := by
  unfold commandRestart
  rw [busy]
  exact if_pos p

theorem commandRestart_busy (busy : s.engine.state = .busy j) (p : s.programming = false) :
    commandRestart s = settle (runRestart s) := by
  unfold commandRestart
  rw [busy]
  exact if_neg (by simp [p])

end

/-- Settles O31. -/
theorem abortAndRestartActByEngineState : Obligations.AbortAndRestartActByEngineState := by
  refine ⟨fun k => by cases k <;> decide, State.programming_iff, fun s low => ?_⟩
  have abort {t : State} (h : commandAbort s = t) : exec .abort s = .next t :=
    (live_run low).trans (congrArg Host.Outcome.next h)
  have restart {t : State} (h : commandRestart s = t) : exec .restart s = .next t :=
    (live_run low).trans (congrArg Host.Outcome.next h)
  exact ⟨fun _ _ busy migrates m => abort (commandAbort_migrating busy migrates m),
    fun _ busy fuse => abort (commandAbort_fusing busy fuse),
    fun _ held => ⟨abort (commandAbort_held held), restart (commandRestart_held held)⟩,
    fun free => ⟨abort (commandAbort_free free), restart (commandRestart_free free)⟩,
    fun _ busy p => restart (commandRestart_programming busy p), fun _ busy p => restart (commandRestart_busy busy p)⟩

/-! ## The rows that spell one write (log 8) -/

section
variable {c : Instr} {v : Word} (s : State)

theorem exec_ctrlWrites (h : c ∈ ctrlWrites v) : exec c s = live (writeCtrl v) s := by
  simp only [ctrlWrites, List.mem_cons, List.not_mem_nil, or_false] at h
  rcases h with rfl | rfl | rfl | rfl | rfl <;> rfl

theorem exec_tallyWrites (h : c ∈ tallyWrites v) : exec c s = live (writeTally v) s := by
  simp only [tallyWrites, List.mem_cons, List.not_mem_nil, or_false] at h
  rcases h with rfl | rfl <;> rfl

theorem exec_scrubWrites (h : c ∈ scrubWrites v) : exec c s = live (writeScrub v) s := by
  simp only [scrubWrites, List.mem_cons, List.not_mem_nil, or_false] at h
  rcases h with rfl | rfl | rfl <;> rfl

theorem exec_linkWrites (h : c ∈ linkWrites v) : exec c s = live (writeLink v) s := by
  simp only [linkWrites, List.mem_cons, List.not_mem_nil, or_false] at h
  rcases h with rfl | rfl <;> rfl

theorem exec_descriptorWrites {a : BitVec 14} (h : c ∈ descriptorWrites a v) : exec c s = live (portWrite a .w32 v) s := by
  simp only [descriptorWrites, List.mem_cons, List.not_mem_nil, or_false] at h
  rcases h with rfl | rfl | rfl <;> rfl

end

/-! ## Refused writes -/

/-- The registers software may write, by their offsets (11.3). -/
def writableOffsets : List (BitVec 14) :=
  [0x004, 0x008, 0x00C, 0x010, 0x014, 0x018, 0x01C, 0x020, 0x070, 0x074, 0x078, 0x07C, 0x080, 0x084]

theorem isWritableRegister_iff {a : BitVec 14} : isWritableRegister a = true ↔ a ∈ writableOffsets := by
  have inj : Function.Injective (BitVec.toNat (w := 14)) := fun _ _ => BitVec.eq_of_toNat_eq
  rw [← List.mem_map_of_injective inj]
  exact decide_eq_true_iff

theorem alignedIn_iff {a : BitVec 14} {base size : Nat} : alignedIn a base size = true ↔
    base ≤ a.toNat ∧ a.toNat < base + size ∧ a.toNat % 4 = 0 := by
  simp [alignedIn, and_assoc]

theorem descOffset_urgent (k : Fin 8) (w : Fin 4) : (descOffset (.urgent k) w).toNat = 0x400 + 16 * k.val + 4 * w.val := by
  refine (BitVec.toNat_ofNat _ _).trans (Nat.mod_eq_of_lt ?_)
  omega

theorem descOffset_routine (k : Fin 24) (w : Fin 4) :
    (descOffset (.routine k) w).toNat = 0x500 + 16 * k.val + 4 * w.val := by
  refine (BitVec.toNat_ofNat _ _).trans (Nat.mod_eq_of_lt ?_)
  omega

theorem reportOffset_toNat (k : Fin 64) (w : Fin 8) : (reportOffset k w).toNat = 0x800 + 32 * k.val + 4 * w.val := by
  refine (BitVec.toNat_ofNat _ _).trans (Nat.mod_eq_of_lt ?_)
  omega

theorem isDescriptorWord_iff {a : BitVec 14} : isDescriptorWord a = true ↔ ∃ i n, a = descOffset i n := by
  unfold isDescriptorWord
  rw [Bool.or_eq_true, alignedIn_iff, alignedIn_iff]
  constructor
  · rintro (⟨low, high, aligned⟩ | ⟨low, high, aligned⟩)
    · refine ⟨.urgent ⟨(a.toNat - 0x400) / 16, by omega⟩, ⟨a.toNat / 4 % 4, by omega⟩, BitVec.eq_of_toNat_eq ?_⟩
      rw [descOffset_urgent]
      dsimp only
      omega
    · refine ⟨.routine ⟨(a.toNat - 0x500) / 16, by omega⟩, ⟨a.toNat / 4 % 4, by omega⟩, BitVec.eq_of_toNat_eq ?_⟩
      rw [descOffset_routine]
      dsimp only
      omega
  · rintro ⟨urgent | routine, n, rfl⟩
    · rw [descOffset_urgent]
      omega
    · rw [descOffset_routine]
      omega

theorem isReportWord_iff {a : BitVec 14} : isReportWord a = true ↔ ∃ k n, a = reportOffset k n := by
  unfold isReportWord
  rw [alignedIn_iff]
  constructor
  · rintro ⟨low, high, aligned⟩
    refine ⟨⟨(a.toNat - 0x800) / 32, by omega⟩, ⟨a.toNat / 4 % 8, by omega⟩, BitVec.eq_of_toNat_eq ?_⟩
    rw [reportOffset_toNat]
    dsimp only
    omega
  · rintro ⟨k, n, rfl⟩
    rw [reportOffset_toNat]
    omega

theorem alwaysRefused_iff {a : BitVec 14} {w : Width} : alwaysRefused a w = false ↔ w = .w32 ∧ a.toNat % 4 = 0 ∧
    (isWritableRegister a = true ∨ isDescriptorWord a = true ∨ isReportWord a = true) := by
  simp only [alwaysRefused, Bool.or_eq_false_iff, bne_eq_false_iff_eq, Bool.not_eq_false', Bool.or_eq_true, and_assoc,
    or_assoc]

theorem writable_aligned {a : BitVec 14} (h : isWritableRegister a = true) : a.toNat % 4 = 0 := by
  have offset := of_decide_eq_true h
  simp only [List.mem_cons, List.not_mem_nil, or_false] at offset
  omega

theorem aligned_of_writable {a : BitVec 14}
    (h : isWritableRegister a = true ∨ isDescriptorWord a = true ∨ isReportWord a = true) : a.toNat % 4 = 0 := by
  rcases h with register | desc | report
  · exact writable_aligned register
  · unfold isDescriptorWord at desc
    rw [Bool.or_eq_true, alignedIn_iff, alignedIn_iff] at desc
    omega
  · unfold isReportWord at report
    rw [alignedIn_iff] at report
    omega

/-- A register at an offset that software may not write refuses every write (11.3). -/
theorem regAt_refused {a : BitVec 14} {r : Reg} (h : regAt a.toNat = some r) (readOnly : isWritableRegister a ≠ true)
    (v : Word) (s : State) : writeReg r v s = refuseWrite s := by
  unfold regAt at h
  split at h
  all_goals cases h
  all_goals first
    | rfl
    | next e =>
      unfold isWritableRegister at readOnly
      rw [e] at readOnly
      exact absurd (by decide) readOnly

theorem portWrite_refused {a : BitVec 14} {w : Width} (h : alwaysRefused a w = true) (v : Word) (s : State) :
    portWrite a w v s = refuseWrite s := by
  unfold portWrite
  split
  · next aligned =>
    obtain ⟨rfl, aligned⟩ := aligned
    have never : ¬(isWritableRegister a = true ∨ isDescriptorWord a = true ∨ isReportWord a = true) := fun x => by
      rw [alwaysRefused_iff.2 ⟨rfl, aligned, x⟩] at h
      cases h
    simp only [not_or, isDescriptorWord, isReportWord, Bool.or_eq_true, alignedIn_iff] at never
    obtain ⟨register, ⟨urgent, routine⟩, report⟩ := never
    unfold regionOf
    split
    · rw [show a.toNat / 4 * 4 = a.toNat by omega]
      cases at? : regAt a.toNat with
      | none => rfl
      | some r => exact regAt_refused at? register v s
    · rw [if_neg (by omega), if_neg (by omega), if_neg (by omega)]
      split
      · rfl
      · split
        · rfl
        · split
          · rfl
          · split
            · rfl
            · split
              · rfl
              · rfl
  · rfl

end Sys2Proof.Machine

namespace Sys2Proof.Machine

theorem modeCode_none {c : BitVec 2} : RepairMode.ofCode c = none ↔ c = 3 := by
  revert c
  decide

theorem writeCtrl_some {c : Settings} {v : Word} {m : RepairMode} (h : RepairMode.ofCode (field v 4 2) = some m) :
    c.writeCtrl v = some { c with
      engineEnable := bit v 0, scrubEnable := bit v 1, fuseEnable := bit v 2, mode := m, poisonOnBad := bit v 6 } := by
  unfold Settings.writeCtrl
  rw [h]

theorem writeCtrl_refused {v : Word} (h : field v 4 2 = 3) (s : State) : writeCtrl v s = refuseWrite s := by
  unfold writeCtrl Settings.writeCtrl
  rw [modeCode_none.2 h]

theorem writeTally_refused {v : Word} (h : field v 0 4 = 0 ∨ field v 16 16 = 0) (s : State) :
    writeTally v s = refuseWrite s := by
  unfold writeTally Settings.writeTally
  rw [if_pos h]

theorem writeScrub_refused {v : Word} (h : field v 0 16 = 0 ∨ field v 16 2 = 0 ∨ field v 20 4 = 0) (s : State) :
    writeScrub v s = refuseWrite s := by
  unfold writeScrub Settings.writeScrub
  rw [if_pos h]

theorem writeLink_refused {v : Word} (h : field v 0 8 = 0 ∨ field v 8 3 = 0) (s : State) :
    writeLink v s = refuseWrite s := by
  unfold writeLink Settings.writeLink
  rw [if_pos h]

theorem geomOpen_iff {s : State} : s.geomOpen = true ↔ s.engine.state = .stopped ∧ s.scrub.state = .off := by
  simp [State.geomOpen]

/-- Settles O32. -/
theorem refusedWritesAreOnlyCounted : Obligations.RefusedWritesAreOnlyCounted := by
  refine ⟨fun a w => ?_, fun s v low => ?_⟩
  · rw [alwaysRefused_iff, isWritableRegister_iff, isDescriptorWord_iff, isReportWord_iff]
    refine ⟨fun ⟨wide, _, kind⟩ => ⟨wide, kind⟩, fun ⟨wide, kind⟩ => ⟨wide, aligned_of_writable ?_, kind⟩⟩
    rw [isWritableRegister_iff, isDescriptorWord_iff, isReportWord_iff]
    exact kind
  · have refuse {f : State → State} (h : f s = refuseWrite s) : live f s = .next s.afterRefusal :=
      (live_run low).trans (congrArg Host.Outcome.next h)
    refine ⟨fun one two => refuse ((if_neg one).trans (if_neg two)), fun a w refused => refuse (portWrite_refused refused v s),
      fun c nonzero => refuse (if_neg nonzero), fun c row mode => ?_, fun c row zero => ?_, fun c row zero => ?_,
      fun c row zero => ?_, fun closed => refuse (if_neg ?_)⟩
    · rw [exec_ctrlWrites s row, refuse (writeCtrl_refused mode s)]
    · rw [exec_tallyWrites s row, refuse (writeTally_refused zero s)]
    · rw [exec_scrubWrites s row, refuse (writeScrub_refused zero s)]
    · rw [exec_linkWrites s row, refuse (writeLink_refused zero s)]
    · rw [geomOpen_iff]
      exact fun ⟨stopped, off⟩ => closed.elim (absurd stopped) (absurd off)

/-! ## CTRL -/

/-- The engine's state once it follows its enable (R144). -/
def State.followed (s : State) : EngineState :=
  match s.engine.state with
  | .stopped => if s.config.engineEnable = true ∧ s.device = .running then .idle else .stopped
  | .idle => if s.config.engineEnable then .idle else .stopped
  | .busy j => .busy j
  | .restartPending j => .restartPending j

theorem applyEngineEnable_engine (s : State) : (applyEngineEnable s).engine = { s.engine with state := s.followed } := by
  have kept {x : EngineState} (h : s.engine.state = x) : s.engine = { s.engine with state := x } := by rw [← h]
  unfold applyEngineEnable State.followed
  cases h : s.engine.state with
  | stopped =>
    dsimp only
    split
    · rfl
    · exact kept h
  | idle =>
    dsimp only
    split
    · exact kept h
    · rfl
  | busy j => exact kept h
  | restartPending j => exact kept h

/-- Two states in which the mode acts on the candidate queue alike. -/
def SameQueue (s t : State) : Prop := t.tally = s.tally ∧ t.config.mode = s.config.mode

theorem SameQueue.entry {s t : State} (h : SameQueue s t) (p : Fin 32) : t.entry p = s.entry p :=
  congrArg (fun x : Tally => x.entries.get p) h.1

theorem trimAt_sameQueue (keep : Location → Bool) (p : Fin 32) {s t : State} (h : SameQueue s t) :
    SameQueue (trimAt keep p s) (trimAt keep p t) := by
  obtain ⟨tally, mode⟩ := h
  unfold trimAt
  rw [SameQueue.entry ⟨tally, mode⟩ p]
  cases s.entry p with
  | none => exact ⟨tally, mode⟩
  | some e =>
    dsimp only
    split
    · refine ⟨?_, mode⟩
      simp only [dequeue_tally, putEntry_tally, tally]
    · exact ⟨tally, mode⟩

theorem appendAt_sameQueue (p : Fin 32) {s t : State} (h : SameQueue s t) : SameQueue (appendAt p s) (appendAt p t) := by
  obtain ⟨tally, mode⟩ := h
  unfold appendAt
  rw [SameQueue.entry ⟨tally, mode⟩ p]
  cases s.entry p with
  | none => exact ⟨tally, mode⟩
  | some e =>
    dsimp only
    rw [tally, mode]
    split
    · refine ⟨?_, mode⟩
      simp only [enqueue_tally, putEntry_tally, tally]
    · exact ⟨tally, mode⟩

theorem foldl_sameQueue {f : Fin 32 → State → State} (h : ∀ p s t, SameQueue s t → SameQueue (f p s) (f p t)) :
    ∀ (l : List (Fin 32)) {s t : State}, SameQueue s t →
      SameQueue (l.foldl (fun u p => f p u) s) (l.foldl (fun u p => f p u) t)
  | [], _, _, k => k
  | p :: l, _, _, k => foldl_sameQueue h l (h p _ _ k)

theorem applyMode_off {s : State} (old : RepairMode) (mode : s.config.mode = .off) : applyMode old s = emptyQueue s := by
  unfold applyMode
  rw [mode]

theorem applyMode_narrow {s : State} (mode : s.config.mode = .spareOnly) :
    applyMode .spareAndRespare s = trimQueue (RepairMode.permits .spareOnly) s := by
  unfold applyMode
  rw [mode]

theorem applyMode_fill {s : State} {old : RepairMode} (on : s.config.mode ≠ .off)
    (wider : ¬(old = .spareAndRespare ∧ s.config.mode = .spareOnly)) : applyMode old s = fillQueue s := by
  unfold applyMode
  cases mode : s.config.mode with
  | off => exact absurd mode on
  | spareAndRespare => cases old <;> rfl
  | spareOnly =>
    cases old with
    | spareAndRespare => exact absurd ⟨rfl, mode⟩ wider
    | off => rfl
    | spareOnly => rfl

theorem applyMode_sameQueue (old : RepairMode) {s t : State} (h : SameQueue s t) :
    (applyMode old t).tally = (applyMode old s).tally := by
  have trim (keep) : SameQueue (trimQueue keep s) (trimQueue keep t) :=
    foldl_sameQueue (fun p _ _ => trimAt_sameQueue keep p) positions h
  by_cases off : s.config.mode = .off
  · rw [applyMode_off old off, applyMode_off old (h.2.trans off)]
    exact congrArg (fun x : Tally => { x with queue := [] }) (trim fun _ => false).1
  · by_cases narrow : old = .spareAndRespare ∧ s.config.mode = .spareOnly
    · obtain ⟨rfl, mode⟩ := narrow
      rw [applyMode_narrow mode, applyMode_narrow (h.2.trans mode)]
      exact (trim _).1
    · rw [applyMode_fill off narrow, applyMode_fill (by rw [h.2]; exact off) (by rw [h.2]; exact narrow)]
      exact (foldl_sameQueue (fun p _ _ => appendAt_sameQueue p) positions h).1

/-- The candidate queue as a write of CTRL leaves it (R103). -/
def ctrlMode (c : Settings) (s : State) : State :=
  if c.mode = s.config.mode then putSettings c s else applyMode s.config.mode (putSettings c s)

/-- The engine as a write of CTRL leaves it (R144). -/
def ctrlEngine (c : Settings) (s : State) : State :=
  if c.engineEnable = s.config.engineEnable then ctrlMode c s else applyEngineEnable (ctrlMode c s)

/-- The state of an accepted write of CTRL before the arbiters act (R190). -/
def ctrlSet (c : Settings) (s : State) : State :=
  if c.scrubEnable = s.config.scrubEnable then ctrlEngine c s else decideScrub (ctrlEngine c s)

theorem acceptCtrl_eq (c : Settings) (s : State) : acceptCtrl c s =
    if c.mode = s.config.mode ∧ c.engineEnable = s.config.engineEnable then ctrlSet c s else settle (ctrlSet c s) := rfl

section
variable (c : Settings) (s : State)

theorem ctrlMode_apart : SameBut [.tally] (putSettings c s) (ctrlMode c s) := ite_same (.refl _ _) (applyMode_same _ _)

theorem ctrlMode_tally : (c.mode = s.config.mode → (ctrlMode c s).tally = s.tally) ∧
    (c.mode ≠ s.config.mode → (ctrlMode c s).tally =
      (applyMode s.config.mode { s with config := { s.config with mode := c.mode } }).tally) := by
  unfold ctrlMode
  refine ⟨fun same => ?_, fun other => ?_⟩
  · rw [if_pos same]
    rfl
  · rw [if_neg other]
    exact applyMode_sameQueue s.config.mode (s := { s with config := { s.config with mode := c.mode } }) ⟨rfl, rfl⟩

theorem ctrlEngine_apart : SameBut [.engine] (ctrlMode c s) (ctrlEngine c s) :=
  ite_same (.refl _ _) (applyEngineEnable_same _)

theorem ctrlSet_apart : SameBut [.scrub] (ctrlEngine c s) (ctrlSet c s) := ite_same (.refl _ _) (decideScrub_same _)

theorem ctrlEngine_same : SameBut [.config, .tally, .engine] s (ctrlEngine c s) :=
  ((putSettings_same c s).comp (ctrlMode_apart c s) (n := [.config, .tally]) (by decide) (by decide)).comp
    (ctrlEngine_apart c s) (by decide) (by decide)

theorem ctrlSet_same : SameBut [.config, .tally, .engine, .scrub] s (ctrlSet c s) :=
  (ctrlEngine_same c s).comp (ctrlSet_apart c s) (by decide) (by decide)

theorem ctrlEngine_config : (ctrlEngine c s).config = c :=
  (ctrlEngine_apart c s .config (by decide)).trans (ctrlMode_apart c s .config (by decide))

theorem ctrlMode_followed : (ctrlMode c s).followed = State.followed { s with config := c } := by
  have config : (ctrlMode c s).config = c := ctrlMode_apart c s .config (by decide)
  have engine : (ctrlMode c s).engine = s.engine := ctrlMode_apart c s .engine (by decide)
  have device : (ctrlMode c s).device = s.device := ctrlMode_apart c s .device (by decide)
  unfold State.followed
  rw [config, engine, device]

end

/-- Settles O33. -/
theorem controlWriteSetsEveryField : Obligations.ControlWriteSetsEveryField := by
  refine ⟨by decide, fun w i n => ⟨rfl, rfl⟩, fun s v m low mode => ?_⟩
  intro target i row
  let c : Settings := { s.config with
    engineEnable := bit v 0, scrubEnable := bit v 1, fuseEnable := bit v 2, mode := m, poisonOnBad := bit v 6 }
  have accepted : exec i s = .next (acceptCtrl c s) := by
    rw [exec_ctrlWrites s row, live_run low]
    unfold writeCtrl
    rw [writeCtrl_some mode]
  have scrubApart := ctrlSet_apart c s
  have engine : (ctrlMode c s).engine = s.engine := ctrlMode_apart c s .engine (by decide)
  have tally : (ctrlSet c s).tally = (ctrlMode c s).tally :=
    (scrubApart .tally (by decide)).trans (ctrlEngine_apart c s .tally (by decide))
  have scrub : (ctrlEngine c s).scrub = s.scrub := ctrlEngine_same c s .scrub (by decide)
  have targets : (ctrlEngine c s).scrubTarget = target := by
    have same := ctrlEngine_same c s
    unfold State.scrubTarget
    rw [ctrlEngine_config, show (ctrlEngine c s).device = s.device from same .device (by decide),
      show (ctrlEngine c s).link = s.link from same .link (by decide),
      show (ctrlEngine c s).reports = s.reports from same .reports (by decide)]
    rfl
  refine ⟨ctrlSet c s, accepted.trans (congrArg Host.Outcome.next (acceptCtrl_eq c s)),
    (scrubApart .config (by decide)).trans (ctrlEngine_config c s), fun same => ?_, fun other => ?_, fun same => ?_,
    fun other => ?_, fun same => tally.trans ((ctrlMode_tally c s).1 same),
    fun other => tally.trans ((ctrlMode_tally c s).2 other), ctrlSet_same c s⟩
  · rw [show (ctrlSet c s).engine = (ctrlEngine c s).engine from scrubApart .engine (by decide)]
    unfold ctrlEngine
    rw [if_pos same, engine]
  · rw [show (ctrlSet c s).engine = (ctrlEngine c s).engine from scrubApart .engine (by decide)]
    unfold ctrlEngine
    rw [if_neg other, applyEngineEnable_engine, engine, ctrlMode_followed]
    unfold State.followed
    cases s.engine.state <;> rfl
  · unfold ctrlSet
    rw [if_pos same, scrub]
  · unfold ctrlSet
    have decided := decideScrub_scrub targets
    rw [scrub, ctrlEngine_config] at decided
    exact (congrArg State.scrub (if_neg other)).trans decided

/-! ## Interrupts and counters -/

/-- Settles O37. -/
theorem interruptAndCounterWrites : Obligations.InterruptAndCounterWrites := by
  refine ⟨fun n => rfl, fun s v low => ⟨live_run low, live_run low, fun c zero => ?_, ?_⟩⟩
  · refine (live_run low).trans (congrArg Host.Outcome.next ((if_pos zero).trans ?_))
    cases c <;> rfl
  · simp only [State.irqN, irqAsserted, Bool.not_eq_false', Bool.or_eq_true, Bool.and_eq_true, Bool.not_eq_true', or_assoc]

end Sys2Proof.Machine

namespace Sys2Proof.Machine

/-! ## What a mode takes out of the candidate queue (R103) -/

theorem permits_iff (m : RepairMode) (x : Location) :
    m.permits x = true ↔ m = .spareAndRespare ∨ (m = .spareOnly ∧ x = .row) := by
  cases m <;> cases x <;> simp [RepairMode.permits]

/-- The entry as a mode that keeps the locations `keep` leaves it. -/
def TallyEntry.trimmed (keep : Location → Bool) (e : TallyEntry) : TallyEntry :=
  if e.queued && !keep e.loc then { e with queued := false } else e

theorem trimAt_entry (keep : Location → Bool) (p : Fin 32) (s : State) :
    (trimAt keep p s).entry p = (s.entry p).map (TallyEntry.trimmed keep) := by
  unfold trimAt
  cases entry : s.entry p with
  | none => exact entry
  | some e =>
    dsimp only [Option.map_some]
    unfold TallyEntry.trimmed
    split
    · exact entry_putEntry_self
    · exact entry

theorem trimQueue_entry (keep : Location → Bool) (p : Fin 32) (s : State) :
    (trimQueue keep s).entry p = (s.entry p).map (TallyEntry.trimmed keep) := by
  obtain ⟨t, _, before, after⟩ := walk_entry_of_mem (trimAt_visits keep) (I := fun _ => True) (fun _ _ _ => trivial) p
    positions s positions_nodup (mem_positions p) trivial
  exact after.trans (by rw [trimAt_entry, before])

theorem emptyQueue_queue (s : State) : (emptyQueue s).tally.queue = [] := by
  unfold emptyQueue
  dsimp only

theorem emptyQueue_entry (p : Fin 32) (s : State) :
    (emptyQueue s).entry p = (trimQueue (fun _ => false) s).entry p := by
  unfold emptyQueue State.entry
  dsimp only

/-- The row stands in the queue for an entry at one of the positions `pre` whose location goes. -/
def State.trims (s : State) (keep : Location → Bool) (pre : List (Fin 32)) (r : RowAddr) : Prop :=
  ∃ p ∈ pre, ∃ e, s.entry p = some e ∧ e.row = r ∧ e.queued = true ∧ keep e.loc = false

/-- What a trim of the positions `pre` has done to the queue. -/
structure Trimmed (s : State) (keep : Location → Bool) (pre : List (Fin 32)) (t : State) : Prop where
  later : ∀ q, q ∉ pre → t.entry q = s.entry q
  order : t.tally.queue.Sublist s.tally.queue
  rows : ∀ r, r ∈ t.tally.queue ↔ r ∈ s.tally.queue ∧ ¬s.trims keep pre r

theorem trims_append {s : State} {keep : Location → Bool} {pre : List (Fin 32)} {p : Fin 32} {r : RowAddr} :
    s.trims keep (pre ++ [p]) r ↔ s.trims keep pre r ∨ s.trims keep [p] r := by
  unfold State.trims
  simp only [List.mem_append, or_and_right, exists_or]

theorem trimAt_trimmed {s t : State} {keep : Location → Bool} {pre l : List (Fin 32)} {p : Fin 32}
    (split : pre ++ p :: l = positions) (h : Trimmed s keep pre t) : Trimmed s keep (pre ++ [p]) (trimAt keep p t) := by
  have fresh : p ∉ pre := fun mem => absurd ((mem_before split p).1 mem) (lt_irrefl p)
  have here : t.entry p = s.entry p := h.later p fresh
  have later (q : Fin 32) (out : q ∉ pre ++ [p]) : (trimAt keep p t).entry q = s.entry q := by
    simp only [List.mem_append, List.mem_singleton, not_or] at out
    exact (trimAt_visits keep p q t fun e => out.2 e.symm).trans (h.later q out.1)
  have stays (same : trimAt keep p t = t) (none : ∀ r, ¬s.trims keep [p] r) :
      Trimmed s keep (pre ++ [p]) (trimAt keep p t) := by
    refine ⟨later, by rw [same]; exact h.order, fun r => ?_⟩
    rw [same, h.rows, trims_append, or_iff_left (none r)]
  cases entry : t.entry p with
  | none =>
    refine stays (by unfold trimAt; rw [entry]) fun _ => ?_
    rintro ⟨q, mem, e, at?, _⟩
    rw [List.mem_singleton.1 mem, ← here, entry] at at?
    cases at?
  | some e =>
    have own {q : Fin 32} {f : TallyEntry} (mem : q ∈ [p]) (at? : s.entry q = some f) : f = e := by
      rw [List.mem_singleton.1 mem, ← here, entry] at at?
      exact (Option.some.inj at?).symm
    by_cases goes : e.queued = true ∧ keep e.loc = false
    · have step : trimAt keep p t = dequeue e.row (t.putEntry p (some { e with queued := false })) := by
        unfold trimAt
        rw [entry]
        exact if_pos (by simp [goes])
      refine ⟨later, ?_, fun r => ?_⟩
      · rw [step]
        exact List.filter_sublist.trans h.order
      · have gone : s.trims keep [p] r ↔ e.row = r := by
          refine ⟨fun ⟨q, mem, f, at?, row, _⟩ => own mem at? ▸ row, fun row => ?_⟩
          exact ⟨p, List.mem_singleton_self p, e, here.symm.trans entry, row, goes⟩
        rw [step, dequeue_tally]
        show r ∈ t.tally.queue.filter (fun x => x ≠ e.row) ↔ _
        rw [List.mem_filter, h.rows, trims_append, gone, not_or, and_assoc, decide_eq_true_iff]
        exact and_congr_right fun _ => and_congr_right fun _ => ⟨fun ne e => ne e.symm, fun ne e => ne e.symm⟩
    · refine stays ?_ fun _ => ?_
      · unfold trimAt
        rw [entry]
        exact if_neg (by simpa using goes)
      · rintro ⟨q, mem, f, at?, _, cond⟩
        exact goes (own mem at? ▸ cond)

theorem trimQueue_trimmed (s : State) (keep : Location → Bool) : Trimmed s keep positions (trimQueue keep s) :=
  walk_induction (Trimmed s keep) (fun _ _ _ _ split h => trimAt_trimmed split h)
    ⟨fun _ _ => rfl, List.Sublist.refl _, fun _ => (and_iff_left fun ⟨_, mem, _⟩ => List.not_mem_nil mem).symm⟩

/-! ## What a mode appends to the candidate queue -/

/-- A CANDIDATE entry that the mode permits and that was neither queued nor attempted (R103). -/
def State.appends (s : State) (e : TallyEntry) : Prop :=
  e.state = .candidate ∧ e.queued = false ∧ e.attempted = false ∧ s.config.mode.permits e.loc = true

/-- What the appending at the positions `pre` has done: the rows `added` joined the queue. -/
structure Filled (s : State) (pre : List (Fin 32)) (added : List RowAddr) (t : State) : Prop where
  later : ∀ q, q ∉ pre → t.entry q = s.entry q
  config : t.config = s.config
  queue : t.tally.queue = s.tally.queue ++ added
  source : ∀ r ∈ added, ∃ p e, s.entry p = some e ∧ e.row = r ∧ s.appends e ∧ t.entry p = some { e with queued := true }
  offered : t.tally.queue.length < 8 → ∀ p ∈ pre, ∀ e, s.entry p = some e → s.appends e →
    t.entry p = some { e with queued := true }
  entries : ∀ p e, s.entry p = some e → t.entry p = some e ∨ (t.entry p = some { e with queued := true } ∧ e.row ∈ added)

theorem appendAt_joins {t : State} {p : Fin 32} {e : TallyEntry} (entry : t.entry p = some e) (h : t.appends e)
    (room : t.tally.queue.length < 8) : appendAt p t = enqueue e.row (t.putEntry p (some { e with queued := true })) := by
  obtain ⟨candidate, unqueued, new, permitted⟩ := h
  have room' : t.tally.queue.length < Config.queueCapacity := room
  unfold appendAt
  rw [entry]
  exact if_pos (by simp [candidate, unqueued, new, permitted, room'])

theorem appendAt_stays {t : State} {p : Fin 32}
    (h : ∀ e, t.entry p = some e → ¬(t.appends e ∧ t.tally.queue.length < 8)) : appendAt p t = t := by
  unfold appendAt
  cases entry : t.entry p with
  | none => rfl
  | some e =>
    refine if_neg fun joins => h e entry ?_
    simp only [Bool.and_eq_true, Bool.not_eq_true', decide_eq_true_eq] at joins
    obtain ⟨⟨⟨⟨candidate, unqueued⟩, new⟩, permitted⟩, room⟩ := joins
    exact ⟨⟨candidate, unqueued, new, permitted⟩, room⟩

theorem appendAt_filled {s t : State} {pre l : List (Fin 32)} {added : List RowAddr} {p : Fin 32}
    (split : pre ++ p :: l = positions) (h : Filled s pre added t) : ∃ more, Filled s (pre ++ [p]) more (appendAt p t) := by
  have fresh : p ∉ pre := fun mem => absurd ((mem_before split p).1 mem) (lt_irrefl p)
  have here : t.entry p = s.entry p := h.later p fresh
  have appends (e : TallyEntry) : t.appends e ↔ s.appends e := by
    unfold State.appends
    rw [h.config]
  by_cases joins : ∃ e, t.entry p = some e ∧ t.appends e ∧ t.tally.queue.length < 8
  · obtain ⟨e, entry, ok, room⟩ := joins
    have own : s.entry p = some e := here.symm.trans entry
    rw [appendAt_joins entry ok room]
    let u := t.putEntry p (some { e with queued := true })
    have self : u.entry p = some { e with queued := true } := entry_putEntry_self
    have other {q : Fin 32} (ne : p ≠ q) : u.entry q = t.entry q := entry_putEntry_ne ne
    have at? {q : Fin 32} {f : TallyEntry} (hf : s.entry q = some f) (ht : t.entry q = some { f with queued := true }) :
        u.entry q = some { f with queued := true } := by
      by_cases eq : p = q
      · subst eq
        rw [own] at hf
        cases hf
        exact self
      · exact (other eq).trans ht
    refine ⟨added ++ [e.row], fun q out => ?_, h.config, ?_, fun r mem => ?_, fun small q mem f hf hx => ?_, fun q f hf => ?_⟩
    · simp only [List.mem_append, List.mem_singleton, not_or] at out
      exact (other fun eq => out.2 eq.symm).trans (h.later q out.1)
    · rw [enqueue_tally]
      show t.tally.queue ++ [e.row] = _
      rw [h.queue, List.append_assoc]
    · rcases List.mem_append.1 mem with mem | mem
      · obtain ⟨q, f, hf, row, hx, ht⟩ := h.source r mem
        exact ⟨q, f, hf, row, hx, at? hf ht⟩
      · exact ⟨p, e, own, (List.mem_singleton.1 mem).symm, (appends e).1 ok, self⟩
    · rcases List.mem_append.1 mem with mem | mem
      · exact at? hf (h.offered room q mem f hf hx)
      · rw [List.mem_singleton.1 mem, own] at hf
        cases hf
        rw [List.mem_singleton.1 mem]
        exact self
    · by_cases eq : p = q
      · subst eq
        rw [own] at hf
        cases hf
        exact .inr ⟨self, List.mem_append_right _ (List.mem_singleton_self _)⟩
      · rcases h.entries q f hf with same | ⟨ht, mem⟩
        · exact .inl ((other eq).trans same)
        · exact .inr ⟨(other eq).trans ht, List.mem_append_left _ mem⟩
  · simp only [not_exists, not_and] at joins
    rw [appendAt_stays fun e entry ⟨ok, room⟩ => joins e entry ok room]
    refine ⟨added, fun q out => h.later q fun mem => out (List.mem_append_left _ mem), h.config, h.queue, h.source,
      fun room q mem f hf hx => ?_, h.entries⟩
    rcases List.mem_append.1 mem with mem | mem
    · exact h.offered room q mem f hf hx
    · rw [List.mem_singleton.1 mem, ← here] at hf
      exact absurd room (joins f hf ((appends f).2 hx))

theorem fillQueue_filled (s : State) : ∃ added, Filled s positions added (fillQueue s) :=
  walk_induction (fun pre t => ∃ added, Filled s pre added t) (fun _ _ _ _ split ⟨_, h⟩ => appendAt_filled split h)
    ⟨[], fun _ _ => rfl, rfl, (List.append_nil _).symm, fun _ h => absurd h List.not_mem_nil,
      fun _ _ h => absurd h List.not_mem_nil, fun _ _ h => .inl h⟩

/-- Settles O34. -/
theorem modeWriteActsOnTheQueue : Obligations.ModeWriteActsOnTheQueue := by
  intro s old changed u
  refine ⟨applyMode_same old s, permits_iff, fun off => ?_, fun mode wide => ?_, fun on narrow => ?_⟩
  · rw [show u = emptyQueue s from applyMode_off old off]
    refine ⟨emptyQueue_queue s, fun p e entry => ?_⟩
    rw [emptyQueue_entry, trimQueue_entry, entry, Option.map_some]
    unfold TallyEntry.trimmed
    cases queued : e.queued with
    | true => rfl
    | false =>
      refine (congrArg some (if_neg (by simp))).trans ?_
      rw [← queued]
  · subst wide
    let keep := RepairMode.permits .spareOnly
    have trimmed := trimQueue_trimmed s keep
    rw [show u = trimQueue keep s from applyMode_narrow mode]
    have leaves (l : Location) : keep l = false ↔ l ≠ .row := by
      cases l <;> simp [keep, RepairMode.permits]
    refine ⟨trimmed.order, fun r => ?_, fun p e entry => ?_⟩
    · rw [trimmed.rows]
      unfold State.trims
      simp only [mem_positions, true_and, leaves]
    · rw [trimQueue_entry, entry, Option.map_some]
      unfold TallyEntry.trimmed
      by_cases row : e.loc = .row
      · rw [if_pos row, row]
        exact congrArg some (if_neg (by simp [keep, RepairMode.permits]))
      · rw [if_neg row, (leaves e.loc).2 row]
        cases queued : e.queued with
        | true => rfl
        | false =>
          refine (congrArg some (if_neg (by simp))).trans ?_
          rw [← queued]
  · obtain ⟨added, filled⟩ := fillQueue_filled s
    rw [show u = fillQueue s from applyMode_fill on fun h => narrow h.1]
    have closed : added = (positions.filterMap s.offered).take (8 - s.tally.queue.length) :=
      List.append_cancel_left (filled.queue.symm.trans (fillQueue_closed s))
    refine ⟨added, filled.queue, closed, fun few => ?_, fun r mem => ?_, fun room p e entry a b c d => ?_, filled.entries⟩
    · rw [filled.queue, List.length_append, closed, List.length_take]
      omega
    · obtain ⟨p, e, entry, row, ⟨a, b, c, d⟩, joined⟩ := filled.source r mem
      exact ⟨p, e, entry, row, a, b, c, d, joined⟩
    · exact filled.offered room p (mem_positions p) e entry ⟨a, b, c, d⟩

end Sys2Proof.Machine

namespace Sys2Proof.Machine

/-! ## TALLYCFG -/

theorem writeTally_some {c : Settings} {v : Word} (t : field v 0 4 ≠ 0) (l : field v 16 16 ≠ 0) :
    c.writeTally v = some { c with threshold := field v 0 4, epochLength := field v 16 16 } :=
  if_neg fun h => h.elim t l

/-- The settings and the epoch timer as a write of TALLYCFG leaves them (R100). -/
def tallySet (c : Settings) (s : State) : State := { s with
  config := c
  tally := { s.tally with epochTimer :=
    if c.epochLength = s.config.epochLength then s.tally.epochTimer else .running (c.epochLength.toNat * 100000) } }

theorem acceptTally_eq (c : Settings) (s : State) : acceptTally c s =
    if c.threshold = s.config.threshold then tallySet c s else settle (rethreshold (tallySet c s)) := by
  have timer : (if c.epochLength = s.config.epochLength then putSettings c s else startEpoch (putSettings c s)) =
      tallySet c s := by
    unfold tallySet
    split
    · rfl
    · rfl
  unfold acceptTally
  dsimp only
  rw [timer]

theorem tallySet_same (c : Settings) (s : State) : SameBut [.config, .tally] s (tallySet c s) :=
  .of fun b => by cases b <;> first | exact .inr rfl | exact .inl (by decide)

/-- Settles O35: the promotions of a threshold write in closed form. -/
theorem tallyConfigWriteSetsThresholdAndEpoch : Obligations.TallyConfigWriteSetsThresholdAndEpoch := by
  intro s v low t l n timer due permitted ahead outcome c row
  have accepted : exec c s = .next (acceptTally n s) := by
    rw [exec_tallyWrites s row, live_run low]
    unfold writeTally
    rw [writeTally_some t l]
  let x := tallySet n s
  have permits (p : Fin 32) : permitted p = x.duePermitted p := by
    have each (e : TallyEntry) : decide (s.config.mode = .spareAndRespare ∨ (s.config.mode = .spareOnly ∧ e.loc = .row)) =
        x.config.mode.permits e.loc := by
      rw [Bool.eq_iff_iff, decide_eq_true_iff]
      exact (permits_iff s.config.mode e.loc).symm
    show (due p).any _ = (x.due p).any _
    simp only [each]
    rfl
  have decided (p : Fin 32) : outcome p = x.dueOutcome p := by
    have count : ahead p = (positions.filter fun q => q < p && x.duePermitted q).length := by
      show ((List.finRange 32).filter fun q => decide (q < p ∧ permitted q = true)).length = _
      simp only [permits, Bool.decide_and, Bool.decide_eq_true]
      rfl
    show (if permitted p = false then _ else if s.tally.queue.length + ahead p < 8 then _ else _) = _
    rw [permits, count]
    rfl
  refine ⟨fun same => accepted.trans (congrArg Host.Outcome.next ((acceptTally_eq n s).trans (if_pos same))),
    fun other => ?_⟩
  have closed := rethreshold_closed x
  have same := (tallySet_same n s).comp (rethreshold_same x) (n := [.config, .tally, .arrivals]) (by decide) (by decide)
  refine ⟨rethreshold x, accepted.trans (congrArg Host.Outcome.next ((acceptTally_eq n s).trans (if_neg other))),
    closed.config, ?_, ?_, fun p e h => ?_, fun p h => closed.others p h, closed.rest, same⟩
  · simp only [decided]
    exact closed.arrivals
  · simp only [decided]
    exact closed.queue
  · rw [decided]
    exact closed.promoted p e (mem_positions p) h

/-! ## SCRUBCFG, LINKCFG and GEOM -/

theorem writeScrub_some {c : Settings} {v : Word} (i : field v 0 16 ≠ 0) (d : field v 16 2 ≠ 0) (m : field v 20 4 ≠ 0) :
    c.writeScrub v = some { c with interval := field v 0 16, depth := field v 16 2, channels := field v 20 4 } :=
  if_neg fun h => h.elim i fun h => h.elim d m

theorem writeLink_some {c : Settings} {v : Word} (n : field v 0 8 ≠ 0) (p : field v 8 3 ≠ 0) :
    c.writeLink v = some { c with timeout := field v 0 8, recopy := field v 8 3 } :=
  if_neg fun h => h.elim n p

/-- The settings and the scrub position as a write of SCRUBCFG leaves them (R116). -/
theorem acceptScrub_eq (c : Settings) (s : State) : acceptScrub c s =
    let u : State := { s with
      config := c
      scrub := { s.scrub with position :=
        if c.channels = s.config.channels ∨ c.channels.getLsbD s.scrub.position.channel.toNat = true then
          s.scrub.position
        else ⟨channelAfter c.channels s.scrub.position.channel, 0, 0, 0⟩ } }
    if s.config.depth.toNat < c.depth.toNat then settleOps u else u := by
  have masked : (if c.channels = s.config.channels then putSettings c s else applyMask (putSettings c s)) = { s with
      config := c
      scrub := { s.scrub with position :=
        if c.channels = s.config.channels ∨ c.channels.getLsbD s.scrub.position.channel.toNat = true then
          s.scrub.position
        else ⟨channelAfter c.channels s.scrub.position.channel, 0, 0, 0⟩ } } := by
    by_cases same : c.channels = s.config.channels
    · rw [if_pos same, if_pos (.inl same)]
      rfl
    · rw [if_neg same]
      by_cases set : c.channels.getLsbD s.scrub.position.channel.toNat = true
      · rw [if_pos (.inr set)]
        exact if_pos set
      · rw [if_neg fun h => h.elim same set]
        exact if_neg set
  unfold acceptScrub
  dsimp only
  rw [masked]
  rfl

theorem channelAfter_set : ∀ (mask : BitVec 4) (c : BitVec 2), mask ≠ 0 →
    mask.getLsbD (channelAfter mask c).toNat = true := by decide

theorem channelAfter_next : ∀ (mask : BitVec 4) (c d : BitVec 2), c.toNat < d.toNat → mask.getLsbD d.toNat = true →
    (∀ x : BitVec 2, c.toNat < x.toNat → x.toNat < d.toNat → mask.getLsbD x.toNat = false) →
    channelAfter mask c = d := by decide

theorem channelAfter_wrap : ∀ (mask : BitVec 4) (c : BitVec 2),
    (∀ x : BitVec 2, c.toNat < x.toNat → mask.getLsbD x.toNat = false) → channelAfter mask c = lowestChannel mask := by
  decide

theorem lowestChannel_least : ∀ (mask : BitVec 4) (d : BitVec 2), mask.getLsbD d.toNat = true →
    (∀ x : BitVec 2, x.toNat < d.toNat → mask.getLsbD x.toNat = false) → lowestChannel mask = d := by decide

theorem rows_of_code {c : Settings} {n : BitVec 2} (h : c.rowCode = n) : c.rows = 16384 * 2 ^ n.toNat := by
  unfold Settings.rows
  rw [h]

/-- Settles O36. -/
theorem scrubLinkAndGeomWritesSetTheirFields : Obligations.ScrubLinkAndGeomWritesSetTheirFields := by
  refine ⟨fun c => ⟨rows_of_code, rows_of_code, rows_of_code, rows_of_code⟩, fun s v low =>
    ⟨fun i d m c row => ?_, channelAfter_set, channelAfter_next, channelAfter_wrap, lowestChannel_least,
      fun n p c row => ?_, fun stopped off => ?_⟩⟩
  · intro keep u
    rw [exec_scrubWrites s row, live_run low]
    unfold writeScrub
    rw [writeScrub_some i d m]
    exact congrArg Host.Outcome.next (acceptScrub_eq _ s)
  · rw [exec_linkWrites s row, live_run low]
    unfold writeLink
    rw [writeLink_some n p]
    rfl
  · exact (live_run low).trans (congrArg Host.Outcome.next (if_pos (geomOpen_iff.2 ⟨stopped, off⟩)))

end Sys2Proof.Machine

namespace Sys2Proof.Machine

/-! ## Writes of the rings -/

theorem atFetch_iff {s : State} {i : DescId} :
    s.atFetch i = true ↔ i = .urgent s.engine.urgPos ∨ i = .routine s.engine.routPos :=
  Bool.or_eq_true_iff.trans (or_congr decide_eq_true_iff decide_eq_true_iff)

theorem jobInFlight_iff {s : State} {j : Job} :
    s.jobInFlight = some j ↔ s.engine.state = .busy j ∨ s.engine.state = .restartPending j := by
  unfold State.jobInFlight
  cases s.engine.state <;> simp

theorem inFlight_iff {s : State} {i : DescId} : s.inFlight i = true ↔
    ∃ j, (s.engine.state = .busy j ∨ s.engine.state = .restartPending j) ∧
      ((j.source = .urgent ∧ i = .urgent s.engine.urgPos) ∨ (j.source = .routine ∧ i = .routine s.engine.routPos)) := by
  simp only [← jobInFlight_iff]
  cases job : s.jobInFlight with
  | none => simp [inFlight_none job]
  | some j =>
    simp only [Option.some.injEq, exists_eq_left']
    cases source : j.source with
    | urgent =>
      rw [inFlight_urgent job source, decide_eq_true_iff]
      simp [State.urgentHead]
    | routine =>
      rw [inFlight_routine job source, decide_eq_true_iff]
      simp [State.routineHead]
    | selfRepair => simp [inFlight_selfRepair job source]

theorem portWrite_desc (i : DescId) (w : Fin 4) (v : Word) (s : State) :
    portWrite (descOffset i w) .w32 v s = writeDescriptor i w v s := by
  have aligned : (descOffset i w).toNat % 4 = 0 := by
    cases i with
    | urgent k =>
      rw [descOffset_urgent]
      omega
    | routine k =>
      rw [descOffset_routine]
      omega
  unfold portWrite
  rw [if_pos ⟨rfl, aligned⟩, windowMap.descriptors i w]
  rfl

theorem portWrite_report (k : Fin 64) (w : Fin 8) (v : Word) (s : State) :
    portWrite (reportOffset k w) .w32 v s = writeReport k w v s := by
  have aligned : (reportOffset k w).toNat % 4 = 0 := by
    rw [reportOffset_toNat]
    omega
  unfold portWrite
  rw [if_pos ⟨rfl, aligned⟩, windowMap.reports k w]
  rfl

/-- Settles O38: both rings, by the owner before and after the write. -/
theorem descriptorWritesFollowTheOwner : Obligations.DescriptorWritesFollowTheOwner := by
  refine ⟨fun d v => ⟨rfl, rfl, rfl, rfl, rfl, rfl⟩, fun s i => ⟨atFetch_iff, inFlight_iff⟩, fun s i w v low c row => ?_⟩
  intro u
  have write {t : State} (h : writeDescriptor i w v s = t) : exec c s = .next t := by
    rw [exec_descriptorWrites s row, live_run low, portWrite_desc, h]
  have owned {t : State} (software : (s.desc i).device = false)
      (h : (if w = 0 ∧ bit v 0 = true ∧ s.atFetch i = true then settle u else u) = t) : exec c s = .next t :=
    write ((if_neg (by simp [software])).trans h)
  refine ⟨fun software plain => owned software (if_neg fun ⟨zero, owner, fetch⟩ => ?_),
    fun software zero owner fetch => owned software (if_pos ⟨zero, owner, fetch⟩),
    fun device idle zero owner => write ((if_pos device).trans (if_pos ⟨idle, zero, owner⟩)),
    fun device closed => write ((if_pos device).trans (if_neg fun ⟨idle, zero, owner⟩ => ?_))⟩
  · rcases plain with other | software | away
    · exact other zero
    · exact Bool.noConfusion (software.symm.trans owner)
    · exact Bool.noConfusion (away.symm.trans fetch)
  · rcases closed with busy | other | device
    · exact Bool.noConfusion (idle.symm.trans busy)
    · exact other zero
    · exact Bool.noConfusion (owner.symm.trans device)

theorem exec_reportWrites {c : Instr} {v : Word} {k : Fin 64} {w : Fin 8} {s t : State} (low : s.resetLow = false)
    (h : c ∈ [Instr.reportSlotWrite (reportOffset k w) v, .handBack (reportOffset k w) v]) (e : writeReport k w v s = t) :
    exec c s = .next t := by
  simp only [List.mem_cons, List.not_mem_nil, or_false] at h
  rw [← e, ← portWrite_report]
  rcases h with rfl | rfl
  · exact live_run low
  · exact live_run low

theorem writeReport_handBack {k : Fin 64} {v : Word} {s : State} (software : (s.reportSlot k).device = false)
    (owner : bit v 0 = true) : writeReport k 0 v s = handBackSlot k v s :=
  (if_neg (by simp [software])).trans (if_pos ⟨rfl, owner⟩)

/-- Settles O39: a write takes effect only where software owns the slot. -/
theorem reportSlotWritesFollowTheOwner : Obligations.ReportSlotWritesFollowTheOwner := by
  refine ⟨fun r v => ⟨rfl, rfl, rfl, rfl, rfl, rfl, rfl, rfl, rfl⟩, fun s k w v low c row =>
    ⟨fun device => exec_reportWrites low row (if_pos device), fun software plain => exec_reportWrites low row ?_⟩⟩
  by_cases back : w = 0 ∧ bit v 0 = true
  · obtain ⟨rfl, owner⟩ := back
    rw [writeReport_handBack software owner]
    refine if_neg fun ⟨here, held⟩ => ?_
    rcases plain with other | cleared | away | empty
    · exact other rfl
    · exact Bool.noConfusion (cleared.symm.trans owner)
    · exact away here
    · exact held empty
  · exact (if_neg (by simp [software])).trans (if_neg back)

theorem setWord_owner {r : ReportSlot} {v : Word} (owner : bit v 0 = true) : (r.setWord 0 v).device = true := by
  show (v &&& 0xFFFF03F1).getLsbD 0 = true
  rw [BitVec.getLsbD_and, show v.getLsbD 0 = true from owner]
  decide

/-- Settles O40: the slot handed back is the first that the drain fills. -/
theorem handBackDeliversTheOldestHeldReport : Obligations.HandBackDeliversTheOldestHeldReport := by
  intro s v low software owner held room w q
  let t := s.putReportSlot w ((s.reportSlot w).setWord 0 v)
  have slot (k : Fin 64) : t.reportSlot k = if w = k then (s.reportSlot w).setWord 0 v else s.reportSlot k :=
    reportSlot_putReportSlot s w k _
  have other {k : Fin 64} (ne : w ≠ k) : t.reportSlot k = s.reportSlot k := (slot k).trans (if_neg ne)
  have ready : t.slotReady = true := by
    show (t.reportSlot w).device = true
    rw [slot, if_pos rfl]
    exact setWord_owner owner
  obtain ⟨n, pos, moved⟩ := drain_handed t ready held room
  have short : q.length ≤ 9 := by
    show (s.reports.held ++ _).length ≤ 9
    rw [List.length_append]
    split
    · exact Nat.le_succ_of_le room
    · exact Nat.succ_le_succ room
  have bound : n ≤ q.length := moved.bound
  have drained := drain_same (drainFuel t) t
  refine ⟨n, drain (drainFuel t) t, ?_, pos, bound, fun m more less => ?_, fun rest => ?_, moved.written, fun k away => ?_,
    moved.writePos, moved.held, moved.lost, moved.serial, moved.port.trans (if_neg (Nat.pos_iff_ne_zero.1 pos)),
    (putReportSlot_same s w _).comp drained (by decide) (by decide)⟩
  · refine exec_reportWrites low (List.mem_cons_of_mem _ (List.mem_singleton_self _)) ?_
    rw [writeReport_handBack software owner]
    exact if_pos ⟨rfl, held⟩
  · rw [← other (ring_place_ne more (by omega))]
    exact moved.ready m less
  · rw [← other (ring_place_ne pos (by omega))]
    exact moved.stop rest
  · have first : w ≠ k := by
      have := away 0 pos
      rw [ring_place_zero] at this
      exact this.symm
    exact (moved.kept k away).trans (other first)

/-! ## The arrival of a report -/

theorem slotWords_device (h : HeldReport) : h.slotWords.device = false := by
  show (number 4 4 h.report.body.kindCode ||| mark h.report.body.row.isSome 8 |||
    mark h.report.body.slot.isSome 9 ||| place h.serial 16).getLsbD 0 = false
  simp only [number, mark, BitVec.getLsbD_or, getLsbD_place]
  rfl

/-- Settles O42: the three branches of the arrival. -/
theorem arrivalGoesToRingQueueOrLoss : Obligations.ArrivalGoesToRingQueueOrLoss := by
  refine fun r s => ⟨fun empty ready => arrive_ring empty ready, fun later room => arrive_hold later room, fun full => ?_,
    slotWords_device, reportsShown⟩
  rw [arrive_lose full]
  unfold loseReport
  dsimp only
  by_cases first : s.reports.lost = 0
  · rw [if_pos first, first]
    unfold raiseOverrun
    rw [beq_self_eq_true, Bool.or_true]
  · rw [if_neg first, beq_eq_false_iff_ne.2 first, Bool.or_false]

/-! ## Reads of the window -/

theorem lanes_whole (x : Word) : lanes x 0 4 = x := by
  unfold lanes
  rw [show BitVec.allOnes 32 >>> (32 - 8 * 4) = BitVec.allOnes 32 from rfl, BitVec.and_allOnes]
  rfl

theorem getLsbD_lanes (x : Word) (l n i : Nat) :
    (lanes x l n).getLsbD i = (x.getLsbD (8 * l + i) && decide (32 - 8 * n + i < 32)) := by
  rw [lanes, BitVec.getLsbD_and, BitVec.getLsbD_ushiftRight, BitVec.getLsbD_ushiftRight, BitVec.getLsbD_allOnes]

theorem lanes_extract (x : Word) (l : Nat) {n : Nat} (le : n ≤ 4) :
    lanes x l n = (x.extractLsb' (8 * l) (8 * n)).setWidth 32 := by
  apply BitVec.eq_of_getLsbD_eq
  intro i lt
  rw [getLsbD_lanes, BitVec.getLsbD_setWidth, BitVec.getLsbD_extractLsb', decide_eq_true lt, Bool.true_and, Bool.and_comm,
    decide_eq_decide.2 (show 32 - 8 * n + i < 32 ↔ i < 8 * n by omega)]

theorem latchRead_hit (i : Nat) (e x : BitVec 64) (top : Bool) :
    latchRead (some ⟨i, x⟩) i e true top = (x.extractLsb' 32 32, if top then none else some ⟨i, x⟩) := by
  simp only [latchRead, if_true]
  rfl

theorem latchRead_miss {l : Option LatchEntry} {i : Nat} (e : BitVec 64) (top : Bool) (h : ∀ x, l ≠ some ⟨i, x⟩) :
    latchRead l i e true top = (e.extractLsb' 32 32, l) := by
  cases l with
  | none => rfl
  | some y =>
    have other : y.index ≠ i := fun same => h y.entry (congrArg (fun k => some (LatchEntry.mk k y.entry)) same)
    simp only [latchRead, if_true, if_neg other]
    rfl

theorem alignedTo_iff {a : BitVec 14} {w : Width} : alignedTo a w = true ↔ a.toNat % accessBytes w = 0 :=
  decide_eq_true_iff

theorem portRead_misaligned {a : BitVec 14} {w : Width} (s : State) (odd : a.toNat % accessBytes w ≠ 0) :
    portRead a w s = putReadData 0 s :=
  if_neg (mt alignedTo_iff.1 odd)

theorem portRead_aligned {a : BitVec 14} {w : Width} (s : State) (aligned : a.toNat % accessBytes w = 0) :
    portRead a w s =
      let x := readRegion (regionOf a.toNat) (a.toNat % 4 + accessBytes w = 4) s
      putReadData (lanes x.1 (a.toNat % 4) (accessBytes w)) x.2 :=
  if_pos (alignedTo_iff.2 aligned)

/-- Settles O41: the regions of the window, and the latch rule of a view. -/
theorem viewReadReturnsTheAddressedBytes : Obligations.ViewReadReturnsTheAddressedBytes := by
  intro s a w low
  have read {t : State} (h : portRead a w s = t) : exec (.viewRead a w) s = .next t :=
    congrArg Host.Outcome.next ((if_neg (by simp [low])).trans h)
  exact ⟨fun odd => read (portRead_misaligned s odd), fun aligned => read (portRead_aligned s aligned), ⟨rfl, rfl, rfl⟩,
    fun x l => ⟨lanes_whole x, lanes_extract x l (by decide), lanes_extract x l (by decide)⟩,
    windowMap, registersShown s, viewsShown s, fun _ _ => rfl, fun _ _ _ => rfl, fun _ _ _ => rfl, fun _ _ => rfl, fun _ => rfl,
    fun _ _ _ => rfl, fun _ _ _ => rfl, fun _ _ _ => rfl, fun _ _ _ => rfl, fun _ _ _ _ => rfl,
    fun i e x => latchRead_hit i e x true, fun i e x => latchRead_hit i e x false,
    fun l i e b miss => latchRead_miss e b miss⟩

end Sys2Proof.Machine

namespace Sys2Proof.Machine

/-! ## The completion of a job -/

theorem resultWord_absent {r : Result} (h : r.slot = none) :
    r.word = BitVec.ofNat 16 r.detail ++ 0#8 ++ BitVec.ofNat 8 r.status.code := by
  unfold Result.word
  rw [h]
  apply word_ext
  intro i lt
  simp only [number, BitVec.getLsbD_or, getLsbD_place, BitVec.getLsbD_append]
  interval_cases i <;> simp

theorem resultWord_slot {r : Result} {k : SlotNum} (h : r.slot = some k) :
    r.word = BitVec.ofNat 16 r.detail ++ 1#1 ++ 0#1 ++ BitVec.ofNat 6 k.val ++ BitVec.ofNat 8 r.status.code := by
  unfold Result.word
  rw [h]
  apply word_ext
  intro i lt
  simp only [number, mark, BitVec.getLsbD_or, getLsbD_place, BitVec.getLsbD_append]
  interval_cases i <;> simp

theorem field_absentWord (detail : BitVec 16) (status : BitVec 8) : let w : Word := detail ++ 0#8 ++ status
    field w 0 8 = status ∧ field w 16 16 = detail ∧ bit w 15 = false := by
  refine ⟨?_, ?_, by simp only [bit, BitVec.getLsbD_append]; simp⟩ <;>
  · apply BitVec.eq_of_getLsbD_eq
    intro i lt
    simp only [field, BitVec.getLsbD_extractLsb', BitVec.getLsbD_append]
    interval_cases i <;> simp

theorem field_slotWord (detail : BitVec 16) (k : BitVec 6) (status : BitVec 8) :
    let w : Word := detail ++ 1#1 ++ 0#1 ++ k ++ status
    field w 0 8 = status ∧ field w 16 16 = detail ∧ bit w 15 = true ∧ field w 8 6 = k := by
  refine ⟨?_, ?_, by simp only [bit, BitVec.getLsbD_append]; simp, ?_⟩ <;>
  · apply BitVec.eq_of_getLsbD_eq
    intro i lt
    simp only [field, BitVec.getLsbD_extractLsb', BitVec.getLsbD_append]
    interval_cases i <;> simp

theorem complete_mark (w : Word) : w &&& 0xFFFFFFFE ||| 1 = w ||| 1 := by
  apply word_ext
  intro i lt
  simp only [BitVec.getLsbD_or, BitVec.getLsbD_and]
  interval_cases i <;> simp

theorem markAttempted_found {s : State} {row : RowAddr} {p : Fin 32} {e : TallyEntry} (h : s.findEntry row = some (p, e)) :
    markAttempted row s = s.putEntry p (some { e with attempted := true }) := by
  unfold markAttempted
  rw [h]

theorem markAttempted_absent {s : State} {row : RowAddr} (h : s.findEntry row = none) : markAttempted row s = s := by
  unfold markAttempted
  rw [h]

theorem completeInFlight_found {r : Result} {s : State} {j : Job} {p : Fin 32} {e : TallyEntry} (job : s.jobInFlight = some j)
    (source : j.source = .selfRepair) (found : s.findEntry j.row = some (p, e)) : completeInFlight r s = leaveBusy
      ((produce .jobEngine (.autoRepair j.row r.slot j.kind r.status r.detail) s).putEntry p (some { e with attempted := true })) := by
  rw [completeInFlight_selfRepair job source]
  unfold completeSelfRepair
  rw [markAttempted_found ((findEntry_of_tally (produce_same _ _ s .tally (by decide)) _).trans found)]

theorem completeInFlight_absent {r : Result} {s : State} {j : Job} (job : s.jobInFlight = some j)
    (source : j.source = .selfRepair) (absent : s.findEntry j.row = none) : completeInFlight r s =
      leaveBusy (produce .jobEngine (.autoRepair j.row r.slot j.kind r.status r.detail) s) := by
  rw [completeInFlight_selfRepair job source]
  unfold completeSelfRepair
  rw [markAttempted_absent ((findEntry_of_tally (produce_same _ _ s .tally (by decide)) _).trans absent)]

/-- Settles O43: the result word is shown bit by bit; the completion is one equation for each source of the job. -/
theorem jobCompletionWritesTheResult : Obligations.JobCompletionWritesTheResult := by
  refine ⟨fun _ _ => jobInFlight_iff, fun _ => ⟨resultWord_absent, fun _ => resultWord_slot⟩, fun r s j job => ?_⟩
  refine ⟨fun source => completeInFlight_urgent job source, fun source => completeInFlight_routine job source,
    fun p e source found => completeInFlight_found job source found, fun source absent => completeInFlight_absent job source absent,
    by decide, fun d => ⟨complete_device d r, complete_mark d.w0, rfl, rfl, ?_⟩⟩
  · show field r.word 0 8 = _ ∧ field r.word 16 16 = _ ∧ bit r.word 15 = _ ∧ ∀ k, r.slot = some k → field r.word 8 6 = _
    cases slot : r.slot with
    | none =>
      rw [resultWord_absent slot]
      obtain ⟨status, detail, used⟩ := field_absentWord (BitVec.ofNat 16 r.detail) (BitVec.ofNat 8 r.status.code)
      exact ⟨status, detail, used, fun _ h => by cases h⟩
    | some k =>
      rw [resultWord_slot slot]
      obtain ⟨status, detail, used, place⟩ :=
        field_slotWord (BitVec.ofNat 16 r.detail) (BitVec.ofNat 6 k.val) (BitVec.ofNat 8 r.status.code)
      exact ⟨status, detail, used, fun _ h => Option.some.inj h ▸ place⟩

/-! ## The abort of a migration -/

/-- The state an abort hands to the completion of its job: the copy abandoned, the target released, the context deleted. -/
def aborted (c : Context) (s : State) : State := (releaseTarget c (abandonCopy c s)).putContext none

theorem abortContext_eq (st : Status) (c : Context) (s : State) :
    abortContext st c s = completeInFlight ⟨st, c.slotUsed, c.issued⟩ (aborted c s) := rfl

theorem aborted_same (c : Context) (s : State) : SameBut [.tracker, .slots, .migration] s (aborted c s) :=
  ((abandonCopy_same c s).comp (releaseTarget_same c _) (n := [.tracker, .slots]) (by decide) (by decide)).comp
    (putContext_same _ _) (by decide) (by decide)

theorem aborted_tag (c : Context) (s : State) (t : TagNum) :
    (aborted c s).tag t = if c.copyTag = some t then (s.tag t).abandoned s.opTimer else s.tag t := by
  refine Eq.trans ?_ (abandonCopy_tag c t s)
  exact congrArg (fun x : Tracker => x.tags.get t) (releaseTarget_same c (abandonCopy c s) .tracker (by decide))

theorem aborted_counts (c : Context) (s : State) : (aborted c s).tracker.staleDone = s.tracker.staleDone ∧
    (aborted c s).tracker.retries = s.tracker.retries := by
  have same : (aborted c s).tracker = (abandonCopy c s).tracker := releaseTarget_same c (abandonCopy c s) .tracker (by decide)
  rw [same]
  exact abandonCopy_counts c s

theorem aborted_latch (c : Context) (s : State) : (aborted c s).slots.latch = s.slots.latch :=
  (releaseTarget_latch c (abandonCopy c s)).trans
    (congrArg SlotTable.latch (abandonCopy_same c s .slots (by decide)))

theorem abandonCopy_slot (c : Context) (s : State) (k : SlotNum) : (abandonCopy c s).slot k = s.slot k :=
  slot_of_slots (abandonCopy_same c s .slots (by decide)) k

theorem aborted_target {c : Context} {s : State} {k : SlotNum} {v : Victim} (direction : c.direction ≠ .revert)
    (target : c.target = .slot k) (reserved : s.slot k = .reserved v) :
    (aborted c s).slot k = if s.copyHeld k = true then .draining v else .free := by
  have released := (releaseTarget_slots c (abandonCopy c s) k).1 v direction target ((abandonCopy_slot c s k).trans reserved)
  rw [abandonCopy_copyHeld] at released
  exact released

theorem aborted_other {c : Context} {s : State} {k : SlotNum}
    (h : c.direction = .revert ∨ c.target ≠ .slot k ∨ ∀ v, s.slot k ≠ .reserved v) : (aborted c s).slot k = s.slot k := by
  refine ((releaseTarget_slots c (abandonCopy c s) k).2 (h.imp_right (Or.imp_right fun other v => ?_))).trans
    (abandonCopy_slot c s k)
  rw [abandonCopy_slot]
  exact other v

theorem abandoned_other {x : Tag} (m : Timer) (h : ∀ y, x ≠ .outstanding y) : x.abandoned m = x := by
  cases x with
  | free => rfl
  | outstanding y => exact absurd rfl (h y)
  | quarantined y => rfl

/-- Settles O45: the facts about `aborted`, the state in which the job completes. -/
theorem abortReleasesTheTarget : Obligations.AbortReleasesTheTarget := by
  refine fun st c s => ⟨aborted c s, abortContext_eq st c s, fun _ => slotUsed_target, fun _ => slotUsed_source, rfl,
    aborted_same c s, fun t h copy out => ?_, fun t other => ?_, fun k v direction target reserved => ⟨fun held => ?_, fun unheld => ?_⟩,
    fun _ => aborted_other⟩
  · rw [aborted_tag, if_pos copy, out]
    rfl
  · rw [aborted_tag]
    by_cases copy : c.copyTag = some t
    · rw [if_pos copy]
      exact abandoned_other _ (other.resolve_left (not_not_intro copy))
    · exact if_neg copy
  · rw [aborted_target direction target reserved]
    exact if_pos ((copyHeld_iff s k).2 held)
  · rw [aborted_target direction target reserved]
    refine if_neg fun held => ?_
    obtain ⟨t, h, r, a, tag, op⟩ := (copyHeld_iff s k).1 held
    exact unheld t h r a tag op

end Sys2Proof.Machine

namespace Sys2Proof.Machine

/-! ## The engine restart -/

theorem inFlight_of_engine {s t : State} (h : t.engine = s.engine) (i : DescId) : t.inFlight i = s.inFlight i := by
  unfold State.inFlight State.jobInFlight State.urgentHead State.routineHead
  rw [h]

theorem desc_of_engine {s t : State} (h : t.engine = s.engine) (i : DescId) : t.desc i = s.desc i := by
  unfold State.desc
  rw [h]

theorem deviceOwned_eq (s : State) : s.deviceOwned =
    (List.finRange 8).countP (fun n => (s.engine.urgent.get n).w0.getLsbD 0) +
      (List.finRange 24).countP (fun n => (s.engine.routine.get n).w0.getLsbD 0) := by
  unfold State.deviceOwned descIds
  rw [← List.countP_eq_length_filter, List.countP_append, List.countP_map, List.countP_map]
  rfl

theorem deviceOwned_zero {s : State} (h : s.deviceOwned = 0) (i : DescId) : (s.desc i).device = false := by
  unfold State.deviceOwned at h
  rw [← List.countP_eq_length_filter, List.countP_eq_zero] at h
  exact Bool.eq_false_iff.2 (h i (mem_descIds i))

/-! ### What follows the abort -/

theorem restartEngine_desc (s : State) (i : DescId) : (restartEngine s).desc i = s.desc i := by
  cases i with
  | urgent k => rfl
  | routine k => rfl

theorem zeroPositions_desc (s : State) (i : DescId) : (zeroPositions s).desc i = s.desc i := by
  cases i with
  | urgent k => rfl
  | routine k => rfl

theorem restartEngine_engine (s : State) : (restartEngine s).engine = { s.engine with
    state := if s.config.engineEnable = true ∧ s.device = .running then .idle else .stopped } := rfl

theorem raiseIfAny_port {s t : State} (n : Nat) (h : t.port = s.port) : (raiseIfAny n t).port = (raiseIfAny n s).port := by
  unfold raiseIfAny raiseJobDone
  split
  · rw [h]
  · exact h

theorem produce_arrivals_of {s t : State} (p : Producer) (b : ReportBody) (arrivals : t.arrivals = s.arrivals)
    (tally : t.tally = s.tally) : (produce p b t).arrivals = s.arrivals ++ [⟨p, ⟨b, s.tally.epoch⟩⟩] := by
  rw [produce_arrivals, arrivals, tally]

theorem restartScrub_running {s : State} (running : s.scrub.state = .running) : (restartScrub s).scrub = { s.scrub with
    position := ⟨lowestChannel s.config.channels, 0, 0, 0⟩, waiting := false, timer := .running s.config.interval.toNat } := by
  unfold restartScrub
  rw [if_pos running]
  rfl

theorem restartScrub_still {s : State} (still : s.scrub.state ≠ .running) :
    (restartScrub s).scrub = { s.scrub with position := ⟨lowestChannel s.config.channels, 0, 0, 0⟩ } := by
  unfold restartScrub
  rw [if_neg still]
  rfl

theorem restartScrub_of {s t : State} (scrub : t.scrub = s.scrub) (config : t.config = s.config) :
    (restartScrub t).scrub = (restartScrub s).scrub := by
  by_cases running : s.scrub.state = .running
  · rw [restartScrub_running running, restartScrub_running (scrub ▸ running), scrub, config]
  · rw [restartScrub_still running, restartScrub_still (scrub ▸ running), scrub, config]

/-- What the restart does first: the rings completed, their positions zeroed, JOB_DONE. -/
def restartRings (n : Nat) (s : State) : State := raiseIfAny n (zeroPositions (restartDescs s))

/-- What the restart does then: the tags, the scrubber, RESTART_DONE and the engine. -/
def restartTail (src : Option JobSource) (n : Nat) (s : State) : State :=
  restartEngine (produce .jobEngine (.restartDone n src) (restartScrub (abandonAll s)))

theorem restartBody_parts (src : Option JobSource) (n : Nat) (s : State) :
    restartBody src n s = restartTail src n (restartRings n s) := rfl

section Rings

variable (n : Nat) (s : State)

theorem restartRings_same : SameBut [.engine, .port] s (restartRings n s) := restartJobs_same n s

theorem restartRings_engine : (restartRings n s).engine = (zeroPositions (restartDescs s)).engine :=
  raiseIfAny_same n (zeroPositions (restartDescs s)) .engine (by decide)

theorem restartRings_positions : (restartRings n s).engine.urgPos = 0 ∧ (restartRings n s).engine.routPos = 0 := by
  rw [restartRings_engine]
  exact ⟨rfl, rfl⟩

theorem restartRings_desc (i : DescId) : (restartRings n s).desc i =
    if (s.desc i).device = true then (s.desc i).complete .restarted else s.desc i := by
  rw [desc_of_engine (restartRings_engine n s), zeroPositions_desc, restartDescs_desc]

theorem restartRings_port : (restartRings n s).port = (raiseIfAny n s).port := by
  have before : (zeroPositions (restartDescs s)).port = s.port :=
    ((restartDescs_same s).trans (zeroPositions_same _)) .port (by decide)
  exact raiseIfAny_port n before

end Rings

section Tail

variable (src : Option JobSource) (n : Nat) (s : State)

theorem restartReported_same : SameBut [.tracker, .scrub, .arrivals] s
    (produce .jobEngine (.restartDone n src) (restartScrub (abandonAll s))) :=
  (abandonAll_same s).comp (restartReport_same src n (abandonAll s)) (by decide) (by decide)

theorem restartTail_same : SameBut [.tracker, .scrub, .arrivals, .engine] s (restartTail src n s) :=
  (restartReported_same src n s).comp (restartEngine_same _) (by decide) (by decide)

theorem restartTail_desc (i : DescId) : (restartTail src n s).desc i = s.desc i :=
  (restartEngine_desc _ i).trans (desc_of_engine (restartReported_same src n s .engine (by decide)) i)

theorem restartTail_engine : (restartTail src n s).engine = { s.engine with
    state := if s.config.engineEnable = true ∧ s.device = .running then .idle else .stopped } := by
  have frame := restartReported_same src n s
  unfold restartTail
  rw [restartEngine_engine, frame .engine (by decide), frame .config (by decide), frame .device (by decide)]

theorem restartTail_after : SameBut [.scrub, .arrivals, .engine] (abandonAll s) (restartTail src n s) :=
  (restartReport_same src n (abandonAll s)).comp (restartEngine_same _) (by decide) (by decide)

theorem restartTail_tracker : (restartTail src n s).tracker = (abandonAll s).tracker :=
  restartTail_after src n s .tracker (by decide)

theorem restartTail_tag (t : TagNum) : (restartTail src n s).tag t = (s.tag t).abandoned s.opTimer :=
  (congrArg (fun x : Tracker => x.tags.get t) (restartTail_tracker src n s)).trans (abandonAll_tag t s)

theorem restartTail_counts : (restartTail src n s).tracker.staleDone = s.tracker.staleDone ∧
    (restartTail src n s).tracker.retries = s.tracker.retries := by
  rw [restartTail_tracker]
  exact abandonAll_counts s

theorem restartTail_arrivals : (restartTail src n s).arrivals =
    s.arrivals ++ [⟨.jobEngine, ⟨.restartDone n src, s.tally.epoch⟩⟩] := by
  have frame := (abandonAll_same s).comp (restartScrub_same _) (n := [.tracker, .scrub]) (by decide) (by decide)
  exact (restartEngine_same _ .arrivals (by decide)).trans
    (produce_arrivals_of (s := s) (t := restartScrub (abandonAll s)) .jobEngine (.restartDone n src)
      (frame .arrivals (by decide)) (frame .tally (by decide)))

theorem restartTail_scrub : (restartTail src n s).scrub = (restartScrub s).scrub := by
  have frame := abandonAll_same s
  have kept : SameBut [.arrivals, .engine] (restartScrub (abandonAll s)) (restartTail src n s) :=
    (produce_same _ _ _).comp (restartEngine_same _) (by decide) (by decide)
  exact (kept .scrub (by decide)).trans
    (restartScrub_of (s := s) (t := abandonAll s) (frame .scrub (by decide)) (frame .config (by decide)))

end Tail

/-! ### The abort that begins the restart -/

theorem abortMigration_some {s : State} {c : Context} (st : Status) (m : s.migration = some c) :
    abortMigration st s = completeInFlight ⟨st, c.slotUsed, c.issued⟩ (aborted c s) := by
  unfold abortMigration
  rw [m]
  rfl

theorem abortMigration_none {s : State} (st : Status) (m : s.migration = none) : abortMigration st s = s := by
  unfold abortMigration
  rw [m]

theorem completeInFlight_slots (r : Result) (s : State) : (completeInFlight r s).slots = s.slots :=
  completeInFlight_same r s .slots (by decide)

section Abort

variable {s : State} {c : Context} (st : Status)

theorem abortMigration_desc_away {i : DescId} (away : s.inFlight i = false) : (abortMigration st s).desc i = s.desc i := by
  cases m : s.migration with
  | none => rw [abortMigration_none st m]
  | some c =>
    have engine : (aborted c s).engine = s.engine := aborted_same c s .engine (by decide)
    rw [abortMigration_some st m, completeInFlight_desc, inFlight_of_engine engine, desc_of_engine engine, away]
    rfl

theorem abortMigration_desc_flight {i : DescId} (m : s.migration = some c) (flight : s.inFlight i = true) :
    (abortMigration st s).desc i = (s.desc i).complete ⟨st, c.slotUsed, c.issued⟩ := by
  have engine : (aborted c s).engine = s.engine := aborted_same c s .engine (by decide)
  rw [abortMigration_some st m, completeInFlight_desc, inFlight_of_engine engine, desc_of_engine engine, if_pos flight]

theorem abortMigration_target {k : SlotNum} {v : Victim} (m : s.migration = some c) (direction : c.direction ≠ .revert)
    (target : c.target = .slot k) (reserved : s.slot k = .reserved v) :
    (abortMigration st s).slot k = if s.copyHeld k = true then .draining v else .free := by
  rw [abortMigration_some st m, slot_of_slots (completeInFlight_slots _ _), aborted_target direction target reserved]

theorem abortMigration_slot {k : SlotNum}
    (h : ∀ c v, s.migration = some c → c.direction ≠ .revert → c.target = .slot k → s.slot k ≠ .reserved v) :
    (abortMigration st s).slot k = s.slot k := by
  cases m : s.migration with
  | none => rw [abortMigration_none st m]
  | some c =>
    rw [abortMigration_some st m, slot_of_slots (completeInFlight_slots _ _)]
    refine aborted_other ?_
    by_cases direction : c.direction = .revert
    · exact .inl direction
    · by_cases target : c.target = .slot k
      · exact .inr (.inr fun v => h c v m direction target)
      · exact .inr (.inl target)

theorem abortMigration_latch : (abortMigration st s).slots.latch = s.slots.latch := by
  cases m : s.migration with
  | none => rw [abortMigration_none st m]
  | some c => rw [abortMigration_some st m, completeInFlight_slots, aborted_latch]

/-- The restart quarantines a tag that the abort has not. -/
theorem abortMigration_tag (t : TagNum) :
    ((abortMigration st s).tag t).abandoned s.opTimer = (s.tag t).abandoned s.opTimer := by
  cases m : s.migration with
  | none => rw [abortMigration_none st m]
  | some c =>
    have tag : (abortMigration st s).tag t = (aborted c s).tag t := by
      rw [abortMigration_some st m]
      exact congrArg (fun x : Tracker => x.tags.get t) (completeInFlight_same _ _ .tracker (by decide))
    rw [tag, aborted_tag]
    split
    · exact abandoned_abandoned _ _
    · rfl

theorem abortMigration_counts : (abortMigration st s).tracker.staleDone = s.tracker.staleDone ∧
    (abortMigration st s).tracker.retries = s.tracker.retries := by
  cases m : s.migration with
  | none =>
    rw [abortMigration_none st m]
    exact ⟨rfl, rfl⟩
  | some c =>
    rw [abortMigration_some st m, completeInFlight_same _ _ .tracker (by decide)]
    exact aborted_counts c s

theorem abortMigration_port_away (away : ∀ i, s.inFlight i = false) : (abortMigration st s).port = s.port := by
  cases m : s.migration with
  | none => rw [abortMigration_none st m]
  | some c =>
    have frame := aborted_same c s
    rw [abortMigration_some st m, ← frame .port (by decide)]
    refine (completeInFlight_port _ _).2 fun i => ?_
    rw [inFlight_of_engine (frame .engine (by decide))]
    exact away i

/-- After JOB_DONE is set, it does not show whether the abort had set it. -/
theorem abortMigration_port : (raiseJobDone (abortMigration st s)).port = (raiseJobDone s).port := by
  cases m : s.migration with
  | none => rw [abortMigration_none st m]
  | some c =>
    have frame := aborted_same c s
    rw [abortMigration_some st m]
    unfold raiseJobDone
    by_cases flight : ∃ i, (aborted c s).inFlight i = true
    · rw [(completeInFlight_port _ _).1 flight, frame .port (by decide)]
    · rw [(completeInFlight_port _ _).2 fun i => Bool.eq_false_iff.2 fun on => flight ⟨i, on⟩, frame .port (by decide)]

theorem abortMigration_tally (h : s.migration = none ∨ ∀ j, s.jobInFlight = some j → j.source ≠ .selfRepair) :
    (abortMigration st s).tally = s.tally ∧ (abortMigration st s).arrivals = s.arrivals := by
  cases m : s.migration with
  | none =>
    rw [abortMigration_none st m]
    exact ⟨rfl, rfl⟩
  | some c =>
    have frame := aborted_same c s
    have job : (aborted c s).jobInFlight = s.jobInFlight := by
      unfold State.jobInFlight
      rw [frame .engine (by decide)]
    have other := h.resolve_left (by rw [m]; exact Option.some_ne_none c)
    rw [abortMigration_some st m, ← frame .tally (by decide), ← frame .arrivals (by decide)]
    exact completeInFlight_tally (job ▸ other)

theorem abortMigration_selfRepair {j : Job} (m : s.migration = some c) (job : s.jobInFlight = some j)
    (source : j.source = .selfRepair) :
    (abortMigration st s).arrivals = s.arrivals ++
      [⟨.jobEngine, ⟨.autoRepair j.row c.slotUsed j.kind st c.issued, s.tally.epoch⟩⟩] ∧
    (s.findEntry j.row = none → (abortMigration st s).tally = s.tally) ∧
    ∀ p e, s.findEntry j.row = some (p, e) → (abortMigration st s).tally =
      { s.tally with entries := s.tally.entries.set p (some { e with attempted := true }) } := by
  have frame := aborted_same c s
  have tally := frame .tally (by decide)
  have same : (aborted c s).jobInFlight = some j := by
    rw [← job]
    unfold State.jobInFlight
    rw [frame .engine (by decide)]
  have found := findEntry_of_tally tally j.row
  rw [abortMigration_some st m, ← frame .arrivals (by decide), ← tally]
  cases entry : s.findEntry j.row with
  | none =>
    rw [completeInFlight_absent same source (found.trans entry)]
    exact ⟨rfl, fun _ => rfl, fun p e h => by cases h⟩
  | some q =>
    obtain ⟨p, e⟩ := q
    rw [completeInFlight_found same source (found.trans entry)]
    exact ⟨rfl, fun h => (by cases h), fun p e h => (by cases h; rfl)⟩

theorem slotUsed_of {k : SlotNum}
    (h : (c.direction ≠ .revert ∧ c.target = .slot k) ∨ (c.direction = .revert ∧ c.source = .slot k)) :
    c.slotUsed = some k := by
  rcases h with ⟨direction, target⟩ | ⟨direction, source⟩
  · exact slotUsed_target direction target
  · exact slotUsed_source direction source

end Abort

/-! ### The whole restart -/

theorem runRestart_desc (s : State) (i : DescId) : (runRestart s).desc i =
    if ((abortMigration .restarted s).desc i).device = true then ((abortMigration .restarted s).desc i).complete .restarted
    else (abortMigration .restarted s).desc i :=
  (restartTail_desc _ _ _ i).trans (restartRings_desc _ _ i)

/-- What the restart leaves of the state the abort leaves. -/
theorem runRestart_after (s : State) :
    SameBut [.engine, .port, .tracker, .scrub, .arrivals] (abortMigration .restarted s) (runRestart s) :=
  restartBody_same _ _ _

theorem runRestart_parts (s : State) : runRestart s = restartTail (s.jobInFlight.map (·.source)) s.deviceOwned
    (restartRings s.deviceOwned (abortMigration .restarted s)) := rfl

/-- What the restart leaves up to its rings. -/
theorem restartRings_after (s : State) : SameBut [.tracker, .slots, .migration, .engine, .port, .tally, .arrivals] s
    (restartRings s.deviceOwned (abortMigration .restarted s)) :=
  (abortMigration_same .restarted s).comp (restartRings_same _ _) (by decide) (by decide)

section Whole

variable (s : State)

theorem runRestart_slot (k : SlotNum) : (runRestart s).slot k = (abortMigration .restarted s).slot k :=
  slot_of_slots (runRestart_after s .slots (by decide)) k

theorem runRestart_tag (t : TagNum) : (runRestart s).tag t = (s.tag t).abandoned s.opTimer := by
  have timer : (restartRings s.deviceOwned (abortMigration .restarted s)).opTimer = s.opTimer :=
    congrArg (fun c : Settings => Timer.running c.opTimeout) (restartRings_after s .config (by decide))
  have tag : (restartRings s.deviceOwned (abortMigration .restarted s)).tag t = (abortMigration .restarted s).tag t :=
    congrArg (fun x : Tracker => x.tags.get t) (restartRings_same s.deviceOwned _ .tracker (by decide))
  rw [runRestart_parts, restartTail_tag, timer, tag, abortMigration_tag]

theorem runRestart_counts : (runRestart s).tracker.staleDone = s.tracker.staleDone ∧
    (runRestart s).tracker.retries = s.tracker.retries := by
  obtain ⟨stale, retries⟩ := restartTail_counts (s.jobInFlight.map (·.source)) s.deviceOwned
    (restartRings s.deviceOwned (abortMigration .restarted s))
  have tracker := restartRings_same s.deviceOwned (abortMigration .restarted s) .tracker (by decide)
  obtain ⟨before, begun⟩ := abortMigration_counts (s := s) .restarted
  rw [runRestart_parts, stale, retries, tracker]
  exact ⟨before, begun⟩

theorem runRestart_engine : (runRestart s).engine.urgPos = 0 ∧ (runRestart s).engine.routPos = 0 ∧
    (runRestart s).engine.state =
      if s.config.engineEnable = true ∧ s.device = .running then .idle else .stopped := by
  obtain ⟨urgent, routine⟩ := restartRings_positions s.deviceOwned (abortMigration .restarted s)
  have config := restartRings_after s .config (by decide)
  have device := restartRings_after s .device (by decide)
  rw [runRestart_parts, restartTail_engine, config, device]
  exact ⟨urgent, routine, rfl⟩

theorem runRestart_scrub : (runRestart s).scrub = (restartScrub s).scrub := by
  rw [runRestart_parts, restartTail_scrub]
  exact restartScrub_of (restartRings_after s .scrub (by decide)) (restartRings_after s .config (by decide))

theorem runRestart_port : (runRestart s).port = (raiseIfAny s.deviceOwned (abortMigration .restarted s)).port := by
  rw [runRestart_parts, restartTail_same _ _ _ .port (by decide), restartRings_port]

theorem runRestart_arrivals : (runRestart s).arrivals = (abortMigration .restarted s).arrivals ++
    [⟨.jobEngine, ⟨.restartDone s.deviceOwned (s.jobInFlight.map (·.source)), (abortMigration .restarted s).tally.epoch⟩⟩] := by
  have frame := restartRings_same s.deviceOwned (abortMigration .restarted s)
  rw [runRestart_parts, restartTail_arrivals, frame .arrivals (by decide), frame .tally (by decide)]

theorem runRestart_desc_device (i : DescId) : ((runRestart s).desc i).device = false := by
  rw [runRestart_desc]
  split
  · exact complete_device _ _
  next software => exact Bool.eq_false_iff.2 software

variable {s}

theorem runRestart_desc_flight {i : DescId} {c : Context} {k : SlotNum} (flight : s.inFlight i = true)
    (m : s.migration = some c)
    (used : (c.direction ≠ .revert ∧ c.target = .slot k) ∨ (c.direction = .revert ∧ c.source = .slot k)) :
    (runRestart s).desc i = (s.desc i).complete ⟨.restarted, some k, c.issued⟩ := by
  rw [runRestart_desc, abortMigration_desc_flight .restarted m flight, slotUsed_of used]
  exact if_neg (by rw [complete_device]; decide)

theorem runRestart_desc_away {i : DescId} (away : s.inFlight i = false) : (runRestart s).desc i =
    if (s.desc i).device = true then (s.desc i).complete .restarted else s.desc i := by
  rw [runRestart_desc, abortMigration_desc_away .restarted away]

end Whole

/-- Settles O46: the restart is the abort, then the rings, then the rest, and each part of the state is followed through
the three. -/
theorem restartEndsEveryHandedOverJob : Obligations.RestartEndsEveryHandedOverJob := by
  intro s u copyInto target restartDone
  have after := runRestart_after s
  obtain ⟨urgPos, routPos, state⟩ := runRestart_engine s
  obtain ⟨stale, retries⟩ := runRestart_counts s
  refine ⟨deviceOwned_eq s, runRestart_same s, (after .migration (by decide)).trans (abortMigration_migration _ s),
    runRestart_desc_device s, fun i away device => (runRestart_desc_away away).trans (if_pos device),
    fun i away software => (runRestart_desc_away away).trans (if_neg (by rw [software]; decide)),
    fun i c k flight m used => runRestart_desc_flight flight m used, ?target, fun k other => ?other,
    (congrArg SlotTable.latch (after .slots (by decide))).trans (abortMigration_latch _), urgPos, routPos, state,
    fun t h out => ?quarantined, fun t other => (runRestart_tag s t).trans (abandoned_other _ other), stale, retries,
    fun running => (runRestart_scrub s).trans (restartScrub_running running),
    fun still => (runRestart_scrub s).trans (restartScrub_still still), fun owned => ?jobDone, fun zero away => ?port,
    fun calm => ?quiet, fun c j k m job source used => ?selfRepair⟩
  case target =>
    rintro k v ⟨c, _, m, direction, target, -⟩ reserved
    have slot : u.slot k = if s.copyHeld k = true then .draining v else .free :=
      (runRestart_slot s k).trans (abortMigration_target .restarted m direction target reserved)
    exact ⟨fun held => slot.trans (if_pos ((copyHeld_iff s k).2 held)),
      fun free => slot.trans (if_neg fun held => free ((copyHeld_iff s k).1 held))⟩
  case other =>
    exact (runRestart_slot s k).trans (abortMigration_slot .restarted fun c v m direction target reserved =>
      other ⟨c, v, m, direction, target, reserved⟩)
  case quarantined =>
    show (runRestart s).tag t = _
    rw [runRestart_tag, out]
    rfl
  case jobDone =>
    refine (runRestart_port s).trans ((congrArg State.port (if_pos owned)).trans (abortMigration_port .restarted))
  case port =>
    refine (runRestart_port s).trans ((congrArg State.port (if_neg (by omega))).trans (abortMigration_port_away .restarted away))
  case quiet =>
    obtain ⟨tally, arrivals⟩ := abortMigration_tally .restarted calm
    refine ⟨(after .tally (by decide)).trans tally, (runRestart_arrivals s).trans ?_⟩
    rw [tally, arrivals]
  case selfRepair =>
    obtain ⟨arrivals, absent, found⟩ := abortMigration_selfRepair .restarted m job source
    have tally := after .tally (by decide)
    have epoch : (abortMigration .restarted s).tally.epoch = s.tally.epoch := by
      cases entry : s.findEntry j.row with
      | none => rw [absent entry]
      | some q => rw [found q.1 q.2 entry]
    refine ⟨(runRestart_arrivals s).trans ?_, fun gone => tally.trans (absent gone), fun p e entry => tally.trans (found p e entry)⟩
    rw [arrivals, epoch, slotUsed_of used, List.append_assoc]
    rfl

end Sys2Proof.Machine

namespace Sys2Proof.Machine

/-! ## The job arbiter -/

/-! ### The work that waits for the engine -/

/-- What bounds the takes of one event: the DEVICE-owned descriptors and the rows queued. -/
def State.handedOver (s : State) : Nat := s.deviceOwned + s.tally.queue.length

theorem deviceOwned_of_engine {s t : State} (h : t.engine = s.engine) : t.deviceOwned = s.deviceOwned := by
  unfold State.deviceOwned
  simp only [desc_of_engine h]

/-- A descriptor given back, and none handed over. -/
theorem deviceOwned_lt {s t : State} {i : DescId} (kept : ∀ j, (t.desc j).device = true → (s.desc j).device = true)
    (before : (s.desc i).device = true) (after : (t.desc i).device = false) : t.deviceOwned < s.deviceOwned := by
  have among : (descIds.filter fun j => (s.desc j).device).countP (fun j => (t.desc j).device) = t.deviceOwned := by
    rw [List.countP_filter]
    unfold State.deviceOwned
    rw [← List.countP_eq_length_filter]
    exact List.countP_congr fun j _ => by
      rw [Bool.and_eq_true]
      exact ⟨And.left, fun h => ⟨h, kept j h⟩⟩
  rw [← among]
  exact List.countP_lt_length_iff.2 ⟨i, List.mem_filter.2 ⟨mem_descIds i, before⟩, by rw [after]⟩

theorem deviceOwned_le (s : State) : s.deviceOwned ≤ 32 := by
  unfold State.deviceOwned
  exact List.length_filter_le _ descIds

theorem completeUrgent_desc (r : Result) (s : State) (i : DescId) : (completeUrgent r s).desc i =
    if s.urgentHead = i then (s.desc s.urgentHead).complete r else s.desc i := by
  refine Eq.trans ?_ (desc_putDesc s s.urgentHead i ((s.desc s.urgentHead).complete r))
  cases i with
  | urgent k => rfl
  | routine k => rfl

theorem completeRoutine_desc (r : Result) (s : State) (i : DescId) : (completeRoutine r s).desc i =
    if s.routineHead = i then (s.desc s.routineHead).complete r else s.desc i := by
  refine Eq.trans ?_ (desc_putDesc s s.routineHead i ((s.desc s.routineHead).complete r))
  cases i with
  | urgent k => rfl
  | routine k => rfl

/-- One descriptor completed leaves less work. -/
theorem handedOver_completed {s t : State} {i : DescId} {r : Result} (ready : (s.desc i).device = true)
    (queue : t.tally.queue.length ≤ s.tally.queue.length)
    (desc : ∀ j, t.desc j = if i = j then (s.desc i).complete r else s.desc j) : t.handedOver < s.handedOver := by
  have fewer : t.deviceOwned < s.deviceOwned := by
    refine deviceOwned_lt (i := i) (fun j device => ?_) ready (by rw [desc, if_pos rfl, complete_device])
    rw [desc] at device
    split at device
    next same => exact same ▸ ready
    · exact device
  exact Nat.add_lt_add_of_lt_of_le fewer queue

theorem removeAt_queue (p : Fin 32) (r : RowAddr) (s : State) :
    (removeAt p r s).tally.queue = s.tally.queue.filter (fun x => x ≠ r) := rfl

/-- No job adds a row to the candidate queue at its take. -/
theorem takeKind_queue (j : JobFields) (s : State) : (takeKind j s).state.tally.queue.length ≤ s.tally.queue.length := by
  have kept {l : List Block} {t : State} (h : SameBut l s t) (away : .tally ∉ l) :
      t.tally.queue.length ≤ s.tally.queue.length := le_of_eq (congrArg (fun x : Tally => x.queue.length) (h .tally away))
  unfold takeKind
  split
  · exact kept (takeSpare_same j s) (by decide)
  · exact kept (takeRespare_same j s) (by decide)
  · exact kept (takeUnspare_same j s) (by decide)
  · exact kept (takePromote_same j s) (by decide)
  · exact kept (takeCondemn_same j s) (by decide)
  · exact kept (takePoison_same j s) (by decide)
  · exact kept (takeClearPoison_same j s) (by decide)
  · unfold takeDismiss
    split
    · exact List.length_filter_le _ _
    · exact le_refl _
  · exact le_refl _

/-- The engine as a take finds it is the one its job completes in. -/
theorem takeKind_engine (j : JobFields) (s : State) : (takeKind j s).state.engine = s.engine :=
  takeKind_same j s .engine (by decide)

theorem runJob_done {j : JobFields} {s t : State} {r : Result} (src : JobSource) (h : takeKind j s = .done r t) :
    runJob src j s = deliverResult ⟨src, j.kind, j.row⟩ r t := by
  unfold runJob
  rw [h]

theorem runJob_started {j : JobFields} {s t : State} (src : JobSource) (h : takeKind j s = .started t) :
    runJob src j s = { t with engine := { t.engine with state := .busy ⟨src, j.kind, j.row⟩ } } := by
  unfold runJob
  rw [h]

theorem markAttempted_queue (row : RowAddr) (s : State) : (markAttempted row s).tally.queue = s.tally.queue := by
  unfold markAttempted
  split
  · rfl
  · rfl

/-- A self-repair job that completes at its take hands nothing over. -/
theorem completeSelfRepair_handedOver (row : RowAddr) (kind : JobKind) (r : Result) (s : State) :
    (completeSelfRepair row kind r s).handedOver = s.handedOver := by
  have owned := deviceOwned_of_engine (completeSelfRepair_same row kind r s .engine (by decide))
  have queue : (completeSelfRepair row kind r s).tally.queue = s.tally.queue :=
    (markAttempted_queue row _).trans (congrArg Tally.queue (produce_same _ _ s .tally (by decide)))
  unfold State.handedOver
  rw [owned, queue]

/-- After a job of a descriptor completes at its take, the descriptor no longer waits. -/
theorem runJob_handedOver {s : State} {src : JobSource} {i : DescId} {j : JobFields} (ready : (s.desc i).device = true)
    (idle : (runJob src j s).engine.state = .idle)
    (complete : ∀ r t, t.engine = s.engine → ∀ n, (deliverResult ⟨src, j.kind, j.row⟩ r t).desc n =
      if i = n then (t.desc i).complete r else t.desc n)
    (queue : ∀ r t, (deliverResult ⟨src, j.kind, j.row⟩ r t).tally = t.tally) :
    (runJob src j s).handedOver < s.handedOver := by
  cases h : takeKind j s with
  | started t =>
    rw [runJob_started src h] at idle
    cases idle
  | done r t =>
    have engine : t.engine = s.engine := by
      have := takeKind_engine j s
      rwa [h] at this
    have rows : t.tally.queue.length ≤ s.tally.queue.length := by
      have := takeKind_queue j s
      rwa [h] at this
    rw [runJob_done src h]
    refine handedOver_completed (r := r) ready ((congrArg (fun x : Tally => x.queue.length) (queue r t)).trans_le rows) fun n => ?_
    rw [complete r t engine, desc_of_engine engine, desc_of_engine engine]

/-! ### The takes -/

section Takes

variable {s : State} {k : JobKind}

theorem takeUrgent_kind (h : JobKind.ofCode (s.desc s.urgentHead).kindCode = some k) :
    takeUrgent s = runJob .urgent ((s.desc s.urgentHead).job k) s := by
  unfold takeUrgent
  dsimp only
  rw [h]

theorem takeUrgent_bad (h : JobKind.ofCode (s.desc s.urgentHead).kindCode = none) :
    takeUrgent s = completeUrgent .badKind s := by
  unfold takeUrgent
  dsimp only
  rw [h]

theorem takeRoutine_kind (h : JobKind.ofCode (s.desc s.routineHead).kindCode = some k) :
    takeRoutine s = runJob .routine ((s.desc s.routineHead).job k) s := by
  unfold takeRoutine
  dsimp only
  rw [h]

theorem takeRoutine_bad (h : JobKind.ofCode (s.desc s.routineHead).kindCode = none) :
    takeRoutine s = completeRoutine .badKind s := by
  unfold takeRoutine
  dsimp only
  rw [h]

theorem urgentReady_iff : s.urgentReady = true ↔
    (s.desc s.urgentHead).device = true ∧ s.inFlight s.urgentHead = false := by
  unfold State.urgentReady
  rw [Bool.and_eq_true, Bool.not_eq_true']

theorem routineReady_iff : s.routineReady = true ↔
    (s.desc s.routineHead).device = true ∧ s.inFlight s.routineHead = false := by
  unfold State.routineReady
  rw [Bool.and_eq_true, Bool.not_eq_true']

theorem takeUrgent_handedOver (ready : s.urgentReady = true) (idle : (takeUrgent s).engine.state = .idle) :
    (takeUrgent s).handedOver < s.handedOver := by
  obtain ⟨device, -⟩ := urgentReady_iff.1 ready
  cases kind : JobKind.ofCode (s.desc s.urgentHead).kindCode with
  | none =>
    rw [takeUrgent_bad kind]
    exact handedOver_completed device (le_refl _) (completeUrgent_desc .badKind s)
  | some k =>
    rw [takeUrgent_kind kind] at idle ⊢
    refine runJob_handedOver device idle (fun r t engine n => ?_) fun _ _ => rfl
    have head : t.urgentHead = s.urgentHead := congrArg (fun e : JobEngine => DescId.urgent e.urgPos) engine
    exact head ▸ completeUrgent_desc r t n

theorem takeRoutine_handedOver (ready : s.routineReady = true) (idle : (takeRoutine s).engine.state = .idle) :
    (takeRoutine s).handedOver < s.handedOver := by
  obtain ⟨device, -⟩ := routineReady_iff.1 ready
  cases kind : JobKind.ofCode (s.desc s.routineHead).kindCode with
  | none =>
    rw [takeRoutine_bad kind]
    exact handedOver_completed device (le_refl _) (completeRoutine_desc .badKind s)
  | some k =>
    rw [takeRoutine_kind kind] at idle ⊢
    refine runJob_handedOver device idle (fun r t engine n => ?_) fun _ _ => rfl
    have head : t.routineHead = s.routineHead := congrArg (fun e : JobEngine => DescId.routine e.routPos) engine
    exact head ▸ completeRoutine_desc r t n

theorem takeClaim_queue (r : RowAddr) : (takeClaim r s).tally.queue = s.tally.queue.drop 1 := by
  unfold takeClaim
  dsimp only
  split
  · rfl
  · rfl

theorem takeSelfRepair_handedOver {r : RowAddr} {q : List RowAddr} (head : s.tally.queue = r :: q)
    (idle : (takeSelfRepair r s).engine.state = .idle) : (takeSelfRepair r s).handedOver < s.handedOver := by
  have claimed : (takeClaim r s).handedOver < s.handedOver := by
    unfold State.handedOver
    rw [deviceOwned_of_engine (takeClaim_same r s .engine (by decide)), takeClaim_queue, head]
    exact Nat.lt_succ_self _
  refine lt_of_le_of_lt ?_ claimed
  unfold takeSelfRepair at idle ⊢
  generalize (⟨repairKind (s.candidateLocation r), r, none, true, s.config.poisonOnBad, false⟩ : JobFields) = j at idle ⊢
  generalize takeClaim r s = u at idle ⊢
  cases h : takeKind j u with
  | started t =>
    rw [runJob_started .selfRepair h] at idle
    cases idle
  | done x t =>
    have engine := takeKind_engine j u
    have rows := takeKind_queue j u
    rw [h] at engine rows
    rw [runJob_done .selfRepair h]
    refine (completeSelfRepair_handedOver j.row j.kind x t).trans_le ?_
    have owned : t.deviceOwned = u.deviceOwned := deviceOwned_of_engine engine
    unfold State.handedOver
    rw [owned]
    exact Nat.add_le_add_left rows _

end Takes

/-! ### One decision, and the run of the arbiter -/

section Decide

variable {s t : State}

theorem arbiterTake_urgent (ready : s.urgentReady = true) : arbiterTake s = some (takeUrgent s) := if_pos ready

theorem arbiterTake_candidate {r : RowAddr} (urgent : s.urgentReady = false) (head : s.candidateHead = some r) :
    arbiterTake s = some (takeSelfRepair r s) := by
  unfold arbiterTake
  rw [urgent, head]
  rfl

theorem arbiterTake_last (urgent : s.urgentReady = false) (head : s.candidateHead = none) :
    arbiterTake s = if s.routineReady = true then some (takeRoutine s) else none := by
  unfold arbiterTake
  rw [urgent, head]
  rfl

theorem candidateHead_on {r : RowAddr} {q : List RowAddr} (mode : s.config.mode ≠ .off) (queue : s.tally.queue = r :: q) :
    s.candidateHead = some r := by
  unfold State.candidateHead
  rw [queue]
  cases m : s.config.mode with
  | off => exact absurd m mode
  | spareOnly => rfl
  | spareAndRespare => rfl

theorem candidateHead_off (h : s.config.mode = .off ∨ s.tally.queue = []) : s.candidateHead = none := by
  unfold State.candidateHead
  rcases h with off | empty
  · rw [off]
  · rw [empty]
    cases s.config.mode with
    | off => rfl
    | spareOnly => rfl
    | spareAndRespare => rfl

theorem arbiterTake_handedOver (h : arbiterTake s = some t) (idle : t.engine.state = .idle) :
    t.handedOver < s.handedOver := by
  cases urgent : s.urgentReady with
  | true =>
    rw [arbiterTake_urgent urgent] at h
    cases h
    exact takeUrgent_handedOver urgent idle
  | false =>
    cases head : s.candidateHead with
    | some r =>
      obtain ⟨q, queue⟩ := candidateHead_some head
      rw [arbiterTake_candidate urgent head] at h
      cases h
      exact takeSelfRepair_handedOver queue idle
    | none =>
      rw [arbiterTake_last urgent head] at h
      split at h
      next routine =>
        cases h
        exact takeRoutine_handedOver routine idle
      · cases h

theorem runArbiter_notIdle (n : Nat) (h : s.engine.state ≠ .idle) : runArbiter n s = s := by
  cases n with
  | zero => rfl
  | succ n =>
    unfold runArbiter
    split
    next idle => exact absurd idle h
    · rfl
    · rfl
    · rfl

theorem runArbiter_take (n : Nat) (idle : s.engine.state = .idle) (h : arbiterTake s = some t) :
    runArbiter (n + 1) s = runArbiter n t := by
  rw [runArbiter, idle]
  dsimp only
  rw [h]

theorem runArbiter_stop (n : Nat) (h : arbiterTake s = none) : runArbiter n s = s := by
  cases n with
  | zero => rfl
  | succ n =>
    unfold runArbiter
    split
    · rw [h]
    · rfl
    · rfl
    · rfl

/-- With a take to spare for each descriptor and row handed over, the arbiter stops only where no source is ready. -/
theorem runArbiter_exhausts : ∀ (n : Nat) (s : State), s.handedOver < n → (runArbiter n s).engine.state = .idle →
    arbiterTake (runArbiter n s) = none
  | 0, _, less, _ => absurd less (Nat.not_lt_zero _)
  | n + 1, s, less, stays => by
    by_cases idle : s.engine.state = .idle
    · cases h : arbiterTake s with
      | none => rwa [runArbiter_stop _ h]
      | some t =>
        rw [runArbiter_take n idle h] at stays ⊢
        by_cases again : t.engine.state = .idle
        · exact runArbiter_exhausts n t (by have := arbiterTake_handedOver h again; omega) stays
        · rw [runArbiter_notIdle n again] at stays
          exact absurd stays again
    · rw [runArbiter_notIdle _ idle] at stays
      exact absurd stays idle

theorem settleJobs_exhausts (idle : (settleJobs s).engine.state = .idle) : arbiterTake (settleJobs s) = none := by
  refine runArbiter_exhausts _ s ?_ idle
  have owned := deviceOwned_le s
  unfold State.handedOver arbiterFuel
  omega

theorem settleJobs_stop (h : s.engine.state ≠ .idle ∨ arbiterTake s = none) : settleJobs s = s := by
  rcases h with busy | stop
  · exact runArbiter_notIdle _ busy
  · exact runArbiter_stop _ stop

end Decide

/-! ### What a take leaves -/

theorem kind_ofCode (k : JobKind) : JobKind.ofCode (BitVec.ofNat 4 k.code) = some k := by
  cases k <;> rfl

section Taken

variable {s t : State} {k : JobKind} {x : Result}

/-- `t` with the engine and the port of a urgent job that has completed. -/
def urgentDone (t : State) (x : Result) (e : JobEngine) (p : Port) : State := { t with
  engine := { e with
    urgent := e.urgent.set e.urgPos ((e.urgent.get e.urgPos).complete x)
    urgPos := e.urgPos + 1 }
  port := { p with flags := { p.flags with jobDone := true } } }

theorem takeUrgent_done (kind : JobKind.ofCode (s.desc s.urgentHead).kindCode = some k)
    (h : takeKind ((s.desc s.urgentHead).job k) s = .done x t) : takeUrgent s = urgentDone t x s.engine s.port := by
  have frame := takeKind_same ((s.desc s.urgentHead).job k) s
  rw [h] at frame
  have engine : t.engine = s.engine := frame .engine (by decide)
  have port : t.port = s.port := frame .port (by decide)
  rw [takeUrgent_kind kind, runJob_done .urgent h]
  exact congrArg₂ (urgentDone t x) engine port

theorem takeUrgent_started (kind : JobKind.ofCode (s.desc s.urgentHead).kindCode = some k)
    (h : takeKind ((s.desc s.urgentHead).job k) s = .started t) : takeUrgent s = { t with engine := { s.engine with
      state := .busy ⟨.urgent, k, (s.desc s.urgentHead).row⟩ } } := by
  have engine := takeKind_engine ((s.desc s.urgentHead).job k) s
  rw [h] at engine
  rw [takeUrgent_kind kind, runJob_started .urgent h, ← engine]
  rfl

/-- `t` with the engine and the port of a routine job that has completed. -/
def routineDone (t : State) (x : Result) (e : JobEngine) (p : Port) : State := { t with
  engine := { e with
    routine := e.routine.set e.routPos ((e.routine.get e.routPos).complete x)
    routPos := e.routPos + 1 }
  port := { p with flags := { p.flags with jobDone := true } } }

theorem takeRoutine_done (kind : JobKind.ofCode (s.desc s.routineHead).kindCode = some k)
    (h : takeKind ((s.desc s.routineHead).job k) s = .done x t) : takeRoutine s = routineDone t x s.engine s.port := by
  have frame := takeKind_same ((s.desc s.routineHead).job k) s
  rw [h] at frame
  have engine : t.engine = s.engine := frame .engine (by decide)
  have port : t.port = s.port := frame .port (by decide)
  rw [takeRoutine_kind kind, runJob_done .routine h]
  exact congrArg₂ (routineDone t x) engine port

theorem takeRoutine_started (kind : JobKind.ofCode (s.desc s.routineHead).kindCode = some k)
    (h : takeKind ((s.desc s.routineHead).job k) s = .started t) : takeRoutine s = { t with engine := { s.engine with
      state := .busy ⟨.routine, k, (s.desc s.routineHead).row⟩ } } := by
  have engine := takeKind_engine ((s.desc s.routineHead).job k) s
  rw [h] at engine
  rw [takeRoutine_kind kind, runJob_started .routine h, ← engine]
  rfl

/-! A migration job that completes at its take is refused: it changes nothing. -/

theorem startMigration_done {d : Direction} {j : JobFields} {l : Location} (h : startMigration d j l s = .done x t) :
    t = s := by
  unfold startMigration at h
  split at h
  · exact (TakeOutcome.done.inj h).2.symm
  · cases h

theorem takeSpare_done {j : JobFields} (h : takeSpare j s = .done x t) : t = s := by
  unfold takeSpare at h
  split at h
  · exact (TakeOutcome.done.inj h).2.symm
  · split at h
    · exact (TakeOutcome.done.inj h).2.symm
    · exact startMigration_done h

theorem takeRespare_done {j : JobFields} (h : takeRespare j s = .done x t) : t = s := by
  unfold takeRespare at h
  split at h
  · exact (TakeOutcome.done.inj h).2.symm
  · split at h
    · exact (TakeOutcome.done.inj h).2.symm
    · split at h
      · exact (TakeOutcome.done.inj h).2.symm
      · exact startMigration_done h

theorem takeKind_repair_done {j : JobFields} {l : Location} (kind : j.kind = repairKind l) (h : takeKind j s = .done x t) :
    t = s := by
  unfold takeKind at h
  cases l with
  | row =>
    rw [kind] at h
    exact takeSpare_done h
  | slot k =>
    rw [kind] at h
    exact takeRespare_done h

/-! ### The self-repair take -/

variable {r : RowAddr} {q : List RowAddr} {p : Fin 32} {e : TallyEntry}

/-- The state with the queue's head row `r` taken off, its entry at `p` written anew. -/
def State.claimed (s : State) (p : Fin 32) (e : TallyEntry) (q : List RowAddr) (attempted : Bool) : State :=
  { s with tally := { s.tally with
    entries := s.tally.entries.set p (some { e with queued := false, attempted := attempted }), queue := q } }

theorem takeClaim_found (queue : s.tally.queue = r :: q) (found : s.findEntry r = some (p, e)) :
    takeClaim r s = s.claimed p e q e.attempted := by
  unfold takeClaim
  rw [found, queue]
  rfl

theorem candidateLocation_found (found : s.findEntry r = some (p, e)) : s.candidateLocation r = e.loc := by
  unfold State.candidateLocation
  rw [found]

theorem claimed_findEntry (found : s.findEntry r = some (p, e)) (attempted : Bool) :
    (s.claimed p e q attempted).findEntry r = some (p, { e with queued := false, attempted := attempted }) :=
  findEntry_put found (f := { e with queued := false, attempted := attempted }) (findEntry_some found).2 fun n =>
    entry_putEntry s p n _

theorem takeSelfRepair_found (queue : s.tally.queue = r :: q) (found : s.findEntry r = some (p, e)) : takeSelfRepair r s =
    runJob .selfRepair ⟨repairKind e.loc, r, none, true, s.config.poisonOnBad, false⟩ (s.claimed p e q e.attempted) := by
  unfold takeSelfRepair
  rw [takeClaim_found queue found, candidateLocation_found found]

theorem takeSelfRepair_done (queue : s.tally.queue = r :: q) (found : s.findEntry r = some (p, e))
    (h : takeKind ⟨repairKind e.loc, r, none, true, s.config.poisonOnBad, false⟩ (s.claimed p e q e.attempted) = .done x t) :
    takeSelfRepair r s = { s.claimed p e q true with arrivals := s.arrivals ++
      [⟨.jobEngine, ⟨.autoRepair r x.slot (repairKind e.loc) x.status x.detail, s.tally.epoch⟩⟩] } := by
  have unchanged := takeKind_repair_done rfl h
  subst unchanged
  rw [takeSelfRepair_found queue found, runJob_done .selfRepair h]
  have entry := (findEntry_of_tally (produce_same .jobEngine (.autoRepair r x.slot (repairKind e.loc) x.status x.detail)
    (s.claimed p e q e.attempted) .tally (by decide)) r).trans (claimed_findEntry found e.attempted)
  refine (markAttempted_found entry).trans ?_
  have twice := Vector.set_set (xs := s.tally.entries) (some { e with queued := false })
    (b := some { e with queued := false, attempted := true }) p.isLt
  unfold State.claimed
  rw [← twice]
  rfl

theorem takeSelfRepair_started (queue : s.tally.queue = r :: q) (found : s.findEntry r = some (p, e))
    (h : takeKind ⟨repairKind e.loc, r, none, true, s.config.poisonOnBad, false⟩ (s.claimed p e q e.attempted) = .started t) :
    takeSelfRepair r s = { t with engine := { s.engine with state := .busy ⟨.selfRepair, repairKind e.loc, r⟩ } } := by
  have engine := takeKind_engine ⟨repairKind e.loc, r, none, true, s.config.poisonOnBad, false⟩ (s.claimed p e q e.attempted)
  rw [h] at engine
  rw [takeSelfRepair_found queue found, runJob_started .selfRepair h]
  exact congrArg (fun n : JobEngine => { t with engine := { n with state := .busy ⟨.selfRepair, repairKind e.loc, r⟩ } }) engine

end Taken

/-- Settles O47: each take uses up a descriptor or a queued row, so the fuel outlasts the takes. -/
theorem arbiterTakesTheFirstReadySource : Obligations.ArbiterTakesTheFirstReadySource := by
  intro s job busy jobDone urgent routine
  refine ⟨urgentReady_iff, routineReady_iff, arbiterTake_urgent, fun r q first mode queue =>
      arbiterTake_candidate first (candidateHead_on mode queue),
    fun first queue ready => (arbiterTake_last first (candidateHead_off queue)).trans (if_pos ready),
    fun first queue last => (arbiterTake_last first (candidateHead_off queue)).trans (if_neg (by rw [last]; decide)),
    by decide, fun k code => ?urgent, fun k code => ?routine, fun r q p e queue found => ?selfRepair,
    settleJobs_notIdle, settleJobs_exhausts⟩
  case urgent =>
    have kind : JobKind.ofCode (s.desc s.urgentHead).kindCode = some k := (congrArg _ code).trans (kind_ofCode k)
    exact ⟨fun x t h => takeUrgent_done kind h, fun t h => takeUrgent_started kind h⟩
  case routine =>
    have kind : JobKind.ofCode (s.desc s.routineHead).kindCode = some k := (congrArg _ code).trans (kind_ofCode k)
    exact ⟨fun x t h => takeRoutine_done kind h, fun t h => takeRoutine_started kind h⟩
  case selfRepair =>
    intro k j claimed
    have kind : k = repairKind e.loc := by
      show (match e.loc with | .row => JobKind.spare | .slot _ => .respare) = _
      cases e.loc <;> rfl
    refine ⟨takeClaim_found queue found, fun x t h => ?_, fun t h => ?_⟩
    · have take := takeSelfRepair_done (x := x) (t := t) queue found (kind ▸ h)
      exact kind ▸ take
    · have take := takeSelfRepair_started (t := t) queue found (kind ▸ h)
      exact kind ▸ take

end Sys2Proof.Machine

namespace Sys2Proof.Machine

/-! ## The end of an event -/

/-- Settles O48: each phase of the end of an event does nothing under its own condition. -/
theorem eventEndDoesNothingWhereNoneWaits : Obligations.EventEndDoesNothingWhereNoneWaits := by
  intro s target
  have frame := settle_same s
  refine ⟨frame .resetLow (by decide), frame .supplyOk (by decide), frame .device (by decide), frame .config (by decide),
    frame .pending (by decide), settleOps_arrivals _, rfl, rfl, fun stop => congrArg settleOps (settleJobs_stop stop),
    fun stop law served => ?_, fun law served => congrArg settleReports (settleTags_of_law law served),
    fun r => ⟨settleFreedFrom_kept, settleFreedFrom_grown⟩, settleReports_nil, fun p some all => ?_, settleReports_order,
    decideScrub_of_eq, decideScrub_start, decideScrub_stop⟩
  · exact (congrArg settleOps (settleJobs_stop stop)).trans (congrArg settleReports (settleTags_of_law law served))
  · rw [settleReports_producer some all, arriveAll_eq_foldl]

/-! ## The tag arbiter -/

/-- In a list in order, the first element that a test passes is the least. -/
theorem find?_pairwise {α : Type} {r : α → α → Prop} (irrefl : ∀ a, ¬r a a) (asymm : ∀ a b, r a b → ¬r b a) {p : α → Bool} {b : α} :
    ∀ {l : List α}, l.Pairwise r → (l.find? p = some b ↔ b ∈ l ∧ p b = true ∧ ∀ a ∈ l, r a b → p a = false)
  | [], _ => by simp
  | a :: l, sorted => by
    obtain ⟨first, rest⟩ := List.pairwise_cons.1 sorted
    cases pa : p a with
    | true =>
      rw [List.find?_cons_of_pos pa]
      constructor
      · intro found
        obtain rfl : a = b := Option.some.inj found
        refine ⟨List.mem_cons_self, pa, fun x mem before => ?_⟩
        rcases List.mem_cons.1 mem with same | later
        · exact absurd (same ▸ before) (irrefl a)
        · exact absurd before (asymm a x (first x later))
      · rintro ⟨mem, -, least⟩
        rcases List.mem_cons.1 mem with same | later
        · exact congrArg some same.symm
        · exact Bool.noConfusion (pa.symm.trans (least a List.mem_cons_self (first b later)))
    | false =>
      rw [List.find?_cons_of_neg (by simp [pa]), find?_pairwise irrefl asymm rest]
      constructor
      · rintro ⟨mem, pb, least⟩
        refine ⟨List.mem_cons_of_mem a mem, pb, fun x later before => ?_⟩
        rcases List.mem_cons.1 later with rfl | later
        · exact pa
        · exact least x later before
      · rintro ⟨mem, pb, least⟩
        rcases List.mem_cons.1 mem with rfl | mem
        · exact Bool.noConfusion (pa.symm.trans pb)
        · exact ⟨mem, pb, fun x later => least x (List.mem_cons_of_mem a later)⟩

theorem isFree_iff {x : Tag} : x.isFree = true ↔ x = .free := decide_eq_true_iff

theorem isFree_false {x : Tag} : x.isFree = false ↔ x ≠ .free := decide_eq_false_iff_not

section Tags

variable {s : State} {t : TagNum}

theorem freeTag_iff : s.freeTag = some t ↔ s.tag t = .free ∧ ∀ x, x < t → s.tag x ≠ .free := by
  unfold State.freeTag
  rw [find?_pairwise (r := fun a b : TagNum => a < b) (fun a => lt_irrefl a) (fun a b h => lt_asymm h) (by decide), isFree_iff]
  simp only [isFree_false, mem_tagNumbers, true_and, forall_const]

theorem freeTag_none : s.freeTag = none ↔ ∀ x, s.tag x ≠ .free := by
  unfold State.freeTag
  rw [List.find?_eq_none]
  simp only [isFree_iff, mem_tagNumbers, forall_const]

theorem waitsForTag_iff : s.waitsForTag = true ↔ ∃ c, s.migration = some c ∧ c.copyTag = none := by
  unfold State.waitsForTag
  cases s.migration with
  | none => simp
  | some c => simp

theorem isVictim_iff {r : RowAddr} : s.isVictim r = true ↔ ∃ c, s.migration = some c ∧ c.victim = r := by
  unfold State.isVictim
  cases s.migration with
  | none => simp
  | some c => simp

theorem serveMigration_grant {c : Context} (free : s.freeTag = some t) (m : s.migration = some c) (untagged : c.copyTag = none) :
    serveMigration s = grantMigration t c s := by
  unfold serveMigration
  rw [m]
  dsimp only
  rw [if_pos untagged, free]

theorem serveScrub_idle (h : s.scrub.waiting = false ∨ s.waitsForTag = true ∨ s.config.depth.toNat ≤ s.scrubOutstanding ∨
    s.freeTag = none) : serveScrub s = s := by
  unfold serveScrub
  split
  next due =>
    obtain ⟨waiting, engine, depth⟩ := due
    rcases h with off | ahead | full | none
    · exact Bool.noConfusion (off.symm.trans waiting)
    · exact Bool.noConfusion (engine.symm.trans ahead)
    · exact absurd depth (Nat.not_lt.2 full)
    · rw [none]
  · rfl

theorem serveScrub_grant (free : s.freeTag = some t) (waiting : s.scrub.waiting = true) (engine : s.waitsForTag = false)
    (depth : s.scrubOutstanding < s.config.depth.toNat) : serveScrub s = opportunity t s := by
  unfold serveScrub
  rw [if_pos ⟨waiting, engine, depth⟩, free]

/-! ### The issue opportunity -/

theorem advance_scrub (s : State) : (advance s).scrub =
    let a := advanceFrom s.config.rows s.config.channels s.scrub.position
    { s.scrub with position := a.1, passCount := if a.2 then s.scrub.passCount + 1 else s.scrub.passCount } := by
  unfold advance
  dsimp only [State.rows]
  split
  · rfl
  · rfl

theorem advance_arrivals (s : State) : (advance s).arrivals = s.arrivals ++
    if (advanceFrom s.config.rows s.config.channels s.scrub.position).2 then
      [⟨.patrolScrubber, ⟨.scrubPass (s.scrub.passCount + 1), s.tally.epoch⟩⟩] else [] := by
  unfold advance
  dsimp only [State.rows]
  split
  · rfl
  · exact (List.append_nil _).symm

/-- The state after the grant, or as it was where the row is skipped. -/
def issued (t : TagNum) (s : State) : State :=
  if s.skips s.scrub.position then s
  else grant t .scrub (.verify s.scrub.position (s.verifyLocation s.scrub.position)) s

theorem opportunity_eq (t : TagNum) (s : State) : opportunity t s = { advance (issued t s) with
    scrub := { (advance (issued t s)).scrub with waiting := false, timer := (advance (issued t s)).intervalTimer } } := rfl

theorem issued_same (t : TagNum) (s : State) : SameBut [.tracker, .link] s (issued t s) :=
  ite_same (.refl _ _) (grant_same _ _ _ s)

theorem opportunity_scrub (t : TagNum) (s : State) : (opportunity t s).scrub =
    let a := advanceFrom s.config.rows s.config.channels s.scrub.position
    { s.scrub with
      position := a.1
      passCount := if a.2 then s.scrub.passCount + 1 else s.scrub.passCount
      timer := .running s.config.interval.toNat
      waiting := false } := by
  have scrub := advance_scrub (issued t s)
  have config : (advance (issued t s)).config = s.config :=
    ((issued_same t s).comp (advance_same _) (n := [.tracker, .link, .scrub, .arrivals]) (by decide) (by decide))
      .config (by decide)
  rw [issued_same t s .scrub (by decide), issued_same t s .config (by decide)] at scrub
  rw [opportunity_eq]
  unfold State.intervalTimer
  rw [config, scrub]

theorem opportunity_arrivals (t : TagNum) (s : State) : (opportunity t s).arrivals = s.arrivals ++
    if (advanceFrom s.config.rows s.config.channels s.scrub.position).2 then
      [⟨.patrolScrubber, ⟨.scrubPass (s.scrub.passCount + 1), s.tally.epoch⟩⟩] else [] := by
  have frame := issued_same t s
  have arrivals := advance_arrivals (issued t s)
  rw [frame .scrub (by decide), frame .config (by decide), frame .arrivals (by decide), frame .tally (by decide)] at arrivals
  exact arrivals

theorem opportunity_issued (t : TagNum) (s : State) :
    (opportunity t s).tracker = (issued t s).tracker ∧ (opportunity t s).link = (issued t s).link :=
  ⟨advance_same (issued t s) .tracker (by decide), advance_same (issued t s) .link (by decide)⟩

theorem issued_skipped {s : State} (t : TagNum) (h : s.poisoned s.scrub.position = true ∨ s.isVictim s.scrub.position = true) :
    issued t s = s := if_pos (Bool.or_eq_true_iff.2 h)

theorem issued_verify {s : State} (t : TagNum) (clean : s.poisoned s.scrub.position = false)
    (other : s.isVictim s.scrub.position = false) :
    issued t s = grant t .scrub (.verify s.scrub.position (s.verifyLocation s.scrub.position)) s :=
  if_neg (by simp [State.skips, clean, other])

end Tags

/-- Settles O49: the grant and the issue opportunity as equations, and the lowest FREE tag as the first in order. -/
theorem tagArbiterServesMigrationThenScrubber : Obligations.TagArbiterServesMigrationThenScrubber := by
  intro s t
  refine ⟨settleTags_down, freeTag_iff, freeTag_none, ?outstanding, waitsForTag_iff, fun r => isVictim_iff,
    fun c _ free m untagged => serveMigration_grant free m untagged, fun up => if_pos up, settleTags_served s, settleTags_engine,
    fun idle => serveMigration_none fun waits => Bool.noConfusion (idle.symm.trans waits), serveScrub_idle,
    fun free waiting engine depth => ?opportunity⟩
  case outstanding =>
    unfold State.scrubOutstanding
    rw [← List.countP_eq_length_filter]
    refine List.countP_congr fun x _ => ?_
    cases s.tag x <;> rfl
  case opportunity =>
    intro p a u
    have eq : u = opportunity t s := serveScrub_grant free waiting engine depth
    obtain ⟨tracker, link⟩ := opportunity_issued t s
    refine ⟨serveScrub_same s, (congrArg State.scrub eq).trans (opportunity_scrub t s),
      (congrArg State.arrivals eq).trans (opportunity_arrivals t s), fun skipped => ?_, fun l clean other location => ?_⟩
    · rw [eq, tracker, link, issued_skipped t skipped]
      exact ⟨rfl, rfl⟩
    · have at' : s.verifyLocation p = l := by
        unfold State.verifyLocation
        cases mapped : s.mappedSlot p with
        | none =>
          rw [mapped] at location
          exact location.symm
        | some k =>
          rw [mapped] at location
          exact location.symm
      rw [eq, tracker, link, issued_verify t clean other, at']
      exact ⟨rfl, rfl⟩

/-! ## The walk of the scrubber -/

theorem nextChannel_iff {mask : BitVec 4} {p c : BitVec 2} : nextChannel mask p = some c ↔
    (p.toNat < c.toNat ∧ mask.getLsbD c.toNat = true) ∧
      ∀ d : BitVec 2, d.toNat < c.toNat → p.toNat < d.toNat → mask.getLsbD d.toNat = false := by
  have mem {d : BitVec 2} (above : p.toNat < d.toNat) : d ∈ ([1, 2, 3] : List (BitVec 2)) := by
    have positive : 0 < d.toNat := Nat.zero_lt_of_lt above
    revert positive
    clear above
    revert d
    decide
  unfold nextChannel
  rw [find?_pairwise (r := fun a b : BitVec 2 => a.toNat < b.toNat) (fun a => lt_irrefl _) (fun a b h => lt_asymm h) (by decide)]
  simp only [Bool.and_eq_true, decide_eq_true_iff, Bool.and_eq_false_imp, channelSet]
  constructor
  · rintro ⟨-, set, least⟩
    exact ⟨set, fun d below above => least d (mem above) below above⟩
  · rintro ⟨set, least⟩
    exact ⟨mem set.1, set, fun d _ below above => least d below above⟩

theorem nextChannel_none {mask : BitVec 4} {p : BitVec 2}
    (h : ∀ d : BitVec 2, p.toNat < d.toNat → mask.getLsbD d.toNat = false) : nextChannel mask p = none := by
  cases next : nextChannel mask p with
  | none => rfl
  | some c =>
    obtain ⟨⟨above, set⟩, -⟩ := nextChannel_iff.1 next
    exact Bool.noConfusion ((h c above).symm.trans set)

section Walk

variable {rows : Nat} {mask : BitVec 4} {p : RowAddr}

theorem advanceFrom_row (h : p.row.toNat + 1 < rows) : advanceFrom rows mask p = ({ p with row := p.row + 1 }, false) :=
  if_pos h

theorem advanceFrom_bank (last : rows ≤ p.row.toNat + 1) (bank : p.bank ≠ 3) :
    advanceFrom rows mask p = ({ p with row := 0, bank := p.bank + 1 }, false) :=
  (if_neg (Nat.not_lt.2 last)).trans (if_pos (by bv_omega))

theorem advanceFrom_group (last : rows ≤ p.row.toNat + 1) (bank : p.bank = 3) (group : p.group ≠ 3) :
    advanceFrom rows mask p = (⟨p.channel, p.group + 1, 0, 0⟩, false) :=
  (if_neg (Nat.not_lt.2 last)).trans ((if_neg (by rw [bank]; decide)).trans (if_pos (by bv_omega)))

theorem advanceFrom_channel {c : BitVec 2} (last : rows ≤ p.row.toNat + 1) (bank : p.bank = 3) (group : p.group = 3)
    (next : nextChannel mask p.channel = some c) : advanceFrom rows mask p = (.channelStart c, false) := by
  unfold advanceFrom
  rw [if_neg (Nat.not_lt.2 last), if_neg (by rw [bank]; decide), if_neg (by rw [group]; decide), next]

theorem advanceFrom_wrap (last : rows ≤ p.row.toNat + 1) (bank : p.bank = 3) (group : p.group = 3)
    (next : nextChannel mask p.channel = none) : advanceFrom rows mask p = (.channelStart (lowestChannel mask), true) := by
  unfold advanceFrom
  rw [if_neg (Nat.not_lt.2 last), if_neg (by rw [bank]; decide), if_neg (by rw [group]; decide), next]

end Walk

/-- Settles O50: one equation for each carry of the walk, the next channel being the least set above. -/
theorem scrubPositionFollowsTheWalk : Obligations.ScrubPositionFollowsTheWalk := by
  refine fun rows mask p => ⟨advanceFrom_row, advanceFrom_bank, advanceFrom_group,
    fun c last bank group above set between => advanceFrom_channel last bank group
      (nextChannel_iff.2 ⟨⟨above, set⟩, fun d below past => between d past below⟩),
    fun c last bank group top set lowest => ?_⟩
  rw [advanceFrom_wrap last bank group (nextChannel_none top), lowestChannel_least mask c set lowest]
  rfl

/-! ## A descriptor of an undefined kind -/

theorem kind_undefined : ∀ {c : BitVec 4}, c = 0 ∨ 10 ≤ c.toNat → JobKind.ofCode c = none := by decide

/-- Settles O51: no job kind has the code, so the head completes at its take. -/
theorem undefinedKindCompletesBadKind : Obligations.UndefinedKindCompletesBadKind := by
  refine ⟨fun s _ ready kind => ?_, fun s _ first queue ready kind => ?_, fun l => ?_, fun i => ?_, fun r eq => eq ▸ rfl⟩
  · rw [arbiterTake_urgent ready, takeUrgent_bad (kind_undefined kind)]
    rfl
  · rw [arbiterTake_last first (candidateHead_off queue), if_pos ready, takeRoutine_bad (kind_undefined kind)]
    rfl
  · cases l with
    | row => exact .inl rfl
    | slot k => exact .inr rfl
  · rw [reset_desc]
    exact ⟨rfl, rfl⟩

end Sys2Proof.Machine

namespace Sys2Proof.Machine

/-! ## The migration jobs at their take -/

theorem slotAt_val (r : RowAddr) (i : Fin 4) : (r.slotAt i).val = 4 * (4 * r.channel.toNat + r.group.toNat) + i.val := by
  have channel := r.channel.isLt
  have group := r.group.isLt
  show (4 * (4 * r.channel.toNat + r.group.toNat) + i.val) % 64 = _
  omega

theorem outOfRange_iff {s : State} {r : RowAddr} : s.outOfRange r = true ↔ s.config.rows ≤ r.row.toNat := decide_eq_true_iff

theorem mem_fin4 (i : Fin 4) : i ∈ ([0, 1, 2, 3] : List (Fin 4)) := by
  fin_cases i <;> decide

section Choice

variable {s : State} {j : JobFields} {k : SlotNum}

theorem freeSlot_least {r : RowAddr} {i : Fin 4} (free : s.slot (r.slotAt i) = .free)
    (least : ∀ n, n < i → s.slot (r.slotAt n) ≠ .free) : s.freeSlot r = some (r.slotAt i) := by
  show (([0, 1, 2, 3] : List (Fin 4)).map r.slotAt).find? _ = _
  have first : ([0, 1, 2, 3] : List (Fin 4)).find? ((fun k => decide (s.slot k = .free)) ∘ r.slotAt) = some i :=
    (find?_pairwise (r := fun a b : Fin 4 => a < b) (fun a => lt_irrefl a) (fun a b h => lt_asymm h) (by decide)).2
      ⟨mem_fin4 i, decide_eq_true free, fun n _ below => decide_eq_false (least n below)⟩
  rw [List.find?_map, first]
  rfl

theorem freeSlot_none {r : RowAddr} (h : ∀ i, s.slot (r.slotAt i) ≠ .free) : s.freeSlot r = none := by
  show (([0, 1, 2, 3] : List (Fin 4)).map r.slotAt).find? _ = _
  rw [List.find?_map, List.find?_eq_none.2 fun i _ => by simpa using h i]
  rfl

theorem choiceIs_free (h : s.choiceIs j k) : s.slot k = .free := by
  unfold State.choiceIs at h
  split at h
  · exact h.2.2
  · obtain ⟨i, rfl, free, -⟩ := h
    exact free

theorem chooseSlot_ok (h : s.choiceIs j k) : s.chooseSlot j = .ok k := by
  unfold State.choiceIs at h
  unfold State.chooseSlot
  cases explicit : j.explicit with
  | some x =>
    rw [explicit] at h
    obtain ⟨rfl, pool, free⟩ := h
    have fine : s.explicitOk j.row x = true := by
      unfold State.explicitOk
      rw [decide_eq_true pool, decide_eq_true free]
      rfl
    dsimp only
    rw [if_pos fine]
  | none =>
    rw [explicit] at h
    obtain ⟨i, rfl, free, least⟩ := h
    dsimp only
    rw [freeSlot_least free least]

theorem chooseSlot_error {st : Status} (h : s.choiceFails j st) : s.chooseSlot j = .error st := by
  unfold State.choiceFails at h
  unfold State.chooseSlot
  cases explicit : j.explicit with
  | some x =>
    rw [explicit] at h
    obtain ⟨closed, rfl⟩ := h
    have refused : ¬s.explicitOk j.row x = true := by
      unfold State.explicitOk
      rw [Bool.and_eq_true, decide_eq_true_iff, decide_eq_true_iff, not_and_or]
      exact closed
    dsimp only
    rw [if_neg refused]
  | none =>
    rw [explicit] at h
    obtain ⟨full, rfl⟩ := h
    dsimp only
    rw [freeSlot_none full]

theorem startMigration_chosen (d : Direction) (source : Location) (h : s.choiceIs j k) : startMigration d j source s = .started
    { s.putSlot k (.reserved ⟨j.row.bank, j.row.row⟩) with
      migration := some ⟨d, j.row, source, .slot k, .copying, 1, false, none, 0, false, j.poisonOnBad⟩ } := by
  unfold startMigration
  rw [chooseSlot_ok h]
  dsimp only
  rw [reserve_free j.row (choiceIs_free h)]
  rfl

theorem startMigration_refused {st : Status} (d : Direction) (source : Location) (h : s.choiceFails j st) :
    startMigration d j source s = .done ⟨st, j.explicit, 0⟩ s := by
  unfold startMigration
  rw [chooseSlot_error h]
  rfl

end Choice

section Checks

variable {s : State} {j : JobFields} {k : SlotNum} {v : Victim}

theorem takeSpare_mapped (inside : j.row.row.toNat < s.config.rows) (mapped : s.mappedSlot j.row = some k) :
    takeSpare j s = .done ⟨.alreadySpared, j.explicit, 0⟩ s := by
  unfold takeSpare
  rw [if_neg (mt outOfRange_iff.1 (Nat.not_le.2 inside)), mapped]
  rfl

theorem takeSpare_unmapped (inside : j.row.row.toNat < s.config.rows) (unmapped : s.mappedSlot j.row = none) :
    takeSpare j s = startMigration .forward j .row s := by
  unfold takeSpare
  rw [if_neg (mt outOfRange_iff.1 (Nat.not_le.2 inside)), unmapped]

theorem takeRespare_unmapped (inside : j.row.row.toNat < s.config.rows) (unmapped : s.mappedSlot j.row = none) :
    takeRespare j s = .done ⟨.notSpared, j.explicit, 0⟩ s := by
  unfold takeRespare
  rw [if_neg (mt outOfRange_iff.1 (Nat.not_le.2 inside)), unmapped]
  rfl

theorem takeRespare_committing (inside : j.row.row.toNat < s.config.rows) (mapped : s.mappedSlot j.row = some k)
    (slot : s.slot k = .committing v) : takeRespare j s = .done ⟨.rowBusy, j.explicit, 0⟩ s := by
  unfold takeRespare
  rw [if_neg (mt outOfRange_iff.1 (Nat.not_le.2 inside)), mapped]
  dsimp only
  rw [slot]
  rfl

theorem takeRespare_mapped (inside : j.row.row.toNat < s.config.rows) (mapped : s.mappedSlot j.row = some k)
    (slot : ∀ v, s.slot k ≠ .committing v) : takeRespare j s = startMigration .respare j (.slot k) s := by
  unfold takeRespare
  rw [if_neg (mt outOfRange_iff.1 (Nat.not_le.2 inside)), mapped]
  dsimp only
  split
  next w committing => exact absurd committing (slot w)
  · rfl

theorem takeUnspare_unmapped (inside : j.row.row.toNat < s.config.rows) (unmapped : s.mappedSlot j.row = none) :
    takeUnspare j s = .done ⟨.notSpared, none, 0⟩ s := by
  unfold takeUnspare
  rw [if_neg (mt outOfRange_iff.1 (Nat.not_le.2 inside)), unmapped]
  rfl

theorem takeUnspare_hard {i : Fin 96} (inside : j.row.row.toNat < s.config.rows) (mapped : s.mappedSlot j.row = some k)
    (slot : s.slot k = .hard v i) : takeUnspare j s = .done ⟨.fused, none, 0⟩ s := by
  unfold takeUnspare
  rw [if_neg (mt outOfRange_iff.1 (Nat.not_le.2 inside)), mapped]
  dsimp only
  rw [slot]
  rfl

theorem takeUnspare_committing (inside : j.row.row.toNat < s.config.rows) (mapped : s.mappedSlot j.row = some k)
    (slot : s.slot k = .committing v) : takeUnspare j s = .done ⟨.rowBusy, none, 0⟩ s := by
  unfold takeUnspare
  rw [if_neg (mt outOfRange_iff.1 (Nat.not_le.2 inside)), mapped]
  dsimp only
  rw [slot]
  rfl

theorem takeUnspare_soft (inside : j.row.row.toNat < s.config.rows) (mapped : s.mappedSlot j.row = some k)
    (slot : s.slot k = .soft v) : takeUnspare j s = if s.rowCopyHeld j.row = true then .done ⟨.rowBusy, none, 0⟩ s
      else .started { s with
        migration := some ⟨.revert, j.row, .slot k, .row, .copying, 1, false, none, 0, false, j.poisonOnBad⟩ } := by
  unfold takeUnspare
  rw [if_neg (mt outOfRange_iff.1 (Nat.not_le.2 inside)), mapped]
  dsimp only
  rw [slot]
  rfl

theorem takeSpare_beyond (h : s.outOfRange j.row = true) : takeSpare j s = .done ⟨.badAddress, none, 0⟩ s := if_pos h

theorem takeRespare_beyond (h : s.outOfRange j.row = true) : takeRespare j s = .done ⟨.badAddress, none, 0⟩ s := if_pos h

theorem takeUnspare_beyond (h : s.outOfRange j.row = true) : takeUnspare j s = .done ⟨.badAddress, none, 0⟩ s := if_pos h

/-! ### The take by kind -/

theorem takeKind_spare (h : j.kind = .spare) : takeKind j s = takeSpare j s := by
  unfold takeKind
  rw [h]

theorem takeKind_respare (h : j.kind = .respare) : takeKind j s = takeRespare j s := by
  unfold takeKind
  rw [h]

theorem takeKind_unspare (h : j.kind = .unspare) : takeKind j s = takeUnspare j s := by
  unfold takeKind
  rw [h]

end Checks

/-- Settles O53: one equation for each check of a take, and the slot choice of R5 to R7. -/
theorem migrationJobsAreCheckedInOrder : Obligations.MigrationJobsAreCheckedInOrder := by
  refine ⟨fun r i => ⟨rfl, slotAt_val r i⟩, fun _ => rfl, fun j s => ?_⟩
  intro migrates unmapped mappedAt context
  have at' {k : SlotNum} (h : mappedAt k) : s.mappedSlot j.row = some k := mappedSlot_unique h.1 h.2
  have nowhere (h : unmapped) : s.mappedSlot j.row = none := mappedSlot_none.2 h
  refine ⟨fun kind beyond => ?_, fun inside => ⟨fun k kind mapped => ?_, fun st kind absent fails => ?_,
    fun k kind absent chosen => ?_, fun kind absent => ?_, fun k v kind mapped slot => ?_,
    fun k st kind mapped slot fails => ?_, fun k n kind mapped slot chosen => ?_, fun kind absent => ?_,
    fun k v i kind mapped slot => ?_, fun k v kind mapped slot => ?_, fun k v kind mapped slot held => ?_,
    fun k v kind mapped slot clear => ?_⟩⟩
  · have out := outOfRange_iff.2 beyond
    rcases kind with kind | kind | kind
    · rw [takeKind_spare kind, takeSpare_beyond out]
    · rw [takeKind_respare kind, takeRespare_beyond out]
    · rw [takeKind_unspare kind, takeUnspare_beyond out]
  · rw [takeKind_spare kind, takeSpare_mapped inside (at' mapped)]
  · rw [takeKind_spare kind, takeSpare_unmapped inside (nowhere absent), startMigration_refused .forward .row fails]
  · rw [takeKind_spare kind, takeSpare_unmapped inside (nowhere absent), startMigration_chosen .forward .row chosen]
  · rw [takeKind_respare kind, takeRespare_unmapped inside (nowhere absent)]
  · rw [takeKind_respare kind, takeRespare_committing inside (at' mapped) slot]
  · rw [takeKind_respare kind, takeRespare_mapped inside (at' mapped) slot, startMigration_refused .respare (.slot k) fails]
  · rw [takeKind_respare kind, takeRespare_mapped inside (at' mapped) slot, startMigration_chosen .respare (.slot k) chosen]
  · rw [takeKind_unspare kind, takeUnspare_unmapped inside (nowhere absent)]
  · rw [takeKind_unspare kind, takeUnspare_hard inside (at' mapped) slot]
  · rw [takeKind_unspare kind, takeUnspare_committing inside (at' mapped) slot]
  · rw [takeKind_unspare kind, takeUnspare_soft inside (at' mapped) slot, if_pos held]
  · rw [takeKind_unspare kind, takeUnspare_soft inside (at' mapped) slot, if_neg (by rw [clear]; decide)]

end Sys2Proof.Machine

namespace Sys2Proof.Machine

/-! ## The record a request programs -/

/-- The fields of the record of a request, its check not yet set. -/
def FuseRequest.fields (q : FuseRequest) (n : Nat) : FuseFields where
  started := true
  finished := false
  kind := if q.kind = .map then 1 else 2
  sequence := BitVec.ofNat 12 n
  slot := BitVec.ofNat 6 q.slot.val
  bank := if q.kind = .map then q.victim.bank else 0
  row := if q.kind = .map then q.victim.row else 0
  check := 0

theorem bytes_layout (q : FuseRequest) (n : Nat) : q.bytes n =
    fuseLayout { q.fields n with check := checkOf (fuseLayout (q.fields n) ⟨0, 0, 0, 0⟩) } ⟨0, 0, 0, 0⟩ := by
  unfold FuseRequest.bytes FuseRequest.fields
  cases q.kind with
  | map => exact program_layout _ _ _ _ _
  | condemn => exact program_layout _ _ _ _ _

/-- The check covers neither the check byte nor the two progress marks (R122). -/
theorem checkOf_congr {r x : BitVec 64} (h : ∀ i, i < 56 → i ≠ 6 → i ≠ 7 → r.getLsbD i = x.getLsbD i) : checkOf r = checkOf x := by
  have bits : checkedBits r = checkedBits x := by
    unfold checkedBits
    refine List.flatMap_congr fun i hi => List.map_congr_left fun j hj => ?_
    by_cases covered : i ≠ 0 ∨ j < 6
    · rw [h (8 * i + j) ?_ ?_ ?_]
      all_goals
        simp only [List.mem_cons, List.not_mem_nil, or_false] at hi hj
        omega
    · obtain ⟨zero, mark⟩ := not_or.1 covered
      have uncovered : (i != 0 || decide (j < 6)) = false := by simp [not_not.1 zero, mark]
      rw [uncovered, Bool.false_and, Bool.false_and]
  unfold checkOf
  rw [bits]

theorem checkOf_marks (f : FuseFields) (x : FuseSpare) (c : Byte) (b : Bool) :
    checkOf (fuseLayout { f with check := c, finished := b } x) = checkOf (fuseLayout f x) := by
  refine checkOf_congr fun i lt six seven => ?_
  simp only [fuseLayout, BitVec.getLsbD_append]
  interval_cases i <;> simp_all

section Bytes

variable (q : FuseRequest) (n : Nat)

theorem bytes_kindCode : (q.bytes n).kindCode = q.kind.code := by
  rw [bytes_layout, fuseLayout_kind]
  show (if q.kind = .map then 1 else 2) = q.kind.code
  cases q.kind <;> rfl

theorem bytes_sequence (h : n ≤ 4095) : (q.bytes n).sequence.toNat = n := by
  rw [bytes_layout, fuseLayout_sequence]
  exact Nat.mod_eq_of_lt (by omega)

theorem bytes_slotNum : (q.bytes n).slotNum = q.slot := by
  have slot : FuseBytes.slot (q.bytes n) = BitVec.ofNat 6 q.slot.val := by
    rw [bytes_layout, fuseLayout_slot]
    rfl
  refine Fin.ext ((congrArg BitVec.toNat slot).trans (Nat.mod_eq_of_lt q.slot.isLt))

theorem bytes_victim : (q.bytes n).victim = if q.kind = .map then q.victim else ⟨0, 0⟩ := by
  rw [bytes_layout, fuseRecordsShown.victim]
  show Victim.mk (if q.kind = .map then q.victim.bank else 0) (if q.kind = .map then q.victim.row else 0) = _
  split
  · rfl
  · rfl

theorem bytes_checkGood : (q.bytes n).checkGood = true := by
  rw [bytes_layout, fuseLayout_good]
  exact checkOf_marks (q.fields n) ⟨0, 0, 0, 0⟩ _ false

/-- The record as it reads once its programming completes is valid (R122). -/
theorem bytes_finish_checkValid (pos : 1 ≤ n) (le : n ≤ 4095) : (q.bytes n).finish.checkValid = true := by
  rw [bytes_layout, fuseLayout_finish, fuseRecordsShown.valid]
  refine ⟨rfl, checkOf_marks (q.fields n) ⟨0, 0, 0, 0⟩ _ true, ?_, fun zero => ?_⟩
  · show (if q.kind = .map then (1 : BitVec 2) else 2) = 1 ∨ (if q.kind = .map then (1 : BitVec 2) else 2) = 2
    split
    · exact .inl rfl
    · exact .inr rfl
  · have value : n % 4096 = 0 := congrArg BitVec.toNat (show BitVec.ofNat 12 n = 0 from zero)
    omega

end Bytes

/-! ## The fuse jobs at their take -/

section Requests

variable {s : State} {q : FuseRequest}

theorem fuseRefusal_some {st : Status} (h : (s.config.fuseEnable = false ∧ st = .fuseDisabled) ∨
    (s.config.fuseEnable = true ∧ s.supplyOk = false ∧ st = .fuseSupply) ∨
    (s.config.fuseEnable = true ∧ s.supplyOk = true ∧ (96 ≤ s.fuse.writePos ∨ 4095 < s.fuse.nextSeq) ∧ st = .fuseFull)) :
    s.fuseRefusal = some st := by
  unfold State.fuseRefusal
  rcases h with ⟨disabled, rfl⟩ | ⟨enabled, low, rfl⟩ | ⟨enabled, supplied, full, rfl⟩
  · rw [disabled]
    rfl
  · rw [enabled, low]
    rfl
  · rw [enabled, supplied, if_pos full]
    rfl

theorem fuseRefusal_open (h : s.config.fuseEnable = true ∧ s.supplyOk = true ∧ s.fuse.writePos < 96 ∧ s.fuse.nextSeq ≤ 4095) :
    s.fuseRefusal = none := by
  obtain ⟨enabled, supplied, room, sequence⟩ := h
  have shut : ¬(96 ≤ s.fuse.writePos ∨ 4095 < s.fuse.nextSeq) := by omega
  unfold State.fuseRefusal
  rw [enabled, supplied]
  exact if_neg shut

theorem requestProgramming_refused {st : Status} (h : s.fuseRefusal = some st) :
    requestProgramming q s = .done ⟨st, some q.slot, 0⟩ s := by
  unfold requestProgramming
  rw [h]

theorem requestProgramming_open (h : s.fuseRefusal = none) : requestProgramming q s = .started (acceptRequest q s) := by
  unfold requestProgramming
  rw [h]

/-- The fuse store once a request is accepted at record `i`. -/
def State.programmed (s : State) (q : FuseRequest) (i : Fin 96) : FuseStore := { s.fuse with
  records := s.fuse.records.set i (q.bytes s.fuse.nextSeq)
  writePos := s.fuse.writePos + 1
  nextSeq := s.fuse.nextSeq + 1
  state := .programming i q.kind q.slot }

theorem acceptRequest_eq {i : Fin 96} (position : i.val = s.fuse.writePos) :
    acceptRequest q s = q.claim { s with fuse := s.programmed q i } := by
  have same : Fin.ofNat 96 s.fuse.writePos = i := Fin.ext ((Nat.mod_eq_of_lt (position ▸ i.isLt)).trans position.symm)
  unfold acceptRequest
  rw [same]
  rfl

theorem acceptRequest_map {i : Fin 96} {k : SlotNum} {v : Victim} (position : i.val = s.fuse.writePos)
    (soft : s.slot k = .soft v) : acceptRequest ⟨.map, k, v⟩ s =
      { s.putSlot k (.committing v) with fuse := s.programmed ⟨.map, k, v⟩ i } := by
  rw [acceptRequest_eq position]
  exact beginCommit_soft (s := { s with fuse := s.programmed ⟨.map, k, v⟩ i }) soft

theorem acceptRequest_condemn {i : Fin 96} {k : SlotNum} {v : Victim} (position : i.val = s.fuse.writePos) :
    acceptRequest ⟨.condemn, k, v⟩ s = { s with fuse := s.programmed ⟨.condemn, k, v⟩ i } :=
  acceptRequest_eq position

end Requests

section Jobs

variable {s : State} {j : JobFields} {k : SlotNum}

theorem takeKind_promote (h : j.kind = .promote) : takeKind j s = takePromote j s := by
  unfold takeKind
  rw [h]

theorem takeKind_condemn (h : j.kind = .condemn) : takeKind j s = takeCondemn j s := by
  unfold takeKind
  rw [h]

theorem takePromote_unmapped (h : s.mappedSlot j.row = none) : takePromote j s = .done ⟨.notSpared, none, 0⟩ s := by
  unfold takePromote
  rw [h]

theorem takePromote_fused (mapped : s.mappedSlot j.row = some k) (slot : ∀ v, s.slot k ≠ .soft v) :
    takePromote j s = .done ⟨.alreadyFused, some k, 0⟩ s := by
  unfold takePromote
  rw [mapped]
  dsimp only
  split
  next v soft => exact absurd soft (slot v)
  · rfl

theorem takePromote_soft {v : Victim} (mapped : s.mappedSlot j.row = some k) (slot : s.slot k = .soft v) :
    takePromote j s = requestProgramming ⟨.map, k, v⟩ s := by
  unfold takePromote
  rw [mapped]
  dsimp only
  rw [slot]

theorem takeCondemn_absent (h : j.slot = none) : takeCondemn j s = .done ⟨.slotUnavailable, none, 0⟩ s := by
  unfold takeCondemn
  rw [h]

theorem takeCondemn_taken (h : j.slot = some k) (taken : s.slot k ≠ .free) :
    takeCondemn j s = .done ⟨.slotUnavailable, some k, 0⟩ s := by
  unfold takeCondemn
  rw [h]
  dsimp only
  split
  next free => exact absurd free taken
  · rfl

theorem takeCondemn_free (h : j.slot = some k) (free : s.slot k = .free) : takeCondemn j s =
    if j.permanent then requestProgramming ⟨.condemn, k, ⟨0, 0⟩⟩ (s.putSlot k (.retired none none))
    else .done ⟨.ok, some k, 0⟩ (s.putSlot k (.retired none none)) := by
  unfold takeCondemn
  rw [h]
  dsimp only
  rw [free, ← condemn_free free]

end Jobs

/-- Settles O54: the record written is a layout, whose check covers neither itself nor the progress marks. -/
theorem fuseJobsProgramTheNextRecord : Obligations.FuseJobsProgramTheNextRecord := by
  refine ⟨fuseRecordsShown, fun j s => ?_⟩
  intro open? refusal programmed
  refine ⟨fun kind unmapped => ?_, fun k kind maps only => ?_, fun kind absent => ?_, fun k kind slot => ?_, fun q n pos le => ?_⟩
  · rw [takeKind_promote kind, takePromote_unmapped (mappedSlot_none.2 unmapped)]
  · have mapped := mappedSlot_unique maps only
    rw [takeKind_promote kind]
    refine ⟨fun other => takePromote_fused mapped other, fun v st soft refused => ?_, fun v i soft free position => ?_⟩
    · rw [takePromote_soft mapped soft, requestProgramming_refused (fuseRefusal_some refused)]
    · rw [takePromote_soft mapped soft, requestProgramming_open (fuseRefusal_open free), acceptRequest_map position soft]
      rfl
  · rw [takeKind_condemn kind, takeCondemn_absent absent]
  · rw [takeKind_condemn kind]
    refine ⟨fun taken => takeCondemn_taken slot taken, fun free once => ?_, fun st free permanent refused => ?_,
      fun i free permanent clear position => ?_⟩
    · rw [takeCondemn_free slot free, once]
      rfl
    · rw [takeCondemn_free slot free, if_pos permanent]
      exact requestProgramming_refused (s := s.putSlot k (.retired none none)) (fuseRefusal_some refused)
    · rw [takeCondemn_free slot free, if_pos permanent]
      have accepted := acceptRequest_condemn (s := s.putSlot k (.retired none none)) (k := k) (v := ⟨0, 0⟩) position
      exact (requestProgramming_open (s := s.putSlot k (.retired none none)) (fuseRefusal_open clear)).trans
        (congrArg TakeOutcome.started accepted)
  · exact ⟨bytes_layout q n, bytes_started q n, (by rw [bytes_layout, fuseLayout_finished]; rfl), bytes_kindCode q n,
      bytes_sequence q n le, bytes_slotNum q n, bytes_victim q n, bytes_checkGood q n, bytes_finish_checkValid q n pos le⟩

end Sys2Proof.Machine

namespace Sys2Proof.Machine

/-! ## The jobs on the lists at their take -/

theorem poisonPlace_first {r : RowAddr} : ∀ {l : List PoisonEntry} {n : Nat} {e : PoisonEntry}, l[n]? = some e → e.row = r →
    (∀ (m : Nat) (f : PoisonEntry), m < n → l[m]? = some f → f.row ≠ r) → poisonPlace r l = n
  | [], _, _, at', _, _ => by cases at'
  | x :: l, 0, e, at', row, _ => by
    obtain rfl : x = e := Option.some.inj at'
    exact if_pos row
  | x :: l, n + 1, e, at', row, before => by
    have rest : poisonPlace r l = n := poisonPlace_first (l := l) at' row fun m f less at'' =>
      before (m + 1) f (Nat.succ_lt_succ less) at''
    exact (if_neg (before 0 x (Nat.succ_pos n) rfl)).trans (congrArg (· + 1) rest)

section Lists

variable {s : State} {j : JobFields}

theorem takeKind_poison (h : j.kind = .poison) : takeKind j s = takePoison j s := by
  unfold takeKind
  rw [h]

theorem takeKind_clearPoison (h : j.kind = .clearPoison) : takeKind j s = takeClearPoison j s := by
  unfold takeKind
  rw [h]

theorem takeKind_dismiss (h : j.kind = .dismiss) : takeKind j s = takeDismiss j s := by
  unfold takeKind
  rw [h]

theorem takeKind_marker (h : j.kind = .marker) : takeKind j s = takeMarker s := by
  unfold takeKind
  rw [h]

theorem takePoison_inside (inside : j.row.row.toNat < s.config.rows) : takePoison j s =
    if s.poisoned j.row then .done ⟨.alreadyPoisoned, none, poisonPlace j.row s.query.poison⟩ s
    else if s.query.poison.length < 16 then .done ⟨.ok, none, s.query.poison.length⟩ (addPoison j.row .software s)
    else .done ⟨.poisonFull, none, 16⟩ s :=
  if_neg (mt outOfRange_iff.1 (Nat.not_le.2 inside))

theorem takeClearPoison_none (h : s.poisonEntry j.row = none) : takeClearPoison j s = .done ⟨.notPoisoned, none, 0⟩ s := by
  unfold takeClearPoison
  rw [h]

theorem takeClearPoison_some {e : PoisonEntry} (h : s.poisonEntry j.row = some e) :
    takeClearPoison j s = .done ⟨.ok, none, e.hits⟩ (removePoison j.row s) := by
  unfold takeClearPoison
  rw [h]

theorem takeDismiss_none (h : s.findEntry j.row = none) : takeDismiss j s = .done ⟨.notTracked, none, 0⟩ s := by
  unfold takeDismiss
  rw [h]

theorem takeDismiss_some {p : Fin 32} {e : TallyEntry} (h : s.findEntry j.row = some (p, e)) :
    takeDismiss j s = .done ⟨.ok, none, e.count⟩ (removeAt p j.row s) := by
  unfold takeDismiss
  rw [h]

end Lists

/-- Settles O55: one equation for each outcome of the four takes. -/
theorem listJobsCompleteAtTheirTake : Obligations.ListJobsCompleteAtTheirTake := by
  refine fun j s => ⟨fun kind beyond => ?_, fun kind inside n e at' row before => ?_, fun kind inside clean room => ?_,
    fun kind inside clean full => ?_, fun kind absent => ?_, fun e kind entry => ?_, fun kind absent => ?_,
    fun p e kind entry => ?_, fun kind => takeKind_marker kind⟩
  · rw [takeKind_poison kind]
    exact if_pos (outOfRange_iff.2 beyond)
  · have poisoned : s.poisoned j.row = true := poisoned_iff.2 ⟨e, List.mem_of_getElem? at', row⟩
    rw [takeKind_poison kind, takePoison_inside inside, if_pos poisoned, poisonPlace_first at' row before]
  · rw [takeKind_poison kind, takePoison_inside inside, if_neg (by rw [clean]; decide), if_pos room]
    rfl
  · rw [takeKind_poison kind, takePoison_inside inside, if_neg (by rw [clean]; decide), if_neg (Nat.not_lt.2 full)]
  · rw [takeKind_clearPoison kind, takeClearPoison_none absent]
  · rw [takeKind_clearPoison kind, takeClearPoison_some entry]
    rfl
  · rw [takeKind_dismiss kind, takeDismiss_none absent]
  · rw [takeKind_dismiss kind, takeDismiss_some entry]
    rfl

/-! ## The messages of the link -/

/-! ### Headers, by the bits of their layout -/

section Headers

variable (w : Word)

theorem decode_query {h : Word} (code : field h 0 4 = 1) : decodeMessage h w = .query (field h 8 8) (field h 16 2) w := by
  unfold decodeMessage
  rw [code]
  rfl

theorem decode_errNote {h : Word} (code : field h 0 4 = 2) : decodeMessage h w =
    .errNote (bit h 4) (field h 8 6).toFin (bit h 16) (field h 20 4) w := by
  unfold decodeMessage
  rw [code]
  rfl

theorem decode_opDone {h : Word} (code : field h 0 4 = 3) : decodeMessage h w =
    .opDone (field h 8 2).toFin (field h 10 1).toFin (field h 12 4) (field h 16 4) := by
  unfold decodeMessage
  rw [code]
  rfl

theorem decode_unknown {h : Word} (one : field h 0 4 ≠ 1) (two : field h 0 4 ≠ 2) (three : field h 0 4 ≠ 3) :
    decodeMessage h w = .unknownMessage h := by
  unfold decodeMessage
  split
  next code => exact absurd (BitVec.eq_of_toNat_eq code) one
  next code => exact absurd (BitVec.eq_of_toNat_eq code) two
  next code => exact absurd (BitVec.eq_of_toNat_eq code) three
  · rfl

theorem toFin_ofNat {n : Nat} (k : Fin (2 ^ n)) : (BitVec.ofNat n k.val).toFin = k :=
  Fin.ext (Nat.mod_eq_of_lt k.isLt)

theorem query_header (x : BitVec 14) (kind : BitVec 2) (id : BitVec 8) (y : BitVec 4) :
    decodeMessage (x ++ kind ++ id ++ y ++ 1#4) w = .query id kind w := by
  have fields : field (x ++ kind ++ id ++ y ++ 1#4) 0 4 = 1 ∧ field (x ++ kind ++ id ++ y ++ 1#4) 8 8 = id ∧
      field (x ++ kind ++ id ++ y ++ 1#4) 16 2 = kind := by
    refine ⟨?_, ?_, ?_⟩ <;>
    · apply BitVec.eq_of_getLsbD_eq
      intro i lt
      simp only [field, BitVec.getLsbD_extractLsb', BitVec.getLsbD_append]
      interval_cases i <;> simp
  obtain ⟨code, idField, kindField⟩ := fields
  rw [decode_query w code, idField, kindField]

theorem errNote_header (x : BitVec 8) (bits : BitVec 4) (y : BitVec 3) (unc : Bool) (z : BitVec 2) (slot : Fin 64)
    (a : BitVec 3) (atSlot : Bool) :
    decodeMessage (x ++ bits ++ y ++ BitVec.ofBool unc ++ z ++ BitVec.ofNat 6 slot.val ++ a ++ BitVec.ofBool atSlot ++ 2#4) w =
      .errNote atSlot slot unc bits w := by
  generalize number : BitVec.ofNat 6 slot.val = n
  have fields (u l : BitVec 1) : let h : Word := x ++ bits ++ y ++ u ++ z ++ n ++ a ++ l ++ 2#4
      field h 0 4 = 2 ∧ field h 8 6 = n ∧ field h 20 4 = bits ∧ bit h 4 = l.getLsbD 0 ∧ bit h 16 = u.getLsbD 0 := by
    refine ⟨?_, ?_, ?_, ?_, ?_⟩
    case refine_4 => simp only [bit, BitVec.getLsbD_append]; simp
    case refine_5 => simp only [bit, BitVec.getLsbD_append]; simp
    all_goals
      apply BitVec.eq_of_getLsbD_eq
      intro i lt
      simp only [field, BitVec.getLsbD_extractLsb', BitVec.getLsbD_append]
      interval_cases i <;> simp
  obtain ⟨code, slotField, bitsField, locField, uncField⟩ := fields (BitVec.ofBool unc) (BitVec.ofBool atSlot)
  rw [decode_errNote w code, slotField, bitsField, locField, uncField, ← number]
  have slotSame : (BitVec.ofNat 6 slot.val).toFin = slot := toFin_ofNat (n := 6) slot
  rw [slotSame]
  cases atSlot <;> cases unc <;> rfl

theorem opDone_header (x : BitVec 12) (bits result : BitVec 4) (y : BitVec 1) (attempt : Fin 2) (tag : Fin 4) (z : BitVec 4) :
    decodeMessage (x ++ bits ++ result ++ y ++ BitVec.ofNat 1 attempt.val ++ BitVec.ofNat 2 tag.val ++ z ++ 3#4) w =
      .opDone tag attempt result bits := by
  have fields (m : BitVec 1) (n : BitVec 2) : let h : Word := x ++ bits ++ result ++ y ++ m ++ n ++ z ++ 3#4
      field h 0 4 = 3 ∧ field h 8 2 = n ∧ field h 10 1 = m ∧ field h 12 4 = result ∧ field h 16 4 = bits := by
    refine ⟨?_, ?_, ?_, ?_, ?_⟩ <;>
    · apply BitVec.eq_of_getLsbD_eq
      intro i lt
      simp only [field, BitVec.getLsbD_extractLsb', BitVec.getLsbD_append]
      interval_cases i <;> simp
  obtain ⟨code, tagField, attemptField, resultField, bitsField⟩ := fields (BitVec.ofNat 1 attempt.val) (BitVec.ofNat 2 tag.val)
  have tagSame : (BitVec.ofNat 2 tag.val).toFin = tag := toFin_ofNat (n := 2) tag
  have attemptSame : (BitVec.ofNat 1 attempt.val).toFin = attempt := toFin_ofNat (n := 1) attempt
  rw [decode_opDone w code, tagField, attemptField, resultField, bitsField, tagSame, attemptSame]

end Headers

/-! ### The header an encoded message has -/

theorem queryHeader_layout (id : BitVec 8) (kind : BitVec 2) :
    number 4 0 1 ||| place id 8 ||| place kind 16 = 0#14 ++ kind ++ id ++ 0#4 ++ 1#4 := by
  apply word_ext
  intro i lt
  simp only [number, BitVec.getLsbD_or, getLsbD_place, BitVec.getLsbD_append]
  interval_cases i <;> simp

theorem errNoteHeader_layout (l u : BitVec 1) (n : BitVec 6) (bits : BitVec 4) :
    number 4 0 2 ||| place l 4 ||| place n 8 ||| place u 16 ||| place bits 20 =
      0#8 ++ bits ++ 0#3 ++ u ++ 0#2 ++ n ++ 0#3 ++ l ++ 2#4 := by
  apply word_ext
  intro i lt
  simp only [number, BitVec.getLsbD_or, getLsbD_place, BitVec.getLsbD_append]
  interval_cases i <;> simp

theorem opDoneHeader_layout (t : BitVec 2) (m : BitVec 1) (result bits : BitVec 4) :
    number 4 0 3 ||| place t 8 ||| place m 10 ||| place result 12 ||| place bits 16 =
      0#12 ++ bits ++ result ++ 0#1 ++ m ++ t ++ 0#4 ++ 3#4 := by
  apply word_ext
  intro i lt
  simp only [number, BitVec.getLsbD_or, getLsbD_place, BitVec.getLsbD_append]
  interval_cases i <;> simp

/-- Decoding takes an encoded message back. -/
theorem decode_encode {c : Instr} {h : Word} {ws : List Word} (w : Word) (formed : c.wellFormed = true)
    (encoded : encodeMessage c = some (h, ws)) : decodeMessage h (ws.headD w) = c := by
  cases c with
  | query id kind row =>
    cases encoded
    rw [queryHeader_layout]
    exact query_header row _ kind id _
  | errNote atSlot slot unc bits row =>
    cases encoded
    exact (congrArg (decodeMessage · row) (errNoteHeader_layout _ _ _ _)).trans (errNote_header row _ bits _ unc _ slot _ atSlot)
  | opDone tag attempt result bits =>
    cases encoded
    exact (congrArg (decodeMessage · w) (opDoneHeader_layout _ _ _ _)).trans (opDone_header w _ bits result _ attempt tag _)
  | unknownMessage header =>
    cases encoded
    have other : field h 0 4 ∉ [(1 : BitVec 4), 2, 3] := fun member => by
      have refused : (!decide (h.extractLsb' 0 4 ∈ [(1 : BitVec 4), 2, 3])) = true := formed
      rw [decide_eq_true (show h.extractLsb' 0 4 ∈ [(1 : BitVec 4), 2, 3] from member)] at refused
      cases refused
    simp only [List.mem_cons, List.not_mem_nil, or_false, not_or] at other
    obtain ⟨one, two, three⟩ := other
    exact decode_unknown _ one two three
  | _ => cases encoded

/-- Settles O56: the fields of each header read bit by bit; an encoded header is the layout with its free bits zero. -/
theorem linkMessagesDecodeAsEncoded : Obligations.LinkMessagesDecodeAsEncoded := by
  refine ⟨query_header, errNote_header, opDone_header, fun h w one two three => decode_unknown w one two three, ofWord_layout,
    fun k => ⟨rfl, rfl⟩, fun c h ws w formed encoded => decode_encode w formed encoded, fun id => ?_, fun t n r a b => ?_⟩
  · exact ⟨answer_layout id .pass, fun k => answer_layout id (.spare k), answer_layout id .wait, answer_layout id .poison⟩
  · obtain ⟨verify, copy⟩ := opReq_layout t n r a b
    intro at? slot row
    have here : row = rowLayout false r := rfl
    have mark (l : Location) : at? l = BitVec.ofBool l.toBool := by
      cases l <;> rfl
    have place (l : Location) : slot l = slotLayout l := by
      cases l <;> rfl
    rw [here, mark, mark, place, place]
    exact ⟨verify, copy⟩

end Sys2Proof.Machine
